-- ==== Sys2Proof/Word.lean ====
section
/-!
DEFINITION. The part's plain words: bytes, disc tags and sample pairs.
-/
namespace Sys2Proof

/-- One byte of a link message, of the register window or of retention memory. -/
abbrev Byte := BitVec 8

/-- A disc tag (00_scope.md 1.4: a 32-bit identity the part only compares). -/
abbrev Tag := BitVec 32

/-- A sample-pair value: a left and a right 16-bit two's-complement sample (R2). -/
structure Sample where
  left  : BitVec 16
  right : BitVec 16
  deriving DecidableEq, Repr

/-- The value 0 in both channels. -/
def Sample.zero : Sample := ⟨0, 0⟩

end Sys2Proof
end

