-- ==== Sys2Proof/Syntax.lean ====
section
/-!
DEFINITION. The commands the block takes: one constructor per row of spec/opcode_table.json, with the operands
the rules give the event (the table itself lists none).
-/
namespace Sys2Proof

/-- The three samples 7, 8 and 9 that decide one bit of a received character (R95); true is high. -/
structure BitSamples where
  s7 : Bool
  s8 : Bool
  s9 : Bool
  deriving DecidableEq, Repr

/-- A character as the receiver samples it: its bits in line order from the start bit (R92, R95), and the count of
link-clock periods between the falling edge of the start bit and the falling edge that begins data bit 7, if that
bit began with one (R107). -/
structure RxChar where
  bits : List BitSamples
  span : Option Nat
  deriving DecidableEq, Repr

/-- The cause the core supply monitor records for a system reset (R169, R188). -/
inductive SystemCause where
  | resetn
  | brownOut
  deriving DecidableEq, Repr

/-- What retention memory holds when power returns, where it is not what was last written (R174): the stored forms of
entries 1 to 6, 72 bytes (R196), and the stored check. -/
structure RetentionImage where
  bytes : List Byte
  check : BitVec 16
  deriving DecidableEq, Repr

/-- The two inputs with a noise canceller (R162). -/
inductive SensePin where
  | tray
  | shock
  deriving DecidableEq, Repr

/-- The four blocks that take a Drive Restart, independently and in any order (R98). -/
inductive RestartOwner where
  | assembler
  | planner
  | monitor
  | playController
  deriving DecidableEq, Repr

/-- The commands. `noise` is the number of bits of the message's characters whose three samples disagree (R95). -/
inductive Instr where
  /-- Core supply rises; the ADDR level sampled (R176), and what retention memory holds if VBACK did not bridge. -/
  | powerOnReset (addr : Bool) (retention : Option RetentionImage)
  /-- RESETN low, or a brown-out, which may have cut a table write short (R174); a brown-out that ends with RESETN low has the
  cause RESETN (R188). -/
  | systemReset (cause : SystemCause) (addr : Bool) (retention : Option RetentionImage)
  /-- One block tick, taken by every owner of a block-tick timer or counter (R1). -/
  | blockTick
  /-- The Monitor's quiet tick that brings the quiet counter to Quiet Count (R85). -/
  | recovery
  /-- The planner's tick that brings the seek timer to Seek Timeout (R57). -/
  | seekTimeout
  /-- The Play Controller's tick that brings the load timer to Load Timeout (R145, R151). -/
  | loadTimeout
  /-- The clock monitor's tick that finds no demand (R130). -/
  | clockLoss
  /-- A word-clock period begins; the AOCK periods in its left and right halves (R114, R122). -/
  | frameDemand (leftClocks rightClocks : Nat)
  /-- A BLOCK message with a good check; `erasures` none stands for the erasure count 0xFFFF (R20, R193). -/
  | block (noise : Nat) (stream : BitVec 4) (bn : BitVec 24) (tag : Tag) (samples : Vector Sample 588)
      (erasures : Option (List (BitVec 16)))
  /-- The Assembler takes its oldest intake entry for placement (R23). -/
  | placement
  | landed (noise : Nat) (stream : BitVec 4) (bn : BitVec 24)
  | refused (noise : Nat) (stream : BitVec 4) (reason : Byte)
  /-- A JUMP is handed to the planner and the Monitor in either order (R106): `monitorFirst` says which. -/
  | jump (noise : Nat) (stream : BitVec 4) (lastGood landing : BitVec 24) (monitorFirst : Bool)
  | settled (noise : Nat) (stream : BitVec 4)
  | disc (noise : Nat) (stream : BitVec 4) (tag : Tag) (extent : BitVec 24) (position : Byte)
  | gone (noise : Nat) (stream : BitVec 4) (position : Byte)
  /-- A sound 0x55 header with the measured count of link-clock periods (R107). -/
  | rateMark (noise : Nat) (span : Nat)
  /-- The characters of a message that is lost, as sampled (R105). -/
  | lostMessage (chars : List RxChar)
  /-- 24 bit times of low on PLD; the order in which the four blocks take it (R98). -/
  | driveRestart (order : List RestartOwner)
  /-- After a break, PLD has been high for 3 samples (R111). -/
  | transmitterRelease
  /-- The last stop bit of the message on the line has been sent (R111). -/
  | transmissionComplete
  | trayIn
  | trayOut
  | shockChange (level : Bool)
  | levelLatch (pin : SensePin) (level : Bool)
  /-- A VSENSE sample, in microvolts, that completes a warning (R167). -/
  | supplyWarning (vsense : Nat)
  | supplyRecovery
  | select
  | play
  | pause
  | continuePlay
  | stop
  | set
  | get
  | readResume
  | clearResume
  | readSlot
  | readRepair
  | readCounters
  | clearCounters
  | softReset
  | unknownCommand (code : Byte)
  /-- A write that met BUSY: register 0 to 5 is PARAM0 to PARAM5, 6 is CMD (R180). -/
  | mailboxCollision (register : Fin 7) (value : Byte)
  | paramWrite (index : Fin 6) (value : Byte)
  /-- A write transaction begins: its address and its pointer byte (R176, R177). -/
  | registerPointer (address : BitVec 7) (pointer : Byte)
  | ack (value : Byte)
  | threshold (value : Byte)
  | eventIndex (value : Byte)
  | eventEnable (value : Byte)
  | eventLevel (value : Byte)
  | readOnlyWrite (register : BitVec 6) (value : Byte)
  /-- The target sends `count` bytes from the pointer as it stands (R178). -/
  | snapshotLatch (count : Nat)
  /-- The header character of a BLOCK message, with its stream number (R22). -/
  | overrunAtHeader (noise : Nat) (stream : BitVec 4)
  /-- PLC has been high for one bit time after a message (R111). -/
  | transmitterIdle
  /-- 3 consecutive high samples of PLD in WAIT_HIGH (R95). -/
  | lineIdle
  | discardingCharacter (char : RxChar)
  /-- A VSENSE sample in microvolts (R166). -/
  | supplySample (vsense : Nat)
  | cancellerSample (pin : SensePin) (level : Bool)
  | transactionEnd
  deriving DecidableEq, Repr

end Sys2Proof
end

