-- ==== Sys2Proof/Config.lean ====
section
/-!
DEFINITION. What the part fixes: the sizes the manual states as numbers, and the one free value of the model.
-/
namespace Sys2Proof.Config

/-- Frames in a block (R2). -/
abbrev framesPerBlock : Nat := 588

/-- Slots of the store, and the length of the store window (R4). -/
abbrev slotCount : Nat := 384

/-- The largest extent (00_scope.md 1.4, R104). -/
abbrev maxExtent : Nat := 450000

/-- The largest value of a 32-bit saturating counter (R43, R72, R91, R112, R129, R160). -/
abbrev counterMax : Nat := 4294967295

/-- The largest number of Repair List entries (R46). -/
abbrev repairMax : Nat := 16

/-- Samples in a Drive Restart's low level: 24 bit times of 16 samples (R97). -/
abbrev breakSamples : Nat := 384

/-- IDENT: part code 0xA, revision 2 (R194). -/
abbrev ident : Nat := 0xA2

/-- Warning threshold at VSENSE in microvolts, by the Supply Threshold parameter (R166). -/
def warnLevel (threshold : Nat) : Nat := 1100000 - 100000 * threshold

/-- Recovery level: the warning threshold plus 50 mV (R166). -/
def recoveryLevel (threshold : Nat) : Nat := warnLevel threshold + 50000

/-- How many characters of a message after its header had begun at a change of the character format made while the message was
being sent, by the number of the change (R92). It is a matter of timing, which no command carries, and nothing is said about it
(DESIGN CHOICE, log entry 40). -/
opaque begunAfterHeader : Nat → Nat

end Sys2Proof.Config
end

