-- ==== Sys2Proof/Machine/State.lean ====
section
/-!
DEFINITION. The state of the part, block by block (00_scope.md 1.2), as plain data, and the state right after a power-on
reset.
-/
namespace Sys2Proof.Machine

/-! ### Slot Store (Chapter 1) -/

/-- The mark of a held frame (R2). -/
inductive Mark where
  | good
  | erased
  | absent
  deriving DecidableEq, Repr

/-- A frame: its mark and its value (R2). -/
structure Frame where
  mark  : Mark
  value : Sample
  deriving DecidableEq, Repr

/-- An ABSENT frame has the value 0 in both channels (R2). -/
def Frame.none : Frame := ⟨.absent, Sample.zero⟩

/-- What a slot holds (R2, R3): its present frames by index, in canonical form (rising, none ABSENT), its pass count and
its declared flag. The good, erased and absent counts and the state are derived. -/
structure Slot where
  frames   : List (Nat × Frame)
  pass     : Nat
  declared : Bool
  deriving DecidableEq, Repr

/-- A freed slot: all frames ABSENT, pass count 0, not declared (R3, R13). -/
def Slot.empty : Slot := ⟨[], 0, false⟩

/-- The store: its Play Block P, its extent E, and its slots by slot index in canonical form (rising, none empty). -/
structure Store where
  playBlock : Nat
  extent    : Nat
  slots     : List (Nat × Slot)
  deriving DecidableEq, Repr

/-- Slot states (R6), in the order of their codes (R196). -/
inductive SlotState where
  | free
  | partly
  | opened
  | sound
  | final
  | lost
  deriving DecidableEq, Repr

/-! ### Block Assembler (Chapter 2) -/

/-- The erasure class of a delivery (R20). -/
inductive ErasureClass where
  | clean
  | some
  | all
  deriving DecidableEq, Repr

/-- An intake entry (R20); its 588 frames are each GOOD or ERASED. -/
structure IntakeEntry where
  stream : Nat
  bn     : Nat
  tag    : Tag
  frames : List Frame
  cls    : ErasureClass
  deriving DecidableEq, Repr

/-- The phase of the alignment state (R24). -/
inductive Phase where
  | none
  | searching
  | anchored
  deriving DecidableEq, Repr

/-- The alignment state (R24). -/
structure Align where
  stream   : Nat
  phase    : Phase
  start    : Nat
  target   : Nat
  expected : Nat
  offset   : Int
  deriving DecidableEq, Repr

/-- The placement counters, in the order of R43. -/
structure PlacementCounters where
  placed        : Nat
  compared      : Nat
  stale         : Nat
  stray         : Nat
  withheld      : Nat
  overrun       : Nat
  discontinuity : Nat
  seam          : Nat
  blindSeam     : Nat
  disagreement  : Nat
  deriving DecidableEq, Repr

/-- The Block Assembler. The flow state is HELD exactly while a hold cause is set (R41, R195). -/
structure Assembler where
  intake     : List IntakeEntry
  align      : Align
  holdIntake : Bool
  holdWindow : Bool
  counters   : PlacementCounters
  deriving DecidableEq, Repr

/-! ### Repair Planner (Chapter 3) -/

/-- A Repair List entry (R46); `active` is its state ACTIVE. -/
structure RepairEntry where
  first    : Nat
  last     : Nat
  attempts : Nat
  mislocks : Nat
  active   : Bool
  deriving DecidableEq, Repr

/-- The frontier record (R50). -/
structure Frontier where
  fillHead : Nat
  mislocks : Nat
  refusals : Nat
  deriving DecidableEq, Repr

/-- States of the current stream (R51), in the order of their codes (R196). -/
inductive StreamState where
  | none
  | seeking
  | searching
  | anchored
  deriving DecidableEq, Repr

/-- The purpose of a stream (R51). -/
inductive Purpose where
  | frontier
  | repair
  deriving DecidableEq, Repr

/-- The current stream record (R51). -/
structure Stream where
  number     : Nat
  state      : StreamState
  purpose    : Purpose
  target     : Nat
  start      : Nat
  expected   : Nat
  offset     : Int
  servedLast : Nat
  timer      : Nat
  timerRuns  : Bool
  deriving DecidableEq, Repr

/-- The planner counters, in the order of R72. -/
structure PlannerCounters where
  frontierStream  : Nat
  repairStream    : Nat
  landed          : Nat
  refusedBusy     : Nat
  refusedRange    : Nat
  seekTimeout     : Nat
  jump            : Nat
  mislock         : Nat
  preemption      : Nat
  exhaustion      : Nat
  extentCut       : Nat
  lateDeclaration : Nat
  overflow        : Nat
  staleAnswer     : Nat
  deriving DecidableEq, Repr

/-- The Repair Planner; `active` is R52's. -/
structure Planner where
  list     : List RepairEntry
  frontier : Frontier
  stream   : Stream
  active   : Bool
  counters : PlannerCounters
  deriving DecidableEq, Repr

/-! ### Drive Health Monitor (Chapter 4) -/

/-- Health states (R75). -/
inductive HealthState where
  | steady
  | guarded
  | withdrawn
  deriving DecidableEq, Repr

/-- Pace levels (R80). -/
inductive Pace where
  | normal
  | low
  deriving DecidableEq, Repr

/-- The health counters, in the order of R91. -/
structure HealthCounters where
  guardedEntry : Nat
  withdrawal   : Nat
  recovery     : Nat
  quietBreak   : Nat
  settled      : Nat
  roughEntry   : Nat
  deriving DecidableEq, Repr

/-- The Drive Health Monitor (R75); rough is derived from the erasure score (R86). -/
structure Health where
  state       : HealthState
  skip        : Nat
  erasure     : Nat
  pace        : Pace
  quiet       : Nat
  settledSeen : Bool
  disturbed   : Bool
  counters    : HealthCounters
  deriving DecidableEq, Repr

/-! ### Pickup Link (Chapter 5) -/

/-- Sampling states of the receiver (R95). -/
inductive RxSampling where
  | waitHigh
  | hunting
  | start
  deriving DecidableEq, Repr

/-- Message assembly (R100); `inMessage` holds the bytes received so far, the latest first, the header last. -/
inductive RxAssembly where
  | idle
  | inMessage (held : List Byte)
  | discarding
  deriving DecidableEq, Repr

/-- The messages the part sends (R108). -/
inductive TxMsg where
  | seek (stream bn : Nat)
  | cease (stream : Nat)
  | hold
  | go
  | pace (level : Pace)
  | load (position : Nat)
  deriving DecidableEq, Repr

/-- The transmitter (R111). `gap` is the one bit time PLC stays high after a message, before IDLE. -/
inductive Transmitter where
  | idle
  | sending (message : TxMsg)
  | gap
  | held
  deriving DecidableEq, Repr

/-- A character format: the values of Link Parity and Link Stop Bits (R92). -/
structure LinkFormat where
  parity : Nat
  stops  : Nat
  deriving DecidableEq, Repr

/-- A change of the format made while a message was being sent: the format in force before it, and the number of the change, to
which the free value of entry 40 belongs. -/
structure FormatChange where
  before : LinkFormat
  number : Nat
  deriving DecidableEq, Repr

/-- The link counters, in the order of R112. -/
structure LinkCounters where
  noise       : Nat
  framing     : Nat
  parity      : Nat
  marker      : Nat
  truncated   : Nat
  unknownKind : Nat
  check       : Nat
  malformed   : Nat
  received    : Nat
  sent        : Nat
  rateLock    : Nat
  rateFail    : Nat
  breaks      : Nat
  deriving DecidableEq, Repr

/-- The Pickup Link Interface. `changes` holds the changes of the format made while the message on the line was being sent, oldest
first (R92), and `changed` how many there have been in all messages, resets included: it numbers the free values (log entry 40).
`plc` holds the bits PLC carried for the message last sent whole (R111). PLC is high outside a message. -/
structure Link where
  sampling   : RxSampling
  assembly   : RxAssembly
  breakCount : Nat
  lost       : Bool
  queue      : List TxMsg
  tx         : Transmitter
  changes    : List FormatChange
  changed    : Nat
  plc        : List Bool
  counters   : LinkCounters
  deriving DecidableEq, Repr

/-! ### Output Feeder (Chapter 6) -/

/-- Feeder states, in the order of their codes (R195). -/
inductive FeederState where
  | silent
  | starting
  | running
  | stopping
  | starved
  deriving DecidableEq, Repr

/-- A fade in progress (R121): its level V, its length in frames, and the frames remaining. -/
structure Fade where
  level     : Sample
  length    : Nat
  remaining : Nat
  deriving DecidableEq, Repr

/-- The concealment run (R125 to R127). `given` counts the frames of the run already given. `ramp` is the Ramp Length L a
MUTE run holds; an INTERPOLATE run measured during a RISE keeps that RISE's L to return to. -/
inductive Run where
  | none
  | interpolate (a b : Sample) (length given : Nat) (backToRise : Option Nat)
  | fade (h : Sample) (length given ramp : Nat)
  | zero (ramp : Nat)
  | rise (ramp : Nat)
  deriving DecidableEq, Repr

/-- The output counters, in the order of R129. -/
structure OutputCounters where
  good             : Nat
  interpolated     : Nat
  muted            : Nat
  interpolationRun : Nat
  muteRun          : Nat
  starvation       : Nat
  clockLoss        : Nat
  deriving DecidableEq, Repr

/-- The Output Feeder (R115), with its output pins: the frame given in the current period, the bits shifted out on AOD in
the two halves of it (R114), and CONCEAL. -/
structure Feeder where
  block     : Nat
  frame     : Nat
  state     : FeederState
  gain      : Nat
  fade      : Option Fade
  run       : Run
  concealC  : Nat
  last      : Sample
  atEnd     : Bool
  clockLost : Bool
  seen      : Bool
  primed    : Bool
  given     : Sample
  aodLeft   : List Bool
  aodRight  : List Bool
  conceal   : Bool
  counters  : OutputCounters
  deriving DecidableEq, Repr

/-! ### Play Controller (Chapter 7) -/

/-- Play states, in the order of their codes (R195). -/
inductive PlayState where
  | empty
  | loading
  | ready
  | cueing
  | playing
  | paused
  | coasting
  | suspended
  deriving DecidableEq, Repr

/-- The return-to state (R133). -/
inductive ReturnTo where
  | playing
  | paused
  | cueing
  deriving DecidableEq, Repr

/-- The select mode (R133), in the order of its codes (R194). -/
inductive SelectMode where
  | fromStart
  | fromResume
  | loadOnly
  deriving DecidableEq, Repr

/-- The suspend-cause set (R133). -/
structure Causes where
  tray   : Bool
  supply : Bool
  drive  : Bool
  deriving DecidableEq, Repr

/-- The disc record (R135). -/
structure DiscRecord where
  position  : Nat
  tag       : Tag
  extent    : Nat
  confirmed : Bool
  deriving DecidableEq, Repr

/-- The play counters, in the order of R160. -/
structure PlayCounters where
  load             : Nat
  loadTimeout      : Nat
  confirmation     : Nat
  sameDisc         : Nat
  newDisc          : Nat
  strayAnswer      : Nat
  unsolicited      : Nat
  coast            : Nat
  seamlessReturn   : Nat
  suspension       : Nat
  supplySuspension : Nat
  endOfDisc        : Nat
  deriving DecidableEq, Repr

/-- The Play Controller (R133). The load timer runs exactly while LOADING or confirming (R143). -/
structure Play where
  state        : PlayState
  causes       : Causes
  returnTo     : ReturnTo
  confirming   : Bool
  disc         : DiscRecord
  wanted       : Nat
  mode         : SelectMode
  pauseOnPrime : Bool
  unprimed     : Bool
  supplyWarned : Bool
  storePrimed  : Bool
  loadTimer    : Nat
  counters     : PlayCounters
  deriving DecidableEq, Repr

/-! ### Sense Inputs, Supply Watch, Resume Table (Chapter 8) -/

/-- A level of a noise canceller (R162), in the order of its codes (R195). -/
inductive Level where
  | unknown
  | low
  | high
  deriving DecidableEq, Repr

/-- A noise canceller (R162); `before` is the sample before, which R163 compares with. -/
structure Canceller where
  accepted : Level
  count    : Nat
  captured : Level
  before   : Option Bool
  deriving DecidableEq, Repr

/-- The Sense Inputs. -/
structure Sense where
  tray  : Canceller
  shock : Canceller
  deriving DecidableEq, Repr

/-- The kinds of hard reset, as the core supply monitor records them (R169, R188). -/
inductive ResetCause where
  | powerOn
  | resetn
  | brownOut
  deriving DecidableEq, Repr

/-- The Supply Watch (R166), and the reset cause of the core supply monitor (R169). -/
structure Supply where
  warning    : Bool
  below      : Nat
  settle     : Nat
  dipped     : Bool
  resetCause : ResetCause
  deriving DecidableEq, Repr

/-- Mode at save (R170), in the order of its codes (R196). -/
inductive SaveMode where
  | ready
  | playing
  | paused
  deriving DecidableEq, Repr

/-- Cause of a seal (R170), in the order of its codes (R196). -/
inductive SealCause where
  | none
  | tray
  | supply
  | drive
  | stop
  | change
  deriving DecidableEq, Repr

/-- A Resume Table entry (R170). -/
structure ResumeEntry where
  valid : Bool
  tag   : Tag
  bn    : Nat
  frame : Nat
  mode  : SaveMode
  cause : SealCause
  deriving DecidableEq, Repr

/-- The not-valid values of R170. -/
def ResumeEntry.invalid : ResumeEntry := ⟨false, 0, 0, 0, .ready, .none⟩

/-- The Resume Table: entries of positions 1 to 6 (index 0 to 5), and the table check (R170, R174). -/
structure Resume where
  entries : Vector ResumeEntry 6
  check   : BitVec 16
  deriving DecidableEq, Repr

/-! ### Console Port (Chapter 9) -/

/-- The Parameter Table (R183), each value in the coding of its row. -/
structure Params where
  primeDepth      : Nat
  deadlineMargin  : Nat
  repairLead      : Nat
  retryLimit      : Nat
  overlapDepth    : Nat
  matchRun        : Nat
  slipRange       : Nat
  interpolateLimit : Nat
  rampLength      : Nat
  latePolicy      : Nat
  autoResume      : Nat
  resumeBackoff   : Nat
  seekTimeout     : Nat
  loadTimeout     : Nat
  quietCount      : Nat
  supplySettle    : Nat
  supplyThreshold : Nat
  linkParity      : Nat
  linkStopBits    : Nat
  linkDivisor     : Nat
  receiverEnable  : Nat
  trayInterval    : Nat
  shockInterval   : Nat
  shockEdge       : Nat
  deriving DecidableEq, Repr

/-- The defaults of R183. -/
def Params.default : Params :=
  { primeDepth := 32, deadlineMargin := 8, repairLead := 96, retryLimit := 4, overlapDepth := 2, matchRun := 96,
    slipRange := 64, interpolateLimit := 8, rampLength := 64, latePolicy := 0, autoResume := 1, resumeBackoff := 0,
    seekTimeout := 150, loadTimeout := 600, quietCount := 64, supplySettle := 38, supplyThreshold := 1,
    linkParity := 0, linkStopBits := 1, linkDivisor := 2, receiverEnable := 1, trayInterval := 2, shockInterval := 0,
    shockEdge := 0 }

/-- RESULT of the mailbox (R179), in the order of its codes (R194). -/
inductive Result where
  | none
  | done
  | refusedState
  | refusedRange
  | refusedNoDisc
  | refusedSupply
  | unknown
  deriving DecidableEq, Repr

/-- The mailbox (R179), and the Collision count (R180). -/
structure Mailbox where
  cmd            : Byte
  param          : Vector Byte 6
  busy           : Bool
  collision      : Bool
  result         : Result
  collisionCount : Nat
  deriving DecidableEq, Repr

/-- The target's transaction state (R176, R177): `refused` is a write transaction whose pointer byte was not
acknowledged. -/
inductive Bus where
  | idle
  | writing
  | refused
  | reading
  deriving DecidableEq, Repr

/-- The snapshot latch (R178): the first address of the field it holds, and the field's bytes. -/
structure Snapshot where
  base  : Nat
  bytes : List Byte
  deriving DecidableEq, Repr

/-- The Console Port; `sent` is what the target has sent on SDA in the current read transaction, oldest first. -/
structure Console where
  params   : Params
  mailbox  : Mailbox
  response : List Byte
  address  : BitVec 7
  bus      : Bus
  pointer  : Nat
  latch    : Option Snapshot
  sent     : List Byte
  deriving DecidableEq, Repr

/-! ### Attention Controller (Chapter 9) -/

/-- The record of one event (R189). -/
structure EventRecord where
  pending : Bool
  enable  : Bool
  level   : Nat
  count   : Nat
  detail  : Byte
  deriving DecidableEq, Repr

/-- An event's record after a reset (R192). -/
def EventRecord.reset : EventRecord := ⟨false, false, 1, 0, 0⟩

/-- The Attention Controller (R189): the record of the event with code c is at index c - 1. The summary and ATTN are
derived (R190). -/
structure Attn where
  events    : Vector EventRecord 16
  threshold : Nat
  index     : Nat
  deriving DecidableEq, Repr

/-! ### The whole part -/

/-- The state of the part: its twelve blocks, and the queue of waiting commands. `notices` holds the primed indications of
the readiness notices the store has handed inside a step and that are not taken yet, oldest first (R16): a step begins with
none of its own, and takes all of them before it ends (log entry 13). -/
structure State where
  store   : Store
  asm     : Assembler
  planner : Planner
  health  : Health
  link    : Link
  feeder  : Feeder
  play    : Play
  sense   : Sense
  supply  : Supply
  resume  : Resume
  console : Console
  attn    : Attn
  notices : List Bool
  pending : List Instr
  deriving DecidableEq, Repr

namespace State

/-! One setter per block: every change of the state goes through these. -/

def setStore (s : State) (x : Store) : State := { s with store := x }
def setAsm (s : State) (x : Assembler) : State := { s with asm := x }
def setPlanner (s : State) (x : Planner) : State := { s with planner := x }
def setHealth (s : State) (x : Health) : State := { s with health := x }
def setLink (s : State) (x : Link) : State := { s with link := x }
def setFeeder (s : State) (x : Feeder) : State := { s with feeder := x }
def setPlay (s : State) (x : Play) : State := { s with play := x }
def setSense (s : State) (x : Sense) : State := { s with sense := x }
def setSupply (s : State) (x : Supply) : State := { s with supply := x }
def setResume (s : State) (x : Resume) : State := { s with resume := x }
def setConsole (s : State) (x : Console) : State := { s with console := x }
def setAttn (s : State) (x : Attn) : State := { s with attn := x }
def setNotices (s : State) (x : List Bool) : State := { s with notices := x }
def setPending (s : State) (x : List Instr) : State := { s with pending := x }

end State

/-- No rule of the spec stops the part: no step of this model faults. -/
inductive Fault
  deriving DecidableEq, Repr

/-- Why a command has no meaning. -/
inductive Refusal where
  /-- Raised by an arm of exec whose command is not modelled yet; safe: nothing is claimed of it. No arm raises it now. -/
  | notModelled (mnemonic : String)
  deriving DecidableEq, Repr

/-- What a step answers. -/
abbrev Outcome := Host.Outcome State Fault Refusal

/-! ### Reset values, block by block -/

/-- R19. -/
def Store.reset : Store := ⟨0, 0, []⟩

/-- R24, R45. -/
def Align.reset : Align := ⟨0, .none, 0, 0, 0, 0⟩

def PlacementCounters.zero : PlacementCounters := ⟨0, 0, 0, 0, 0, 0, 0, 0, 0, 0⟩

/-- R45. -/
def Assembler.reset : Assembler := ⟨[], Align.reset, false, false, PlacementCounters.zero⟩

def PlannerCounters.zero : PlannerCounters := ⟨0, 0, 0, 0, 0, 0, 0, 0, 0, 0, 0, 0, 0, 0⟩

/-- R51. -/
def Stream.reset : Stream := ⟨0, .none, .frontier, 0, 0, 0, 0, 0, 0, false⟩

/-- R74. -/
def Planner.reset : Planner := ⟨[], ⟨0, 0, 0⟩, Stream.reset, false, PlannerCounters.zero⟩

def HealthCounters.zero : HealthCounters := ⟨0, 0, 0, 0, 0, 0⟩

/-- R89. -/
def Health.reset : Health := ⟨.steady, 0, 0, .normal, 0, false, false, HealthCounters.zero⟩

def LinkCounters.zero : LinkCounters := ⟨0, 0, 0, 0, 0, 0, 0, 0, 0, 0, 0, 0, 0⟩

/-- R113, before the Monitor queues PACE NORMAL (R89). -/
def Link.reset : Link := ⟨.waitHigh, .idle, 0, false, [], .idle, [], 0, [], LinkCounters.zero⟩

/-- R113 after R89: the PACE NORMAL queued after every reset finds the transmitter IDLE and begins at once (R111). -/
def Link.afterReset : Link := { Link.reset with tx := .sending (.pace .normal) }

/-- The link after a reset of the part; the number of the next free value goes on. -/
def Link.restarted (l : Link) : Link := { Link.afterReset with changed := l.changed }

def OutputCounters.zero : OutputCounters := ⟨0, 0, 0, 0, 0, 0, 0⟩

/-- R132; AOD and CONCEAL are low (R114). R115 and R132 do not list the primed indication as the feeder last received it (R124); it
is no here, as the store is not primed after a reset (DESIGN CHOICE, log entry 41). -/
def Feeder.reset : Feeder :=
  { block := 0, frame := 0, state := .silent, gain := 0, fade := none, run := .none, concealC := 128,
    last := Sample.zero, atEnd := false, clockLost := false, seen := false, primed := false, given := Sample.zero,
    aodLeft := [], aodRight := [], conceal := false, counters := OutputCounters.zero }

/-- An empty disc record (R135). -/
def DiscRecord.empty : DiscRecord := ⟨0, 0, 0, false⟩

def PlayCounters.zero : PlayCounters := ⟨0, 0, 0, 0, 0, 0, 0, 0, 0, 0, 0, 0⟩

/-- R161. -/
def Play.reset : Play :=
  { state := .empty, causes := ⟨false, false, false⟩, returnTo := .playing, confirming := false,
    disc := DiscRecord.empty, wanted := 0, mode := .loadOnly, pauseOnPrime := false, unprimed := false,
    supplyWarned := false, storePrimed := false, loadTimer := 0, counters := PlayCounters.zero }

/-- R163. -/
def Canceller.reset : Canceller := ⟨.unknown, 0, .unknown, none⟩

def Sense.reset : Sense := ⟨Canceller.reset, Canceller.reset⟩

/-- R166; the cause recorded is the reset's own. -/
def Supply.reset (cause : ResetCause) : Supply := ⟨false, 0, 0, false, cause⟩

/-- Six entries that are not valid, with their check (R170, R174). -/
def Resume.blank : Resume := ⟨Vector.replicate 6 ResumeEntry.invalid, 0x040E#16⟩

/-- R179. -/
def Mailbox.reset : Mailbox := ⟨0, Vector.replicate 6 0, false, false, .none, 0⟩

/-- R182. -/
def responseReset : List Byte := List.replicate 16 0

/-- The target address: 0x3A with ADDR low, 0x3B with ADDR high (R176). -/
def busAddress (addr : Bool) : BitVec 7 := if addr then 0x3B else 0x3A

/-- The Console Port after a power-on or system reset (R176, R177, R179, R182, R183). -/
def Console.reset (addr : Bool) : Console :=
  { params := Params.default, mailbox := Mailbox.reset, response := responseReset, address := busAddress addr,
    bus := .idle, pointer := 0, latch := none, sent := [] }

/-- R192, before RESTARTED is raised. -/
def Attn.reset : Attn := ⟨Vector.replicate 16 EventRecord.reset, 1, 1⟩

/-- R188, R192: after the reset of the Attention Controller RESTARTED is raised with the reset kind (its code in R197). -/
def Attn.restarted (kind : Byte) : Attn :=
  { Attn.reset with events := Attn.reset.events.set 0 ⟨true, false, 1, 1, kind⟩ }

/-- The part right after a power-on reset, with ADDR low and a Resume Table of six entries that are not valid
(DESIGN CHOICE, log entry 19). -/
def State.reset : State :=
  { store := Store.reset, asm := Assembler.reset, planner := Planner.reset, health := Health.reset,
    link := Link.afterReset, feeder := Feeder.reset, play := Play.reset, sense := Sense.reset,
    supply := Supply.reset .powerOn, resume := Resume.blank, console := Console.reset false,
    attn := Attn.restarted 1, notices := [], pending := [] }

end Sys2Proof.Machine
end

