-- ==== Sys2Proof/Machine/Ops.lean ====
section
/-!
DEFINITION. The shared operations every block uses: canonical sparse lists, counters, byte order, the CRC of R103 and
R174, raising an event (R190), the Transmit Queue (R109 to R111), and the writes of the Resume Table (R171).
-/
namespace Sys2Proof.Machine

/-! ### Sparse lists in canonical form -/

/-- What a sparse list holds at a key; `d` where nothing is listed. -/
def Sparse.get {α : Type} (d : α) : List (Nat × α) → Nat → α
  | [], _ => d
  | (k, v) :: rest, i => if i = k then v else if i < k then d else Sparse.get d rest i

/-- Write a key, keeping the canonical form: writing the unlisted value removes the entry. -/
def Sparse.put {α : Type} [DecidableEq α] (d : α) : List (Nat × α) → Nat → α → List (Nat × α)
  | [], i, v => if v = d then [] else [(i, v)]
  | (k, w) :: rest, i, v =>
    if i < k then (if v = d then (k, w) :: rest else (i, v) :: (k, w) :: rest)
    else if i = k then (if v = d then rest else (i, v) :: rest)
    else (k, w) :: Sparse.put d rest i v

/-- Keys from `low` on strictly rising, no listed value equal to the unlisted one. -/
def Sparse.wfFrom {α : Type} [DecidableEq α] (d : α) : Nat → List (Nat × α) → Bool
  | _, [] => true
  | low, (k, v) :: rest => decide (low ≤ k) && decide (v ≠ d) && Sparse.wfFrom d (k + 1) rest

/-- The canonical form of a sparse list. -/
def Sparse.wf {α : Type} [DecidableEq α] (d : α) (l : List (Nat × α)) : Bool := Sparse.wfFrom d 0 l

/-! ### Counters and bytes -/

/-- A saturating addition (00_scope.md 1.5: a counter said to saturate stays at its largest value). -/
def satAdd (largest count amount : Nat) : Nat := min largest (count + amount)

/-- A 32-bit counter, incremented (R43 and the other counter rules). -/
def bump (count : Nat) : Nat := satAdd Config.counterMax count 1

/-- A 32-bit counter, increased by an amount. -/
def bumpBy (count amount : Nat) : Nat := satAdd Config.counterMax count amount

/-- `width` bytes of a number, most significant first (R193, R194, R196). -/
def bytesOf : Nat → Nat → List Byte
  | 0, _ => []
  | width + 1, n => BitVec.ofNat 8 (n / 256 ^ width) :: bytesOf width n

/-- The number some bytes spell, most significant first. -/
def natOf (bytes : List Byte) : Nat := bytes.foldl (fun n b => n * 256 + b.toNat) 0

/-- A bit of a byte. -/
def bit (b : Bool) : Nat := if b then 1 else 0

/-- One bit of the CRC register: x^16 + x^12 + x^5 + 1, most significant bit first (R103). -/
def crcShift : Nat → BitVec 16 → BitVec 16
  | 0, r => r
  | n + 1, r => crcShift n (if r.msb then (r <<< 1) ^^^ 0x1021#16 else r <<< 1)

/-- One byte into the CRC register. -/
def crcByte (r : BitVec 16) (b : Byte) : BitVec 16 := crcShift 8 (r ^^^ (b.zeroExtend 16 <<< 8))

/-- CRC-16 from 0xFFFF, without inversion (R103, R174). -/
def crc16 (bytes : List Byte) : BitVec 16 := bytes.foldl crcByte 0xFFFF#16

/-- A sample scaled by num/den, rounded toward zero (R119, R121, R127). -/
def scaleWord (x : BitVec 16) (num den : Nat) : BitVec 16 :=
  BitVec.ofInt 16 (Int.tdiv (x.toInt * (num : Int)) (den : Int))

/-- Both channels scaled. -/
def scaleSample (x : Sample) (num den : Nat) : Sample :=
  ⟨scaleWord x.left num den, scaleWord x.right num den⟩

/-! ### Events (R190) -/

/-- The sixteen events; their codes are the natural order (section 9.7). -/
inductive Event where
  | restarted
  | retentionLost
  | supply
  | tray
  | shock
  | driveRestart
  | health
  | starved
  | seamBlind
  | conceal
  | repairOverflow
  | linkFault
  | discReady
  | endOfDisc
  | opClock
  | commandDone
  deriving DecidableEq, Repr

/-- The index of an event's record: its code less 1. -/
def Event.index : Event → Fin 16
  | .restarted => 0
  | .retentionLost => 1
  | .supply => 2
  | .tray => 3
  | .shock => 4
  | .driveRestart => 5
  | .health => 6
  | .starved => 7
  | .seamBlind => 8
  | .conceal => 9
  | .repairOverflow => 10
  | .linkFault => 11
  | .discReady => 12
  | .endOfDisc => 13
  | .opClock => 14
  | .commandDone => 15

/-- The record of an event. -/
def Attn.record (a : Attn) (i : Fin 16) : EventRecord := a.events[i]

/-- Replace the record of an event. -/
def Attn.setRecord (a : Attn) (i : Fin 16) (r : EventRecord) : Attn := { a with events := a.events.set i r }

/-- Raise an event: pending set, count + 1 saturating at 255, detail replaced (R190). -/
def Attn.raise (a : Attn) (e : Event) (detail : Byte) : Attn :=
  let r := a.record e.index
  a.setRecord e.index { r with pending := true, count := satAdd 255 r.count 1, detail := detail }

/-- Raise an event in the Attention Controller. -/
def raise (e : Event) (detail : Nat) (s : State) : State :=
  s.setAttn (s.attn.raise e (BitVec.ofNat 8 detail))

/-! ### The Transmit Queue (R108 to R111) -/

/-- The five classes of R108. -/
inductive TxClass where
  | seek
  | cease
  | flow
  | pace
  | load
  deriving DecidableEq, Repr

/-- The class of a message (R108). -/
def TxMsg.cls : TxMsg → TxClass
  | .seek _ _ => .seek
  | .cease _ => .cease
  | .hold => .flow
  | .go => .flow
  | .pace _ => .pace
  | .load _ => .load

/-- A queued message of the class is replaced in its place; otherwise the message is added at the tail (R109). -/
def replaceOrAdd (m : TxMsg) : List TxMsg → List TxMsg
  | [] => [m]
  | x :: rest => if x.cls = m.cls then m :: rest else x :: replaceOrAdd m rest

/-- The queue without the messages of a class. -/
def dropClass (c : TxClass) (q : List TxMsg) : List TxMsg := q.filter (fun x => decide (x.cls ≠ c))

/-- A flow request: the opposite message and it cancel, the same one is left as it is (R42, R109). -/
def flowRequest (m opposite : TxMsg) (q : List TxMsg) : List TxMsg :=
  if q.contains opposite then dropClass .flow q else if q.contains m then q else q ++ [m]

/-- What one request does to the queue, head first (R109). -/
def requestQueue (m : TxMsg) (q : List TxMsg) : List TxMsg :=
  match m with
  | .cease n => .cease n :: dropClass .cease q
  | .hold => flowRequest .hold .go q
  | .go => flowRequest .go .hold q
  | .seek n b => replaceOrAdd (.seek n b) q
  | .pace l => replaceOrAdd (.pace l) q
  | .load p => replaceOrAdd (.load p) q

/-- An IDLE transmitter takes the head of the queue at once (R111). -/
def Link.kick (l : Link) : Link :=
  match l.tx, l.queue with
  | .idle, m :: rest => { l with tx := .sending m, queue := rest }
  | _, _ => l

/-- Make a request at the Transmit Queue. -/
def txRequest (m : TxMsg) (s : State) : State :=
  s.setLink ({ s.link with queue := requestQueue m s.link.queue }).kick

/-- Whether a message is the SEEK of a stream. -/
def TxMsg.isSeekOf (n : Nat) : TxMsg → Bool
  | .seek m _ => m == n
  | .cease _ | .hold | .go | .pace _ | .load _ => false

/-- Withdraw a queued SEEK by its stream number (R110). -/
def withdrawSeek (n : Nat) (s : State) : State :=
  s.setLink { s.link with queue := s.link.queue.filter (fun m => !m.isSeekOf n) }

/-! ### The Resume Table (R170, R171, R174) -/

/-- Codes of the mode at save (R196). -/
def SaveMode.code : SaveMode → Nat
  | .ready => 0
  | .playing => 1
  | .paused => 2

/-- Codes of the cause (R196). -/
def SealCause.code : SealCause → Nat
  | .none => 0
  | .tray => 1
  | .supply => 2
  | .drive => 3
  | .stop => 4
  | .change => 5

/-- The stored form of an entry: bytes 1 to 12 of its READ_RESUME record (R196). -/
def ResumeEntry.bytes (e : ResumeEntry) : List Byte :=
  bytesOf 1 (bit e.valid) ++ bytesOf 4 e.tag.toNat ++ bytesOf 3 e.bn ++ bytesOf 2 e.frame ++ bytesOf 1 e.mode.code ++
    bytesOf 1 e.cause.code

/-- The CRC over the stored forms of entries 1 to 6 (R174). -/
def Resume.crc (entries : Vector ResumeEntry 6) : BitVec 16 :=
  crc16 (entries.toList.flatMap ResumeEntry.bytes)

/-- Every write replaces what it names and then recomputes the check (R171, R174). -/
def Resume.withEntries (entries : Vector ResumeEntry 6) : Resume := ⟨entries, Resume.crc entries⟩

/-- The entry of a magazine position; the not-valid values for a position that has none. -/
def Resume.entry (r : Resume) (position : Nat) : ResumeEntry :=
  if h : 1 ≤ position ∧ position ≤ 6 then r.entries[position - 1]'(by omega) else ResumeEntry.invalid

/-- Write the entry of one position; a position without an entry is not written. -/
def Resume.write (r : Resume) (position : Nat) (e : ResumeEntry) : Resume :=
  if h : 1 ≤ position ∧ position ≤ 6 then Resume.withEntries (r.entries.set (position - 1) e (by omega)) else r

/-- Clear all six entries in one write (R173). -/
def Resume.clearAll : Resume := Resume.withEntries (Vector.replicate 6 ResumeEntry.invalid)

/-- Write an entry of the Resume Table. -/
def resumeWrite (position : Nat) (e : ResumeEntry) (s : State) : State :=
  s.setResume (s.resume.write position e)

end Sys2Proof.Machine
end

