-- ==== Sys2Proof/Machine/Flags.lean ====
section
/-!
DEFINITION. Every figure the rules derive from the state: slot states and counts (R3, R4, R6), ready depth (R11), fill head
(R12), effective parameters (R79, R86), rough (R86), when an entry is due (R53), the flow conditions (R41), whether the
planner is to be active (R52), the summary and ATTN (R190).
-/
namespace Sys2Proof.Machine

/-! ### Slots (R3, R6) -/

/-- Number of GOOD frames (R3). -/
def Slot.goodCount (s : Slot) : Nat := s.frames.countP (fun f => f.2.mark = .good)

/-- Number of ERASED frames (R3). -/
def Slot.erasedCount (s : Slot) : Nat := s.frames.countP (fun f => f.2.mark = .erased)

/-- Number of ABSENT frames (R3). -/
def Slot.absentCount (s : Slot) : Nat := Config.framesPerBlock - s.goodCount - s.erasedCount

/-- The state of a slot (R6). Row 5 is carried out by `Slot.recheck`, so the row OPEN stands for it here. -/
def Slot.state (s : Slot) : SlotState :=
  if s.goodCount = Config.framesPerBlock then .sound
  else if s.declared then (if s.goodCount + s.erasedCount = 0 then .lost else .final)
  else if s.goodCount + s.erasedCount = 0 then .free
  else if s.absentCount = 0 then .opened
  else .partly

/-- Row 5 of R6: not declared, no ABSENT, at least one ERASED, pass count at or above the effective Retry Limit. -/
def Slot.meetsRow5 (limit : Nat) (s : Slot) : Bool :=
  !s.declared && s.absentCount == 0 && 0 < s.erasedCount && limit ≤ s.pass

/-- The recomputation of R6 and R7: a slot that meets row 5 is declared in it. -/
def Slot.recheck (limit : Nat) (s : Slot) : Slot :=
  if s.meetsRow5 limit then { s with declared := true } else s

/-- A slot is ready when its state is OPEN, SOUND, FINAL or LOST (R6). -/
def SlotState.ready : SlotState → Bool
  | .opened | .sound | .final | .lost => true
  | .free | .partly => false

/-- FREE, PARTIAL and OPEN blocks still want reading (R46). -/
def SlotState.wanted : SlotState → Bool
  | .free | .partly | .opened => true
  | .sound | .final | .lost => false

/-! ### The window (R4) -/

/-- The window length W (R4). -/
def Store.length (t : Store) : Nat :=
  if t.playBlock < t.extent then min Config.slotCount (t.extent - t.playBlock) else 0

/-- The end of the window, P + W. -/
def Store.limit (t : Store) : Nat := t.playBlock + t.length

/-- Whether a BN lies in the window. -/
def Store.holds (t : Store) (b : Nat) : Bool := decide (t.playBlock ≤ b ∧ b < t.limit)

/-- What a slot index holds. -/
def Store.slotAt (t : Store) (k : Nat) : Slot := Sparse.get Slot.empty t.slots k

/-- The slot of a BN: slot BN mod 384 in the window, an empty one outside it (R4, R10). -/
def Store.slotOf (t : Store) (b : Nat) : Slot :=
  if t.holds b then t.slotAt (b % Config.slotCount) else Slot.empty

/-- The state of the slot of a BN. -/
def Store.stateOf (t : Store) (b : Nat) : SlotState := (t.slotOf b).state

/-- The implied BN of a slot index: the one BN of [P, P + 384) with that residue (R4). -/
def Store.impliedBn (t : Store) (k : Nat) : Nat :=
  t.playBlock + (k + Config.slotCount - t.playBlock % Config.slotCount) % Config.slotCount

/-- A slot is used when its implied BN is below the extent (R4). -/
def Store.used (t : Store) (k : Nat) : Bool := decide (t.impliedBn k < t.extent)

/-- The frame at an absolute position (R10). -/
def Store.frameAt (t : Store) (q : Nat) : Frame :=
  Sparse.get Frame.none (t.slotOf (q / Config.framesPerBlock)).frames (q % Config.framesPerBlock)

/-- Whether the slot of an absolute position is declared (R10). -/
def Store.declaredAt (t : Store) (q : Nat) : Bool := (t.slotOf (q / Config.framesPerBlock)).declared

/-! ### Ready depth, primed, fill head, summary (R11, R12, R17) -/

/-- Consecutive ready blocks from `b` on, at most `n`. -/
def Store.readyFrom (t : Store) : Nat → Nat → Nat
  | 0, _ => 0
  | n + 1, b => if (t.stateOf b).ready then Store.readyFrom t n (b + 1) + 1 else 0

/-- The ready depth (R11). -/
def Store.readyDepth (t : Store) : Nat := t.readyFrom t.length t.playBlock

/-- Whether the ready depth counts as having reached Prime Depth (R11). -/
def Store.primed (t : Store) (primeDepth : Nat) : Bool :=
  decide (primeDepth ≤ t.readyDepth) ||
    (decide (0 < t.length) && decide (t.readyDepth = t.length) && decide (t.limit = t.extent))

/-- What the store reports of its readiness (R16): the ready depth and the primed indication. -/
def Store.readiness (t : Store) (primeDepth : Nat) : Nat × Bool := (t.readyDepth, t.primed primeDepth)

/-- One past the highest of the `n` blocks from `b` on whose slot is not FREE, or `b`. -/
def Store.fillFrom (t : Store) (b : Nat) : Nat → Nat
  | 0 => b
  | n + 1 => if t.stateOf (b + n) ≠ .free then b + n + 1 else Store.fillFrom t b n

/-- The fill head (R12). -/
def Store.fillHead (t : Store) : Nat := t.fillFrom t.playBlock t.length

/-- How many blocks of the window are in a state (R17). -/
def Store.countOf (t : Store) (x : SlotState) : Nat :=
  (List.range t.length).countP (fun i => t.stateOf (t.playBlock + i) = x)

/-- The unused count (R17). -/
def Store.unused (t : Store) : Nat := Config.slotCount - t.length

/-! ### Effective parameters and health (R78, R79, R86) -/

/-- The disc is rough while the erasure score is 128 or more (R86). -/
def Health.rough (h : Health) : Bool := decide (128 ≤ h.erasure)

/-- The effective Retry Limit (R86). -/
def effectiveRetry (s : State) : Nat := if s.health.rough then 1 else s.console.params.retryLimit

/-- The effective Overlap Depth (R79). -/
def effectiveOverlap (s : State) : Nat :=
  match s.health.state with
  | .guarded => min (2 * s.console.params.overlapDepth) 8
  | .steady | .withdrawn => s.console.params.overlapDepth

/-- The health state a skip score stands for (R78). -/
def healthOf (skip : Nat) : HealthState :=
  if skip < 128 then .steady else if skip < 256 then .guarded else .withdrawn

/-- The pace level of a health state (R80). -/
def paceOf : HealthState → Pace
  | .steady => .normal
  | .guarded | .withdrawn => .low

/-! ### Positions -/

/-- The play position as an absolute frame position (00_scope.md 1.4). -/
def playPosition (s : State) : Nat := s.feeder.block * Config.framesPerBlock + s.feeder.frame

/-- Whether the cursor is at or beyond the end of a disc of extent above 0 (R131). -/
def atDiscEnd (s : State) : Bool :=
  decide (0 < s.play.disc.extent) && decide (s.play.disc.extent * Config.framesPerBlock ≤ playPosition s)

/-! ### Flow, due, active, timers (R41, R52, R53, R143) -/

/-- The INTAKE condition (R41). -/
def intakeFull (s : State) : Bool := decide (2 ≤ s.asm.intake.length)

/-- The WINDOW condition (R41). -/
def windowFull (s : State) : Bool :=
  let a := s.asm.align
  let q : Int := (a.expected * Config.framesPerBlock : Nat) + a.offset
  decide (a.phase ≠ .none) &&
    (decide (((s.store.playBlock + Config.slotCount) * Config.framesPerBlock : Nat) ≤ q) ||
      decide ((s.store.extent * Config.framesPerBlock : Nat) ≤ q))

/-- An entry is due (R53). -/
def due (s : State) (e : RepairEntry) : Bool :=
  decide (e.first - s.store.playBlock ≤ s.console.params.repairLead) || s.asm.holdWindow

/-- The conditions of R52. -/
def plannerMayRead (s : State) : Bool :=
  (match s.play.state with
    | .cueing | .playing | .paused => true
    | .empty | .loading | .ready | .coasting | .suspended => false) &&
  s.play.disc.confirmed && decide (s.health.state ≠ .withdrawn)

/-- The suspend-cause set is empty (R133). -/
def Causes.isEmpty (c : Causes) : Bool := !c.tray && !c.supply && !c.drive

/-- The load timer runs while LOADING or confirming (R143). -/
def Play.timerRuns (p : Play) : Bool := decide (p.state = .loading) || p.confirming

/-- The receiver is enabled (R99). -/
def receiverOn (s : State) : Bool := decide (s.console.params.receiverEnable = 1)

/-! ### Summary and ATTN (R190) -/

/-- The better of two event indices for the summary: the higher level, and at one level the lower code. -/
def Attn.better (a : Attn) (best : Option (Fin 16)) (i : Fin 16) : Option (Fin 16) :=
  let r := a.record i
  if r.pending && r.enable then
    match best with
    | none => some i
    | some j => if (a.record j).level < r.level then some i else some j
  else best

/-- The summary: the code of the pending, enabled event of highest level, lowest code among several; 0 if none (R190). -/
def Attn.summary (a : Attn) : Nat :=
  match (List.finRange 16).foldl a.better none with
  | none => 0
  | some i => i.val + 1

/-- ATTN is asserted exactly when a pending, enabled event has a level at or above the threshold (R190). -/
def Attn.asserted (a : Attn) : Bool :=
  (List.finRange 16).any (fun i =>
    let r := a.record i
    r.pending && r.enable && decide (a.threshold ≤ r.level))

end Sys2Proof.Machine
end

