-- ==== Sys2Proof/Machine/Operands.lean ====
section
/-!
DEFINITION. The operand forms of the Pickup Link: characters as sampled (R92 to R96), the bytes of messages in both
directions (R193) with their check (R103), and the intake entry a BLOCK forms (R20).
-/
namespace Sys2Proof.Machine

/-! ### Characters -/

/-- Parity kinds (R93), in the order of their codes (R183). -/
inductive ParityKind where
  | none
  | even
  | odd
  | zero
  deriving DecidableEq, Repr

/-- The parity kind a value of Link Parity stands for. -/
def parityKind : Nat → ParityKind
  | 0 => .none
  | 1 => .even
  | 2 => .odd
  | _ => .zero

/-- The majority of the samples 7, 8 and 9 of a bit (R95). -/
def BitSamples.value (b : Sys2Proof.BitSamples) : Bool := (b.s7 && b.s8) || (b.s7 && b.s9) || (b.s8 && b.s9)

/-- The three samples are not all equal (R95). -/
def BitSamples.noisy (b : Sys2Proof.BitSamples) : Bool := !(b.s7 == b.s8 && b.s8 == b.s9)

/-- A byte from eight bits, least significant first (R92). -/
def byteOfBits (bits : List Bool) : Byte :=
  BitVec.ofNat 8 (bits.foldr (fun b n => 2 * n + bit b) 0)

/-- What the receiver makes of a character (R96). -/
inductive CharFault where
  | framing
  | parity
  deriving DecidableEq, Repr

/-- A judged character: its byte, its marker, its fault if any, and its noisy bits. -/
structure Judged where
  byte   : Byte
  marker : Bool
  fault  : Option CharFault
  noisy  : Nat
  deriving DecidableEq, Repr

/-- How many bits a character has: 10, a parity bit unless the kind is NONE, and the stop bits (R92, R93). -/
def charLength (kind : ParityKind) (stops : Nat) : Nat := 10 + (if kind = ParityKind.none then 0 else 1) + stops

/-- The evenness the parity kind asks for fails (R93). -/
def parityMismatch (kind : ParityKind) (bits : List Bool) : Bool :=
  let ones := (bits.filter id).length
  match kind with
  | .none | .zero => false
  | .even => ones % 2 == 1
  | .odd => ones % 2 == 0

/-- Judge a sampled character in the format in force; none where its start is rejected (R95, R96). A bit the operand
does not give is read as the idle line, high. -/
def judgeChar (kind : ParityKind) (stops : Nat) (c : RxChar) : Option Judged :=
  let n := charLength kind stops
  let samples := (c.bits ++ List.replicate n (BitSamples.mk true true true)).take n
  let bits := samples.map BitSamples.value
  match bits with
  | [] => none
  | start :: rest =>
    if start then none
    else
      let data := rest.take 8
      let marker := (rest.drop 8).headD false
      let checked := rest.take (if kind = ParityKind.none then 9 else 10)
      let stopBits := rest.drop (if kind = ParityKind.none then 9 else 10)
      let fault :=
        if stopBits.any (fun b => !b) then some CharFault.framing
        else if parityMismatch kind checked then some CharFault.parity
        else none
      some ⟨byteOfBits data, marker, fault, samples.countP BitSamples.noisy⟩

/-- The run of low samples after one bit of 16 samples (R94, R97): a high sample starts it anew. The samples other than 7, 8 and
9 are taken to have the bit's value (log entry 24). -/
def lowRun (before : Nat) (b : Sys2Proof.BitSamples) : Nat :=
  if BitSamples.value b then 0
  else if b.s9 then 7
  else if b.s8 then 8
  else if b.s7 then 9
  else before + 16

/-- Samples of low level at the end of a character; `before` is the run before it (R97). -/
def lowTail (before : Nat) (c : RxChar) : Nat := c.bits.foldl lowRun before

/-- The bits of a byte, least significant first (R92). -/
def bitsOfByte (b : Byte) : List Bool := (List.range 8).map (fun i => b.getLsbD i)

/-- The bits PLC carries for one character (R92, R93). -/
def charBits (kind : ParityKind) (stops : Nat) (marker : Bool) (b : Byte) : List Bool :=
  let body := bitsOfByte b ++ [marker]
  let odd := (body.filter id).length % 2 == 1
  let parity :=
    match kind with
    | .none => []
    | .even => [odd]
    | .odd => [!odd]
    | .zero => [false]
  [false] ++ body ++ parity ++ List.replicate stops true

/-! ### Messages the part sends (R108, R193) -/

/-- Code of a pace level (R193). -/
def Pace.code : Pace → Nat
  | .normal => 0
  | .low => 1

/-- The header byte: kind code in the high 4 bits, stream number in the low 4 (R101, R108). -/
def TxMsg.header : TxMsg → Nat
  | .seek n _ => 0x90 + n % 16
  | .cease n => 0xA0 + n % 16
  | .hold => 0xB0
  | .go => 0xC0
  | .pace _ => 0xD0
  | .load _ => 0xE0

/-- The body of a message (R193). -/
def TxMsg.body : TxMsg → List Byte
  | .seek _ b => bytesOf 3 b
  | .cease _ | .hold | .go => []
  | .pace l => bytesOf 1 l.code
  | .load p => bytesOf 1 p

/-- Header, body and the two check characters, high byte first (R103). -/
def withCheck (bytes : List Byte) : List Byte := bytes ++ bytesOf 2 (crc16 bytes).toNat

/-- The characters of a message the part sends, as bytes; the first is the header (R111). -/
def TxMsg.bytes (m : TxMsg) : List Byte := withCheck (bytesOf 1 m.header ++ m.body)

/-- The format character `i` of a message began in: for each change made meanwhile the format in force before it and how many
characters had begun by then, and `now`, the format in force since the last change (R92). -/
def formatOf : List (LinkFormat × Nat) → LinkFormat → Nat → LinkFormat
  | [], now, _ => now
  | (f, n) :: older, now, i => if i < n then f else formatOf older now i

/-- The format before a change, and how many characters had begun by then: the header, and those of the free value. -/
def FormatChange.begun (c : FormatChange) : LinkFormat × Nat := (c.before, Config.begunAfterHeader c.number + 1)

/-- Characters one after another from number `i` on, each in its own format, the marker on number 0 only (R92, R94). -/
def lineFrom (format : Nat → LinkFormat) : Nat → List Byte → List Bool
  | _, [] => []
  | i, b :: rest =>
    charBits (parityKind (format i).parity) (format i).stops (decide (i = 0)) b ++ lineFrom format (i + 1) rest

/-- Everything PLC carries while a message is sent: its characters back to back, the marker on the header only
(R92, R94, R111). -/
def TxMsg.line (format : Nat → LinkFormat) (m : TxMsg) : List Bool := lineFrom format 0 m.bytes

/-! ### Messages the part receives (R101, R102, R104, R193) -/

/-- Kinds of received messages (R101). -/
inductive RxKind where
  | disc
  | block
  | jump
  | landed
  | refused
  | settled
  | gone
  deriving DecidableEq, Repr

/-- What a header byte says (R101). -/
inductive HeaderKind where
  | rateMark
  | message (kind : RxKind)
  | unknown
  deriving DecidableEq, Repr

/-- Judge a header byte (R101). -/
def headerKind (header : Byte) : HeaderKind :=
  if header = 0x55 then .rateMark
  else
    match header.toNat / 16 with
    | 1 => .message .disc
    | 2 => .message .block
    | 3 => .message .jump
    | 4 => .message .landed
    | 6 => .message .refused
    | 7 => .message .settled
    | 8 => .message .gone
    | _ => .unknown

/-- The stream number of a header (R101). -/
def headerStream (header : Byte) : Nat := header.toNat % 16

/-- A received message, its fields read from the body offsets of R193. -/
inductive RxMsg where
  | disc (stream : Nat) (tag : Tag) (extent position : Nat)
  | block (stream bn : Nat) (tag : Tag) (samples : List Sample) (erasures : Option (List Nat))
  | jump (stream lastGood landing : Nat)
  | landed (stream bn : Nat)
  | refused (stream reason : Nat)
  | settled (stream : Nat)
  | gone (stream position : Nat)
  deriving DecidableEq, Repr

/-- The erasure count of a BLOCK whose first 2,361 body bytes, and the header, have been received (R102, R193). -/
def erasureCount (bytes : List Byte) : Nat := natOf ((bytes.drop 2360).take 2)

/-- How many characters a message holds, header and check included (R102); none while the length of a BLOCK is not
known yet. -/
def messageLength (kind : RxKind) (bytes : List Byte) : Option Nat :=
  match kind with
  | .disc => some 11
  | .jump => some 9
  | .landed => some 6
  | .refused => some 4
  | .settled => some 3
  | .gone => some 4
  | .block =>
    if bytes.length < 2362 then none
    else if erasureCount bytes = 0xFFFF then some 2364
    else some (2364 + 2 * erasureCount bytes)

/-- A BLOCK whose erasure count is 65 to 65,534 is malformed as soon as the count is received (R102). -/
def countMalformed (kind : RxKind) (bytes : List Byte) : Bool :=
  decide (kind = .block) && decide (2362 ≤ bytes.length) && decide (64 < erasureCount bytes) &&
    decide (erasureCount bytes ≠ 0xFFFF)

/-- The check characters agree with the CRC over header and body (R103). -/
def checkPasses (bytes : List Byte) : Bool :=
  let n := bytes.length - 2
  decide (natOf (bytes.drop n) = (crc16 (bytes.take n)).toNat)

/-- A 16-bit word from two bytes. -/
def wordOf (hi lo : Byte) : BitVec 16 := BitVec.ofNat 16 (hi.toNat * 256 + lo.toNat)

/-- The frames of a BLOCK body: four bytes each (R193). -/
def samplesOf : List Byte → List Sample
  | a :: b :: c :: d :: rest => ⟨wordOf a b, wordOf c d⟩ :: samplesOf rest
  | _ => []

/-- The erased indices of a BLOCK body: two bytes each (R193). -/
def indicesOf : List Byte → List Nat
  | a :: b :: rest => (a.toNat * 256 + b.toNat) :: indicesOf rest
  | _ => []

/-- A field of a body: `width` bytes from an offset (R193). -/
def fieldOf (body : List Byte) (offset width : Nat) : Nat := natOf ((body.drop offset).take width)

/-- Read the fields of a message from its header and body (R193). -/
def readMessage (kind : RxKind) (header : Byte) (body : List Byte) : RxMsg :=
  let stream := headerStream header
  match kind with
  | .disc => .disc stream (BitVec.ofNat 32 (fieldOf body 0 4)) (fieldOf body 4 3) (fieldOf body 7 1)
  | .block =>
    .block stream (fieldOf body 0 3) (BitVec.ofNat 32 (fieldOf body 3 4)) (samplesOf ((body.drop 7).take 2352))
      (if fieldOf body 2359 2 = 0xFFFF then none else some (indicesOf (body.drop 2361)))
  | .jump => .jump stream (fieldOf body 0 3) (fieldOf body 3 3)
  | .landed => .landed stream (fieldOf body 0 3)
  | .refused => .refused stream (fieldOf body 0 1)
  | .settled => .settled stream
  | .gone => .gone stream (fieldOf body 0 1)

/-- A message that passes its check is malformed by its content (R102, R104). -/
def RxMsg.malformed : RxMsg → Bool
  | .disc _ _ extent position =>
    decide (extent = 0) || decide (Config.maxExtent < extent) || decide (position < 1) || decide (6 < position)
  | .block _ _ _ _ erasures =>
    match erasures with
    | none => false
    | some indices =>
      decide (64 < indices.length) || indices.any (fun i => decide (Config.framesPerBlock ≤ i)) || !decide indices.Nodup
  | .landed _ bn => decide (Config.maxExtent ≤ bn)
  | .refused _ reason => !(decide (reason = 1) || decide (reason = 2))
  | .gone _ position => decide (position < 1) || decide (6 < position)
  | .jump _ _ _ => false
  | .settled _ => false

/-! ### Intake entries (R20) -/

/-- The class of an erasure list (R20). -/
def erasureClass : Option (List Nat) → ErasureClass
  | none => .all
  | some [] => .clean
  | some (_ :: _) => .some

/-- Whether an index is erased. -/
def erasedAt (erasures : Option (List Nat)) (i : Nat) : Bool :=
  match erasures with
  | none => true
  | some indices => indices.contains i

/-- The frames of an entry from index `i` on: the marks come from the erasure list, none is ABSENT (R20, R34). -/
def entryFrames (erasures : Option (List Nat)) : Nat → List Sample → List Frame
  | _, [] => []
  | i, v :: rest => ⟨if erasedAt erasures i then .erased else .good, v⟩ :: entryFrames erasures (i + 1) rest

/-- The intake entry a BLOCK forms (R20). -/
def entryOf (stream bn : Nat) (tag : Tag) (samples : List Sample) (erasures : Option (List Nat)) : IntakeEntry :=
  ⟨stream, bn, tag, entryFrames erasures 0 samples, erasureClass erasures⟩

end Sys2Proof.Machine
end

