-- ==== Sys2Proof/Machine/Store.lean ====
section
/-!
DEFINITION. What the Slot Store does to its slots: merge steps, declarations, and the four ways of freeing (R5, R7 to R9,
R13 to R15). Each is one event at the store.
-/
namespace Sys2Proof.Machine

/-- Write the slot of a BN of the window; a BN outside it is not written (R8, R9). -/
def Store.setSlot (t : Store) (b : Nat) (x : Slot) : Store :=
  if t.holds b then { t with slots := Sparse.put Slot.empty t.slots (b % Config.slotCount) x } else t

/-- The frames of a slot after a merge step: each named frame takes its resulting mark and value (R9). -/
def mergeFrames (held : List (Nat × Frame)) (step : List (Nat × Frame)) : List (Nat × Frame) :=
  step.foldl (fun fs f => Sparse.put Frame.none fs f.1 f.2) held

/-- A slot after a merge step: frames, pass count + 1 saturating at 15, state recomputed (R9). -/
def Slot.merge (limit : Nat) (step : List (Nat × Frame)) (x : Slot) : Slot :=
  { x with frames := mergeFrames x.frames step, pass := satAdd 15 x.pass 1 }.recheck limit

/-- A merge step; an empty one, or one outside the window, changes nothing (R9). -/
def Store.merge (t : Store) (limit b : Nat) (step : List (Nat × Frame)) : Store :=
  if step.isEmpty then t else t.setSlot b ((t.slotOf b).merge limit step)

/-- A declaration request (R8). -/
def Store.declare (t : Store) (b : Nat) : Store := t.setSlot b { t.slotOf b with declared := true }

/-- The entry declaration: only an OPEN slot is declared (R118). -/
def Store.declareIfOpen (t : Store) (b : Nat) : Store := if t.stateOf b = .opened then t.declare b else t

/-- The window advance that leaves block `b` (R13). -/
def Store.advance (t : Store) (b : Nat) : Store :=
  { t with slots := Sparse.put Slot.empty t.slots (b % Config.slotCount) Slot.empty, playBlock := b + 1 }

/-- A flush: every slot freed, the window rebuilt from a Play Block (R14). -/
def Store.flush (t : Store) (p : Nat) : Store := { t with slots := [], playBlock := p }

/-- A trim from `x`: every used slot whose implied BN is `x` or more is freed (R15). -/
def Store.trim (t : Store) (x : Nat) : Store :=
  { t with slots := t.slots.filter (fun e => !(t.used e.1 && decide (x ≤ t.impliedBn e.1))) }

/-- A change of the extent: the slots between the new and the old extent are freed (R5). -/
def Store.setExtent (t : Store) (e : Nat) : Store :=
  { t with
    extent := e
    slots := t.slots.filter (fun x => !(decide (e ≤ t.impliedBn x.1) && decide (t.impliedBn x.1 < t.extent))) }

/-- A change of the effective Retry Limit: every used slot is recomputed (R7). -/
def Store.recheckAll (t : Store) (limit : Nat) : Store :=
  { t with slots := t.slots.map (fun e => (e.1, e.2.recheck limit)) }

/-- The blocks of the window from `x` on whose slots are not FREE (R49). -/
def Store.heldFrom (t : Store) (x : Nat) : Nat :=
  (List.range t.length).countP (fun i => decide (x ≤ t.playBlock + i) && decide (t.stateOf (t.playBlock + i) ≠ .free))

/-- Whether an event calls for notices: a slot state, the fill head, P or the extent changed (R16). -/
def Store.noticeDue (old new : Store) : Bool :=
  decide (old.playBlock ≠ new.playBlock) || decide (old.extent ≠ new.extent) || decide (old.fillHead ≠ new.fillHead) ||
    (List.range new.length).any (fun i =>
      decide (old.stateOf (new.playBlock + i) ≠ new.stateOf (new.playBlock + i)))

/-- The canonical form: slots rising by index below 384, none empty, each with its frames rising by index below 588, none
ABSENT. -/
def Store.wf (t : Store) : Bool :=
  Sparse.wf Slot.empty t.slots &&
    t.slots.all (fun e => decide (e.1 < Config.slotCount) && Sparse.wf Frame.none e.2.frames &&
      e.2.frames.all (fun f => decide (f.1 < Config.framesPerBlock)))

end Sys2Proof.Machine
end

