-- ==== Sys2Proof/Machine/Flow.lean ====
section
/-!
DEFINITION. The Assembler's flow state (R41, R42) and the clearing of its alignment phase (R24).
-/
namespace Sys2Proof.Machine

/-- The phase becomes NONE, with stream number 0 and offset 0; the other fields keep their values (R24). -/
def Align.clear (a : Align) : Align := { a with phase := .none, stream := 0, offset := 0 }

/-- Clear the alignment phase. -/
def clearPhase (s : State) : State := s.setAsm { s.asm with align := s.asm.align.clear }

/-- The flow state is HELD (R41, R195). -/
def flowHeld (s : State) : Bool := s.asm.holdIntake || s.asm.holdWindow

/-- The Assembler evaluates the two conditions, brings its cause set up to date and requests HOLD or GO as the flow
state changes (R41). -/
def evaluateFlow (s : State) : State :=
  let intake := intakeFull s
  let window := windowFull s
  let t := s.setAsm { s.asm with holdIntake := intake, holdWindow := window }
  if flowHeld s then (if intake || window then t else txRequest .go t)
  else (if intake || window then txRequest .hold t else t)

/-- Whether two states differ in the flow state or its cause set (R53). -/
def flowDiffers (s t : State) : Bool := s.asm.holdIntake != t.asm.holdIntake || s.asm.holdWindow != t.asm.holdWindow

end Sys2Proof.Machine
end

