-- ==== Sys2Proof/Machine/Planner.lean ====
section
/-!
DEFINITION. The Repair Planner's own operations: keeping the Repair List (R46 to R49), lateness (R68), closing, choosing,
pre-empting and opening streams (R53 to R56, R65, R66), activity (R52), flush (R70).
-/
namespace Sys2Proof.Machine

/-! ### Updates of the planner's record -/

/-- Change the current stream record. -/
def setStream (x : Stream) (s : State) : State := s.setPlanner { s.planner with stream := x }

/-- Change the Repair List. -/
def setList (x : List RepairEntry) (s : State) : State := s.setPlanner { s.planner with list := x }

/-- Change the frontier record. -/
def setFrontier (x : Frontier) (s : State) : State := s.setPlanner { s.planner with frontier := x }

/-- Count at the planner (R72). -/
def countPlanner (f : PlannerCounters → PlannerCounters) (s : State) : State :=
  s.setPlanner { s.planner with counters := f s.planner.counters }

/-! ### Events at the store (R16) -/

/-- The store hands a notice of its readiness where the ready depth or the primed indication is not what it was (R16). -/
def postReadiness (before : Nat × Bool) (s : State) : State :=
  let now := s.store.readiness s.console.params.primeDepth
  if now = before then s else s.setNotices (s.notices ++ [now.2])

/-- The store takes one event and hands its notice of readiness (R16). -/
def changeStore (f : Store → Store) (s : State) : State :=
  postReadiness (s.store.readiness s.console.params.primeDepth) (s.setStore (f s.store))

/-! ### Runs and the list (R46 to R48) -/

/-- The maximal runs of wanted blocks among the `n` blocks from `b` on; `since` is the first block of a run under way. -/
def runsFrom (wanted : Nat → Bool) : Nat → Nat → Option Nat → List (Nat × Nat)
  | 0, _, none => []
  | 0, b, some f => [(f, b - 1)]
  | n + 1, b, none => if wanted b then runsFrom wanted n (b + 1) (some b) else runsFrom wanted n (b + 1) none
  | n + 1, b, some f =>
    if wanted b then runsFrom wanted n (b + 1) (some f) else (f, b - 1) :: runsFrom wanted n (b + 1) none

/-- The maximal runs of FREE, PARTIAL and OPEN blocks in [P, fill head) (R46). -/
def Store.runs (t : Store) : List (Nat × Nat) :=
  runsFrom (fun b => (t.stateOf b).wanted) (t.fillHead - t.playBlock) t.playBlock none

/-- An old entry shares at least one BN with a run (R47). -/
def RepairEntry.shares (e : RepairEntry) (run : Nat × Nat) : Bool := decide (e.first ≤ run.2) && decide (run.1 ≤ e.last)

/-- The run that takes the ACTIVE state (R48). -/
def activeRun (old : List RepairEntry) (runs : List (Nat × Nat)) (expected : Nat) : Option (Nat × Nat) :=
  match old.find? RepairEntry.active with
  | none => none
  | some a =>
    let shared := runs.filter a.shares
    match shared.find? (fun r => decide (expected ≤ r.2)) with
    | some r => some r
    | none => shared.getLast?

/-- The largest of a field among the old entries that share a BN with a run, 0 where none does (R47). -/
def largest (field : RepairEntry → Nat) (old : List RepairEntry) (run : Nat × Nat) : Nat :=
  (old.filter (fun e => e.shares run)).foldl (fun m e => max m (field e)) 0

/-- The entry of a run (R47, R48). -/
def newEntry (old : List RepairEntry) (active : Option (Nat × Nat)) (run : Nat × Nat) : RepairEntry :=
  ⟨run.1, run.2, largest RepairEntry.attempts old run, largest RepairEntry.mislocks old run, active == some run⟩

/-- The list after maintenance: one entry per run (R47). -/
def maintained (old : List RepairEntry) (runs : List (Nat × Nat)) (expected : Nat) : List RepairEntry :=
  runs.map (newEntry old (activeRun old runs expected))

/-- The planner replaces the list by one entry per run; the served last BN follows the ACTIVE entry (R47, R48). -/
def maintain (s : State) : State :=
  let p := s.planner
  let list := maintained p.list s.store.runs p.stream.expected
  let served :=
    match list.find? RepairEntry.active with
    | some e => e.last
    | none => p.stream.servedLast
  s.setPlanner { p with list := list, stream := { p.stream with servedLast := served } }

/-- A notice reports a slot becoming SOUND or FINAL whose BN is at or above a bound (R50). -/
def becameDone (old new : Store) (bound : Nat) : Bool :=
  (List.range new.length).any (fun i =>
    let b := new.playBlock + i
    decide (bound ≤ b) && decide (old.stateOf b ≠ new.stateOf b) &&
      (decide (new.stateOf b = .sound) || decide (new.stateOf b = .final)))

/-- The frontier record mirrors the fill head and clears its counts as R50 gives. -/
def mirrorFrontier (old : Store) (s : State) : State :=
  let f := s.planner.frontier
  let head := s.store.fillHead
  setFrontier
    { fillHead := head
      mislocks := if head = f.fillHead then f.mislocks else 0
      refusals := if becameDone old s.store (f.fillHead - 1) then 0 else f.refusals } s

/-- The planner takes a store notice: the frontier record and the list (R47, R50). -/
def absorb (old : Store) (s : State) : State := maintain (mirrorFrontier old s)

/-! ### Closing a stream (R65, R66) -/

/-- The closes of R65's table; a deactivation says whether a Drive Restart caused it. -/
inductive Close where
  | ended
  | preemption
  | busy
  | range
  | seekTimeout
  | broken
  | mislock
  | overflow
  | deactivation (byRestart : Bool)
  | driveRestart
  | flush
  deriving DecidableEq, Repr

/-- Whether the close queues CEASE (R65). -/
def Close.ceases : Close → Bool
  | .ended | .preemption | .seekTimeout | .broken | .mislock | .overflow | .flush => true
  | .busy | .range | .driveRestart => false
  | .deactivation byRestart => !byRestart

/-- Whether the close makes the exhaustion check (R65); a pre-empted stream is FRONTIER and serves no entry. -/
def Close.checksExhaustion : Close → Bool
  | .ended | .busy | .range | .seekTimeout | .broken | .mislock | .overflow => true
  | .preemption | .deactivation _ | .driveRestart | .flush => false

/-- Declare one block on the planner's request, and maintain the list on the store's notice (R8, R47). -/
def plannerDeclare (s : State) (b : Nat) : State := absorb s.store (changeStore (fun t => t.declare b) s)

/-- Declare blocks on the planner's request: one request, one notice and one maintenance for each BN (R8, R47). R8 leaves the
order of the BNs open; they go in the order of the list, rising, and overflow is judged once after the last of them (DESIGN
CHOICE, log entry 35). -/
def plannerDeclares (blocks : List Nat) (s : State) : State := blocks.foldl plannerDeclare s

/-- The blocks of an entry. -/
def RepairEntry.blocks (e : RepairEntry) : List Nat := (List.range (e.last + 1 - e.first)).map (fun i => e.first + i)

/-- The exhaustion check of the entry the stream served (R66). -/
def exhaust (served : Option RepairEntry) (s : State) : State :=
  match served with
  | none => s
  | some e =>
    if effectiveRetry s ≤ e.attempts then
      plannerDeclares e.blocks (countPlanner (fun c => { c with exhaustion := bump c.exhaustion }) s)
    else s

/-- The ACTIVE entry, if one exists, becomes WAITING (R65). -/
def allWaiting (list : List RepairEntry) : List RepairEntry := list.map (fun e => { e with active := false })

/-- A close of the current stream, up to and including the exhaustion check (R65); the choice follows in `settle`. -/
def closeStream (close : Close) (s : State) : State :=
  if s.planner.stream.state = .none then s
  else
    let x := s.planner.stream
    let served := s.planner.list.find? RepairEntry.active
    let s := setStream { x with state := .none, timerRuns := false } s
    let s := clearPhase (withdrawSeek x.number s)
    let s := if close.ceases then txRequest (.cease x.number) s else s
    let s := setList (allWaiting s.planner.list) s
    if close.checksExhaustion then exhaust served s else s

/-! ### Opening, choosing, pre-empting (R53 to R56) -/

/-- The next stream number: 1 to 15, then 1 again (R51). -/
def nextNumber (n : Nat) : Nat := if n = 15 then 1 else n + 1

/-- Open a stream: the record, and SEEK (R56). -/
def openStream (purpose : Purpose) (target servedLast : Nat) (s : State) : State :=
  let x := s.planner.stream
  let start := max s.store.playBlock (target - effectiveOverlap s)
  let n := nextNumber x.number
  txRequest (.seek n start)
    (setStream
      { number := n, state := .seeking, purpose := purpose, target := target, start := start, expected := start,
        offset := 0, servedLast := servedLast, timer := 0, timerRuns := false } s)

/-- Open a FRONTIER stream at the fill head (R54, R56). -/
def openFrontier (s : State) : State :=
  openStream .frontier s.planner.frontier.fillHead s.planner.stream.servedLast
    (countPlanner (fun c => { c with frontierStream := bump c.frontierStream }) s)

/-- The entry a REPAIR stream is opened on: attempts + 1 saturating at 15, ACTIVE (R56). -/
def RepairEntry.served (e : RepairEntry) : RepairEntry := { e with attempts := satAdd 15 e.attempts 1, active := true }

/-- Open a REPAIR stream on an entry (R56). -/
def openRepair (e : RepairEntry) (s : State) : State :=
  openStream .repair e.first e.last
    (countPlanner (fun c => { c with repairStream := bump c.repairStream })
      (setList (s.planner.list.map (fun x => if x.first = e.first then x.served else x)) s))

/-- The choice: the due entry of lowest first BN, else the frontier below the window's end, else nothing (R54). -/
def chooseStream (s : State) : State :=
  if s.planner.active && decide (s.planner.stream.state = .none) then
    match s.planner.list.find? (due s) with
    | some e => openRepair e s
    | none => if s.planner.frontier.fillHead < s.store.limit then openFrontier s else s
  else s

/-- A FRONTIER stream is closed when an entry is due (R55). -/
def preempt (s : State) : State :=
  if decide (s.planner.stream.state ≠ .none) && decide (s.planner.stream.purpose = .frontier) &&
      s.planner.list.any (due s) then
    countPlanner (fun c => { c with preemption := bump c.preemption }) (closeStream .preemption s)
  else s

/-- The end of an event at the planner, pre-emption and choice; then the Assembler's evaluation of its flow, and the end
of the planner's event where that changed the flow (R41, R53 to R55). -/
def settle (s : State) : State :=
  let t := evaluateFlow (chooseStream (preempt s))
  if flowDiffers s t then evaluateFlow (chooseStream (preempt t)) else t

/-! ### Overflow and lateness (R49, R68) -/

/-- The current stream's expected next BN: the Assembler's while it places the stream, which a placement moves on before its report
reaches the record (R24, R27), and else the record's, the start BN while SEEKING (R51). That the planner goes by the value the report
bears before it has taken the report is DEDUCED (R39, log entry 43). -/
def expectedNext (s : State) : Nat :=
  if s.asm.align.phase ≠ .none ∧ s.asm.align.stream = s.planner.stream.number then s.asm.align.expected
  else s.planner.stream.expected

/-- An overflow from `x` closes the stream: its expected next BN is at or beyond `x` (R15, R49). That a FRONTIER stream which has
anchored in its overlap and still expects a block below `x` goes on is DEDUCED (log entry 43). -/
def overflowCloses (x : Nat) (s : State) : Bool := decide (x ≤ expectedNext s)

/-- One overflow: the highest run is discarded, the store trimmed from its first BN, and a stream at or beyond it closed
(R49). -/
def overflowOnce (s : State) : State :=
  match s.planner.list.getLast? with
  | none => s
  | some r =>
    let old := s.store
    let freed := old.heldFrom r.first
    let s := changeStore (fun t => t.trim r.first) (setList s.planner.list.dropLast s)
    let s := if overflowCloses r.first s then closeStream .overflow s else s
    let s := countPlanner (fun c => { c with overflow := bump c.overflow }) s
    absorb old (raise .repairOverflow (min 255 freed) s)

/-- One overflow at a time, highest first, while more than 16 runs stand (R49). -/
def overflowLoop : Nat → State → State
  | 0, s => s
  | n + 1, s => if Config.repairMax < s.planner.list.length then overflowLoop n (overflowOnce s) else s

/-- The overflows a maintenance calls for. -/
def handleOverflow (s : State) : State := overflowLoop s.planner.list.length s

/-- A block that lies in an entry is late under the policy (R68). -/
def isLate (s : State) (b : Nat) : Bool :=
  s.planner.list.any (fun e => decide (e.first ≤ b) && decide (b ≤ e.last)) &&
    match s.store.stateOf b with
    | .opened => true
    | .partly | .free => decide (s.console.params.latePolicy = 1)
    | .sound | .final | .lost => false

/-- The blocks lateness declares (R68). -/
def lateBlocks (s : State) : List Nat :=
  ((List.range s.console.params.deadlineMargin).map (fun i => s.store.playBlock + i)).filter (isLate s)

/-- The planner judges lateness (R68). -/
def judgeLateness (s : State) : State :=
  let late := lateBlocks s
  if late.isEmpty then s
  else
    handleOverflow (plannerDeclares late
      (countPlanner (fun c => { c with lateDeclaration := bumpBy c.lateDeclaration late.length }) s))

/-- What the planner does with a store notice before the end of its event (R47, R49, R50, R68). -/
def takeStoreNotice (old : Store) (s : State) : State := judgeLateness (handleOverflow (absorb old s))

/-- An event at the store, and what the planner does with its notice, if there is one, before the end of its own event (R16,
R47). -/
def storeNotified (f : Store → Store) (s : State) : State :=
  let t := changeStore f s
  if s.store.noticeDue (f s.store) then takeStoreNotice s.store t else t

/-- An event at the store, and the planner's event on its notice, if there is one (R16, R47). -/
def storeEvent (f : Store → Store) (s : State) : State :=
  let t := storeNotified f s
  if s.store.noticeDue (f s.store) then settle t else t

/-! ### Activity, flush, seek timer (R52, R57, R70) -/

/-- The planner takes a notice of the play state, the disc's confirmation or the health state (R52). -/
def plannerNotice (byRestart : Bool) (s : State) : State :=
  let may := plannerMayRead s
  let t := s.setPlanner { s.planner with active := may }
  settle (if may then t else closeStream (.deactivation byRestart) t)

/-- A flush: the store, the Assembler's intake, the planner's close and list (R14, R44, R70). -/
def flushStore (p : Nat) (s : State) : State :=
  let old := s.store
  let s := changeStore (fun t => t.flush p) s
  let s := s.setAsm { s.asm with intake := [] }
  let s := absorb old (closeStream .flush s)
  settle (setFrontier { s.planner.frontier with mislocks := 0, refusals := 0 } s)

/-- The link reports that a stream's SEEK has been sent: its seek timer starts at 0 (R57). -/
def seekSent (n : Nat) (s : State) : State :=
  let x := s.planner.stream
  if x.number = n ∧ x.state = .seeking then setStream { x with timer := 0, timerRuns := true } s else s

end Sys2Proof.Machine
end

