-- ==== Sys2Proof/Machine/Health.lean ====
section
/-!
DEFINITION. The Drive Health Monitor: the scores (R76, R77), the health state and what follows from a change of it (R78 to
R81, R85, R87, R88), the quiet count (R84), the rough disc (R86), Drive Restart (R90).
-/
namespace Sys2Proof.Machine

/-- Codes of the HEALTH detail (R197). -/
def HealthState.detail : HealthState → Nat
  | .steady => 1
  | .guarded => 2
  | .withdrawn => 3

/-- Count at the Monitor (R91). -/
def countHealth (f : HealthCounters → HealthCounters) (s : State) : State :=
  s.setHealth { s.health with counters := f s.health.counters }

/-- Request a pace level: PACE is queued when the level changes (R80). -/
def requestPace (level : Pace) (s : State) : State :=
  if s.health.pace = level then s
  else txRequest (.pace level) (s.setHealth { s.health with pace := level })

/-- The Monitor queues PACE at the current level whatever it was (R90). -/
def repeatPace (s : State) : State := txRequest (.pace s.health.pace) s

/-- The Monitor's fields after a change of health state (R78, R81). -/
def Health.enter (h : Health) (new : HealthState) : Health :=
  match new with
  | .steady => { h with state := .steady }
  | .guarded =>
    { h with state := .guarded, counters := { h.counters with guardedEntry := bump h.counters.guardedEntry } }
  | .withdrawn =>
    { h with
      state := .withdrawn, quiet := 0, settledSeen := false, disturbed := false
      counters := { h.counters with withdrawal := bump h.counters.withdrawal } }

/-- The health state re-derived from the skip score outside WITHDRAWN, with what a change of it hands on, in the order
planner, Assembler (which reads the state), PACE, HEALTH (R78, R80, R81, R87, R88). -/
def rederiveHealth (s : State) : State :=
  let new := healthOf s.health.skip
  if s.health.state = .withdrawn ∨ s.health.state = new then s
  else
    raise .health new.detail
      (requestPace (paceOf new) (plannerNotice false (s.setHealth (s.health.enter new))))

/-- An input that raises the skip score (R76); WITHDRAWN freezes it (R82). -/
def addSkip (amount : Nat) (s : State) : State :=
  if s.health.state = .withdrawn then s
  else rederiveHealth (s.setHealth { s.health with skip := satAdd 511 s.health.skip amount })

/-- What a delivery report does to the two scores (R40, R76, R77); the skip score is frozen in WITHDRAWN (R82). -/
def Health.report (h : Health) (cls : ErasureClass) (inSequence : Bool) : Health :=
  match cls with
  | .clean =>
    if inSequence then
      { h with skip := (if h.state = .withdrawn then h.skip else h.skip - 1), erasure := h.erasure - 1 }
    else h
  | .some => { h with erasure := satAdd 255 h.erasure 1 }
  | .all => { h with erasure := satAdd 255 h.erasure 8 }

/-- A change of the effective Retry Limit reaches the store, then the planner (R7, R87). -/
def retryLimitChanged (s : State) : State := storeEvent (fun t => t.recheckAll (effectiveRetry s)) s

/-- The rough indication re-derived after a change of the erasure score (R86, R88). -/
def rederiveRough (before : Bool) (s : State) : State :=
  if s.health.rough = before then s
  else if before then raise .health 5 (retryLimitChanged s)
  else
    raise .health 4
      (retryLimitChanged (countHealth (fun c => { c with roughEntry := bump c.roughEntry }) s))

/-- The Monitor takes a delivery report: both scores, then the health state, then roughness (R77). -/
def takeReport (cls : ErasureClass) (inSequence : Bool) (s : State) : State :=
  let before := s.health.rough
  rederiveRough before (rederiveHealth (s.setHealth (s.health.report cls inSequence)))

/-- A disturbance while WITHDRAWN: the quiet count is broken (R84). -/
def breakQuiet (s : State) : State :=
  s.setHealth
    { s.health with
      quiet := 0, disturbed := true
      counters := { s.health.counters with quietBreak := bump s.health.counters.quietBreak } }

/-- The Monitor takes a JUMP notice (R84). -/
def monitorJump (s : State) : State := if s.health.state = .withdrawn then breakQuiet s else s

/-- The Monitor takes a qualified SHOCK (R76, R84). -/
def monitorShock (s : State) : State := if s.health.state = .withdrawn then breakQuiet s else addSkip 16 s

/-- The Monitor takes a SETTLED (R83). -/
def monitorSettled (s : State) : State :=
  s.setHealth
    { s.health with
      settledSeen := (if s.health.state = .withdrawn then true else s.health.settledSeen)
      counters := { s.health.counters with settled := bump s.health.counters.settled } }

/-- Recovery: STEADY, skip score 0, PACE NORMAL, then the planner's notice, then HEALTH (R85). -/
def recoverHealth (s : State) : State :=
  let h := s.health
  let s := s.setHealth
    { h with
      state := .steady, skip := 0, quiet := 0, settledSeen := false, disturbed := false, pace := .normal
      counters := { h.counters with recovery := bump h.counters.recovery } }
  raise .health 1 (plannerNotice false (txRequest (.pace .normal) s))

/-- The tick is quiet (R84). -/
def Health.quietTick (h : Health) : Bool :=
  decide (h.state = .withdrawn) && h.settledSeen && !h.disturbed

/-- The tick brings recovery (R85). -/
def recoveryDue (s : State) : Bool :=
  s.health.quietTick && decide (s.console.params.quietCount ≤ satAdd 255 s.health.quiet 1)

/-- The Monitor takes a block tick (R84, R85). -/
def monitorTick (s : State) : State :=
  if recoveryDue s then recoverHealth s
  else
    s.setHealth
      { s.health with
        quiet := (if s.health.quietTick then satAdd 255 s.health.quiet 1 else s.health.quiet)
        disturbed := false }

end Sys2Proof.Machine
end

