-- ==== Sys2Proof/Machine/Feeder.lean ====
section
/-!
DEFINITION. The Output Feeder's answers to requests and notices: fades (R121), cue, play and stop requests (R116, R120), the
entry declaration (R118), leaving STARVED (R124), the clock monitor's tick (R130).
-/
namespace Sys2Proof.Machine

/-- End any concealment run: phase NONE, C 128 (R116, R123, R125). -/
def Feeder.endRun (f : Feeder) : Feeder := { f with run := .none, concealC := 128 }

/-- Begin a fade from the last output frame at the gain in force; with Ramp Length 0 it ends at once (R121). -/
def Feeder.beginFade (f : Feeder) (ramp : Nat) : Feeder :=
  if ramp = 0 then { f with fade := none, last := Sample.zero }
  else { f with fade := some ⟨scaleSample f.last f.gain 128, ramp, ramp⟩ }

/-- A cue request (R116). -/
def Feeder.cue (f : Feeder) (ramp bn frame : Nat) : Feeder :=
  let g : Feeder := if f.state = .silent then f else { f.beginFade ramp with state := .silent, gain := 0 }
  { g.endRun with block := bn, frame := frame, atEnd := false }

/-- A start ramp begins from a gain; with Ramp Length 0 it is over at once (R119, R120). -/
def Feeder.start (f : Feeder) (ramp gain : Nat) : Feeder :=
  if ramp = 0 then { f with state := .running, gain := 128, fade := none }
  else { f with state := .starting, gain := gain, fade := none }

/-- The feeder is SILENT at the end of a stop ramp: the last output frame is 0 in both channels (R119). R119 says so of a ramp
whose STOPPING frame brings G to 0; for the instant ramp of Ramp Length 0 it names only SILENT and G 0, and the model sets the
last output frame to 0 there too (DESIGN CHOICE, log entry 22). -/
def Feeder.rampedDown (f : Feeder) : Feeder := { f.endRun with state := .silent, gain := 0, last := Sample.zero }

/-- A stop request (R120). -/
def Feeder.stop (f : Feeder) (ramp : Nat) : Feeder :=
  match f.state with
  | .starting | .running => if ramp = 0 then f.rampedDown else { f with state := .stopping }
  | .starved => { f with state := .silent, gain := 0 }
  | .silent | .stopping => f

/-- Change the feeder. -/
def mapFeeder (g : Feeder → Feeder) (s : State) : State := s.setFeeder (g s.feeder)

/-- Ramp Length as it stands (R119). -/
def rampLength (s : State) : Nat := s.console.params.rampLength

/-- The entry declaration of the Play Block (R118). -/
def declareEntry (s : State) : State := storeEvent (fun t => t.declareIfOpen s.feeder.block) s

/-- The feeder takes a cue request (R116). -/
def cueFeeder (bn frame : Nat) (s : State) : State := mapFeeder (fun f => f.cue (rampLength s) bn frame) s

/-- The feeder takes a stop request (R120). -/
def stopRequest (s : State) : State := mapFeeder (fun f => f.stop (rampLength s)) s

/-- The test of R124: primed as last received, and the play state PLAYING. -/
def mayLeaveStarved (s : State) : Bool := s.feeder.primed && decide (s.play.state = .playing)

/-- The feeder takes a play request (R120, R124). -/
def playRequest (s : State) : State :=
  match s.feeder.state with
  | .silent => declareEntry (mapFeeder (fun f => f.start (rampLength s) 0) s)
  | .stopping => mapFeeder (fun f => f.start (rampLength s) f.gain) s
  | .starved => if mayLeaveStarved s then declareEntry (mapFeeder (fun f => f.start (rampLength s) 0) s) else s
  | .starting | .running => s

/-- The feeder takes a notice of the ready depth and the primed indication (R16). A primed notice ends STARVED only where the store
is still primed as the notice is taken: one that has fallen back before leaves the feeder STARVED (R124). -/
def feederPrimed (primed : Bool) (s : State) : State :=
  let s := mapFeeder (fun f => { f with primed := primed }) s
  if decide (s.feeder.state = .starved) && mayLeaveStarved s && s.store.primed s.console.params.primeDepth then
    declareEntry (mapFeeder (fun f => f.start (rampLength s) 0) s)
  else s

/-- The block tick finds no demand since the last one while the feeder is not SILENT (R130). -/
def clockLossDue (s : State) : Bool :=
  !s.feeder.seen && !s.feeder.clockLost && decide (s.feeder.state ≠ .silent)

/-- The clock monitor becomes LOST (R130); the tick then clears the seen indication. -/
def loseClock (s : State) : State :=
  raise .opClock 1
    (mapFeeder
      (fun f =>
        { f with
          clockLost := true, seen := false
          counters := { f.counters with clockLoss := bump f.counters.clockLoss } }) s)

/-- The clock monitor takes a block tick (R130). -/
def clockTick (s : State) : State :=
  if clockLossDue s then loseClock s else mapFeeder (fun f => { f with seen := false }) s

end Sys2Proof.Machine
end

