-- ==== Sys2Proof/Machine/Play.lean ====
section
/-!
DEFINITION. The Play Controller: its requests of the store and the feeder (R136), play commands (R137 to R142), loading
(R143 to R145), cueing (R146), suspension and return (R147, R148), tray, drive and disc removal (R149 to R153), supply
(R154, R155), end of disc and extent cuts (R131, R156, R157), and its writes to the Resume Table (R158, R159).
-/
namespace Sys2Proof.Machine

/-! ### Updates of the controller's fields -/

/-- Change the Play Controller. -/
def mapPlay (g : Play → Play) (s : State) : State := s.setPlay (g s.play)

/-- Count at the Play Controller (R160). -/
def countPlay (f : PlayCounters → PlayCounters) (s : State) : State :=
  mapPlay (fun p => { p with counters := f p.counters }) s

/-- An empty suspend-cause set. -/
def Causes.none : Causes := ⟨false, false, false⟩

/-- Enter a play state: leaving PAUSED clears the unprimed mark (R133), and each entry to SUSPENDED is counted (R148). -/
def Play.enter (p : Play) (state : PlayState) : Play :=
  { p with
    state := state
    unprimed := p.unprimed && !(decide (p.state = .paused) && decide (state ≠ .paused))
    counters :=
      if state = .suspended ∧ p.state ≠ .suspended then
        { p.counters with suspension := bump p.counters.suspension }
      else p.counters }

/-- Enter a play state and hand the planner its state notice (R134). -/
def enterState (state : PlayState) (byRestart : Bool) (s : State) : State :=
  plannerNotice byRestart (mapPlay (fun p => p.enter state) s)

/-- The reasons of DISC_READY (R197). -/
inductive ReadyReason where
  | loaded
  | resumeMiss
  | noDisc
  | loadTimeout
  | tray
  | returned
  | newDisc
  | extentCut
  deriving DecidableEq, Repr

/-- Codes of the reasons (R197). -/
def ReadyReason.code : ReadyReason → Nat
  | .loaded => 1
  | .resumeMiss => 2
  | .noDisc => 3
  | .loadTimeout => 4
  | .tray => 5
  | .returned => 6
  | .newDisc => 7
  | .extentCut => 8

/-- Raise DISC_READY with a reason and a position (R197). -/
def raiseReady (reason : ReadyReason) (position : Nat) (s : State) : State :=
  raise .discReady (16 * reason.code + position) s

/-! ### Requests of the store and the feeder (R135, R136) -/

/-- Hand a new extent to the store; the value it already has does nothing (R5, R135). -/
def changeExtent (e : Nat) (s : State) : State :=
  if s.store.extent = e then s else storeEvent (fun t => t.setExtent e) s

/-- Request a flush: the store-primed field becomes no in the same event, and only notices the store hands later keep it
(R136), so a notice that the store is primed which is handed but not taken yet is dropped. -/
def requestFlush (bn : Nat) (s : State) : State :=
  flushStore bn (mapPlay (fun p => { p with storePrimed := false }) (s.setNotices (s.notices.filter (fun primed => !primed))))

/-- Cue: the feeder's cue request, then the flush (R136). -/
def cueAt (bn frame : Nat) (s : State) : State := requestFlush bn (cueFeeder bn frame s)

/-- Flush at the cursor, then a stop request (R136). -/
def flushAtCursor (s : State) : State := stopRequest (requestFlush s.feeder.block s)

/-- Clear the disc: the record, the causes and marks, then a cue to (0, 0) (R136). -/
def clearDisc (s : State) : State :=
  cueAt 0 0
    (changeExtent 0
      (mapPlay
        (fun p =>
          { p with
            disc := DiscRecord.empty, causes := Causes.none, confirming := false, pauseOnPrime := false
            unprimed := false }) s))

/-- Queue LOAD: the Load counter rises and the load timer starts at 0 (R143). -/
def queueLoad (position : Nat) (s : State) : State :=
  countPlay (fun c => { c with load := bump c.load })
    (mapPlay (fun p => { p with loadTimer := 0 }) (txRequest (.load position) s))

/-- Queue LOAD for the disc record's position and set confirming (R143). -/
def loadForConfirmation (s : State) : State :=
  mapPlay (fun p => { p with confirming := true }) (queueLoad s.play.disc.position s)

/-! ### Writes to the Resume Table (R158, R159) -/

/-- The mode a seal takes from the play state (R159). -/
def Play.sealMode (p : Play) : SaveMode :=
  match p.state with
  | .playing | .coasting => .playing
  | .paused => .paused
  | .ready | .cueing | .empty | .loading => .ready
  | .suspended =>
    match p.returnTo with
    | .playing => .playing
    | .paused => .paused
    | .cueing => .ready

/-- A seal with a mode and a cause; a cursor at or beyond the record's extent leaves the entry as it is (R159). -/
def sealAs (mode : SaveMode) (cause : SealCause) (s : State) : State :=
  let d := s.play.disc
  if s.feeder.block < d.extent then
    resumeWrite d.position ⟨true, d.tag, s.feeder.block, s.feeder.frame, mode, cause⟩ s
  else s

/-- A seal that takes its mode from the play state (R159). -/
def sealEntry (cause : SealCause) (s : State) : State := sealAs s.play.sealMode cause s

/-- An invalidation (R159). -/
def invalidate (position : Nat) (s : State) : State := resumeWrite position ResumeEntry.invalid s

/-- The block-boundary notice (R158). -/
def playBoundary (b : Nat) (s : State) : State :=
  let d := s.play.disc
  if (s.play.state = .playing ∨ s.play.state = .coasting) ∧ b < d.extent then
    resumeWrite d.position ⟨true, d.tag, b, 0, .playing, .none⟩ s
  else s

/-! ### Cueing and return (R146, R147) -/

/-- CUEING ends: PLAYING with a play request, or PAUSED where pause-on-prime is set (R146). -/
def leaveCueing (s : State) : State :=
  if s.play.pauseOnPrime then
    enterState .paused false (mapPlay (fun p => { p with pauseOnPrime := false }) s)
  else playRequest (enterState .playing false s)

/-- The test made when CUEING is entered (R146). -/
def testCueing (s : State) : State :=
  if s.play.state = .cueing ∧ s.play.storePrimed = true then leaveCueing s else s

/-- A notice of the ready depth and the primed indication (R16, R133, R146). -/
def playPrimed (primed : Bool) (s : State) : State :=
  let s := mapPlay (fun p => { p with storePrimed := primed, unprimed := p.unprimed && !primed }) s
  if s.play.state = .cueing ∧ primed = true then leaveCueing s else s

/-- The return when the suspend-cause set becomes empty (R147). -/
def returnToPlay (s : State) : State :=
  match s.play.returnTo with
  | .playing =>
    if s.play.state = .coasting then
      playRequest (enterState .playing false
        (countPlay (fun c => { c with seamlessReturn := bump c.seamlessReturn }) s))
    else if s.play.storePrimed then playRequest (enterState .playing false s)
    else testCueing (stopRequest (enterState .cueing false s))
  | .paused => stopRequest (enterState .paused false s)
  | .cueing => testCueing (stopRequest (enterState .cueing false s))

/-! ### Play commands (R137 to R142) -/

/-- A PARAM byte as a number. -/
def paramByte (s : State) (i : Fin 6) : Nat := (s.console.mailbox.param[i]).toNat

/-- The BN of PLAY: PARAM0 to PARAM2 (R194). -/
def playBn (s : State) : Nat := paramByte s 0 * 65536 + paramByte s 1 * 256 + paramByte s 2

/-- The frame of PLAY: PARAM3 and PARAM4 (R194). -/
def playFrame (s : State) : Nat := paramByte s 3 * 256 + paramByte s 4

/-- The select mode a code names (R194). -/
def selectMode : Nat → SelectMode
  | 0 => .fromStart
  | 1 => .fromResume
  | _ => .loadOnly

/-- The tests of SELECT (R137). -/
def selectResult (s : State) : Result :=
  if 1 ≤ paramByte s 0 ∧ paramByte s 0 ≤ 6 ∧ paramByte s 1 ≤ 2 then .done else .refusedRange

/-- SELECT carried out (R138). -/
def runSelect (s : State) : State :=
  let position := paramByte s 0
  let mode := selectMode (paramByte s 1)
  let s :=
    match s.play.state with
    | .playing | .paused | .coasting => sealEntry .change s
    | .empty | .loading | .ready | .cueing | .suspended => s
  let s := mapPlay (fun p => { p with wanted := position, mode := mode, pauseOnPrime := false }) (clearDisc s)
  enterState .loading false (queueLoad position s)

/-- The tests of PLAY, in order (R137). -/
def playResult (s : State) : Result :=
  match s.play.state with
  | .empty | .loading | .suspended => .refusedNoDisc
  | .ready | .cueing | .playing | .paused | .coasting =>
    if s.play.supplyWarned then .refusedSupply
    else if playBn s < s.play.disc.extent ∧ playFrame s < Config.framesPerBlock then .done
    else .refusedRange

/-- PLAY carried out (R139). -/
def runPlay (s : State) : State :=
  let coasting := decide (s.play.state = .coasting)
  let s :=
    cueAt (playBn s) (playFrame s) (mapPlay (fun p => { p with pauseOnPrime := false, unprimed := false }) s)
  if coasting then enterState .suspended false (mapPlay (fun p => { p with returnTo := .cueing }) s)
  else testCueing (enterState .cueing false s)

/-- The test of PAUSE (R137). -/
def pauseResult (s : State) : Result :=
  match s.play.state with
  | .playing | .cueing => .done
  | .empty | .loading | .ready | .paused | .coasting | .suspended => .refusedState

/-- PAUSE carried out (R140). -/
def runPause (s : State) : State :=
  let cueing := decide (s.play.state = .cueing)
  let s := sealAs .paused .none s
  let s := if cueing then mapPlay (fun p => { p with unprimed := true }) s else stopRequest s
  enterState .paused false s

/-- The tests of CONTINUE, in order (R137). -/
def continueResult (s : State) : Result :=
  if s.play.supplyWarned then .refusedSupply
  else if s.play.state = .paused then .done
  else .refusedState

/-- CONTINUE carried out (R141). -/
def runContinue (s : State) : State :=
  let s := mapPlay (fun p => { p with unprimed := false, pauseOnPrime := false }) s
  if s.play.storePrimed then playRequest (enterState .playing false s)
  else testCueing (enterState .cueing false s)

/-- The test of STOP (R137). -/
def stopResult (s : State) : Result := if s.play.state = .empty then .refusedState else .done

/-- STOP carried out (R142). With a CONFIRMED disc the state notice reaches the planner before the flush (R70 allows
either order), so one CEASE reaches the line. -/
def runStop (s : State) : State :=
  let s :=
    match s.play.state with
    | .playing | .paused | .coasting => sealAs .ready .stop s
    | .empty | .loading | .ready | .cueing | .suspended => s
  if s.play.disc.confirmed then
    flushAtCursor (enterState .ready false (mapPlay (fun p => { p with causes := Causes.none }) s))
  else
    let wanted := if s.play.state = .loading then 0 else s.play.wanted
    enterState .empty false (mapPlay (fun p => { p with wanted := wanted }) (clearDisc s))

/-! ### Loading and removal (R143 to R145, R149 to R153) -/

/-- The load is given up while LOADING: disc cleared, wanted position 0, EMPTY, DISC_READY (R145, R149). -/
def endLoading (reason : ReadyReason) (s : State) : State :=
  let position := s.play.wanted
  raiseReady reason position
    (enterState .empty false (mapPlay (fun p => { p with wanted := 0 }) (clearDisc s)))

/-- The disc is given up: disc cleared, EMPTY, DISC_READY with the record's position (R151, R153). -/
def loseDisc (reason : ReadyReason) (s : State) : State :=
  let position := s.play.disc.position
  raiseReady reason position (enterState .empty false (clearDisc s))

/-- A stray answer (R145, R151, R153). -/
def strayAnswer (s : State) : State := countPlay (fun c => { c with strayAnswer := bump c.strayAnswer }) s

/-- An unsolicited answer (R145). -/
def unsolicited (s : State) : State := countPlay (fun c => { c with unsolicited := bump c.unsolicited }) s

/-- Where a confirmed load leads: the cue position, the play state, the pause-on-prime mark and the reason (R144). -/
structure LoadPlan where
  bn     : Nat
  frame  : Nat
  state  : PlayState
  pause  : Bool
  reason : ReadyReason
  deriving DecidableEq, Repr

/-- The table of R144. -/
def loadPlan (mode : SelectMode) (backoff : Nat) (entry : ResumeEntry) (tag : Tag) (extent : Nat) : LoadPlan :=
  match mode with
  | .fromStart => ⟨0, 0, .cueing, false, .loaded⟩
  | .loadOnly => ⟨0, 0, .ready, false, .loaded⟩
  | .fromResume =>
    if entry.valid = true ∧ entry.tag = tag ∧ entry.bn - backoff < extent then
      ⟨entry.bn - backoff, if 0 < backoff then 0 else entry.frame, .cueing, decide (entry.mode = .paused), .loaded⟩
    else ⟨0, 0, .ready, false, .resumeMiss⟩

/-- Cue as a plan says and enter its state; a supply warning makes CUEING a SUSPENDED (R144). -/
def followPlan (plan : LoadPlan) (s : State) : State :=
  let s := mapPlay (fun p => { p with pauseOnPrime := p.pauseOnPrime || plan.pause }) (cueAt plan.bn plan.frame s)
  if plan.state = .cueing ∧ s.play.supplyWarned = true then
    enterState .suspended false (mapPlay (fun p => { p with causes := ⟨false, true, false⟩, returnTo := .cueing }) s)
  else testCueing (enterState plan.state false s)

/-- The entry of a position, not valid where it is of another disc (R144). -/
def forgetOther (tag : Tag) (position : Nat) (s : State) : State :=
  let held := s.resume.entry position
  if held.valid = true ∧ held.tag ≠ tag then invalidate position s else s

/-- A DISC that confirms the load (R144). -/
def confirmLoad (tag : Tag) (extent position : Nat) (s : State) : State :=
  let s := countPlay (fun c => { c with confirmation := bump c.confirmation })
    (mapPlay (fun p => { p with disc := ⟨position, tag, extent, true⟩ }) s)
  let s := forgetOther tag position (changeExtent extent s)
  let plan := loadPlan s.play.mode s.console.params.resumeBackoff (s.resume.entry position) tag extent
  raiseReady plan.reason position (followPlan plan s)

/-- A DISC for the record's position is matched (R151). -/
def matchesReturn (position : Nat) (p : Play) : Bool :=
  decide (position = p.disc.position) && (p.confirming || (p.causes.drive && !p.causes.tray))

/-- A matched DISC of the same tag (R151). -/
def sameDisc (s : State) : State :=
  let position := s.play.disc.position
  let s := mapPlay
    (fun p =>
      { p with
        confirming := false, causes := ⟨false, p.causes.supply, false⟩, disc := { p.disc with confirmed := true } }) s
  let s := countPlay (fun c => { c with sameDisc := bump c.sameDisc }) (raiseReady .returned position s)
  if s.play.causes.isEmpty then returnToPlay s else plannerNotice false s

/-- A matched DISC of a different tag: the cue reaches the feeder before the store's notice of the extent (R136, R151). -/
def newDisc (tag : Tag) (extent position : Nat) (s : State) : State :=
  let s := mapPlay
    (fun p =>
      { p with
        confirming := false, causes := Causes.none, pauseOnPrime := false, unprimed := false
        disc := ⟨position, tag, extent, true⟩ })
    (invalidate s.play.disc.position s)
  let s := requestFlush 0 (changeExtent extent (cueFeeder 0 0 s))
  countPlay (fun c => { c with newDisc := bump c.newDisc })
    (raiseReady .newDisc position (enterState .ready false s))

/-- The Play Controller takes a DISC (R144, R145, R151). -/
def takeDisc (tag : Tag) (extent position : Nat) (s : State) : State :=
  match s.play.state with
  | .loading => if position = s.play.wanted then confirmLoad tag extent position s else strayAnswer s
  | .coasting | .suspended =>
    if matchesReturn position s.play then
      (if tag = s.play.disc.tag then sameDisc s else newDisc tag extent position s)
    else if s.play.confirming = true ∧ position ≠ s.play.disc.position then strayAnswer s
    else unsolicited s
  | .empty | .ready | .cueing | .playing | .paused => unsolicited s

/-- From PLAYING an interruption coasts, unless the feeder is STARVED (R149, R152). -/
def coastOrSuspend (byRestart : Bool) (s : State) : State :=
  if s.feeder.state = .starved then enterState .suspended byRestart s
  else countPlay (fun c => { c with coast := bump c.coast }) (enterState .coasting byRestart s)

/-- The disc record becomes UNCONFIRMED (R135). -/
def Play.unconfirm (p : Play) : Play := { p with disc := { p.disc with confirmed := false } }

/-- The drive took the disc away in CUEING, PAUSED, PLAYING, COASTING or SUSPENDED; `reload` queues the LOAD of a Drive
Restart, which a GONE does not (R152, R153). -/
def driveAway (byRestart reload : Bool) (s : State) : State :=
  let add (p : Play) : Play := { p.unconfirm with causes := { p.causes with drive := true } }
  let load (s : State) : State :=
    if reload && (!s.play.causes.tray || s.play.confirming) then loadForConfirmation s else s
  match s.play.state with
  | .cueing =>
    enterState .suspended byRestart
      (stopRequest (load (mapPlay (fun p => { add p with returnTo := .cueing }) (sealEntry .drive s))))
  | .paused =>
    enterState .suspended byRestart
      (stopRequest (load (mapPlay (fun p => { add p with returnTo := .paused }) (sealEntry .drive s))))
  | .playing =>
    coastOrSuspend byRestart (load (mapPlay (fun p => { add p with returnTo := .playing }) (sealEntry .drive s)))
  | .coasting | .suspended => plannerNotice byRestart (load (mapPlay add s))
  | .empty | .loading | .ready => s

/-- The Play Controller takes a GONE (R145, R151, R153). -/
def takeGone (position : Nat) (s : State) : State :=
  match s.play.state with
  | .empty => unsolicited s
  | .loading => if position = s.play.wanted then endLoading .noDisc s else strayAnswer s
  | .ready => if position = s.play.disc.position then loseDisc .noDisc s else strayAnswer s
  | .cueing | .playing | .paused | .coasting | .suspended =>
    if position ≠ s.play.disc.position then strayAnswer s
    else if s.play.confirming then loseDisc .noDisc s
    else driveAway false false s

/-- The Play Controller takes a Drive Restart (R152). -/
def playRestart (s : State) : State :=
  match s.play.state with
  | .empty => s
  | .loading => queueLoad s.play.wanted s
  | .ready =>
    let position := s.play.disc.position
    enterState .loading true
      (queueLoad position
        (mapPlay (fun p => { p with wanted := position, mode := .loadOnly }) (clearDisc s)))
  | .cueing | .playing | .paused | .coasting | .suspended => driveAway true true s

/-- The Play Controller takes a TRAY out (R149). -/
def playTrayOut (s : State) : State :=
  let add (p : Play) : Play :=
    { p.unconfirm with causes := { p.causes with tray := true }, confirming := false }
  match s.play.state with
  | .empty => s
  | .loading => endLoading .tray s
  | .ready => enterState .empty false (clearDisc (sealEntry .tray s))
  | .cueing =>
    enterState .suspended false (stopRequest (mapPlay (fun p => { add p with returnTo := .cueing }) (sealEntry .tray s)))
  | .paused =>
    enterState .suspended false (stopRequest (mapPlay (fun p => { add p with returnTo := .paused }) (sealEntry .tray s)))
  | .playing => coastOrSuspend false (mapPlay (fun p => { add p with returnTo := .playing }) (sealEntry .tray s))
  | .coasting | .suspended => plannerNotice false (mapPlay add (sealEntry .tray s))

/-- The Play Controller takes a TRAY in (R150). -/
def playTrayIn (s : State) : State := if s.play.causes.tray then loadForConfirmation s else s

/-- The load timer reaches Load Timeout at this tick (R143). -/
def loadTimeoutDue (s : State) : Bool :=
  s.play.timerRuns && decide (s.console.params.loadTimeout ≤ satAdd 2047 s.play.loadTimer 1)

/-- The load has timed out (R145, R151). -/
def timeOutLoad (s : State) : State :=
  let s := mapPlay (fun p => { p with loadTimer := satAdd 2047 p.loadTimer 1 })
    (countPlay (fun c => { c with loadTimeout := bump c.loadTimeout }) s)
  if s.play.state = .loading then endLoading .loadTimeout s else loseDisc .loadTimeout s

/-- The Play Controller takes a block tick (R143). -/
def loadTick (s : State) : State :=
  if loadTimeoutDue s then timeOutLoad s
  else if s.play.timerRuns then mapPlay (fun p => { p with loadTimer := satAdd 2047 p.loadTimer 1 }) s
  else s

/-! ### Starvation and supply (R148, R154, R155) -/

/-- A starvation notice (R148). -/
def playStarved (s : State) : State :=
  if s.play.state = .coasting then
    enterState .suspended false (sealAs .playing (if s.play.causes.tray then .tray else .drive) s)
  else s

/-- What SUSPENDED does on a supply warning: stop request, seal with cause SUPPLY, CEASE (R154). -/
def supplySuspends (s : State) : State :=
  txRequest (.cease s.planner.stream.number) (sealEntry .supply (stopRequest s))

/-- A supply warning (R154). -/
def playSupplyWarning (s : State) : State :=
  let s := mapPlay (fun p => { p with supplyWarned := true }) s
  let add (p : Play) : Play := { p with causes := { p.causes with supply := true } }
  let count (s : State) : State := countPlay (fun c => { c with supplySuspension := bump c.supplySuspension }) s
  match s.play.state with
  | .playing | .coasting =>
    enterState .suspended false (count (supplySuspends (mapPlay (fun p => { add p with returnTo := .playing }) s)))
  | .paused =>
    enterState .suspended false (count (supplySuspends (mapPlay (fun p => { add p with returnTo := .paused }) s)))
  | .cueing =>
    enterState .suspended false (count (supplySuspends (mapPlay (fun p => { add p with returnTo := .cueing }) s)))
  | .suspended => supplySuspends (mapPlay add s)
  | .empty | .loading | .ready => s

/-- A supply recovery (R155). -/
def playSupplyRecovery (s : State) : State :=
  let had := s.play.causes.supply
  let s := mapPlay (fun p => { p with supplyWarned := false, causes := { p.causes with supply := false } }) s
  if had && s.play.causes.isEmpty then
    (if s.console.params.autoResume = 1 then returnToPlay s else stopRequest (enterState .paused false s))
  else s

/-! ### End of disc and extent cuts (R131, R156, R157) -/

/-- The Play Controller takes an end notice (R156). -/
def endNotice (s : State) : State :=
  let position := s.play.disc.position
  let s := invalidate position
    (countPlay (fun c => { c with endOfDisc := bump c.endOfDisc }) (raise .endOfDisc position s))
  let s := mapPlay
    (fun p => { p with causes := Causes.none, confirming := false, pauseOnPrime := false, unprimed := false }) s
  if s.play.disc.confirmed then enterState .ready false s else enterState .empty false (clearDisc s)

/-- The feeder's state at the end of disc: SILENT with no ramp, unless it is SILENT already (R131). -/
def Feeder.endDisc (f : Feeder) : Feeder :=
  if f.state = .silent then { f with atEnd := true }
  else { f.endRun with state := .silent, gain := 0, fade := none, last := Sample.zero, atEnd := true }

/-- The feeder takes the end of disc, once per arrival (R131). -/
def endOfDisc (s : State) : State := if s.feeder.atEnd then s else endNotice (mapFeeder Feeder.endDisc s)

/-- The feeder takes the store's notice of a new extent (R131). A cut to 0 gives no end notice, since R131 asks for an extent above
0; R157 speaks of every cut that leaves the cursor at or beyond it (DESIGN CHOICE, log entry 39). -/
def feederExtent (s : State) : State :=
  if atDiscEnd s then endOfDisc s
  else if 0 < s.play.disc.extent then mapFeeder (fun f => { f with atEnd := false }) s
  else s

/-- A request to cut the extent (R157). -/
def cutExtent (x : Nat) (s : State) : State :=
  if x < s.play.disc.extent then
    let s := changeExtent x (mapPlay (fun p => { p with disc := { p.disc with extent := x } }) s)
    feederExtent (raiseReady .extentCut s.play.disc.position s)
  else s

/-! ### The notice of readiness (R16) -/

/-- One notice of readiness is taken by the feeder and then by the Play Controller (R16, R124, R146). -/
def takeReadiness (s : State) (primed : Bool) : State := playPrimed primed (feederPrimed primed s)

/-- The notices handed so far are taken, in the order they were handed. -/
def takeHanded (s : State) : State := s.notices.foldl takeReadiness (s.setNotices [])

/-- Every notice of a step is taken. Taking one makes a further event at the store only where the feeder starts, which happens
at most once, so the second round finds the last of them. -/
def takeNotices (s : State) : State := takeHanded (takeHanded s)

/-- A step: what the command does, then the notices of readiness the store has handed meanwhile (R16). The notices of a step
are its own, and the field is left as it was found (log entry 13). -/
def inStep (f : State → State) (s : State) : Outcome :=
  .next ((takeNotices (f (s.setNotices []))).setNotices s.notices)

end Sys2Proof.Machine
end

