-- ==== Sys2Proof/Machine/Streams.lean ====
section
/-!
DEFINITION. What happens to the current stream: the set-up the Assembler takes (R25), the drive's answers (R58 to R61), the
reports of the Assembler (R62 to R64), the seek timer (R57), and Drive Restart at the planner (R69).
-/
namespace Sys2Proof.Machine

/-! ### The stream set-up (R25) -/

/-- Count at the Assembler (R43). -/
def countPlacement (f : PlacementCounters → PlacementCounters) (s : State) : State :=
  s.setAsm { s.asm with counters := f s.asm.counters }

/-- Present frames of the blocks from `start` up to `target` (R25); a block outside the window has none (R10). -/
def Store.presentIn (t : Store) (start target : Nat) : Nat :=
  ((List.range (target - start)).map
    (fun i => (t.slotOf (start + i)).goodCount + (t.slotOf (start + i)).erasedCount)).sum

/-- GOOD frames of the blocks from `start` up to `target` (R25). -/
def Store.goodIn (t : Store) (start target : Nat) : Nat :=
  ((List.range (target - start)).map (fun i => (t.slotOf (start + i)).goodCount)).sum

/-- The kinds of stream of R25's table; a blind stream says why. -/
inductive SetUpKind where
  | fresh
  | blindMislocks
  | blindLowReference
  | searching
  deriving DecidableEq, Repr

/-- The first row of R25's table whose condition holds. -/
def setUpKind (present good matchRun : Nat) (forceBlind : Bool) : SetUpKind :=
  if present = 0 then .fresh
  else if forceBlind then .blindMislocks
  else if good < matchRun then .blindLowReference
  else .searching

/-- The phase a kind of stream begins in (R25). -/
def SetUpKind.phase : SetUpKind → Phase
  | .searching => .searching
  | .fresh | .blindMislocks | .blindLowReference => .anchored

/-- A blind seam: counted, and reported with its reason (R25, R197). -/
def SetUpKind.report (kind : SetUpKind) (s : State) : State :=
  let blind (detail : Nat) : State :=
    raise .seamBlind detail (countPlacement (fun c => { c with blindSeam := bump c.blindSeam }) s)
  match kind with
  | .fresh | .searching => s
  | .blindMislocks => blind 1
  | .blindLowReference => blind 2

/-- What R25's table says of a set-up. -/
def setUpKindOf (start target : Nat) (forceBlind : Bool) (s : State) : SetUpKind :=
  setUpKind (s.store.presentIn start target) (s.store.goodIn start target) s.console.params.matchRun forceBlind

/-- The Assembler takes a set-up (R25). -/
def setUp (number start target landing : Nat) (forceBlind : Bool) (s : State) : State :=
  let kind := setUpKindOf start target forceBlind s
  let s := s.setAsm { s.asm with align := ⟨number, kind.phase, start, target, landing, 0⟩ }
  kind.report (s.setLink { s.link with lost := false })

/-! ### Answers of the drive (R58 to R61) -/

/-- A Stale answer is counted and does nothing else (R61). -/
def staleAnswer (s : State) : State := countPlanner (fun c => { c with staleAnswer := bump c.staleAnswer }) s

/-- A LANDED or REFUSED is for the current stream (R58, R59, R61). -/
def answersSeek (n : Nat) (s : State) : Bool :=
  decide (n ≠ 0) && decide (n = s.planner.stream.number) && decide (s.planner.stream.state = .seeking)

/-- The mislock count of the target; none for a REPAIR stream whose ACTIVE entry has vanished (R58, R64). -/
def targetMislocks (s : State) : Option Nat :=
  match s.planner.stream.purpose with
  | .frontier => some s.planner.frontier.mislocks
  | .repair => (s.planner.list.find? RepairEntry.active).map RepairEntry.mislocks

/-- Change the mislock count of the target (R58, R64). -/
def mapTargetMislocks (f : Nat → Nat) (s : State) : State :=
  match s.planner.stream.purpose with
  | .frontier => setFrontier { s.planner.frontier with mislocks := f s.planner.frontier.mislocks } s
  | .repair => setList (s.planner.list.map (fun e => if e.active then { e with mislocks := f e.mislocks } else e)) s

/-- The stream has reached its end (R62). -/
def endReached (s : State) : Bool :=
  let x := s.planner.stream
  match x.purpose with
  | .repair => decide (x.servedLast < x.expected)
  | .frontier =>
    decide ((s.store.extent * Config.framesPerBlock : Nat) ≤ (x.expected * Config.framesPerBlock : Nat) + x.offset)

/-- The end check after a report or a LANDED (R62). -/
def endCheck (s : State) : State :=
  if decide (s.planner.stream.state ≠ .none) && endReached s then closeStream .ended s else s

/-- The state that mirrors a phase (R51). -/
def Phase.streamState : Phase → StreamState
  | .none => .seeking
  | .searching => .searching
  | .anchored => .anchored

/-- Whether a landing sets the force-blind indication (R58). -/
def forcesBlind (s : State) : Bool :=
  match targetMislocks s with
  | none => false
  | some n => decide (3 ≤ n)

/-- The planner takes a landing of the current stream, up to the set-up (R58). -/
def beginLanding (landing : Nat) (s : State) : State :=
  let s := setStream { s.planner.stream with timerRuns := false, expected := landing }
    (countPlanner (fun c => { c with landed := bump c.landed }) s)
  if forcesBlind s then mapTargetMislocks (fun _ => 0) s else s

/-- The landing of the current stream: set-up, the Assembler's evaluation of its flow, state, end check, choice (R41, R58,
R62). -/
def land (landing : Nat) (s : State) : State :=
  let blind := forcesBlind s
  let x := s.planner.stream
  let kind := setUpKindOf x.start x.target blind s
  let s := evaluateFlow (setUp x.number x.start x.target landing blind (beginLanding landing s))
  settle (endCheck (setStream { s.planner.stream with state := kind.phase.streamState } s))

/-- The planner takes a LANDED (R58, R61). -/
def takeLanded (n landing : Nat) (s : State) : State := if answersSeek n s then land landing s else staleAnswer s

/-- A frontier refusal: counted, and at the effective Retry Limit the extent is cut to the fill head (R59, R67). -/
def refuseFrontier (s : State) : State :=
  let n := satAdd 15 s.planner.frontier.refusals 1
  if effectiveRetry s ≤ n then
    cutExtent s.planner.frontier.fillHead
      (countPlanner (fun c => { c with extentCut := bump c.extentCut })
        (setFrontier { s.planner.frontier with refusals := 0 } s))
  else setFrontier { s.planner.frontier with refusals := n } s

/-- A REFUSED BUSY of the current stream (R59): the penalty follows the choice. -/
def refuseBusy (s : State) : State :=
  let purpose := s.planner.stream.purpose
  let s := closeStream .busy (countPlanner (fun c => { c with refusedBusy := bump c.refusedBusy }) s)
  let s := match purpose with
    | .frontier => refuseFrontier s
    | .repair => s
  addSkip 1 (settle s)

/-- A REFUSED RANGE of the current stream (R60, R67). -/
def refuseRange (s : State) : State :=
  let start := s.planner.stream.start
  let s := closeStream .range (countPlanner (fun c => { c with refusedRange := bump c.refusedRange }) s)
  settle (cutExtent start s)

/-- The planner takes a REFUSED: reason 1 is BUSY, 2 is RANGE (R59 to R61, R193). -/
def takeRefused (n reason : Nat) (s : State) : State :=
  if answersSeek n s then (if reason = 1 then refuseBusy s else refuseRange s) else staleAnswer s

/-- A broken stream: closed, the choice, then the penalty of 8 (R63). -/
def breakStream (s : State) : State := addSkip 8 (settle (closeStream .broken s))

/-- A JUMP is for the current stream (R61, R63). -/
def jumpIsCurrent (n : Nat) (s : State) : Bool :=
  decide (n ≠ 0) && decide (n = s.planner.stream.number) &&
    (decide (s.planner.stream.state = .searching) || decide (s.planner.stream.state = .anchored))

/-- The planner takes a JUMP (R61, R63). -/
def takeJump (n : Nat) (s : State) : State :=
  if jumpIsCurrent n s then breakStream (countPlanner (fun c => { c with jump := bump c.jump }) s) else staleAnswer s

/-! ### Reports of the Assembler (R62 to R64) -/

/-- A report names the current stream. -/
def reportIsCurrent (n : Nat) (s : State) : Bool :=
  decide (n = s.planner.stream.number) && decide (s.planner.stream.state ≠ .none)

/-- The planner takes a discontinuity report (R63). -/
def takeDiscontinuity (n : Nat) (s : State) : State := if reportIsCurrent n s then breakStream s else settle s

/-- The planner takes a mislock report (R64). -/
def takeMislock (n : Nat) (s : State) : State :=
  if reportIsCurrent n s then
    addSkip 8
      (settle
        (closeStream .mislock
          (countPlanner (fun c => { c with mislock := bump c.mislock }) (mapTargetMislocks (fun m => satAdd 3 m 1) s))))
  else settle s

/-- The stream record after a placement report (R62); an anchoring names the offset. -/
def Stream.report (x : Stream) (expected : Nat) (anchored : Option Int) : Stream :=
  match anchored with
  | none => { x with expected := expected }
  | some d =>
    { x with
      expected := expected, offset := d
      state := match x.state with
        | .none => .none
        | .seeking | .searching | .anchored => .anchored }

/-- The planner takes a placement report, and ends its event; a report bearing another stream number is ignored (R62). -/
def takePlacement (n expected : Nat) (anchored : Option Int) (s : State) : State :=
  settle
    (if n = s.planner.stream.number then endCheck (setStream (s.planner.stream.report expected anchored) s) else s)

/-! ### The seek timer (R57) and Drive Restart (R69) -/

/-- The tick brings the seek timer to Seek Timeout (R57). -/
def seekTimeoutDue (s : State) : Bool :=
  s.planner.stream.timerRuns && decide (s.console.params.seekTimeout ≤ satAdd 1023 s.planner.stream.timer 1)

/-- The seek timer advances by one tick. -/
def advanceSeekTimer (s : State) : State :=
  setStream { s.planner.stream with timer := satAdd 1023 s.planner.stream.timer 1 } s

/-- The stream has timed out (R57). -/
def timeOutSeek (s : State) : State :=
  addSkip 8
    (settle
      (closeStream .seekTimeout
        (countPlanner (fun c => { c with seekTimeout := bump c.seekTimeout }) (advanceSeekTimer s))))

/-- The planner takes a block tick (R57). -/
def seekTick (s : State) : State :=
  if seekTimeoutDue s then timeOutSeek s
  else if s.planner.stream.timerRuns then advanceSeekTimer s
  else s

/-- The planner takes a Drive Restart (R69). -/
def plannerRestart (s : State) : State := settle (closeStream .driveRestart s)

end Sys2Proof.Machine
end

