-- ==== Sys2Proof/Machine/Placing.lean ====
section
/-!
DEFINITION. Placement of the oldest intake entry (R23): acceptance (R26), continuity (R27 to R29), the alignment search (R30
to R33), frame placement (R35, R36), the merge (R37, R38) and the reports (R39, R40).
-/
namespace Sys2Proof.Machine

/-- The Assembler evaluates its flow; a change of it is an event at the planner (R41, R53). -/
def reflow (s : State) : State :=
  let t := evaluateFlow s
  if flowDiffers s t then settle t else t

/-- Change the alignment state. -/
def setAlign (a : Align) (s : State) : State := s.setAsm { s.asm with align := a }

/-! ### The alignment search (R30, R31) -/

/-- A delivered frame agrees with a held one (R30). -/
def Frame.agrees (delivered held : Frame) : Bool :=
  decide (delivered.mark = .good) && decide (held.mark = .good) && decide (delivered.value = held.value)

/-- The held frame at a position, ABSENT before the play position (R30). -/
def comparedFrame (s : State) (q : Int) : Frame :=
  if q < (playPosition s : Nat) then Frame.none else s.store.frameAt q.toNat

/-- Which frames from position `q` on agree with the held audio. -/
def agreements (s : State) : Int → List Frame → List Bool
  | _, [] => []
  | q, f :: rest => f.agrees (comparedFrame s q) :: agreements s (q + 1) rest

/-- A run of at least `need` agreements, `n` of them just before the list. -/
def hasRun (need : Nat) : Nat → List Bool → Bool
  | n, [] => decide (need ≤ n)
  | n, b :: rest => decide (need ≤ n) || hasRun need (if b then n + 1 else 0) rest

/-- An offset matches (R30). -/
def offsetMatches (s : State) (x : IntakeEntry) (d : Int) : Bool :=
  hasRun s.console.params.matchRun 0 (agreements s ((x.bn * Config.framesPerBlock : Nat) + d) x.frames)

/-- The candidate offsets in the order of choice: 0, -1, 1, -2, 2 and so on up to Slip Range (R30, R31). -/
def candidateOffsets (slip : Nat) : List Int :=
  0 :: (List.range slip).flatMap (fun k => [-((k + 1 : Nat) : Int), ((k + 1 : Nat) : Int)])

/-- The offset chosen, if one matches (R31). -/
def chooseOffset (s : State) (x : IntakeEntry) : Option Int :=
  (candidateOffsets s.console.params.slipRange).find? (offsetMatches s x)

/-! ### Frame placement and merge (R35 to R38) -/

/-- The absolute positions of a list of frames from `q` on. -/
def positioned : Int → List Frame → List (Int × Frame)
  | _, [] => []
  | q, f :: rest => (q, f) :: positioned (q + 1) rest

/-- A position is neither before the play position nor at or beyond the window end (R35). -/
def placeable (s : State) (q : Int) : Bool :=
  decide ((playPosition s : Nat) ≤ q) && decide (q < (s.store.limit * Config.framesPerBlock : Nat))

/-- The frames of an entry that are placed at an offset (R35). -/
def placedFrames (s : State) (x : IntakeEntry) (d : Int) : List (Nat × Frame) :=
  ((positioned ((x.bn * Config.framesPerBlock : Nat) + d) x.frames).filter (fun f => placeable s f.1)).map
    (fun f => (f.1.toNat, f.2))

/-- The merge rule (R37). -/
def mergeFrame (held incoming : Frame) : Frame :=
  match held.mark, incoming.mark with
  | .absent, _ => incoming
  | .erased, .good => incoming
  | .erased, .erased => held
  | .erased, .absent => held
  | .good, .good => if held.value = incoming.value then held else ⟨.erased, incoming.value⟩
  | .good, .erased => held
  | .good, .absent => held

/-- Two GOOD readings of different values (R38). -/
def disagrees (held incoming : Frame) : Bool :=
  decide (held.mark = .good) && decide (incoming.mark = .good) && decide (held.value ≠ incoming.value)

/-- A merge step: the block, and the resulting frames of its slot by index (R36). -/
structure MergeStep where
  bn     : Nat
  frames : List (Nat × Frame)
  deriving DecidableEq, Repr

/-- The merge step of one block (R36, R37). -/
def mergeStepOf (t : Store) (placed : List (Nat × Frame)) (b : Nat) : MergeStep :=
  ⟨b,
    (placed.filter (fun f => decide (f.1 / Config.framesPerBlock = b))).map
      (fun f => (f.1 % Config.framesPerBlock, mergeFrame (t.frameAt f.1) f.2))⟩

/-- The blocks an entry can reach, in rising order (R36). -/
def reachedBlocks (bn : Nat) : List Nat := if bn = 0 then [0, 1] else [bn - 1, bn, bn + 1]

/-- The merge steps of a placement; a block that receives no frame has none (R36). -/
def mergeSteps (t : Store) (bn : Nat) (placed : List (Nat × Frame)) : List MergeStep :=
  ((reachedBlocks bn).map (mergeStepOf t placed)).filter (fun m => !m.frames.isEmpty)

/-- How many placed frames disagree with the held ones (R38). -/
def disagreements (t : Store) (placed : List (Nat × Frame)) : Nat :=
  placed.countP (fun f => disagrees (t.frameAt f.1) f.2)

/-- The store takes one merge step, and the planner its notice (R9, R47); the planner chooses once it has taken the placement
report as well (log entry 7). -/
def takeStep (s : State) (m : MergeStep) : State :=
  storeNotified (fun t => t.merge (effectiveRetry s) m.bn m.frames) s

/-- The store takes the merge steps, one event each (R9, R39). -/
def takeSteps (steps : List MergeStep) (s : State) : State := steps.foldl takeStep s

/-! ### The outcomes of a placement -/

/-- A placement ends without any report (R26). -/
def dropEntry (f : PlacementCounters → PlacementCounters) (s : State) : State := reflow (countPlacement f s)

/-- A discontinuity: the Assembler's own event with its evaluation of the flow, then the report (R29, R41). -/
def discontinuity (s : State) : State :=
  let n := s.asm.align.stream
  takeDiscontinuity n
    (evaluateFlow (clearPhase (countPlacement (fun c => { c with discontinuity := bump c.discontinuity }) s)))

/-- A mislock: the Assembler's own event with its evaluation of the flow, then the report (R33, R41). -/
def mislock (s : State) : State :=
  let n := s.asm.align.stream
  takeMislock n (evaluateFlow (clearPhase s))

/-- What every placement that passed continuity ends with: the reports to the planner and the Monitor (R39, R40). -/
def reportPlacement (n : Nat) (x : IntakeEntry) (anchored : Option Int) (inSequence : Bool) (s : State) : State :=
  takeReport x.cls inSequence (takePlacement n (x.bn + 1) anchored s)

/-- An unmatched comparison (R32). -/
def compareOnly (x : IntakeEntry) (s : State) : State :=
  let a := s.asm.align
  reportPlacement a.stream x none true
    (evaluateFlow
      (setAlign { a with expected := x.bn + 1 }
        (countPlacement (fun c => { c with compared := bump c.compared }) s)))

/-- The placement counters after an entry is placed (R43). -/
def PlacementCounters.afterPlacing (c : PlacementCounters) (steps disagreed : Nat) (anchors : Bool) : PlacementCounters :=
  { c with
    placed := if steps = 0 then c.placed else bump c.placed
    seam := if anchors then bump c.seam else c.seam
    disagreement := bumpBy c.disagreement disagreed }

/-- An entry is placed at an offset; `anchored` names it where this placement anchors the stream (R31, R35 to R40). The
Assembler's own event comes first, with its evaluation of the flow (R41); then the store takes the merge steps, and the planner
their notices and the report. -/
def placeAt (x : IntakeEntry) (d : Int) (anchored : Option Int) (inSequence : Bool) (s : State) : State :=
  let a := s.asm.align
  let placed := placedFrames s x d
  let steps := mergeSteps s.store x.bn placed
  let disagreed := disagreements s.store placed
  reportPlacement a.stream x anchored inSequence
    (takeSteps steps
      (evaluateFlow
        (setAlign { a with phase := .anchored, offset := d, expected := x.bn + 1 }
          (countPlacement (fun c => c.afterPlacing steps.length disagreed anchored.isSome) s))))

/-- The tolerance of a short gap after a lost message (R28). -/
def toleratesGap (s : State) (x : IntakeEntry) : Bool :=
  let a := s.asm.align
  decide (a.phase = .anchored) && decide (a.expected < x.bn) && decide (x.bn ≤ a.expected + 4) && s.link.lost

/-- An accepted entry that is in sequence (R27, R30 to R33). -/
def placeInSequence (x : IntakeEntry) (s : State) : State :=
  let a := s.asm.align
  if a.phase = .searching then
    if a.target ≤ x.bn then mislock s
    else
      match chooseOffset s x with
      | none => compareOnly x s
      | some d => placeAt x d (some d) true s
  else placeAt x a.offset none true s

/-- An accepted entry: continuity, then alignment or placement (R27 to R29). -/
def placeAccepted (x : IntakeEntry) (s : State) : State :=
  if x.bn = s.asm.align.expected then placeInSequence x s
  else if toleratesGap s x then placeAt x s.asm.align.offset none false (s.setLink { s.link with lost := false })
  else discontinuity s

/-- Judge one entry (R26). -/
def judgeEntry (x : IntakeEntry) (s : State) : State :=
  if x.stream ≠ s.asm.align.stream ∨ s.asm.align.phase = .none then
    dropEntry (fun c => { c with stale := bump c.stale }) s
  else if x.tag ≠ s.play.disc.tag then dropEntry (fun c => { c with stray := bump c.stray }) s
  else if s.health.state = .withdrawn then dropEntry (fun c => { c with withheld := bump c.withheld }) s
  else placeAccepted x s

/-- The Assembler takes its oldest entry for placement; with an empty Intake nothing happens (R23). -/
def placement (s : State) : State :=
  match s.asm.intake with
  | [] => s
  | x :: rest => judgeEntry x (s.setAsm { s.asm with intake := rest })

/-! ### The command -/

/-- PLACEMENT (R23). -/
def execPlacement (s : State) : Outcome := inStep placement s

end Sys2Proof.Machine
end

