-- ==== Sys2Proof/Machine/Output.lean ====
section
/-!
DEFINITION. The frame demand (R122) with all it brings about: the return of the clock (R130), fades (R121), starvation
(R123), concealment (R125 to R128), the ramp (R119), the block boundary (R117), the end of disc (R131), and the Output Port
(R114).
-/
namespace Sys2Proof.Machine

/-! ### Frames without the store -/

/-- The next frame of the fade, or a zero frame (R121); CONCEAL is high while STARVED (R128). -/
def Feeder.fadeFrame (f : Feeder) : Feeder :=
  let concealed := decide (f.state = .starved)
  match f.fade with
  | none => { f with given := Sample.zero, conceal := concealed }
  | some d =>
    let left := d.remaining - 1
    { f with
      given := scaleSample d.level left d.length
      fade := if left = 0 then none else some { d with remaining := left }
      last := if left = 0 then Sample.zero else f.last
      conceal := concealed }

/-- A zero frame (R122, step 3). -/
def Feeder.zeroFrame (f : Feeder) : Feeder := { f with given := Sample.zero, conceal := false }

/-- What the return of the clock does to the feeder state (R130). -/
def Feeder.clockBack (f : Feeder) (ramp : Nat) : Feeder :=
  let g : Feeder := { f with clockLost := false }
  match f.state with
  | .starting | .running => g.start ramp 0
  | .stopping => { g.endRun with state := .silent, gain := 0, fade := none }
  | .silent | .starved => g

/-- The first demand while LOST takes the return of the clock (R130). -/
def clockReturn (s : State) : State :=
  if s.feeder.clockLost then raise .opClock 2 (mapFeeder (fun f => f.clockBack (rampLength s)) s) else s

/-! ### Measuring a concealment run (R125) -/

/-- What stopped the measurement of a run. -/
inductive MeasureStop where
  | endFrame (b : Sample)
  | absent
  | region
  | limit
  deriving DecidableEq, Repr

/-- A measured run. -/
structure Measured where
  length : Nat
  stop   : MeasureStop
  deriving DecidableEq, Repr

/-- Examine the frames from position `q` on, `n` non-GOOD frames already seen. -/
def Store.measureFrom (t : Store) (regionEnd : Nat) : Nat → Nat → Nat → Measured
  | 0, _, n => ⟨n, .limit⟩
  | fuel + 1, q, n =>
    if regionEnd ≤ q then ⟨n, .region⟩
    else
      let f := t.frameAt q
      if f.mark = .good then ⟨n, .endFrame f.value⟩
      else if f.mark = .absent ∧ t.declaredAt q = false then ⟨n, .absent⟩
      else Store.measureFrom t regionEnd fuel (q + 1) (n + 1)

/-- The end of the examination region: of block P + r - 1, or of the Play Block when r is 0. -/
def Store.regionEnd (t : Store) : Nat := (t.playBlock + max t.readyDepth 1) * Config.framesPerBlock

/-- Measure the run at the cursor: the 128th non-GOOD frame stops it (R125). -/
def measure (s : State) : Measured := s.store.measureFrom s.store.regionEnd 128 (playPosition s) 0

/-! ### Forming a frame (R126, R127) -/

/-- Which of the three frame counters a frame adds to (R129). -/
inductive FrameClass where
  | good
  | interpolated
  | muted
  deriving DecidableEq, Repr

/-- What a run begun by this frame is counted as (R126, R127); a MUTE run carries the detail of CONCEAL. -/
inductive RunStart where
  | none
  | interpolate
  | mute (detail : Nat)
  deriving DecidableEq, Repr

/-- A formed frame: its value before G, the run and C after it, its counter, CONCEAL, and the run it begins. -/
structure Formed where
  value    : Sample
  run      : Run
  concealC : Nat
  cls      : FrameClass
  conceal  : Bool
  begins   : RunStart
  deriving DecidableEq, Repr

/-- A + (B - A) * j / (n + 1), rounded toward zero, in one channel (R126). -/
def lerpWord (a b : BitVec 16) (j n : Nat) : BitVec 16 :=
  BitVec.ofInt 16 (a.toInt + Int.tdiv ((b.toInt - a.toInt) * (j : Int)) ((n + 1 : Nat) : Int))

/-- The jth frame of an INTERPOLATE run of n frames (R126). -/
def lerpSample (a b : Sample) (j n : Nat) : Sample := ⟨lerpWord a.left b.left j n, lerpWord a.right b.right j n⟩

/-- A frame of an INTERPOLATE run; after its last frame the phase is NONE, or the RISE it interrupted (R126). -/
def interpolateFrame (c : Nat) (a b : Sample) (length given : Nat) (back : Option Nat) (begins : RunStart) : Formed :=
  let j := given + 1
  { value := lerpSample a b j length
    run :=
      if length ≤ j then (match back with
        | none => .none
        | some ramp => .rise ramp)
      else .interpolate a b length j back
    concealC := c, cls := .interpolated, conceal := true, begins := begins }

/-- A frame of the FADE phase (R127). -/
def muteFadeFrame (c : Nat) (h : Sample) (length given ramp : Nat) (begins : RunStart) : Formed :=
  let j := given + 1
  { value := scaleSample h (length - j) length
    run := if length ≤ j then .zero ramp else .fade h length j ramp
    concealC := c, cls := .muted, conceal := true, begins := begins }

/-- A frame of the ZERO phase (R127). -/
def muteZeroFrame (c ramp : Nat) (begins : RunStart) : Formed :=
  { value := Sample.zero, run := .zero ramp, concealC := c, cls := .muted, conceal := true, begins := begins }

/-- A GOOD frame given by the held value scaled by C, outside any run (R122, step 5). -/
def plainFrame (c : Nat) (v : Sample) : Formed :=
  { value := scaleSample v c 128, run := .none, concealC := c, cls := .good, conceal := false, begins := .none }

/-- A frame of the RISE phase: C raised by 128 / L first, and the phase over when it reaches 128 (R127). -/
def riseFrame (c ramp : Nat) (v : Sample) : Formed :=
  let c := min 128 (c + 128 / ramp)
  { value := scaleSample v c 128, run := if c = 128 then .none else .rise ramp, concealC := c, cls := .good,
    conceal := true, begins := .none }

/-- The frame that leaves ZERO: the first of RISE, or a plain GOOD frame where RISE is skipped (R127). R127 does not say what C
becomes where RISE is skipped in a run that interrupted an earlier RISE; C becomes 128, and the frame is given at full level
(DESIGN CHOICE, log entry 37). -/
def leaveZero (ramp : Nat) (v : Sample) : Formed := if ramp = 0 then plainFrame 128 v else riseFrame 0 ramp v

/-- The detail of CONCEAL for a MUTE run (R127). -/
def Measured.detail (m : Measured) : Nat :=
  match m.stop with
  | .limit => 255
  | .endFrame _ | .absent | .region => m.length

/-- The run is bridged by a straight line (R125). -/
def Measured.bridged (m : Measured) (limit : Nat) : Option Sample :=
  match m.stop with
  | .endFrame b => if m.length ≤ limit then some b else none
  | .absent | .region | .limit => none

/-- The first frame of a run just measured; `back` is the RISE it interrupts (R125 to R127). -/
def beginRun (s : State) (back : Option Nat) : Formed :=
  let m := measure s
  let f := s.feeder
  match m.bridged s.console.params.interpolateLimit with
  | some b => interpolateFrame f.concealC f.last b m.length 0 back .interpolate
  | none =>
    let length := min (rampLength s) m.length
    if length = 0 then muteZeroFrame f.concealC (rampLength s) (.mute m.detail)
    else muteFadeFrame f.concealC f.last length 0 (rampLength s) (.mute m.detail)

/-- The value of the frame at the cursor, by the run in progress (R122, step 5). -/
def formFrame (s : State) : Formed :=
  let f := s.feeder
  let held := s.store.frameAt (playPosition s)
  match f.run with
  | .interpolate a b length given back => interpolateFrame f.concealC a b length given back .none
  | .fade h length given ramp => muteFadeFrame f.concealC h length given ramp .none
  | .zero ramp =>
    if held.mark = .good then leaveZero ramp held.value else muteZeroFrame f.concealC ramp .none
  | .rise ramp => if held.mark = .good then riseFrame f.concealC ramp held.value else beginRun s (some ramp)
  | .none => if held.mark = .good then plainFrame f.concealC held.value else beginRun s none

/-! ### Giving a frame (R119, R122, R129) -/

/-- The ramp step: 128 / Ramp Length; with Ramp Length 0 a ramp ends at the next frame (R119). -/
def rampStep (ramp : Nat) : Nat := if ramp = 0 then 128 else 128 / ramp

/-- G after the step of one frame (R119). -/
def Feeder.steppedGain (f : Feeder) (ramp : Nat) : Nat :=
  match f.state with
  | .starting => min 128 (f.gain + rampStep ramp)
  | .stopping => f.gain - rampStep ramp
  | .silent | .running | .starved => f.gain

/-- The output counters after a frame (R126, R127, R129). -/
def OutputCounters.afterFrame (c : OutputCounters) (x : Formed) : OutputCounters :=
  let d : OutputCounters :=
    match x.begins with
    | .none => c
    | .interpolate => { c with interpolationRun := bump c.interpolationRun }
    | .mute _ => { c with muteRun := bump c.muteRun }
  match x.cls with
  | .good => { d with good := bump d.good }
  | .interpolated => { d with interpolated := bump d.interpolated }
  | .muted => { d with muted := bump d.muted }

/-- The feeder gives a formed frame (R122, steps 6 and 7, but for the advance). -/
def Feeder.give (f : Feeder) (ramp : Nat) (x : Formed) : Feeder :=
  let g := f.steppedGain ramp
  { f with
    gain := g, run := x.run, concealC := x.concealC, last := x.value, given := scaleSample x.value g 128
    conceal := x.conceal, counters := f.counters.afterFrame x }

/-- The event a run raises as it begins (R127). -/
def raiseConceal (x : Formed) (s : State) : State :=
  match x.begins with
  | .none | .interpolate => s
  | .mute detail => raise .conceal detail s

/-- The cursor advanced by one frame (R116). -/
def Feeder.advance (f : Feeder) : Feeder :=
  if f.frame = Config.framesPerBlock - 1 then { f with block := f.block + 1, frame := 0 }
  else { f with frame := f.frame + 1 }

/-- The block boundary out of block `b` (R117). -/
def boundary (b : Nat) (s : State) : State :=
  let s := playBoundary (b + 1) (declareEntry (storeEvent (fun t => t.advance b) s))
  if atDiscEnd s then endOfDisc s else s

/-- The state change at the end of a ramp (R119). -/
def Feeder.finishRamp (f : Feeder) : Feeder :=
  match f.state with
  | .starting => if f.gain = 128 then { f with state := .running } else f
  | .stopping => if f.gain = 0 then f.rampedDown else f
  | .silent | .running | .starved => f

/-- Form, give and count the frame, advance, hand on a boundary, end a ramp (R122, steps 5 to 7). -/
def giveFrame (s : State) : State :=
  let x := formFrame s
  let b := s.feeder.block
  let leaves := decide (s.feeder.frame = Config.framesPerBlock - 1)
  let s := mapFeeder (fun f => (f.give (rampLength s) x).advance) (raiseConceal x s)
  mapFeeder Feeder.finishRamp (if leaves then boundary b s else s)

/-! ### Frames that cannot be given (R122, R123) -/

/-- The frame at the cursor cannot be given: ABSENT in an undeclared slot (R122, step 4). -/
def cannotGive (s : State) : Bool :=
  decide ((s.store.frameAt (playPosition s)).mark = .absent) && !s.store.declaredAt (playPosition s)

/-- The detail of STARVED (R123, R197). -/
def starvedDetail (x : SlotState) : Nat :=
  match x with
  | .partly => 2
  | .free | .opened | .sound | .final | .lost => 1

/-- The feeder as it becomes STARVED, with the first frame of the fade given (R123). -/
def Feeder.starve (f : Feeder) (ramp : Nat) : Feeder :=
  Feeder.fadeFrame
    { (f.beginFade ramp).endRun with
      state := .starved, counters := { f.counters with starvation := bump f.counters.starvation } }

/-- The feeder becomes STARVED (R123). -/
def starve (s : State) : State :=
  let detail := starvedDetail (s.store.stateOf s.feeder.block)
  playStarved (raise .starved detail (mapFeeder (fun f => f.starve (rampLength s)) s))

/-- STOPPING finds a frame it cannot give: a fade, then SILENT (R122, step 4). -/
def Feeder.stopShort (f : Feeder) (ramp : Nat) : Feeder :=
  Feeder.fadeFrame { (f.beginFade ramp).endRun with state := .silent, gain := 0 }

/-! ### The frame demand -/

/-- The demand in STARTING, RUNNING and STOPPING (R122, steps 3 to 7). -/
def demandPlaying (s : State) : State :=
  if atDiscEnd s then endOfDisc (mapFeeder Feeder.zeroFrame s)
  else if cannotGive s then
    if s.feeder.state = .stopping then mapFeeder (fun f => f.stopShort (rampLength s)) s else starve s
  else giveFrame s

/-- The feeder forms the frame of a demand (R122). -/
def demand (s : State) : State :=
  let s := clockReturn (mapFeeder (fun f => { f with seen := true }) s)
  match s.feeder.state with
  | .silent | .starved => mapFeeder Feeder.fadeFrame s
  | .starting | .running | .stopping => demandPlaying s

/-- What AOD carries in a half of `clocks` AOCK periods: most significant bit first, then 0 (R114). -/
def halfBits (x : BitVec 16) (clocks : Nat) : List Bool :=
  (List.range clocks).map (fun i => decide (i < 16) && x.getLsbD (15 - i))

/-- The frame is shifted out (R114). -/
def Feeder.shiftOut (f : Feeder) (leftClocks rightClocks : Nat) : Feeder :=
  { f with aodLeft := halfBits f.given.left leftClocks, aodRight := halfBits f.given.right rightClocks }

/-- A frame demand with the word-clock period it begins (R114, R122). -/
def frameDemand (leftClocks rightClocks : Nat) (s : State) : State :=
  mapFeeder (fun f => f.shiftOut leftClocks rightClocks) (demand s)

/-- FRAME_DEMAND (R122). -/
def execFrameDemand (leftClocks rightClocks : Nat) (s : State) : Outcome :=
  inStep (frameDemand leftClocks rightClocks) s

end Sys2Proof.Machine
end

