-- ==== Sys2Proof/Machine/Receive.lean ====
section
/-!
DEFINITION. The Pickup Link: the receiver and message assembly (R95 to R105), dispatch (R106), Rate Marks (R107), Drive
Restart (R98), and the transmitter (R111).
-/
namespace Sys2Proof.Machine

/-! ### Updates of the link -/

/-- Change the link. -/
def mapLink (g : Link → Link) (s : State) : State := s.setLink (g s.link)

/-- Count at the link (R112). -/
def countLink (f : LinkCounters → LinkCounters) (s : State) : State :=
  mapLink (fun l => { l with counters := f l.counters }) s

/-- Change the message assembly state (R100). -/
def setAssembly (a : RxAssembly) (s : State) : State := mapLink (fun l => { l with assembly := a }) s

/-! ### Lost messages (R22, R105) -/

/-- The reasons of R105's table. -/
inductive Loss where
  | framing
  | parity
  | marker
  | truncated
  | unknownKind
  | malformed
  | check
  | overrun
  deriving DecidableEq, Repr

/-- The LINK_FAULT detail of a loss (R197). -/
def Loss.detail : Loss → Nat
  | .framing => 1
  | .parity => 2
  | .marker => 3
  | .truncated => 4
  | .unknownKind => 5
  | .malformed => 6
  | .check => 7
  | .overrun => 8

/-- The counter of a loss; an Overrun is counted at the Assembler (R105). -/
def LinkCounters.lose (c : LinkCounters) (x : Loss) : LinkCounters :=
  match x with
  | .framing => { c with framing := bump c.framing }
  | .parity => { c with parity := bump c.parity }
  | .marker => { c with marker := bump c.marker }
  | .truncated => { c with truncated := bump c.truncated }
  | .unknownKind => { c with unknownKind := bump c.unknownKind }
  | .malformed => { c with malformed := bump c.malformed }
  | .check => { c with check := bump c.check }
  | .overrun => c

/-- A message is lost: counter, lost-message flag, LINK_FAULT (R105). -/
def loseMessage (x : Loss) (s : State) : State :=
  raise .linkFault x.detail (mapLink (fun l => { l with lost := true, counters := l.counters.lose x }) s)

/-- A BLOCK header meets two occupied entries (R22). -/
def overrun (s : State) : State :=
  setAssembly .discarding
    (loseMessage .overrun (countPlacement (fun c => { c with overrun := bump c.overrun }) s))

/-- A header inside a message truncates it (R100). -/
def truncate (s : State) : State :=
  match s.link.assembly with
  | .inMessage _ => loseMessage .truncated s
  | .idle | .discarding => s

/-! ### The line between characters -/

/-- PLD high for 3 samples in WAIT_HIGH: HUNTING, and a held transmitter is released (R95, R97, R111). -/
def Link.lineHigh (l : Link) : Link :=
  let m : Link := { l with sampling := .hunting, breakCount := 0 }
  match l.tx with
  | .held => ({ m with tx := .idle } : Link).kick
  | .idle | .sending _ | .gap => m

/-- The receiver, if it is enabled and in WAIT_HIGH, finds the line high (R95). -/
def lineHigh (s : State) : State :=
  if receiverOn s && decide (s.link.sampling = .waitHigh) then mapLink Link.lineHigh s else s

/-! ### Dispatch (R106) -/

/-- A BLOCK that passed its check becomes the newest intake entry (R21). -/
def acceptEntry (x : IntakeEntry) (s : State) : State :=
  reflow (s.setAsm { s.asm with intake := s.asm.intake ++ [x] })

/-- A JUMP is handed to the planner and the Monitor in either order (R106). -/
def dispatchJump (n : Nat) (monitorFirst : Bool) (s : State) : State :=
  if monitorFirst then takeJump n (monitorJump s) else monitorJump (takeJump n s)

/-- A valid message is handed to its owner (R106). -/
def dispatch (monitorFirst : Bool) (m : RxMsg) (s : State) : State :=
  match m with
  | .disc _ tag extent position => takeDisc tag extent position s
  | .block n bn tag samples erasures => acceptEntry (entryOf n bn tag samples erasures) s
  | .jump n _ _ => dispatchJump n monitorFirst s
  | .landed n bn => takeLanded n bn s
  | .refused n reason => takeRefused n reason s
  | .settled _ => monitorSettled s
  | .gone _ position => takeGone position s

/-- A message that passed its check is judged by its content, and counted and dispatched if it is valid (R104, R106). -/
def deliver (monitorFirst : Bool) (m : RxMsg) (s : State) : State :=
  if m.malformed then loseMessage .malformed s
  else dispatch monitorFirst m (countLink (fun c => { c with received := bump c.received }) s)

/-! ### The Rate Mark (R107) -/

/-- The measured divisor: the count divided by 128, rounded to the nearest, halves up. -/
def measuredDivisor (span : Nat) : Nat := (span + 64) / 128

/-- The mark locks: the measured divisor is in range and within 35 percent of the current one. -/
def rateLocks (current span : Nat) : Bool :=
  let m := measuredDivisor span
  decide (1 ≤ m) && decide (m ≤ 1023) && decide (20 * ((m - current) + (current - m)) ≤ 7 * current)

/-- A measurement that locks writes Link Divisor (R107, R183). -/
def lockRate (m : Nat) (s : State) : State :=
  countLink (fun c => { c with rateLock := bump c.rateLock })
    (s.setConsole { s.console with params := { s.console.params with linkDivisor := m } })

/-- A measurement that fails (R107). -/
def failRate (s : State) : State := raise .linkFault 9 (countLink (fun c => { c with rateFail := bump c.rateFail }) s)

/-- The link takes a Rate Mark; a mark without the second edge has no count and fails (R107). -/
def takeRateMark (span : Option Nat) (s : State) : State :=
  match span with
  | none => failRate s
  | some n => if rateLocks s.console.params.linkDivisor n then lockRate (measuredDivisor n) s else failRate s

/-! ### Whole messages -/

/-- The characters of a sound message begin: the line was high before them, their noise is counted, a message under way is
truncated, and the last of them leaves assembly IDLE (R95, R100, R102). -/
def beginMessage (noise : Nat) (s : State) : State :=
  setAssembly .idle
    (truncate (mapLink (fun l => { l with breakCount := 0, counters := { l.counters with noise := bumpBy l.counters.noise noise } })
      (lineHigh s)))

/-- A whole message with a good check arrives while the receiver is enabled (R95 to R106). -/
def receive (noise : Nat) (monitorFirst : Bool) (m : RxMsg) (s : State) : State :=
  if receiverOn s then deliver monitorFirst m (beginMessage noise s) else s

/-- A whole BLOCK arrives: an Overrun at its header, a malformed count, or a message like any other (R22, R101, R102). -/
def receiveBlock (noise n bn : Nat) (tag : Tag) (samples : List Sample) (erasures : Option (List Nat)) (s : State) : State :=
  if receiverOn s then
    let s := beginMessage noise s
    if intakeFull s then overrun s
    else if decide (64 < (erasures.getD []).length) then setAssembly .discarding (loseMessage .malformed s)
    else deliver false (.block n bn tag samples erasures) s
  else s

/-! ### Characters one by one (R95 to R105) -/

/-- A faulted character in DISCARDING is counted for the line's sake (R100). R22 and R101 say that none of an Overrun's
characters is judged a fault, and R100 counts in every DISCARDING; the model counts there too (DESIGN CHOICE, log entry 36). -/
def countFault (x : CharFault) (s : State) : State :=
  countLink (fun c => c.lose (match x with
    | .framing => .framing
    | .parity => .parity)) s

/-- The loss a faulted character brings (R105). -/
def CharFault.loss : CharFault → Loss
  | .framing => .framing
  | .parity => .parity

/-- Assembly takes a faulted character (R100). -/
def takeFaulted (x : CharFault) (s : State) : State :=
  match s.link.assembly with
  | .discarding => countFault x s
  | .idle | .inMessage _ => setAssembly .discarding (loseMessage x.loss s)

/-- Assembly judges a header (R101). -/
def takeHeader (header : Byte) (span : Option Nat) (s : State) : State :=
  match headerKind header with
  | .rateMark => takeRateMark span (setAssembly .idle s)
  | .unknown => setAssembly .discarding (loseMessage .unknownKind s)
  | .message kind =>
    if decide (kind = .block) && intakeFull s then overrun s else setAssembly (.inMessage [header]) s

/-- A message holds its full number of characters: check, then content (R102 to R104). -/
def complete (kind : RxKind) (bytes : List Byte) (s : State) : State :=
  let s := setAssembly .idle s
  if checkPasses bytes then
    deliver false (readMessage kind (bytes.headD 0) ((bytes.drop 1).take (bytes.length - 3))) s
  else loseMessage .check s

/-- Assembly holds the bytes `held`, the latest first; the message's length is tested (R102). -/
def takeHeld (held : List Byte) (s : State) : State :=
  let bytes := held.reverse
  match headerKind (bytes.headD 0) with
  | .rateMark | .unknown => setAssembly .discarding s
  | .message kind =>
    if countMalformed kind bytes then setAssembly .discarding (loseMessage .malformed s)
    else
      match messageLength kind bytes with
      | none => setAssembly (.inMessage held) s
      | some n => if n ≤ bytes.length then complete kind bytes s else setAssembly (.inMessage held) s

/-- Assembly takes a sound body or check character (R100). -/
def takeBody (b : Byte) (s : State) : State :=
  match s.link.assembly with
  | .idle => setAssembly .discarding (loseMessage .marker s)
  | .discarding => s
  | .inMessage held => takeHeld (b :: held) s

/-- Assembly takes a judged character (R100). -/
def assemble (j : Judged) (span : Option Nat) (s : State) : State :=
  match j.fault with
  | some x => takeFaulted x s
  | none => if j.marker then takeHeader j.byte span (truncate s) else takeBody j.byte s

/-- The receiver after a character: WAIT_HIGH after a framing fault, else HUNTING; its noise; the low run at its end
(R95 to R97). -/
def Link.afterChar (l : Link) (c : RxChar) (j : Judged) : Link :=
  { l with
    sampling := if j.fault = some CharFault.framing then .waitHigh else .hunting
    breakCount := min Config.breakSamples (lowTail 0 c)
    counters := { l.counters with noise := bumpBy l.counters.noise j.noisy } }

/-- The receiver samples one character (R95, R96); a rejected start counts nothing. -/
def receiveChar (c : RxChar) (s : State) : State :=
  if receiverOn s then
    let s := lineHigh s
    match judgeChar (parityKind s.console.params.linkParity) s.console.params.linkStopBits c with
    | none => s
    | some j => assemble j c.span (mapLink (fun l => l.afterChar c j) s)
  else s

/-- The receiver samples characters one after another; what each hands on is taken before the next. -/
def receiveChars (chars : List RxChar) (s : State) : State := chars.foldl (fun s c => takeNotices (receiveChar c s)) s

/-! ### Drive Restart (R98) -/

/-- The link's own part of a Drive Restart (R97, R98). -/
def Link.restart (l : Link) : Link :=
  { l with
    sampling := .waitHigh, assembly := .idle, breakCount := Config.breakSamples, queue := [], tx := .held
    changes := []
    counters := { l.counters with breaks := bump l.counters.breaks } }

/-- A flow request that is still queued is dropped. -/
def Link.dropFlow (l : Link) : Link := { l with queue := dropClass .flow l.queue }

/-- The Assembler takes a Drive Restart: no request is made, and none that the planner's or the Play Controller's part brought
about before it stays outstanding (R44). -/
def assemblerRestart (s : State) : State :=
  mapLink Link.dropFlow (clearPhase (s.setAsm { s.asm with intake := [], holdIntake := false, holdWindow := false }))

/-- One of the four blocks takes a Drive Restart (R98). -/
def ownerRestart (s : State) (x : RestartOwner) : State :=
  match x with
  | .assembler => assemblerRestart s
  | .planner => plannerRestart s
  | .monitor => repeatPace s
  | .playController => playRestart s

/-- The order in which the four take it: the order given, each block once, those not named last. -/
def restartOrder (order : List RestartOwner) : List RestartOwner :=
  (order.foldl (fun seen x => if seen.contains x then seen else seen ++ [x]) [] ++
    [.assembler, .planner, .monitor, .playController].filter (fun x => !order.contains x))

/-- The break detector reaches 384 samples while the receiver is enabled (R97). A count that stands at 384 since an earlier break
starts anew at one high sample, so a further break is a further run (log entry 24). -/
def restartDue (s : State) : Bool := receiverOn s

/-- The Drive Restart (R98). -/
def restartDrive (order : List RestartOwner) (s : State) : State :=
  (restartOrder order).foldl ownerRestart (raise .driveRestart 0 (mapLink Link.restart s))

/-! ### The transmitter (R111) -/

/-- The character format the Parameter Table holds (R92). -/
def linkFormat (s : State) : LinkFormat := ⟨s.console.params.linkParity, s.console.params.linkStopBits⟩

/-- The format is about to change while a message is being sent; the message keeps the one its characters began with so far
(R92, R111). -/
def Link.formatChanging (l : Link) (f : LinkFormat) : Link :=
  match l.tx with
  | .sending _ => { l with changes := l.changes ++ [⟨f, l.changed⟩], changed := l.changed + 1 }
  | .idle | .gap | .held => l

/-- The last stop bit of a message has been sent; PLC has carried its characters, each in the format it began in (R92, R111). -/
def Link.finish (l : Link) (m : TxMsg) (now : LinkFormat) : Link :=
  { l with
    tx := .gap, changes := [], plc := m.line (formatOf (l.changes.map FormatChange.begun) now)
    counters := { l.counters with sent := bump l.counters.sent } }

/-- A transmission completes; for a SEEK the planner is told (R57, R111). -/
def transmitted (s : State) : State :=
  match s.link.tx with
  | .sending m =>
    let s := mapLink (fun l => l.finish m (linkFormat s)) s
    match m with
    | .seek n _ => seekSent n s
    | .cease _ | .hold | .go | .pace _ | .load _ => s
  | .idle | .gap | .held => s

/-- PLC has been high for one bit time after a message: IDLE, and the head of the queue is taken (R111). -/
def gapOver (s : State) : State :=
  match s.link.tx with
  | .gap => mapLink (fun l => ({ l with tx := .idle } : Link).kick) s
  | .idle | .sending _ | .held => s

/-- Receiver Enable changed: what the link does (R99). -/
def Link.switched (l : Link) : Link :=
  let m : Link := { l with sampling := .waitHigh, assembly := .idle, breakCount := 0 }
  match l.tx with
  | .held => ({ m with tx := .idle } : Link).kick
  | .idle | .sending _ | .gap => m

/-! ### The commands -/

/-- BLOCK (R21). -/
def execBlock (noise : Nat) (stream : BitVec 4) (bn : BitVec 24) (tag : Tag) (samples : Vector Sample 588)
    (erasures : Option (List (BitVec 16))) (s : State) : Outcome :=
  inStep (receiveBlock noise stream.toNat bn.toNat tag samples.toList (erasures.map (fun l => l.map BitVec.toNat))) s

/-- LANDED (R58, R61). -/
def execLanded (noise : Nat) (stream : BitVec 4) (bn : BitVec 24) (s : State) : Outcome :=
  inStep (receive noise false (.landed stream.toNat bn.toNat)) s

/-- REFUSED (R59 to R61). -/
def execRefused (noise : Nat) (stream : BitVec 4) (reason : Byte) (s : State) : Outcome :=
  inStep (receive noise false (.refused stream.toNat reason.toNat)) s

/-- JUMP (R63, R84). -/
def execJump (noise : Nat) (stream : BitVec 4) (lastGood landing : BitVec 24) (monitorFirst : Bool) (s : State) : Outcome :=
  inStep (receive noise monitorFirst (.jump stream.toNat lastGood.toNat landing.toNat)) s

/-- SETTLED (R83). -/
def execSettled (noise : Nat) (stream : BitVec 4) (s : State) : Outcome :=
  inStep (receive noise false (.settled stream.toNat)) s

/-- DISC (R144, R145, R151). -/
def execDisc (noise : Nat) (stream : BitVec 4) (tag : Tag) (extent : BitVec 24) (position : Byte) (s : State) : Outcome :=
  inStep (receive noise false (.disc stream.toNat tag extent.toNat position.toNat)) s

/-- GONE (R145, R151, R153). -/
def execGone (noise : Nat) (stream : BitVec 4) (position : Byte) (s : State) : Outcome :=
  inStep (receive noise false (.gone stream.toNat position.toNat)) s

/-- RATE_MARK (R107). -/
def execRateMark (noise span : Nat) (s : State) : Outcome :=
  inStep (fun s => if receiverOn s then takeRateMark (some span) (beginMessage noise s) else s) s

/-- LOST_MESSAGE: the characters as they were sampled (R105). -/
def execLostMessage (chars : List RxChar) (s : State) : Outcome := inStep (receiveChars chars) s

/-- DISCARDING_CHARACTER (R100). -/
def execDiscardingCharacter (char : RxChar) (s : State) : Outcome := inStep (receiveChar char) s

/-- OVERRUN_AT_HEADER: the header character of a BLOCK (R22, R101). -/
def execOverrunAtHeader (noise : Nat) (stream : BitVec 4) (s : State) : Outcome :=
  inStep
    (fun s =>
      if receiverOn s then takeHeader (BitVec.ofNat 8 (0x20 + stream.toNat)) none (beginMessage noise s) else s) s

/-- DRIVE_RESTART (R97, R98). -/
def execDriveRestart (order : List RestartOwner) (s : State) : Outcome :=
  inStep (fun s => if restartDue s then restartDrive order s else s) s

/-- LINE_IDLE (R95). -/
def execLineIdle (s : State) : Outcome := inStep lineHigh s

/-- TRANSMITTER_RELEASE: PLD has been high for 3 samples after a break (R98, R111). -/
def execTransmitterRelease (s : State) : Outcome := inStep lineHigh s

/-- TRANSMISSION_COMPLETE (R111). -/
def execTransmissionComplete (s : State) : Outcome := inStep transmitted s

/-- TRANSMITTER_IDLE (R111). -/
def execTransmitterIdle (s : State) : Outcome := inStep gapOver s

end Sys2Proof.Machine
end

