-- ==== Sys2Proof/Machine/Senses.lean ====
section
/-!
DEFINITION. The noise cancellers (R162, R163) and what they hand on (R164, R165), the Supply Watch (R166 to R168), and the
block tick with its expiries (R1).
-/
namespace Sys2Proof.Machine

/-! ### The cancellers -/

/-- The level a pin shows. -/
def levelOf (b : Bool) : Level := if b then .high else .low

/-- A sample while the accepted level is UNKNOWN: the third of three equal ones latches it (R163). -/
def Canceller.latch (c : Canceller) (level : Bool) : Canceller :=
  let n := if c.before = some level then c.count + 1 else 1
  if 3 ≤ n then { c with accepted := levelOf level, count := 0, before := some level }
  else { c with count := n, before := some level }

/-- A sample while the accepted level is LOW or HIGH (R162). -/
def Canceller.track (c : Canceller) (level : Bool) : Canceller :=
  let d : Canceller := { c with before := some level }
  if levelOf level = c.accepted then { d with count := 0 }
  else if 3 ≤ c.count + 1 then { d with accepted := levelOf level, count := 0 }
  else { d with count := c.count + 1 }

/-- The canceller takes a sample (R162, R163). -/
def Canceller.sample (c : Canceller) (level : Bool) : Canceller :=
  if c.accepted = .unknown then c.latch level else c.track level

/-- The sample makes the canceller accept a change: the third sample in a row that differs (R162). -/
def Canceller.changes (c : Canceller) (level : Bool) : Bool :=
  decide (c.accepted ≠ .unknown) && decide (levelOf level ≠ c.accepted) && decide (3 ≤ c.count + 1)

/-- The captured level follows a change that is handed on (R164, R165). -/
def Canceller.capture (c : Canceller) (level : Bool) : Canceller := { c with captured := levelOf level }

/-- Codes of the levels (R195, R197). -/
def Level.code : Level → Nat
  | .unknown => 0
  | .low => 1
  | .high => 2

/-- The TRAY canceller takes a sample; a change is a TRAY in or a TRAY out (R164). -/
def sampleTray (level : Bool) (s : State) : State :=
  let c := s.sense.tray
  if c.changes level then
    let s := raise .tray (levelOf level).code (s.setSense { s.sense with tray := (c.sample level).capture level })
    if level then playTrayIn s else playTrayOut s
  else s.setSense { s.sense with tray := c.sample level }

/-- A change qualifies under SHOCK Edge: 0 RISING, 1 FALLING, 2 BOTH (R165). -/
def shockQualifies (edge : Nat) (level : Bool) : Bool :=
  decide (edge = 2) || (if level then decide (edge = 0) else decide (edge = 1))

/-- The SHOCK canceller takes a sample; a qualifying change is a qualified SHOCK (R165). -/
def sampleShock (level : Bool) (s : State) : State :=
  let c := s.sense.shock
  if c.changes level && shockQualifies s.console.params.shockEdge level then
    monitorShock
      (raise .shock (levelOf level).code (s.setSense { s.sense with shock := (c.sample level).capture level }))
  else s.setSense { s.sense with shock := c.sample level }

/-- A canceller takes a sample. -/
def samplePin (pin : SensePin) (level : Bool) (s : State) : State :=
  match pin with
  | .tray => sampleTray level s
  | .shock => sampleShock level s

/-! ### The Supply Watch -/

/-- The Supply Watch after a VSENSE sample, in microvolts (R167, R168). -/
def Supply.sample (w : Supply) (threshold vsense : Nat) : Supply :=
  if w.warning then
    if vsense < Config.recoveryLevel threshold then { w with settle := 0, dipped := true } else w
  else if vsense < Config.warnLevel threshold then
    (if 2 ≤ w.below + 1 then { w with warning := true, below := 0, settle := 0, dipped := true }
     else { w with below := w.below + 1 })
  else { w with below := 0 }

/-- The sample completes a warning (R167). -/
def Supply.warns (w : Supply) (threshold vsense : Nat) : Bool :=
  !w.warning && decide (vsense < Config.warnLevel threshold) && decide (2 ≤ w.below + 1)

/-- The Supply Watch takes a sample (R167, R168). -/
def sampleSupply (vsense : Nat) (s : State) : State :=
  let threshold := s.console.params.supplyThreshold
  let t := s.setSupply (s.supply.sample threshold vsense)
  if s.supply.warns threshold vsense then raise .supply 1 (playSupplyWarning t) else t

/-- The tick counts and brings the settle counter to Supply Settle (R168). -/
def supplyRecoveryDue (s : State) : Bool :=
  s.supply.warning && !s.supply.dipped && decide (s.console.params.supplySettle ≤ satAdd 255 s.supply.settle 1)

/-- The Supply Watch recovers (R168). -/
def recoverSupply (s : State) : State :=
  raise .supply 2
    (playSupplyRecovery (s.setSupply { s.supply with warning := false, below := 0, settle := 0, dipped := false }))

/-- The Supply Watch takes a block tick (R168). -/
def supplyTick (s : State) : State :=
  if supplyRecoveryDue s then recoverSupply s
  else if s.supply.warning then
    s.setSupply
      { s.supply with
        settle := (if s.supply.dipped then s.supply.settle else satAdd 255 s.supply.settle 1), dipped := false }
  else s

/-! ### The block tick (R1) -/

/-- Every owner of a block-tick timer or counter takes the tick: planner, Play Controller, Monitor, Supply Watch, clock
monitor. -/
def blockTick (s : State) : State := clockTick (supplyTick (monitorTick (loadTick (seekTick s))))

/-! ### The commands -/

/-- BLOCK_TICK (R1). -/
def execBlockTick (s : State) : Outcome := inStep blockTick s

/-- RECOVERY: the Monitor's tick that brings recovery; nothing where it does not (R85). -/
def execRecovery (s : State) : Outcome := inStep (fun s => if recoveryDue s then recoverHealth s else s) s

/-- SEEK_TIMEOUT: the planner's tick that times out the seek; nothing where it does not (R57). -/
def execSeekTimeout (s : State) : Outcome := inStep (fun s => if seekTimeoutDue s then timeOutSeek s else s) s

/-- LOAD_TIMEOUT: the Play Controller's tick that times out the load; nothing where it does not (R143, R145, R151). -/
def execLoadTimeout (s : State) : Outcome := inStep (fun s => if loadTimeoutDue s then timeOutLoad s else s) s

/-- CLOCK_LOSS: the clock monitor's tick that loses the clock; nothing where it does not (R130). -/
def execClockLoss (s : State) : Outcome := inStep (fun s => if clockLossDue s then loseClock s else s) s

/-- SUPPLY_RECOVERY: the Supply Watch's tick that brings recovery; nothing where it does not (R168). -/
def execSupplyRecovery (s : State) : Outcome :=
  inStep (fun s => if supplyRecoveryDue s then recoverSupply s else s) s

/-- SUPPLY_WARNING: the sample that completes a warning (R154, R167). -/
def execSupplyWarning (vsense : Nat) (s : State) : Outcome := inStep (sampleSupply vsense) s

/-- SUPPLY_SAMPLE (R166). -/
def execSupplySample (vsense : Nat) (s : State) : Outcome := inStep (sampleSupply vsense) s

/-- TRAY_IN: the sample that accepts a change to HIGH (R150, R164). -/
def execTrayIn (s : State) : Outcome := inStep (sampleTray true) s

/-- TRAY_OUT: the sample that accepts a change to LOW (R149, R164). -/
def execTrayOut (s : State) : Outcome := inStep (sampleTray false) s

/-- SHOCK_CHANGE: the sample that accepts a change (R165). -/
def execShockChange (level : Bool) (s : State) : Outcome := inStep (sampleShock level) s

/-- LEVEL_LATCH: the sample that latches the first level (R163). -/
def execLevelLatch (pin : SensePin) (level : Bool) (s : State) : Outcome := inStep (samplePin pin level) s

/-- CANCELLER_SAMPLE (R162). -/
def execCancellerSample (pin : SensePin) (level : Bool) (s : State) : Outcome :=
  inStep (samplePin pin level) s

end Sys2Proof.Machine
end

