-- ==== Sys2Proof/Machine/Window.lean ====
section
/-!
DEFINITION. What the register window shows: the codes of R194 to R196, the packed status block (R195), the 64 bytes of the
window (R194), and the multi-byte fields of the snapshot latch (R178).
-/
namespace Sys2Proof.Machine

/-! ### Codes (R194 to R196) -/

def PlayState.code : PlayState → Nat
  | .empty => 0
  | .loading => 1
  | .ready => 2
  | .cueing => 3
  | .playing => 4
  | .paused => 5
  | .coasting => 6
  | .suspended => 7

def ReturnTo.code : ReturnTo → Nat
  | .playing => 0
  | .paused => 1
  | .cueing => 2

def SelectMode.code : SelectMode → Nat
  | .fromStart => 0
  | .fromResume => 1
  | .loadOnly => 2

def FeederState.code : FeederState → Nat
  | .silent => 0
  | .starting => 1
  | .running => 2
  | .stopping => 3
  | .starved => 4

def SlotState.code : SlotState → Nat
  | .free => 0
  | .partly => 1
  | .opened => 2
  | .sound => 3
  | .final => 4
  | .lost => 5

def StreamState.code : StreamState → Nat
  | .none => 0
  | .seeking => 1
  | .searching => 2
  | .anchored => 3

def Result.code : Result → Nat
  | .none => 0
  | .done => 1
  | .refusedState => 2
  | .refusedRange => 3
  | .refusedNoDisc => 4
  | .refusedSupply => 5
  | .unknown => 6

/-! ### The status block (R195) -/

/-- The Play Controller's fields: positions 0 to 83, as widths and values. -/
def playFields (p : Play) : List (Nat × Nat) :=
  [(3, p.state.code), (1, bit p.causes.tray), (1, bit p.causes.supply), (1, bit p.causes.drive), (2, p.returnTo.code),
   (1, bit p.confirming), (1, bit p.pauseOnPrime), (1, bit p.unprimed), (1, bit p.supplyWarned), (1, bit p.storePrimed),
   (2, p.mode.code), (1, bit p.disc.confirmed), (3, p.disc.position), (3, p.wanted), (11, p.loadTimer),
   (32, p.disc.tag.toNat), (19, p.disc.extent)]

/-- The Output Feeder's fields: positions 84 to 124. -/
def feederFields (f : Feeder) : List (Nat × Nat) :=
  [(3, f.state.code), (1, bit f.clockLost), (8, f.gain), (19, f.block), (10, f.frame)]

/-- The Block Assembler's fields: positions 125 and 126. -/
def flowFields (a : Assembler) : List (Nat × Nat) := [(1, bit a.holdIntake), (1, bit a.holdWindow)]

/-- The Slot Store's fields: positions 127 to 190. -/
def storeFields (t : Store) (primeDepth : Nat) : List (Nat × Nat) :=
  [(9, t.readyDepth), (1, bit (t.primed primeDepth)), (9, t.fillHead - t.playBlock), (9, t.countOf .partly),
   (9, t.countOf .opened), (9, t.countOf .sound), (9, t.countOf .final), (9, t.countOf .lost)]

/-- The Drive Health Monitor's fields: positions 191 to 217. -/
def healthFields (h : Health) : List (Nat × Nat) :=
  [(9, h.skip), (8, h.erasure), (8, h.quiet), (1, bit h.settledSeen), (1, bit h.disturbed)]

/-- The Sense Inputs' fields: positions 218 to 221; then the two spare positions. -/
def senseFields (x : Sense) : List (Nat × Nat) := [(2, x.tray.accepted.code), (2, x.shock.accepted.code), (2, 0)]

/-- The fields of the status block in order of position. -/
def statusFields (s : State) : List (Nat × Nat) :=
  playFields s.play ++ feederFields s.feeder ++ flowFields s.asm ++
    storeFields s.store s.console.params.primeDepth ++ healthFields s.health ++ senseFields s.sense

/-- Fields one after another, the most significant bit of each first. -/
def packFields (fields : List (Nat × Nat)) : Nat := fields.foldl (fun n f => n * 2 ^ f.1 + f.2 % 2 ^ f.1) 0

/-- The 28 bytes of the status block. -/
def statusBlock (s : State) : List Byte := bytesOf 28 (packFields (statusFields s))

/-! ### The window (R194) -/

/-- The pending flags: the event with code c is bit c - 1. -/
def Attn.pendingWord (a : Attn) : Nat :=
  ((List.finRange 16).map (fun i => if (a.record i).pending then 2 ^ i.val else 0)).sum

/-- The record of the event the event index names. -/
def Attn.indexed (a : Attn) : EventRecord :=
  if h : 1 ≤ a.index ∧ a.index ≤ 16 then a.record ⟨a.index - 1, by omega⟩ else EventRecord.reset

/-- The registers of the Attention Controller: 0x1D to 0x26; ACK reads as 0 (R191). -/
def attnBytes (a : Attn) : List Byte :=
  bytesOf 2 a.pendingWord ++ bytesOf 1 a.summary ++ bytesOf 1 0 ++ bytesOf 1 a.threshold ++ bytesOf 1 a.index ++
    bytesOf 1 (bit a.indexed.enable) ++ bytesOf 1 a.indexed.level ++ bytesOf 1 a.indexed.count ++ [a.indexed.detail]

/-- MAILBOX STATUS. -/
def Mailbox.status (m : Mailbox) : Nat := bit m.busy + 2 * bit m.collision + 4 * m.result.code

/-- The registers of the mailbox: 0x27 to 0x2F. -/
def mailboxBytes (m : Mailbox) : List Byte :=
  m.param.toList ++ [m.cmd] ++ bytesOf 1 m.status ++ bytesOf 1 m.collisionCount

/-- The 64 bytes of the window. -/
def windowBytes (s : State) : List Byte :=
  bytesOf 1 Config.ident ++ statusBlock s ++ attnBytes s.attn ++ mailboxBytes s.console.mailbox ++
    s.console.response

/-- The byte the window shows at an address, live. -/
def windowByte (s : State) (address : Nat) : Byte := (windowBytes s).getD address 0

/-- The multi-byte field an address lies in: its first address and its width (R178, R194). -/
def fieldAt (address : Nat) : Option (Nat × Nat) :=
  if 0x01 ≤ address ∧ address ≤ 0x1C then some (0x01, 28)
  else if 0x1D ≤ address ∧ address ≤ 0x1E then some (0x1D, 2)
  else if 0x30 ≤ address ∧ address ≤ 0x3F then some (0x30, 16)
  else none

/-- The bytes of a field, live. -/
def liveField (s : State) (base width : Nat) : List Byte := ((windowBytes s).drop base).take width

/-! ### The bus (R176 to R178) -/

/-- Change the Console Port. -/
def mapConsole (g : Console → Console) (s : State) : State := s.setConsole (g s.console)

/-- The pointer after a byte (R177). -/
def nextPointer (p : Nat) : Nat := (p + 1) % 64

/-- A transaction is over: idle, latch released (R176, R178). -/
def Console.endTransaction (c : Console) : Console := { c with bus := .idle, latch := none }

/-- A write transaction begins with its address and pointer byte; a START ends whatever was under way, and a transaction
addressed elsewhere is ignored (R176, R177). -/
def Console.beginWrite (c : Console) (address : BitVec 7) (pointer : Byte) : Console :=
  let d := c.endTransaction
  if address = c.address then
    (if pointer.toNat ≤ 0x3F then { d with bus := .writing, pointer := pointer.toNat } else { d with bus := .refused })
  else d

/-- A read transaction is under way: one begins where none was (R176). -/
def Console.beginRead (c : Console) : Console :=
  match c.bus with
  | .reading => c
  | .idle | .writing | .refused => { c with bus := .reading, latch := none, sent := [] }

/-- The latch as a byte at the pointer is sent: the first byte of a multi-byte field takes the field (R178). -/
def latchAt (s : State) (p : Nat) : Option Snapshot :=
  match fieldAt p with
  | some (base, width) => if p = base then some ⟨base, liveField s base width⟩ else s.console.latch
  | none => s.console.latch

/-- The byte sent at the pointer: from the latch where it holds the field, live otherwise (R178). -/
def sentByte (s : State) (p : Nat) : Byte :=
  match fieldAt p, latchAt s p with
  | some (base, _), some x => if x.base = base then x.bytes.getD (p - base) 0 else windowByte s p
  | some _, none => windowByte s p
  | none, _ => windowByte s p

/-- The latch after the byte: released at the last byte of its field (R178). -/
def latchAfter (s : State) (p : Nat) : Option Snapshot :=
  match fieldAt p with
  | some (base, width) => if p + 1 = base + width then none else latchAt s p
  | none => s.console.latch

/-- The target sends one byte (R176 to R178). -/
def sendByte (s : State) : State :=
  let p := s.console.pointer
  mapConsole (fun c => { c with sent := c.sent ++ [sentByte s p], latch := latchAfter s p, pointer := nextPointer p }) s

/-- The target sends several bytes. -/
def sendBytes : Nat → State → State
  | 0, s => s
  | n + 1, s => sendBytes n (sendByte s)

/-- The write transaction in which a byte for a register comes: the one under way where its pointer names the register;
otherwise a new one, with the register as its pointer byte (R176, R177; log entry 17). -/
def Console.addressed (c : Console) (register : Nat) : Console :=
  if c.bus = .writing ∧ c.pointer = register then c else c.beginWrite c.address (BitVec.ofNat 8 register)

/-- A data byte of a write transaction goes to the register the pointer names, and the pointer advances past it (R177). A
write transaction holds no latch, since the end of the read that took it released it (R178). -/
def dataByte (effect : Nat → State → State) (s : State) : State :=
  effect s.console.pointer (mapConsole (fun c => { c with latch := none, pointer := nextPointer c.pointer }) s)

/-- A register write, taken unless the pointer byte of the transaction under way was not acknowledged (R177). -/
def busWrite (register : Nat) (effect : Nat → State → State) (s : State) : State :=
  match s.console.bus with
  | .refused => s
  | .idle | .writing | .reading => dataByte effect (mapConsole (fun c => c.addressed register) s)

end Sys2Proof.Machine
end

