-- ==== Sys2Proof/Machine/Port.lean ====
section
/-!
DEFINITION. The mailbox and its commands (R179 to R187), the Parameter Table (R183), the response area (R182, R196), and the
writes of the Attention Controller (R189, R191).
-/
namespace Sys2Proof.Machine

/-! ### The Parameter Table (R183) -/

/-- The value of a parameter by id; 0 for an id outside 1 to 24. -/
def Params.get (p : Params) : Nat → Nat
  | 1 => p.primeDepth
  | 2 => p.deadlineMargin
  | 3 => p.repairLead
  | 4 => p.retryLimit
  | 5 => p.overlapDepth
  | 6 => p.matchRun
  | 7 => p.slipRange
  | 8 => p.interpolateLimit
  | 9 => p.rampLength
  | 10 => p.latePolicy
  | 11 => p.autoResume
  | 12 => p.resumeBackoff
  | 13 => p.seekTimeout
  | 14 => p.loadTimeout
  | 15 => p.quietCount
  | 16 => p.supplySettle
  | 17 => p.supplyThreshold
  | 18 => p.linkParity
  | 19 => p.linkStopBits
  | 20 => p.linkDivisor
  | 21 => p.receiverEnable
  | 22 => p.trayInterval
  | 23 => p.shockInterval
  | 24 => p.shockEdge
  | _ => 0

/-- The table with one parameter replaced. -/
def Params.put (p : Params) (id v : Nat) : Params :=
  match id with
  | 1 => { p with primeDepth := v }
  | 2 => { p with deadlineMargin := v }
  | 3 => { p with repairLead := v }
  | 4 => { p with retryLimit := v }
  | 5 => { p with overlapDepth := v }
  | 6 => { p with matchRun := v }
  | 7 => { p with slipRange := v }
  | 8 => { p with interpolateLimit := v }
  | 9 => { p with rampLength := v }
  | 10 => { p with latePolicy := v }
  | 11 => { p with autoResume := v }
  | 12 => { p with resumeBackoff := v }
  | 13 => { p with seekTimeout := v }
  | 14 => { p with loadTimeout := v }
  | 15 => { p with quietCount := v }
  | 16 => { p with supplySettle := v }
  | 17 => { p with supplyThreshold := v }
  | 18 => { p with linkParity := v }
  | 19 => { p with linkStopBits := v }
  | 20 => { p with linkDivisor := v }
  | 21 => { p with receiverEnable := v }
  | 22 => { p with trayInterval := v }
  | 23 => { p with shockInterval := v }
  | 24 => { p with shockEdge := v }
  | _ => p

/-- The range of each parameter; none for an id outside 1 to 24. Ramp Length is 0, 32, 64 or 128, judged apart. -/
def paramRange : Nat → Option (Nat × Nat)
  | 1 => some (4, 256)
  | 2 => some (2, 32)
  | 3 => some (8, 192)
  | 4 => some (1, 15)
  | 5 => some (1, 4)
  | 6 => some (32, 256)
  | 7 => some (8, 128)
  | 8 => some (1, 32)
  | 9 => some (0, 128)
  | 10 => some (0, 1)
  | 11 => some (0, 1)
  | 12 => some (0, 375)
  | 13 => some (16, 1023)
  | 14 => some (75, 2047)
  | 15 => some (16, 255)
  | 16 => some (8, 255)
  | 17 => some (0, 3)
  | 18 => some (0, 3)
  | 19 => some (1, 2)
  | 20 => some (1, 1023)
  | 21 => some (0, 1)
  | 22 => some (0, 3)
  | 23 => some (0, 3)
  | 24 => some (0, 2)
  | _ => none

/-- The parameters a SET accepts only in EMPTY or READY. -/
def idleOnly (id : Nat) : Bool := decide (18 ≤ id) && decide (id ≤ 20)

/-- A value is within a parameter's range. -/
def paramInRange (id v : Nat) : Bool :=
  match paramRange id with
  | none => false
  | some (lo, hi) => decide (lo ≤ v) && decide (v ≤ hi) && (decide (id ≠ 9) || [0, 32, 64, 128].contains v)

/-- The tests of SET, in order. -/
def setResult (id v : Nat) (state : PlayState) : Result :=
  if paramInRange id v then
    if idleOnly id = true ∧ state ≠ .empty ∧ state ≠ .ready then .refusedState else .done
  else .refusedRange

/-- A SET of Link Parity or Link Stop Bits while a message is being sent: its characters begun so far were sent in the format
that is in force now (R92). -/
def noteFormat (id : Nat) (s : State) : State :=
  if id = 18 ∨ id = 19 then mapLink (fun l => l.formatChanging (linkFormat s)) s else s

/-- Restart a canceller's count (R162). -/
def Canceller.restart (c : Canceller) : Canceller := { c with count := 0 }

/-- What a changed parameter brings about in the SET's own event; for Prime Depth the store compares again, and hands its notice
if the primed indication is not what it was `before`. -/
def paramChanged (before : Nat × Bool) (id : Nat) (s : State) : State :=
  match id with
  | 1 => postReadiness before s
  | 2 => settle (judgeLateness s)
  | 3 => settle s
  | 4 => if s.health.rough then s else retryLimitChanged s
  | 10 => settle (judgeLateness s)
  | 21 => mapLink Link.switched s
  | 22 => s.setSense { s.sense with tray := s.sense.tray.restart }
  | 23 => s.setSense { s.sense with shock := s.sense.shock.restart }
  | _ => s

/-- A SET that passes its tests; the value already held leaves every block as it was. -/
def setParam (id v : Nat) (s : State) : State :=
  if s.console.params.get id = v then s
  else
    paramChanged (s.store.readiness s.console.params.primeDepth) id
      (mapConsole (fun c => { c with params := c.params.put id v }) (noteFormat id s))

/-! ### Responses (R182, R196) -/

/-- The response area: the record, and 0 beyond it, 16 bytes in all. -/
def padResponse (bytes : List Byte) : List Byte := (bytes ++ List.replicate 16 0).take 16

/-- Fill the response area. -/
def respond (bytes : List Byte) (s : State) : State := mapConsole (fun c => { c with response := padResponse bytes }) s

/-- The value of a parameter as applied at the moment (R184). -/
def effectiveParam (id : Nat) (s : State) : Nat :=
  if id = 4 then effectiveRetry s
  else if id = 5 then effectiveOverlap s
  else s.console.params.get id

/-- The record of GET. -/
def getRecord (id : Nat) (s : State) : List Byte :=
  bytesOf 1 id ++ bytesOf 2 (s.console.params.get id) ++ bytesOf 2 (Params.default.get id) ++
    bytesOf 1 (bit (idleOnly id)) ++ bytesOf 2 (effectiveParam id s)

/-- An entry as it reads: one that is not valid reads with the not-valid values of R170, whatever a retention image left in its
other fields (R173). -/
def ResumeEntry.shown (e : ResumeEntry) : ResumeEntry := if e.valid then e else ResumeEntry.invalid

/-- The record of READ_RESUME (R173). -/
def resumeRecord (position : Nat) (s : State) : List Byte := bytesOf 1 position ++ (s.resume.entry position).shown.bytes

/-- The record of READ_SLOT; an unused slot reads as FREE with implied BN 0 (R18). -/
def slotRecord (index : Nat) (s : State) : List Byte :=
  let used := s.store.used index
  let x := if used then s.store.slotAt index else Slot.empty
  bytesOf 2 index ++ bytesOf 1 (bit used) ++ bytesOf 3 (if used then s.store.impliedBn index else 0) ++
    bytesOf 1 x.state.code ++ bytesOf 2 x.goodCount ++ bytesOf 2 x.erasedCount ++ bytesOf 2 x.absentCount ++
    bytesOf 1 x.pass ++ bytesOf 1 (bit x.declared)

/-- The record of READ_REPAIR (R73). -/
def repairRecord (index : Nat) (s : State) : List Byte :=
  let entry := s.planner.list[index]?
  let e := entry.getD ⟨0, 0, 0, 0, false⟩
  let x := s.planner.stream
  let flags := bit entry.isSome + 2 * bit e.active + 4 * bit (decide (x.purpose = .repair))
  bytesOf 1 index ++ bytesOf 1 flags ++ bytesOf 3 e.first ++ bytesOf 3 e.last ++ bytesOf 1 e.attempts ++
    bytesOf 1 e.mislocks ++ bytesOf 1 s.planner.list.length ++ bytesOf 1 x.number ++ bytesOf 1 x.state.code ++
    bytesOf 1 s.planner.frontier.refusals ++ bytesOf 1 s.planner.frontier.mislocks

/-! ### Counters (R185, R186) -/

/-- The counters of R43, in order. -/
def PlacementCounters.list (c : PlacementCounters) : List Nat :=
  [c.placed, c.compared, c.stale, c.stray, c.withheld, c.overrun, c.discontinuity, c.seam, c.blindSeam, c.disagreement]

/-- The counters of R72, in order. -/
def PlannerCounters.list (c : PlannerCounters) : List Nat :=
  [c.frontierStream, c.repairStream, c.landed, c.refusedBusy, c.refusedRange, c.seekTimeout, c.jump, c.mislock,
   c.preemption, c.exhaustion, c.extentCut, c.lateDeclaration, c.overflow, c.staleAnswer]

/-- The counters of R91, in order. -/
def HealthCounters.list (c : HealthCounters) : List Nat :=
  [c.guardedEntry, c.withdrawal, c.recovery, c.quietBreak, c.settled, c.roughEntry]

/-- The counters of R112, in order. -/
def LinkCounters.list (c : LinkCounters) : List Nat :=
  [c.noise, c.framing, c.parity, c.marker, c.truncated, c.unknownKind, c.check, c.malformed, c.received, c.sent,
   c.rateLock, c.rateFail, c.breaks]

/-- The counters of R129, in order. -/
def OutputCounters.list (c : OutputCounters) : List Nat :=
  [c.good, c.interpolated, c.muted, c.interpolationRun, c.muteRun, c.starvation, c.clockLoss]

/-- The counters of R160, in order. -/
def PlayCounters.list (c : PlayCounters) : List Nat :=
  [c.load, c.loadTimeout, c.confirmation, c.sameDisc, c.newDisc, c.strayAnswer, c.unsolicited, c.coast, c.seamlessReturn,
   c.suspension, c.supplySuspension, c.endOfDisc]

/-- The counters of a group; none for a group outside 1 to 6. -/
def counterGroup (s : State) : Nat → List Nat
  | 1 => s.asm.counters.list
  | 2 => s.planner.counters.list
  | 3 => s.health.counters.list
  | 4 => s.link.counters.list
  | 5 => s.feeder.counters.list
  | 6 => s.play.counters.list
  | _ => []

/-- The record of READ_COUNTERS: up to three counters from the first index on. -/
def counterRecord (group first : Nat) (s : State) : List Byte :=
  let copied := ((counterGroup s group).drop first).take 3
  bytesOf 1 group ++ bytesOf 1 first ++ bytesOf 1 copied.length ++ bytesOf 1 0 ++ copied.flatMap (bytesOf 4)

/-- Every owner clears its group, and the Console Port its Collision count (R186). -/
def clearCounters (s : State) : State :=
  ((((((s.setAsm { s.asm with counters := PlacementCounters.zero }).setPlanner
    { s.planner with counters := PlannerCounters.zero }).setHealth
    { s.health with counters := HealthCounters.zero }).setLink
    { s.link with counters := LinkCounters.zero }).setFeeder
    { s.feeder with counters := OutputCounters.zero }).setPlay
    { s.play with counters := PlayCounters.zero }).setConsole
    { s.console with mailbox := { s.console.mailbox with collisionCount := 0 } }

/-! ### The mailbox (R180, R181) -/

/-- Change the mailbox. -/
def mapMailbox (g : Mailbox → Mailbox) (s : State) : State := mapConsole (fun c => { c with mailbox := g c.mailbox }) s

/-- A refused mailbox write (R180). -/
def Mailbox.collide (m : Mailbox) : Mailbox := { m with collision := true, collisionCount := satAdd 255 m.collisionCount 1 }

/-- An accepted CMD write (R180). -/
def Mailbox.accept (m : Mailbox) (code : Byte) : Mailbox :=
  { m with cmd := code, busy := true, collision := false, result := .none }

/-- The command completes: RESULT, BUSY clear, COMMAND_DONE with the code (R181). -/
def completeCommand (code : Byte) (result : Result) (s : State) : State :=
  raise .commandDone code.toNat (mapMailbox (fun m => { m with result := result, busy := false }) s)

/-- A block's answer to a command: its result, and what it has done. -/
abbrev Answer := Result × State

/-- A byte is written to CMD: refused while BUSY, else accepted, taken by its owner and completed (R180, R181). -/
def commandWrite (code : Byte) (owner : State → Answer) (s : State) : State :=
  if s.console.mailbox.busy then mapMailbox Mailbox.collide s
  else
    let a := owner (mapMailbox (fun m => m.accept code) s)
    completeCommand code a.1 a.2

/-- A command that its owner carries out where its tests give DONE, and that changes nothing otherwise. -/
def tested (result : State → Result) (run : State → State) (s : State) : Answer :=
  if result s = .done then (.done, run s) else (result s, s)

/-- A range test of the Console Port (R18, R73, R173). -/
def rangeTest (ok : State → Bool) (s : State) : Result := if ok s then .done else .refusedRange

/-- The two-byte parameter of SET (R183). -/
def setValue (s : State) : Nat := paramByte s 1 * 256 + paramByte s 2

/-- The slot index of READ_SLOT (R194). -/
def slotIndex (s : State) : Nat := paramByte s 0 * 256 + paramByte s 1

def answerSelect (s : State) : Answer := tested selectResult runSelect s
def answerPlay (s : State) : Answer := tested playResult runPlay s
def answerPause (s : State) : Answer := tested pauseResult runPause s
def answerContinue (s : State) : Answer := tested continueResult runContinue s
def answerStop (s : State) : Answer := tested stopResult runStop s

/-- SET (R183). -/
def answerSet (s : State) : Answer :=
  tested (fun s => setResult (paramByte s 0) (setValue s) s.play.state) (fun s => setParam (paramByte s 0) (setValue s) s) s

/-- GET (R184). -/
def answerGet (s : State) : Answer :=
  tested (rangeTest (fun s => decide (1 ≤ paramByte s 0) && decide (paramByte s 0 ≤ 24)))
    (fun s => respond (getRecord (paramByte s 0) s) s) s

/-- READ_RESUME (R173). -/
def answerReadResume (s : State) : Answer :=
  tested (rangeTest (fun s => decide (1 ≤ paramByte s 0) && decide (paramByte s 0 ≤ 6)))
    (fun s => respond (resumeRecord (paramByte s 0) s) s) s

/-- CLEAR_RESUME (R173). -/
def answerClearResume (s : State) : Answer :=
  tested (rangeTest (fun s => decide (paramByte s 0 ≤ 6)))
    (fun s => if paramByte s 0 = 0 then s.setResume Resume.clearAll else invalidate (paramByte s 0) s) s

/-- READ_SLOT (R18). -/
def answerReadSlot (s : State) : Answer :=
  tested (rangeTest (fun s => decide (slotIndex s ≤ 383))) (fun s => respond (slotRecord (slotIndex s) s) s) s

/-- READ_REPAIR (R73). -/
def answerReadRepair (s : State) : Answer :=
  tested (rangeTest (fun s => decide (paramByte s 0 ≤ 15))) (fun s => respond (repairRecord (paramByte s 0) s) s) s

/-- READ_COUNTERS (R185). -/
def answerReadCounters (s : State) : Answer :=
  tested (rangeTest (fun s => decide (paramByte s 1 < (counterGroup s (paramByte s 0)).length)))
    (fun s => respond (counterRecord (paramByte s 0) (paramByte s 1) s) s) s

/-- CLEAR_COUNTERS (R186). -/
def answerClearCounters (s : State) : Answer := (.done, clearCounters s)

/-- A code that names no command (R181). -/
def answerUnknown (s : State) : Answer := (.unknown, s)

/-! ### The Soft Reset (R187) -/

/-- The Console Port after a Soft Reset: the Parameter Table, the address and the I2C state are kept. -/
def Console.softReset (c : Console) : Console := { c with mailbox := Mailbox.reset, response := responseReset }

/-- Every block reset but the Resume Table and the Parameter Table; RESTARTED SOFT (R187, R188, R192). R169 and R187 do not say
what becomes of the reset cause the core supply monitor recorded; it is kept (DESIGN CHOICE, log entry 38). -/
def softReset (s : State) : State :=
  { State.reset with
    link := s.link.restarted, supply := Supply.reset s.supply.resetCause, resume := s.resume, console := s.console.softReset
    attn := Attn.restarted 4, pending := s.pending }

/-- The code of SOFT_RESET is written to CMD. -/
def softResetWrite (s : State) : State :=
  if s.console.mailbox.busy then mapMailbox Mailbox.collide s else softReset s

/-- A byte is written to CMD: the command its code names (R181, R194). -/
def cmdWrite (code : Byte) (s : State) : State :=
  match code.toNat with
  | 0x01 => commandWrite code answerSelect s
  | 0x02 => commandWrite code answerPlay s
  | 0x03 => commandWrite code answerPause s
  | 0x04 => commandWrite code answerContinue s
  | 0x05 => commandWrite code answerStop s
  | 0x10 => commandWrite code answerSet s
  | 0x11 => commandWrite code answerGet s
  | 0x20 => commandWrite code answerReadResume s
  | 0x21 => commandWrite code answerClearResume s
  | 0x22 => commandWrite code answerReadSlot s
  | 0x23 => commandWrite code answerReadRepair s
  | 0x24 => commandWrite code answerReadCounters s
  | 0x25 => commandWrite code answerClearCounters s
  | 0x5A => softResetWrite s
  | _ => commandWrite code answerUnknown s

/-- A byte is written to a PARAM register (R180). -/
def paramWrite (index : Fin 6) (value : Byte) (s : State) : State :=
  if s.console.mailbox.busy then mapMailbox Mailbox.collide s
  else mapMailbox (fun m => { m with param := m.param.set index value }) s

/-! ### The Attention Controller's registers (R189, R191) -/

/-- Change the Attention Controller. -/
def mapAttn (g : Attn → Attn) (s : State) : State := s.setAttn (g s.attn)

/-- Acknowledged: not pending, count 0; the rest is kept (R191). -/
def EventRecord.ack (r : EventRecord) : EventRecord := { r with pending := false, count := 0 }

/-- A byte is written to ACK (R191). -/
def Attn.ack (a : Attn) (value : Byte) : Attn :=
  if value = 0xFF then { a with events := a.events.map EventRecord.ack }
  else if h : 1 ≤ value.toNat ∧ value.toNat ≤ 16 then
    let i : Fin 16 := ⟨value.toNat - 1, by omega⟩
    a.setRecord i (a.record i).ack
  else a

/-- Change the record of the event the event index names. -/
def Attn.mapIndexed (a : Attn) (g : EventRecord → EventRecord) : Attn :=
  if h : 1 ≤ a.index ∧ a.index ≤ 16 then
    let i : Fin 16 := ⟨a.index - 1, by omega⟩
    a.setRecord i (g (a.record i))
  else a

/-- A byte is written to THRESHOLD: 0 to 3 are taken (R189). -/
def Attn.writeThreshold (a : Attn) (value : Byte) : Attn :=
  if value.toNat ≤ 3 then { a with threshold := value.toNat } else a

/-- A byte is written to EVENT INDEX: 1 to 16 are taken (R189). -/
def Attn.writeIndex (a : Attn) (value : Byte) : Attn :=
  if 1 ≤ value.toNat ∧ value.toNat ≤ 16 then { a with index := value.toNat } else a

/-- A byte is written to EVENT ENABLE: 0 and 1 are taken (R189). -/
def Attn.writeEnable (a : Attn) (value : Byte) : Attn :=
  if value.toNat ≤ 1 then a.mapIndexed (fun r => { r with enable := decide (value.toNat = 1) }) else a

/-- A byte is written to EVENT LEVEL: 0 to 3 are taken (R189). -/
def Attn.writeLevel (a : Attn) (value : Byte) : Attn :=
  if value.toNat ≤ 3 then a.mapIndexed (fun r => { r with level := value.toNat }) else a

/-- What a byte written to a register does (R177, R194); a register that software can only read ignores it. -/
def registerWrite (register : Nat) (value : Byte) (s : State) : State :=
  match register with
  | 0x20 => mapAttn (fun a => a.ack value) s
  | 0x21 => mapAttn (fun a => a.writeThreshold value) s
  | 0x22 => mapAttn (fun a => a.writeIndex value) s
  | 0x23 => mapAttn (fun a => a.writeEnable value) s
  | 0x24 => mapAttn (fun a => a.writeLevel value) s
  | 0x27 => paramWrite 0 value s
  | 0x28 => paramWrite 1 value s
  | 0x29 => paramWrite 2 value s
  | 0x2A => paramWrite 3 value s
  | 0x2B => paramWrite 4 value s
  | 0x2C => paramWrite 5 value s
  | 0x2D => cmdWrite value s
  | _ => s

/-! ### The commands -/

/-- A byte is written to a register in a transaction (R177). -/
def writeByte (register : Nat) (value : Byte) (s : State) : State := busWrite register (fun r => registerWrite r value) s

/-- A code is written to CMD in a transaction. -/
def writeCommand (code : Byte) (s : State) : State := writeByte 0x2D code s

/-- SELECT (R137, R138). -/
def execSelect (s : State) : Outcome := inStep (writeCommand 0x01) s

/-- PLAY (R137, R139). -/
def execPlay (s : State) : Outcome := inStep (writeCommand 0x02) s

/-- PAUSE (R137, R140). -/
def execPause (s : State) : Outcome := inStep (writeCommand 0x03) s

/-- CONTINUE (R137, R141). -/
def execContinue (s : State) : Outcome := inStep (writeCommand 0x04) s

/-- STOP (R137, R142). -/
def execStop (s : State) : Outcome := inStep (writeCommand 0x05) s

/-- SET (R183). -/
def execSet (s : State) : Outcome := inStep (writeCommand 0x10) s

/-- GET (R184). -/
def execGet (s : State) : Outcome := inStep (writeCommand 0x11) s

/-- READ_RESUME (R173). -/
def execReadResume (s : State) : Outcome := inStep (writeCommand 0x20) s

/-- CLEAR_RESUME (R173). -/
def execClearResume (s : State) : Outcome := inStep (writeCommand 0x21) s

/-- READ_SLOT (R18). -/
def execReadSlot (s : State) : Outcome := inStep (writeCommand 0x22) s

/-- READ_REPAIR (R73). -/
def execReadRepair (s : State) : Outcome := inStep (writeCommand 0x23) s

/-- READ_COUNTERS (R185). -/
def execReadCounters (s : State) : Outcome := inStep (writeCommand 0x24) s

/-- CLEAR_COUNTERS (R186). -/
def execClearCounters (s : State) : Outcome := inStep (writeCommand 0x25) s

/-- SOFT_RESET (R187). -/
def execSoftReset (s : State) : Outcome := .next (writeCommand 0x5A s)

/-- UNKNOWN_COMMAND (R181); a code that names a command is that command. -/
def execUnknownCommand (code : Byte) (s : State) : Outcome := inStep (writeCommand code) s

/-- The register a mailbox write names: 0 to 5 are PARAM0 to PARAM5, 6 is CMD (R194). -/
def mailboxRegister (register : Fin 7) : Nat := 0x27 + register.val

/-- MAILBOX_COLLISION: the row is the write that met BUSY, so it is refused whatever BUSY is now (R180). -/
def execMailboxCollision (register : Fin 7) (_value : Byte) (s : State) : Outcome :=
  inStep (busWrite (mailboxRegister register) (fun _ => mapMailbox Mailbox.collide)) s

/-- PARAM_WRITE (R180). -/
def execParamWrite (index : Fin 6) (value : Byte) (s : State) : Outcome :=
  inStep (writeByte (0x27 + index.val) value) s

/-- REGISTER_POINTER (R176, R177). -/
def execRegisterPointer (address : BitVec 7) (pointer : Byte) (s : State) : Outcome :=
  inStep (mapConsole (fun c => c.beginWrite address pointer)) s

/-- ACK (R191). -/
def execAck (value : Byte) (s : State) : Outcome :=
  inStep (writeByte 0x20 value) s

/-- THRESHOLD (R189, R190). -/
def execThreshold (value : Byte) (s : State) : Outcome :=
  inStep (writeByte 0x21 value) s

/-- EVENT_INDEX (R189). -/
def execEventIndex (value : Byte) (s : State) : Outcome :=
  inStep (writeByte 0x22 value) s

/-- EVENT_ENABLE (R189, R190). -/
def execEventEnable (value : Byte) (s : State) : Outcome :=
  inStep (writeByte 0x23 value) s

/-- EVENT_LEVEL (R189, R190). -/
def execEventLevel (value : Byte) (s : State) : Outcome :=
  inStep (writeByte 0x24 value) s

/-- READ_ONLY_WRITE (R177); a register that can be written is written. -/
def execReadOnlyWrite (register : BitVec 6) (value : Byte) (s : State) : Outcome :=
  inStep (writeByte register.toNat value) s

/-- SNAPSHOT_LATCH: the target sends bytes (R176 to R178). -/
def execSnapshotLatch (count : Nat) (s : State) : Outcome :=
  inStep (fun s => sendBytes count (mapConsole Console.beginRead s)) s

/-- TRANSACTION_END (R176, R178). -/
def execTransactionEnd (s : State) : Outcome := inStep (mapConsole Console.endTransaction) s

end Sys2Proof.Machine
end

