-- ==== Sys2Proof/Machine/Resets.lean ====
section
/-!
DEFINITION. The power-on reset and the system reset (R188), and the judgement of the Resume Table (R175).
-/
namespace Sys2Proof.Machine

/-! ### The stored form (R174, R196) -/

/-- The mode a stored byte codes; none outside 0 to 2. -/
def storedMode : Nat → Option SaveMode
  | 0 => some .ready
  | 1 => some .playing
  | 2 => some .paused
  | _ => none

/-- The cause a stored byte codes; none outside 0 to 5. -/
def storedCause : Nat → Option SealCause
  | 0 => some .none
  | 1 => some .tray
  | 2 => some .supply
  | 3 => some .drive
  | 4 => some .stop
  | 5 => some .change
  | _ => none

/-- The resume BN and the frame are within their ranges (R170). -/
def ResumeEntry.inRange (e : ResumeEntry) : Bool :=
  decide (e.bn < Config.maxExtent) && decide (e.frame < Config.framesPerBlock)

/-- Read a stored entry of 12 bytes; none where a field is out of range (R175, R196). An entry of valid byte 0 whose other fields are
in range and not all 0 is kept as it stands (R175; R170 gives every not-valid entry the fields 0; DESIGN CHOICE, log entry 42); it
reads with the not-valid values (R173). -/
def storedEntry (bytes : List Byte) : Option ResumeEntry :=
  match storedMode (fieldOf bytes 10 1), storedCause (fieldOf bytes 11 1) with
  | some mode, some cause =>
    let e : ResumeEntry :=
      ⟨decide (fieldOf bytes 0 1 = 1), BitVec.ofNat 32 (fieldOf bytes 1 4), fieldOf bytes 5 3, fieldOf bytes 8 2, mode, cause⟩
    if fieldOf bytes 0 1 ≤ 1 ∧ e.inRange = true then some e else none
  | _, _ => none

/-- What the table finds stored: each entry, none where it is out of range, and whether the check matches. -/
structure Stored where
  entries : Vector (Option ResumeEntry) 6
  sound : Bool
  deriving DecidableEq, Repr

/-- The table as it was last written. -/
def Resume.stored (r : Resume) : Stored :=
  ⟨r.entries.map (fun e => if e.inRange then some e else none), decide (r.check = Resume.crc r.entries)⟩

/-- What retention memory holds where it is not what was last written. -/
def RetentionImage.stored (m : Sys2Proof.RetentionImage) : Stored :=
  ⟨Vector.ofFn (fun i : Fin 6 => storedEntry ((m.bytes.drop (12 * i.val)).take 12)),
    decide (m.bytes.length = 72) && decide (crc16 m.bytes = m.check)⟩

/-! ### The judgement (R175) -/

/-- The table with its out-of-range entries made not valid. -/
def Stored.repaired (x : Stored) : Resume := Resume.withEntries (x.entries.map (fun e => e.getD ResumeEntry.invalid))

/-- Judge the table: kept, repaired with RETENTION_LOST RANGE, or cleared with RETENTION_LOST CHECK. -/
def judgeResume (x : Stored) (s : State) : State :=
  if x.sound then
    if x.entries.all Option.isSome then s.setResume x.repaired
    else raise .retentionLost 1 (s.setResume x.repaired)
  else raise .retentionLost 2 (s.setResume Resume.clearAll)

/-! ### Hard resets (R188) -/

/-- The detail of RESTARTED for a recorded cause (R197). -/
def ResetCause.detail : ResetCause → Byte
  | .powerOn => 1
  | .resetn => 2
  | .brownOut => 3

/-- Every block reset, and RESTARTED raised with the recorded cause; the waiting commands are the sender's. -/
def resetBlocks (cause : ResetCause) (addr : Bool) (s : State) : State :=
  { State.reset with
    link := s.link.restarted, supply := Supply.reset cause, console := Console.reset addr, attn := Attn.restarted cause.detail, pending := s.pending }

/-- What the table finds stored at a reset. -/
def storedAt (retention : Option Sys2Proof.RetentionImage) (s : State) : Stored :=
  match retention with
  | none => s.resume.stored
  | some m => RetentionImage.stored m

/-- A hard reset: every block, RESTARTED, then the judgement of the Resume Table (R188). -/
def hardReset (cause : ResetCause) (addr : Bool) (x : Stored) (s : State) : State :=
  judgeResume x (resetBlocks cause addr s)

/-- POWER_ON_RESET (R188). -/
def execPowerOnReset (addr : Bool) (retention : Option Sys2Proof.RetentionImage) (s : State) : Outcome :=
  .next (hardReset .powerOn addr (storedAt retention s) s)

/-- The cause the core supply monitor records for a system reset. -/
def resetCauseOf : SystemCause → ResetCause
  | .resetn => .resetn
  | .brownOut => .brownOut

/-- SYSTEM_RESET (R169, R188). A reset by RESETN is taken between two table writes (R174), so an image under the cause RESETN is
that of a brown-out which ended with RESETN low and is recorded as RESETN (R188). -/
def execSystemReset (cause : SystemCause) (addr : Bool) (retention : Option Sys2Proof.RetentionImage) (s : State) : Outcome :=
  .next (hardReset (resetCauseOf cause) addr (storedAt retention s) s)

end Sys2Proof.Machine
end

