-- ==== Sys2Proof/Machine/Dispatch.lean ====
section
/-! DEFINITION. One arm per command: the meaning it calls. -/
namespace Sys2Proof.Machine

/-- The effect of a command on everything but the queue of waiting commands. -/
def exec (i : Instr) (s : State) : Host.Outcome State Fault Refusal :=
  match i with
  | .powerOnReset addr retention => Sys2Proof.Machine.execPowerOnReset addr retention s
  | .systemReset cause addr retention => Sys2Proof.Machine.execSystemReset cause addr retention s
  | .blockTick => Sys2Proof.Machine.execBlockTick s
  | .recovery => Sys2Proof.Machine.execRecovery s
  | .seekTimeout => Sys2Proof.Machine.execSeekTimeout s
  | .loadTimeout => Sys2Proof.Machine.execLoadTimeout s
  | .clockLoss => Sys2Proof.Machine.execClockLoss s
  | .frameDemand leftClocks rightClocks => Sys2Proof.Machine.execFrameDemand leftClocks rightClocks s
  | .block noise stream bn tag samples erasures => Sys2Proof.Machine.execBlock noise stream bn tag samples erasures s
  | .placement => Sys2Proof.Machine.execPlacement s
  | .landed noise stream bn => Sys2Proof.Machine.execLanded noise stream bn s
  | .refused noise stream reason => Sys2Proof.Machine.execRefused noise stream reason s
  | .jump noise stream lastGood landing monitorFirst => Sys2Proof.Machine.execJump noise stream lastGood landing monitorFirst s
  | .settled noise stream => Sys2Proof.Machine.execSettled noise stream s
  | .disc noise stream tag extent position => Sys2Proof.Machine.execDisc noise stream tag extent position s
  | .gone noise stream position => Sys2Proof.Machine.execGone noise stream position s
  | .rateMark noise span => Sys2Proof.Machine.execRateMark noise span s
  | .lostMessage chars => Sys2Proof.Machine.execLostMessage chars s
  | .driveRestart order => Sys2Proof.Machine.execDriveRestart order s
  | .transmitterRelease => Sys2Proof.Machine.execTransmitterRelease s
  | .transmissionComplete => Sys2Proof.Machine.execTransmissionComplete s
  | .trayIn => Sys2Proof.Machine.execTrayIn s
  | .trayOut => Sys2Proof.Machine.execTrayOut s
  | .shockChange level => Sys2Proof.Machine.execShockChange level s
  | .levelLatch pin level => Sys2Proof.Machine.execLevelLatch pin level s
  | .supplyWarning vsense => Sys2Proof.Machine.execSupplyWarning vsense s
  | .supplyRecovery => Sys2Proof.Machine.execSupplyRecovery s
  | .select => Sys2Proof.Machine.execSelect s
  | .play => Sys2Proof.Machine.execPlay s
  | .pause => Sys2Proof.Machine.execPause s
  | .continuePlay => Sys2Proof.Machine.execContinue s
  | .stop => Sys2Proof.Machine.execStop s
  | .set => Sys2Proof.Machine.execSet s
  | .get => Sys2Proof.Machine.execGet s
  | .readResume => Sys2Proof.Machine.execReadResume s
  | .clearResume => Sys2Proof.Machine.execClearResume s
  | .readSlot => Sys2Proof.Machine.execReadSlot s
  | .readRepair => Sys2Proof.Machine.execReadRepair s
  | .readCounters => Sys2Proof.Machine.execReadCounters s
  | .clearCounters => Sys2Proof.Machine.execClearCounters s
  | .softReset => Sys2Proof.Machine.execSoftReset s
  | .unknownCommand code => Sys2Proof.Machine.execUnknownCommand code s
  | .mailboxCollision register value => Sys2Proof.Machine.execMailboxCollision register value s
  | .paramWrite index value => Sys2Proof.Machine.execParamWrite index value s
  | .registerPointer address pointer => Sys2Proof.Machine.execRegisterPointer address pointer s
  | .ack value => Sys2Proof.Machine.execAck value s
  | .threshold value => Sys2Proof.Machine.execThreshold value s
  | .eventIndex value => Sys2Proof.Machine.execEventIndex value s
  | .eventEnable value => Sys2Proof.Machine.execEventEnable value s
  | .eventLevel value => Sys2Proof.Machine.execEventLevel value s
  | .readOnlyWrite register value => Sys2Proof.Machine.execReadOnlyWrite register value s
  | .snapshotLatch count => Sys2Proof.Machine.execSnapshotLatch count s
  | .overrunAtHeader noise stream => Sys2Proof.Machine.execOverrunAtHeader noise stream s
  | .transmitterIdle => Sys2Proof.Machine.execTransmitterIdle s
  | .lineIdle => Sys2Proof.Machine.execLineIdle s
  | .discardingCharacter char => Sys2Proof.Machine.execDiscardingCharacter char s
  | .supplySample vsense => Sys2Proof.Machine.execSupplySample vsense s
  | .cancellerSample pin level => Sys2Proof.Machine.execCancellerSample pin level s
  | .transactionEnd => Sys2Proof.Machine.execTransactionEnd s

end Sys2Proof.Machine
end

