-- ==== Sys2Proof/Machine/Step.lean ====
section
/-! DEFINITION. A step takes the command at the front of the queue; on an empty queue the block idles (log entry 2). -/
namespace Sys2Proof.Machine

/-- One step. -/
def step (s : State) : Host.Outcome State Fault Refusal :=
  match s.pending with
  | [] => .next s
  | c :: rest => exec c (s.setPending rest)

/-- The state with the command a word spells at the front of its queue; unchanged where the word spells none. -/
def State.withFetchWord (s : State) (nbits w : Nat) : State :=
  match decodeTableWord nbits w with
  | none => s
  | some c => s.setPending (c :: s.pending)

end Sys2Proof.Machine
end

