-- ==== Sys2Proof/Safety.lean ====
section
/-!
DEFINITION. What a safe run keeps: one property per kind of state, each a relation the spec says holds at every event of the
owning block.
-/
namespace Sys2Proof.Machine

/-- The Transmit Queue holds at most one message of each class (R108), and an IDLE transmitter has left none in it (R111). -/
def Link.Sound (l : Link) : Prop := (l.queue.map TxMsg.cls).Nodup ∧ (l.tx = .idle → l.queue = [])

/-- A message waits in the Transmit Queue or is being sent (R108, R111). -/
def Link.Carries (l : Link) (m : TxMsg) : Prop := m ∈ l.queue ∨ l.tx = .sending m

/-- The health state and the pace level follow the skip score (R78, R80, R82, R195), and the figures stay in their ranges
(R75). -/
def Health.Sound (h : Health) : Prop :=
  h.state = healthOf h.skip ∧ h.pace = paceOf h.state ∧ h.skip ≤ 511 ∧ h.erasure ≤ 255 ∧ h.quiet ≤ 255

/-- The window begins at the cursor's block and ends with the disc record's extent (R4, R5, R116, R117), which is 0 in EMPTY and
LOADING (R135); a slot index outside the window is empty (R4, R5); no pass count is above 15 (R3), and no undeclared slot is
left in row 5 of R6. -/
def StoreSound (s : State) : Prop :=
  s.store.wf = true ∧ s.feeder.block = s.store.playBlock ∧ s.store.extent = s.play.disc.extent ∧
    (s.play.state = .empty ∨ s.play.state = .loading → s.play.disc.extent = 0) ∧
    (∀ k, k < 384 → s.store.used k = false → s.store.slotAt k = Slot.empty) ∧
    ∀ k, (s.store.slotAt k).pass ≤ 15 ∧ (s.store.slotAt k).meetsRow5 (effectiveRetry s) = false

/-- The Intake holds at most two entries of 588 present frames (R20), a message under way that began with the header of a BLOCK
has an entry to go to (R22, R101), and the offset of the stream is within the widest Slip Range (R31, R183). -/
def IntakeSound (s : State) : Prop :=
  s.asm.intake.length ≤ 2 ∧
    (∀ x ∈ s.asm.intake, x.frames.length = 588 ∧ ∀ f ∈ x.frames, f.mark ≠ .absent) ∧
    (∀ held, s.link.assembly = .inMessage held →
      held ≠ [] ∧ (headerKind (held.getLastD 0) = .message .block → s.asm.intake.length < 2)) ∧
    -128 ≤ s.asm.align.offset ∧ s.asm.align.offset ≤ 128

/-- The Repair List is the runs of the store, at most 16, rising and not touching (R46, R47, R49), its counts in range; at most
one entry is ACTIVE, none while the stream is NONE or FRONTIER, and the served last BN is its last BN (R48, R51, R65). -/
def RepairListSound (p : Planner) (t : Store) : Prop :=
  p.list.map (fun e => (e.first, e.last)) = t.runs ∧ p.list.length ≤ 16 ∧
    p.list.Pairwise (fun a b => a.last + 1 < b.first) ∧
    (∀ e ∈ p.list, t.playBlock ≤ e.first ∧ e.first ≤ e.last ∧ e.last < t.fillHead ∧ e.attempts ≤ 15 ∧ e.mislocks ≤ 3) ∧
    (p.list.filter RepairEntry.active).length ≤ 1 ∧
    (p.stream.state = .none ∨ p.stream.purpose = .frontier → ∀ e ∈ p.list, e.active = false) ∧
    ∀ e ∈ p.list, e.active = true → p.stream.servedLast = e.last

/-- The frontier record mirrors the fill head, its counts in range (R50); the planner is active exactly where R52 says, and
reads nothing where it is not; the seek timer runs in SEEKING only and stays in range (R57). -/
def FrontierSound (s : State) : Prop :=
  s.planner.frontier.fillHead = s.store.fillHead ∧ s.planner.frontier.mislocks ≤ 3 ∧ s.planner.frontier.refusals ≤ 15 ∧
    s.planner.active = plannerMayRead s ∧ (s.planner.active = false → s.planner.stream.state = .none) ∧
    (s.planner.stream.timerRuns = true → s.planner.stream.state = .seeking) ∧ s.planner.stream.timer ≤ 1023 ∧
    s.planner.stream.number ≤ 15

/-- The Assembler's phase is NONE while no stream has landed, and otherwise the phase, the stream number, the expected next BN
and the offset are those of the stream record (R24, R25, R51, R62). A SEEKING stream has the offset 0 of its opening (R51). -/
def AlignSound (s : State) : Prop :=
  (s.asm.align.phase = .none ↔ s.planner.stream.state = .none ∨ s.planner.stream.state = .seeking) ∧
    (s.planner.stream.state = .seeking → s.planner.stream.offset = 0) ∧
    (s.asm.align.phase ≠ .none →
      s.asm.align.stream = s.planner.stream.number ∧ s.asm.align.phase.streamState = s.planner.stream.state ∧
        s.asm.align.expected = s.planner.stream.expected ∧ s.asm.align.offset = s.planner.stream.offset)

/-- The hold causes are the conditions of R41: INTAKE while both intake entries are occupied, WINDOW while a stream that has landed
expects its next frames at or beyond the window's far edge or the extent. -/
def FlowSound (s : State) : Prop :=
  (s.asm.holdIntake = true ↔ 2 ≤ s.asm.intake.length) ∧
    (s.asm.holdWindow = true ↔
      s.asm.align.phase ≠ .none ∧
        (((s.store.playBlock + 384) * 588 : Nat) ≤ (s.asm.align.expected * 588 : Nat) + s.asm.align.offset ∨
          ((s.store.extent * 588 : Nat) : Int) ≤ (s.asm.align.expected * 588 : Nat) + s.asm.align.offset))

/-- What the planner holds of the store, of the stream and of the entries it reads for. -/
def PlannerSound (s : State) : Prop := RepairListSound s.planner s.store ∧ FrontierSound s ∧ AlignSound s

/-- The table check is the CRC over the entries (R171, R174). -/
def Resume.Sound (r : Resume) : Prop := r.check = Resume.crc r.entries

/-- G and the concealment run agree with the feeder state (R115, R119, R120, R123, R125). -/
def Feeder.Sound (f : Feeder) : Prop :=
  f.gain ≤ 128 ∧ (f.state = .running → f.gain = 128) ∧ (f.state = .silent → f.gain = 0) ∧
    (f.state = .silent ∨ f.state = .starved → f.run = .none ∧ f.concealC = 128)

/-- The suspend-cause set is not empty exactly in COASTING and SUSPENDED (R133, R134). -/
def Play.Sound (p : Play) : Prop := p.causes.isEmpty = false ↔ p.state = .coasting ∨ p.state = .suspended

/-- The Play Controller's supply warning mirrors the Supply Watch's (R133), and the Supply Watch's counts stay in their
ranges (R166). -/
def SupplySound (s : State) : Prop :=
  s.play.supplyWarned = s.supply.warning ∧ s.supply.below ≤ 1 ∧ s.supply.settle ≤ 255

/-- The candidate count of a canceller is below 3 between samples (R162, R163). -/
def Sense.Sound (x : Sense) : Prop := x.tray.count ≤ 2 ∧ x.shock.count ≤ 2

/-- No command is in progress between two steps (R180, R181). -/
def Console.Sound (c : Console) : Prop := c.mailbox.busy = false

/-- Every parameter holds a value of its range (R183). -/
def Params.InRange (p : Params) : Prop := ∀ id, 1 ≤ id → id ≤ 24 → paramInRange id (p.get id) = true

end Sys2Proof.Machine
end

