-- ==== Sys2Proof/WellFormed.lean ====
section
/-!
DEFINITION. Which commands can occur: each check is a fact the spec states of the event the row stands for.
The meanings are total, so they do not rest on these checks.
-/
namespace Sys2Proof

/-- A retention image is as long as the stored table: 72 bytes (R196). -/
def RetentionImage.wf (image : RetentionImage) : Bool := image.bytes.length == 72

/-- A sampled character is 11, 12 or 13 bits long (R92). -/
def RxChar.wf (c : RxChar) : Bool := 11 ≤ c.bits.length && c.bits.length ≤ 13

/-- The command codes of R194. -/
def commandCodes : List Nat :=
  [0x01, 0x02, 0x03, 0x04, 0x05, 0x10, 0x11, 0x20, 0x21, 0x22, 0x23, 0x24, 0x25, 0x5A]

/-- The writable registers of the window (R177, R194). -/
def writableRegisters : List Nat :=
  [0x20, 0x21, 0x22, 0x23, 0x24, 0x27, 0x28, 0x29, 0x2A, 0x2B, 0x2C, 0x2D]

/-- An index list of a BLOCK: at most 64 indices, each below 588, none given twice (R102, R104). -/
def erasuresWf : Option (List (BitVec 16)) → Bool
  | none => true
  | some indices => indices.length ≤ 64 && indices.all (fun i => i.toNat < 588) && indices.Nodup

/-- The order of a Drive Restart names each of the four blocks once (R98). -/
def restartOrderWf (order : List RestartOwner) : Bool := order.length == 4 && order.Nodup

/-- What each row of the table requires of its operands. -/
def Instr.wf : Instr → Bool
  | .powerOnReset _ retention => retention.all RetentionImage.wf
  | .systemReset _ _ retention => retention.all RetentionImage.wf
  | .block _ _ _ _ _ erasures => erasuresWf erasures
  | .landed _ _ bn => bn.toNat < Config.maxExtent
  | .refused _ _ reason => reason == 1 || reason == 2
  | .disc _ _ _ extent position =>
    1 ≤ extent.toNat && extent.toNat ≤ Config.maxExtent && 1 ≤ position.toNat && position.toNat ≤ 6
  | .gone _ _ position => 1 ≤ position.toNat && position.toNat ≤ 6
  | .lostMessage chars => !chars.isEmpty && chars.all RxChar.wf
  | .driveRestart order => restartOrderWf order
  | .unknownCommand code => !commandCodes.contains code.toNat
  | .readOnlyWrite register _ => !writableRegisters.contains register.toNat
  | .snapshotLatch count => 1 ≤ count
  | .discardingCharacter char => char.wf
  | .recovery | .seekTimeout | .loadTimeout | .clockLoss | .blockTick | .placement | .transmitterRelease
  | .transmissionComplete | .trayIn | .trayOut | .supplyRecovery | .select | .play | .pause | .continuePlay | .stop
  | .set | .get | .readResume | .clearResume | .readSlot | .readRepair | .readCounters | .clearCounters | .softReset
  | .transmitterIdle | .lineIdle | .transactionEnd => true
  | .frameDemand _ _ | .jump _ _ _ _ _ | .settled _ _ | .rateMark _ _ | .shockChange _ | .levelLatch _ _
  | .supplyWarning _ | .mailboxCollision _ _ | .paramWrite _ _ | .registerPointer _ _ | .ack _ | .threshold _
  | .eventIndex _ | .eventEnable _ | .eventLevel _ | .overrunAtHeader _ _ | .supplySample _ | .cancellerSample _ _ =>
    true

end Sys2Proof
end

