-- ==== Sys2Proof/Certificates/Slice0/Obligations.lean ====
section
/-!
DEFINITION. The statements about the model. A statement about a command says that it answers a next state, under hypotheses on
the state and the operands alone, and what that state holds; "the rest is as it was" is said by an equation for the whole next
state, or by equations for the blocks that stay.
-/
namespace Sys2Proof.Claims

open Sys2Proof.Machine

/-- The command answers a next state, and that state has P. -/
def Completes (c : Instr) (s : State) (P : State → Prop) : Prop := ∃ t, exec c s = .next t ∧ P t

/-- The record of an event after one more raise of it (R190). -/
def oneMore (r : EventRecord) (detail : Nat) : EventRecord :=
  { r with pending := true, count := min 255 (r.count + 1), detail := BitVec.ofNat 8 detail }

/-- From s to t an event was raised once, with a detail. -/
def RaisedOnce (s t : State) (e : Event) (detail : Nat) : Prop :=
  t.attn.record e.index = oneMore (s.attn.record e.index) detail

/-- From s to t no event outside a list was raised. -/
def OnlyRaised (events : List Event) (s t : State) : Prop :=
  ∀ e, e ∉ events → t.attn.record e.index = s.attn.record e.index

/-- The blocks no command of the link, the planner or the Play Controller reaches are as they were. -/
def SensesStay (s t : State) : Prop := t.sense = s.sense ∧ t.supply = s.supply ∧ t.console = s.console ∧ t.pending = s.pending

/-- Everything but the link, the Assembler and the planner is as it was. -/
def AudioStays (s t : State) : Prop :=
  SensesStay s t ∧ t.store = s.store ∧ t.health = s.health ∧ t.feeder = s.feeder ∧ t.play = s.play ∧ t.resume = s.resume

/-- A write transaction whose bytes are taken, and a mailbox that is not BUSY (R176, R180). -/
def MailboxFree (s : State) : Prop := s.console.mailbox.busy = false ∧ s.console.bus ≠ .refused

/-- The Console Port after a code written to CMD was taken and completed with a result (R180, R181). -/
def completed (s : State) (code : Byte) (r : Result) (response : List Byte) : Console :=
  { s.console with
    bus := .writing, latch := none, pointer := 0x2E, response := response
    mailbox := { s.console.mailbox with cmd := code, busy := false, collision := false, result := r } }

/-- The state after a command that changes nothing but the mailbox, the response area and COMMAND_DONE. -/
def answeredState (s : State) (code : Byte) (r : Result) (response : List Byte) : State :=
  (s.setConsole (completed s code r response)).setAttn (s.attn.raise .commandDone code)

/-- The link takes messages: the receiver is enabled and no message is under way (R99, R100). -/
def LinkReady (s : State) : Prop := s.console.params.receiverEnable = 1 ∧ s.link.assembly = .idle

/-- A message is lost at the link: the flag is set, the counters and the assembly state are those given, and nothing outside the link
changes but the events (R105). -/
def LosesMessage (s t : State) (counters : LinkCounters) (assembly : RxAssembly) : Prop :=
  t.link.lost = true ∧ t.link.counters = counters ∧ t.link.assembly = assembly ∧ OnlyRaised [.linkFault] s t ∧
    t.asm = s.asm ∧ t.planner = s.planner ∧ AudioStays s t

/-- The health state is WITHDRAWN. -/
def Withdrawn (s : State) : Prop := s.health.state = .withdrawn

/-- The skip score is raised by an amount, unless WITHDRAWN freezes it (R76, R82). -/
def SkipRaised (s t : State) (amount : Nat) : Prop :=
  (Withdrawn s → t.health.skip = s.health.skip) ∧ (¬ Withdrawn s → t.health.skip = min 511 (s.health.skip + amount))

/-- A new readiness of the store is kept by the feeder and the Play Controller and starts nothing (R124, R146). -/
def Steady (s : State) : Prop := s.feeder.state ≠ .starved ∧ s.play.state ≠ .cueing

/-- No stream has landed, and no seek timer runs: the stream is NONE, or a SEEK of it waits for its answer (R57, R65). -/
def NothingLanded (t : State) : Prop :=
  t.planner.stream.timerRuns = false ∧ t.asm.align.phase = .none ∧
    (t.planner.stream.state = .none ∨ t.planner.stream.state = .seeking)

/-- The stream of s is over in t: the record is NONE, or is that of the next number, and no SEEK of the old number waits (R51,
R65). -/
def StreamOver (s t : State) : Prop :=
  (t.planner.stream.state = .none ∨ t.planner.stream.number = nextNumber s.planner.stream.number) ∧
    ∀ b, TxMsg.seek s.planner.stream.number b ∉ t.link.queue

/-- A CEASE has been requested: that of the stream of s, which a later close can have replaced where the planner became inactive or
a new readiness of the store was acted on (R52, R65, R109). -/
def Ceased (s t : State) : Prop :=
  (∃ n, t.link.Carries (.cease n)) ∧
    (Steady s → s.planner.active = plannerMayRead s → (Withdrawn t → Withdrawn s) →
      t.link.Carries (.cease s.planner.stream.number))

/-- The exhaustion check of the entry the stream of s served: below the effective Retry Limit, or with no entry, the store is as it
was; at it every block of the entry is declared and counted once, and nothing else of the store changes (R66). -/
def ExhaustionChecked (s t : State) : Prop :=
  ((∀ e, s.planner.list.find? RepairEntry.active = some e → e.attempts < effectiveRetry s) →
    t.store = s.store ∧ t.planner.counters.exhaustion = s.planner.counters.exhaustion) ∧
  ∀ e, s.planner.list.find? RepairEntry.active = some e → effectiveRetry s ≤ e.attempts → s.store.wf = true →
    t.planner.counters.exhaustion = bump s.planner.counters.exhaustion ∧
    t.store.playBlock = s.store.playBlock ∧ t.store.extent = s.store.extent ∧
    ∀ b,
      (s.store.holds b = true ∧ e.first ≤ b ∧ b ≤ e.last → t.store.slotOf b = { s.store.slotOf b with declared := true }) ∧
      (b < e.first ∨ e.last < b → t.store.slotOf b = s.store.slotOf b)

/-- The stream of s is closed with CEASE and the exhaustion check, and a new one is chosen (R54, R65, R66). -/
def ClosedWithCease (s t : State) : Prop :=
  NothingLanded t ∧ Ceased s t ∧ (Steady s → StreamOver s t ∧ ExhaustionChecked s t)

/-- The cursor is before the end of the disc (R131). -/
def Inside (s : State) : Prop := s.play.disc.extent = 0 ∨ playPosition s < s.play.disc.extent * 588

/-- A frame demand that changes the feeder alone: a frame is given and shifted out (R114, R122). -/
def Gives (l r : Nat) (s : State) (v : Sample) (f : Feeder) : Prop :=
  exec (.frameDemand l r) s =
    .next (s.setFeeder { f with given := v, seen := true, aodLeft := halfBits v.left l, aodRight := halfBits v.right r })

/-- A frame a concealment run can hold: not GOOD, not ABSENT in an undeclared slot, in the examination region (R125). -/
def Concealable (s : State) (q : Nat) : Prop :=
  (s.store.frameAt q).mark ≠ .good ∧ ((s.store.frameAt q).mark = .absent → s.store.declaredAt q = true) ∧
    q < (s.store.playBlock + max s.store.readyDepth 1) * 588

/-- An end notice was taken, the feeder silent at the end (R131, R156): READY with the disc kept, or EMPTY where it was
UNCONFIRMED. -/
def DiscEnded (s t : State) : Prop :=
  t.play.state = (if s.play.disc.confirmed then .ready else .empty) ∧ t.play.causes = ⟨false, false, false⟩ ∧
    t.play.counters.endOfDisc = bump s.play.counters.endOfDisc ∧ t.feeder.state = .silent ∧ t.feeder.gain = 0 ∧
    RaisedOnce s t .endOfDisc s.play.disc.position ∧ t.resume = s.resume.write s.play.disc.position ResumeEntry.invalid ∧
    (s.play.disc.confirmed = true → t.feeder.atEnd = true)

/-- An answer that is counted only, as a stray or as an unsolicited one (R145, R151, R153). -/
def AnswerCounted (s t : State) (counters : PlayCounters) : Prop :=
  t.play = { s.play with counters := counters } ∧ t.asm = s.asm ∧ t.planner = s.planner ∧ t.attn = s.attn ∧
    t.store = s.store ∧ t.health = s.health ∧ t.feeder = s.feeder ∧ t.resume = s.resume ∧ SensesStay s t

/-- The entry of a position is made not valid where it is a valid one of another tag (R144). -/
def OtherForgotten (s t : State) (tag : Tag) (position : Nat) : Prop :=
  ((s.resume.entry position).valid = true → (s.resume.entry position).tag ≠ tag →
    t.resume = s.resume.write position ResumeEntry.invalid) ∧
  ((s.resume.entry position).valid = false ∨ (s.resume.entry position).tag = tag → t.resume = s.resume)

/-- A seal of the cursor's place with a mode and a cause; a cursor at or beyond the extent writes nothing (R159). -/
def Sealed (s t : State) (mode : SaveMode) (cause : SealCause) : Prop :=
  t.resume =
    (if s.feeder.block < s.play.disc.extent then
      s.resume.write s.play.disc.position ⟨true, s.play.disc.tag, s.feeder.block, s.feeder.frame, mode, cause⟩
    else s.resume)

/-- No LOAD was requested (R153). -/
def NoLoadFollows (s t : State) : Prop :=
  t.play.counters.load = s.play.counters.load ∧ ∀ p, t.link.Carries (.load p) → s.link.Carries (.load p)

/-- The return when the suspend-cause set has become empty (R147). -/
def Returns (s t : State) : Prop :=
  t.planner.active = plannerMayRead t ∧
  (s.play.returnTo = .playing → s.play.state = .coasting →
    t.play.state = .playing ∧ t.play.counters.seamlessReturn = bump s.play.counters.seamlessReturn ∧
    (s.feeder.state = .running ∨ s.feeder.state = .starting → t.feeder = s.feeder ∧ t.store = s.store)) ∧
  (s.play.returnTo = .playing → s.play.state ≠ .coasting → s.play.storePrimed = true →
    t.play.state = .playing ∧
    (s.feeder.state = .silent → t.feeder.state = (if s.console.params.rampLength = 0 then .running else .starting))) ∧
  (s.play.returnTo = .playing → s.play.state ≠ .coasting → s.play.storePrimed = false →
    t.play.state = .cueing ∧ t.feeder = s.feeder.stop s.console.params.rampLength ∧ t.store = s.store) ∧
  (s.play.returnTo = .paused →
    t.play.state = .paused ∧ t.feeder = s.feeder.stop s.console.params.rampLength ∧ t.store = s.store) ∧
  (s.play.returnTo = .cueing → s.play.storePrimed = false →
    t.play.state = .cueing ∧ t.feeder = s.feeder.stop s.console.params.rampLength ∧ t.store = s.store) ∧
  (s.play.returnTo = .cueing → s.play.storePrimed = true →
    t.play.state = (if s.play.pauseOnPrime then .paused else .playing) ∧ t.play.pauseOnPrime = false)

/-- A request that turns the flow from s to t reached the Transmit Queue: it waits or is being sent, or it cancelled the opposite one,
which was still queued (R42, R109). A transmitter that the same event releases may take the opposite one first (R111). -/
def FlowRequested (s t : State) (m opposite : TxMsg) : Prop :=
  (opposite ∉ s.link.queue → t.link.Carries m) ∧
    (opposite ∈ s.link.queue → s.link.tx ≠ .held → m ∉ t.link.queue ∧ opposite ∉ t.link.queue)

/-- The flow of t is HELD exactly where a condition of R41 holds, with the conditions that hold as its causes; HOLD was requested where
it has become HELD, GO where it has become FLOWING, and nothing where it is as it was (R41). -/
def FlowFollows (s t : State) : Prop :=
  FlowSound t ∧
    (FlowSound s →
      (flowHeld s = false → flowHeld t = true → FlowRequested s t .hold .go) ∧
      (flowHeld s = true → flowHeld t = false → FlowRequested s t .go .hold) ∧
      (flowHeld s = flowHeld t →
        (t.link.Carries .hold → s.link.Carries .hold) ∧ (t.link.Carries .go → s.link.Carries .go)))

/-- The planner has become inactive and reads nothing; the stream of s, if there was one, was closed with CEASE (R52, R65). -/
def Deactivated (s t : State) : Prop :=
  t.planner.active = false ∧ t.planner.stream.state = .none ∧
    (s.planner.stream.state ≠ .none →
      t.asm.align.phase = .none ∧ t.link.Carries (.cease s.planner.stream.number) ∧
        ∀ b, TxMsg.seek s.planner.stream.number b ∉ t.link.queue)

/-- The HEALTH record after what one input changed: the new health state first, then the rough indication (R88). -/
def healthRecord (s t : State) : EventRecord :=
  let r := s.attn.record Event.health.index
  let stated :=
    if t.health.state = s.health.state then r
    else oneMore r (match t.health.state with
      | .steady => 1
      | .guarded => 2
      | .withdrawn => 3)
  if t.health.rough = s.health.rough then stated else oneMore stated (if t.health.rough then 4 else 5)

/-- What one input of the Monitor brings about by the scores it leaves. The health state is that of the skip score, but for WITHDRAWN,
which stays (R78, R82); PACE is requested where the level changes, and only there (R80); entries are counted (R91); the entry to
WITHDRAWN starts the quiet count anew and stops the planner (R81); HEALTH is raised for each change (R88); a disc that has become rough
leaves no slot in row 5 of R6 under the limit of 1 (R7, R86). -/
def HealthFollows (s t : State) : Prop :=
  s.health.Sound →
    (Withdrawn s → Withdrawn t) ∧
    (¬ Withdrawn s →
      t.health.state = (if t.health.skip ≤ 127 then .steady else if t.health.skip ≤ 255 then .guarded else .withdrawn)) ∧
    t.health.pace = (if t.health.state = .steady then .normal else .low) ∧
    (t.health.pace ≠ s.health.pace → t.link.Carries (.pace t.health.pace)) ∧
    (t.health.pace = s.health.pace → ∀ p, t.link.Carries (.pace p) → s.link.Carries (.pace p)) ∧
    t.health.counters.guardedEntry =
      (if t.health.state = .guarded ∧ s.health.state ≠ .guarded then bump s.health.counters.guardedEntry
      else s.health.counters.guardedEntry) ∧
    t.health.counters.withdrawal =
      (if t.health.state = .withdrawn ∧ s.health.state ≠ .withdrawn then bump s.health.counters.withdrawal
      else s.health.counters.withdrawal) ∧
    t.health.counters.roughEntry =
      (if t.health.rough = true ∧ s.health.rough = false then bump s.health.counters.roughEntry
      else s.health.counters.roughEntry) ∧
    (Withdrawn t → ¬ Withdrawn s →
      t.health.quiet = 0 ∧ t.health.settledSeen = false ∧ t.health.disturbed = false ∧ Deactivated s t) ∧
    t.attn.record Event.health.index = healthRecord s t ∧
    (t.health.rough = true → s.health.rough = false → s.store.wf = true →
      ∀ k, (t.store.slotAt k).meetsRow5 1 = false)

/-- The feeder starts from G 0, or is RUNNING at once with Ramp Length 0; any fade is abandoned, the cursor stays, and the Play Block is
declared where it is OPEN, unless an overflow frees it again (R49, R118, R119, R120, R124). -/
def FeederStarts (s t : State) : Prop :=
  t.feeder.state = (if s.console.params.rampLength = 0 then .running else .starting) ∧
    t.feeder.gain = (if s.console.params.rampLength = 0 then 128 else 0) ∧ t.feeder.fade = none ∧
    t.feeder.block = s.feeder.block ∧ t.feeder.frame = s.feeder.frame ∧
    (s.store.wf = true → s.planner.counters.overflow < 4294967295 →
      t.planner.counters.overflow = s.planner.counters.overflow → s.store.stateOf s.feeder.block = .opened →
      (t.store.slotOf s.feeder.block).declared = true)

/-- The mode a re-seal takes in COASTING and SUSPENDED (R159). -/
def resealMode (s : State) : SaveMode :=
  if s.play.state = .coasting then .playing
  else match s.play.returnTo with
    | .playing => .playing
    | .paused => .paused
    | .cueing => .ready

/-- The disc is given up: cleared, EMPTY, the store flushed, the feeder silent at (0, 0) (R136). -/
def DiscCleared (t : State) : Prop :=
  t.play.state = .empty ∧ t.play.disc = ⟨0, 0, 0, false⟩ ∧ t.play.confirming = false ∧
    t.play.causes = ⟨false, false, false⟩ ∧ t.feeder.block = 0 ∧ t.feeder.frame = 0 ∧ t.feeder.state = .silent ∧
    t.store.slots = []

/-- The placement of an entry can lie only in the block before, at and after it, and the window begins at the cursor's block
(R31, R36, R116). -/
def PlacementSound (s : State) (x : IntakeEntry) (d : Int) : Prop :=
  s.store.wf = true ∧ s.feeder.block = s.store.playBlock ∧ x.frames.length = 588 ∧ -588 ≤ d ∧ d ≤ 588 ∧
    s.planner.counters.overflow < 4294967295

/-- An entry is placed at an offset: each frame that is placed reads as its merge with the held one, every other frame reads as
before; an overflow brought about by the placement can free frames again (R35 to R37, R49). -/
def PlacedAt (s t : State) (x : IntakeEntry) (d : Int) : Prop :=
  PlacementSound s x d → t.planner.counters.overflow = s.planner.counters.overflow →
    (∀ f ∈ placedFrames s x d, t.store.frameAt f.1 = mergeFrame (s.store.frameAt f.1) f.2) ∧
    ∀ q, (∀ f ∈ placedFrames s x d, f.1 ≠ q) → t.store.frameAt q = s.store.frameAt q

/-- The placement counters after an entry is placed at an offset (R43). -/
def placedCounters (s : State) (x : IntakeEntry) (d : Int) : PlacementCounters :=
  { s.asm.counters with
    placed :=
      if mergeSteps s.store x.bn (placedFrames s x d) = [] then s.asm.counters.placed else bump s.asm.counters.placed
    disagreement := bumpBy s.asm.counters.disagreement (disagreements s.store (placedFrames s x d)) }

/-- What a delivery report does to the scores: a CLEAN entry in sequence lowers both by 1, a SOME entry raises the erasure score by
1, an ALL entry by 8 (R40, R76, R77). -/
def Reported (s t : State) (cls : ErasureClass) (inSequence : Bool) : Prop :=
  t.health.skip = (if cls = .clean ∧ inSequence = true then s.health.skip - 1 else s.health.skip) ∧
    t.health.erasure =
      match cls with
      | .clean => if inSequence then s.health.erasure - 1 else s.health.erasure
      | .some => min 255 (s.health.erasure + 1)
      | .all => min 255 (s.health.erasure + 8)

/-- The entry at the front of the Intake is accepted: it bears the stream and the tag, and the drive is not WITHDRAWN (R26). -/
def Accepted (s : State) (x : IntakeEntry) : Prop :=
  x.stream = s.asm.align.stream ∧ s.asm.align.phase ≠ .none ∧ x.tag = s.play.disc.tag ∧ ¬ Withdrawn s

/-- The Assembler's stream is the planner's current one (R51, R62). -/
def StreamIsCurrent (s : State) : Prop :=
  s.asm.align.stream = s.planner.stream.number ∧ s.planner.stream.state ≠ .none

end Sys2Proof.Claims

open Sys2Proof Sys2Proof.Machine Sys2Proof.Claims

/-! ### The step -/

/-- A step takes the command at the front of the queue and answers what it does to the state with the queue's rest: a row of the
opcode table is one whole and indivisible step. On an empty queue the block idles (the model's choice, log entry 2). -/
def Obligations.StepTakesFront : Prop :=
  (∀ (c : Instr) (rest : List Instr) (s : State), s.pending = c :: rest → step s = exec c (s.setPending rest)) ∧
  ∀ s : State, s.pending = [] → step s = .next s

/-- Every command answers a next state, whatever the state, and none touches the queue of waiting commands. That a row whose event
the state does not bring about changes nothing is the model's choice (log entry 4). -/
def Obligations.EveryCommandCompletes : Prop := ∀ (c : Instr) (s : State), Completes c s (fun t => t.pending = s.pending)

/-! ### Resets -/

/-- What a power-on reset leaves in every block: the slots, the Intake and the alignment; the list, the frontier record and the
stream; the scores; the receiver, assembly, lost-message flag, break count and queue; the cursor, G, run, fade, last frame and
clock monitor; the disc, causes, marks and timer; the senses and the Supply Watch; the parameters, mailbox, response area and
bus; the events; and every counter at 0. The queue is empty with PACE being sent, since the PACE queued at reset is taken at once
(log entry 26); the Resume Table and the ADDR level of State.reset are the model's choice (log entry 19). -/
def Obligations.ResetValues : Prop :=
  State.reset.store = ⟨0, 0, []⟩ ∧ State.reset.asm.intake = [] ∧ State.reset.asm.align = ⟨0, .none, 0, 0, 0, 0⟩ ∧
    State.reset.asm.holdIntake = false ∧ State.reset.asm.holdWindow = false ∧
    State.reset.asm.counters.list = List.replicate 10 0 ∧
    State.reset.planner.list = [] ∧ State.reset.planner.frontier = ⟨0, 0, 0⟩ ∧ State.reset.planner.active = false ∧
    State.reset.planner.stream = ⟨0, .none, .frontier, 0, 0, 0, 0, 0, 0, false⟩ ∧
    State.reset.planner.counters.list = List.replicate 14 0 ∧
    State.reset.health.state = .steady ∧ State.reset.health.skip = 0 ∧ State.reset.health.erasure = 0 ∧
    State.reset.health.pace = .normal ∧ State.reset.health.quiet = 0 ∧ State.reset.health.settledSeen = false ∧
    State.reset.health.disturbed = false ∧ State.reset.health.counters.list = List.replicate 6 0 ∧
    State.reset.link.sampling = .waitHigh ∧ State.reset.link.assembly = .idle ∧ State.reset.link.breakCount = 0 ∧
    State.reset.link.lost = false ∧ State.reset.link.queue = [] ∧ State.reset.link.tx = .sending (.pace .normal) ∧
    State.reset.link.counters.list = List.replicate 13 0 ∧
    State.reset.feeder.state = .silent ∧ State.reset.feeder.block = 0 ∧ State.reset.feeder.frame = 0 ∧
    State.reset.feeder.gain = 0 ∧ State.reset.feeder.fade = none ∧ State.reset.feeder.run = .none ∧
    State.reset.feeder.concealC = 128 ∧ State.reset.feeder.last = ⟨0, 0⟩ ∧ State.reset.feeder.atEnd = false ∧
    State.reset.feeder.clockLost = false ∧ State.reset.feeder.seen = false ∧ State.reset.feeder.conceal = false ∧
    State.reset.feeder.counters.list = List.replicate 7 0 ∧
    State.reset.play.state = .empty ∧ State.reset.play.disc = ⟨0, 0, 0, false⟩ ∧
    State.reset.play.causes = ⟨false, false, false⟩ ∧ State.reset.play.returnTo = .playing ∧
    State.reset.play.confirming = false ∧ State.reset.play.wanted = 0 ∧ State.reset.play.mode = .loadOnly ∧
    State.reset.play.pauseOnPrime = false ∧ State.reset.play.unprimed = false ∧ State.reset.play.supplyWarned = false ∧
    State.reset.play.storePrimed = false ∧ State.reset.play.loadTimer = 0 ∧
    State.reset.play.counters.list = List.replicate 12 0 ∧
    State.reset.sense.tray = ⟨.unknown, 0, .unknown, none⟩ ∧ State.reset.sense.shock = ⟨.unknown, 0, .unknown, none⟩ ∧
    State.reset.supply = ⟨false, 0, 0, false, .powerOn⟩ ∧
    State.reset.console.params = Params.default ∧ State.reset.console.pointer = 0 ∧
    State.reset.console.mailbox = ⟨0, Vector.replicate 6 0, false, false, .none, 0⟩ ∧
    State.reset.console.response = List.replicate 16 0 ∧ State.reset.console.bus = .idle ∧
    State.reset.console.latch = none ∧
    State.reset.attn.record Event.restarted.index = ⟨true, false, 1, 1, 1⟩ ∧
    (∀ e : Event, e ≠ .restarted → State.reset.attn.record e.index = ⟨false, false, 1, 0, 0⟩) ∧
    State.reset.attn.threshold = 1 ∧ State.reset.attn.index = 1 ∧ State.reset.attn.asserted = false

/-- Every relation that a step keeps holds at reset. -/
def Obligations.ResetSound : Prop :=
  State.reset.link.Sound ∧ State.reset.health.Sound ∧ State.reset.store.wf = true ∧ State.reset.resume.Sound ∧
    State.reset.feeder.Sound ∧ State.reset.play.Sound ∧ State.reset.sense.Sound ∧ SupplySound State.reset ∧
    State.reset.console.Sound ∧ State.reset.console.params.InRange ∧
    StoreSound State.reset ∧ IntakeSound State.reset ∧ PlannerSound State.reset ∧ FlowSound State.reset

/-- A hard reset over a Resume Table that passes its judgement keeps the table, and everything else takes its reset value; the
recorded cause and the detail of RESTARTED say which reset it was. The ADDR level and the retention image, none where retention
memory holds what was last written, are operands of the model's commands (log entry 20); the number of the next free value goes on
(log entry 40); the feeder's primed indication of State.reset (log entry 41), and that a not-valid entry with fields other than 0 is kept
(log entry 42), are the model's choice. -/
def Obligations.HardResets : Prop :=
  ∀ (addr : Bool) (s : State), s.resume.check = Resume.crc s.resume.entries →
    (∀ i : Fin 6, s.resume.entries[i].inRange = true) →
    exec (.powerOnReset addr none) s =
      .next { State.reset with
        link := { State.reset.link with changed := s.link.changed }
        console := Console.reset addr, resume := s.resume, pending := s.pending } ∧
    exec (.systemReset .resetn addr none) s =
      .next { State.reset with
        link := { State.reset.link with changed := s.link.changed }
        console := Console.reset addr, resume := s.resume, pending := s.pending
        supply := ⟨false, 0, 0, false, .resetn⟩, attn := Attn.restarted 2 } ∧
    exec (.systemReset .brownOut addr none) s =
      .next { State.reset with
        link := { State.reset.link with changed := s.link.changed }
        console := Console.reset addr, resume := s.resume, pending := s.pending
        supply := ⟨false, 0, 0, false, .brownOut⟩, attn := Attn.restarted 3 }

/-- The judgement of what retention memory holds when power returns: a check that does not match clears the table with
RETENTION_LOST CHECK (2); entries out of range become not valid with RETENTION_LOST RANGE (1); otherwise the table is kept and
no event is raised. It is the same for a reset recorded as RESETN, which is that of a brown-out that cut a table write and ended
with RESETN low. The retention image is an operand of the model's commands (log entry 20), and that a not-valid entry with fields other
than 0 is kept as it stands is the model's choice (log entry 42). -/
def Obligations.ResumeTableJudged : Prop :=
  ∀ (addr : Bool) (m : Sys2Proof.RetentionImage) (s : State) (c : Instr),
    c = .powerOnReset addr (some m) ∨ c = .systemReset .brownOut addr (some m) ∨
      c = .systemReset .resetn addr (some m) → m.bytes.length = 72 →
    (crc16 m.bytes ≠ m.check →
      Completes c s (fun t =>
        t.resume.entries = Vector.replicate 6 ResumeEntry.invalid ∧ t.resume.Sound ∧
          t.attn.record Event.retentionLost.index = ⟨true, false, 1, 1, 2⟩)) ∧
    (crc16 m.bytes = m.check →
      Completes c s (fun t =>
        (∀ i : Fin 6,
          t.resume.entries[i] = (storedEntry ((m.bytes.drop (12 * i.val)).take 12)).getD ResumeEntry.invalid) ∧
        t.resume.Sound ∧
        ((∃ i : Fin 6, storedEntry ((m.bytes.drop (12 * i.val)).take 12) = none) →
          t.attn.record Event.retentionLost.index = ⟨true, false, 1, 1, 1⟩) ∧
        ((∀ i : Fin 6, storedEntry ((m.bytes.drop (12 * i.val)).take 12) ≠ none) →
          t.attn.record Event.retentionLost.index = ⟨false, false, 1, 0, 0⟩)))

/-- A Soft Reset keeps the Resume Table, the Parameter Table, the address and the I2C transaction, and resets the rest;
RESTARTED is raised with SOFT, and no COMMAND_DONE. The pointer and bus after the byte are those of the row's register (log entry
17), the recorded reset cause is kept (log entry 38), and the feeder's primed indication is no (log entry 41): these are the model's
choice. The number of the next free value goes on (log entry 40). -/
def Obligations.SoftReset : Prop :=
  ∀ s : State, MailboxFree s →
    exec .softReset s =
      .next { State.reset with
        link := { State.reset.link with changed := s.link.changed }
        supply := ⟨false, 0, 0, false, s.supply.resetCause⟩, resume := s.resume, pending := s.pending
        attn := Attn.restarted 4
        console :=
          { s.console with
            bus := .writing, latch := none, pointer := 0x2E, mailbox := Mailbox.reset
            response := List.replicate 16 0 } }

/-! ### Block ticks -/

/-- A block tick with nothing due advances the seek timer, the load timer, the quiet count and the settle counter where they
run, and clears the disturbed, dipped and seen indications; nothing else changes. -/
def Obligations.BlockTickCounts : Prop :=
  ∀ s : State,
    (s.planner.stream.timerRuns = true → min 1023 (s.planner.stream.timer + 1) < s.console.params.seekTimeout) →
    (s.play.state = .loading ∨ s.play.confirming = true → min 2047 (s.play.loadTimer + 1) < s.console.params.loadTimeout) →
    (Withdrawn s ∧ s.health.settledSeen = true ∧ s.health.disturbed = false →
      min 255 (s.health.quiet + 1) < s.console.params.quietCount) →
    (s.supply.warning = true ∧ s.supply.dipped = false → min 255 (s.supply.settle + 1) < s.console.params.supplySettle) →
    (s.feeder.seen = true ∨ s.feeder.clockLost = true ∨ s.feeder.state = .silent) →
    exec .blockTick s = .next
      { s with
        planner :=
          { s.planner with
            stream :=
              { s.planner.stream with
                timer := if s.planner.stream.timerRuns then min 1023 (s.planner.stream.timer + 1)
                  else s.planner.stream.timer } }
        play :=
          { s.play with
            loadTimer := if s.play.state = .loading ∨ s.play.confirming = true then min 2047 (s.play.loadTimer + 1)
              else s.play.loadTimer }
        health :=
          { s.health with
            disturbed := false
            quiet := if s.health.state = .withdrawn ∧ s.health.settledSeen = true ∧ s.health.disturbed = false
              then min 255 (s.health.quiet + 1) else s.health.quiet }
        supply :=
          if s.supply.warning then
            { s.supply with
              dipped := false
              settle := if s.supply.dipped then s.supply.settle else min 255 (s.supply.settle + 1) }
          else s.supply
        feeder := { s.feeder with seen := false } }

/-- The quiet tick that brings the quiet counter to Quiet Count brings recovery: STEADY, skip score 0, PACE NORMAL queued or
sent, HEALTH raised with STEADY; the audio side is as it was. The row is the Monitor's expiring tick alone (the model's
choice, log entry 3). -/
def Obligations.RecoveryRuns : Prop :=
  ∀ s : State, Withdrawn s → s.health.settledSeen = true → s.health.disturbed = false →
    s.console.params.quietCount ≤ min 255 (s.health.quiet + 1) →
    Completes .recovery s (fun t =>
      t.health =
        { s.health with
          state := .steady, skip := 0, pace := .normal, quiet := 0, settledSeen := false, disturbed := false
          counters := { s.health.counters with recovery := bump s.health.counters.recovery } } ∧
      t.link.Carries (.pace .normal) ∧ RaisedOnce s t .health 1 ∧ OnlyRaised [.health] s t ∧
      t.store = s.store ∧ t.feeder = s.feeder ∧ t.play = s.play ∧ t.resume = s.resume ∧ SensesStay s t)

/-- What ends the current stream from outside it. SEEK_TIMEOUT: counted, the stream closed, the skip score raised by 8. REFUSED of the
current stream while SEEKING: BUSY is counted, closes the stream without CEASE and raises the skip score by 1, and as the last
refusal of a FRONTIER stream within the effective Retry Limit it cuts the extent to the fill head; RANGE is counted, closes the
stream, and where the start BN lies below the disc's extent cuts the extent to it, with DISC_READY reason 8, and ends a disc whose
end the cursor has reached. JUMP of the current stream while SEARCHING or ANCHORED: counted, the stream closed, the skip score raised
by 8; taken while WITHDRAWN it breaks the quiet count. A close makes the exhaustion check and is followed by the choice of the next
stream. The row SEEK_TIMEOUT is the planner's expiring tick alone (the model's choice, log entry 3). That a cut to 0, by a start BN of 0
or a fill head of 0, sets the extent to 0 and gives no end notice is the model's choice too (log entry 39). -/
def Obligations.StreamCloses : Prop :=
  (∀ s : State, s.planner.stream.timerRuns = true →
    s.console.params.seekTimeout ≤ min 1023 (s.planner.stream.timer + 1) → s.planner.stream.state = .seeking →
    Completes .seekTimeout s (fun t =>
      t.planner.counters.seekTimeout = bump s.planner.counters.seekTimeout ∧ ClosedWithCease s t ∧ SkipRaised s t 8 ∧
      t.health.erasure = s.health.erasure ∧ t.resume = s.resume ∧ OnlyRaised [.health, .repairOverflow] s t ∧
      SensesStay s t)) ∧
  (∀ (noise : Nat) (n : BitVec 4) (s : State), LinkReady s →
    n.toNat ≠ 0 → n.toNat = s.planner.stream.number → s.planner.stream.state = .seeking →
    Completes (.refused noise n 1) s (fun t =>
      t.planner.counters.refusedBusy = bump s.planner.counters.refusedBusy ∧ NothingLanded t ∧ SkipRaised s t 1 ∧
      t.health.erasure = s.health.erasure ∧
      (Steady s →
        s.planner.stream.purpose = .repair ∨ min 15 (s.planner.frontier.refusals + 1) < effectiveRetry s →
        StreamOver s t ∧ ExhaustionChecked s t ∧ t.play.disc = s.play.disc ∧ t.play.state = s.play.state ∧
          (t.link.Carries (.cease s.planner.stream.number) → s.link.Carries (.cease s.planner.stream.number))) ∧
      (Steady s → s.planner.stream.purpose = .frontier → s.planner.list.find? RepairEntry.active = none →
        (min 15 (s.planner.frontier.refusals + 1) < effectiveRetry s →
          t.planner.frontier.refusals = min 15 (s.planner.frontier.refusals + 1)) ∧
        (effectiveRetry s ≤ min 15 (s.planner.frontier.refusals + 1) →
          t.planner.counters.extentCut = bump s.planner.counters.extentCut ∧
          (s.planner.frontier.fillHead < s.play.disc.extent →
            RaisedOnce s t .discReady (128 + s.play.disc.position) ∧
            (s.play.disc.confirmed = true →
              t.play.disc = { s.play.disc with extent := s.planner.frontier.fillHead } ∧
                t.store.extent = s.planner.frontier.fillHead)))) ∧
      OnlyRaised [.health, .repairOverflow, .discReady, .endOfDisc] s t ∧ SensesStay s t) ∧
    Completes (.refused noise n 2) s (fun t =>
      t.planner.counters.refusedRange = bump s.planner.counters.refusedRange ∧ NothingLanded t ∧
      t.health = s.health ∧
      (Steady s → s.play.disc.extent ≤ s.planner.stream.start →
        StreamOver s t ∧ ExhaustionChecked s t ∧ t.play.disc = s.play.disc ∧ t.play.state = s.play.state ∧
          (t.link.Carries (.cease s.planner.stream.number) → s.link.Carries (.cease s.planner.stream.number))) ∧
      (s.planner.stream.start < s.play.disc.extent →
        RaisedOnce s t .discReady (128 + s.play.disc.position) ∧
        (s.play.disc.confirmed = true ∨ s.planner.stream.start = 0 ∨ playPosition s < s.planner.stream.start * 588 ∨
            s.feeder.atEnd = true →
          t.play.disc = { s.play.disc with extent := s.planner.stream.start } ∧
            t.store.extent = s.planner.stream.start) ∧
        (0 < s.planner.stream.start → s.planner.stream.start * 588 ≤ playPosition s → s.feeder.atEnd = false →
          t.play.state = (if s.play.disc.confirmed then .ready else .empty) ∧ t.feeder.state = .silent ∧
          RaisedOnce s t .endOfDisc s.play.disc.position ∧
          t.resume = s.resume.write s.play.disc.position ResumeEntry.invalid)) ∧
      OnlyRaised [.repairOverflow, .discReady, .endOfDisc] s t ∧ SensesStay s t)) ∧
  ∀ (noise : Nat) (n : BitVec 4) (lastGood landing : BitVec 24) (monitorFirst : Bool) (s : State), LinkReady s →
    (n.toNat ≠ 0 → n.toNat = s.planner.stream.number →
      s.planner.stream.state = .searching ∨ s.planner.stream.state = .anchored →
      Completes (.jump noise n lastGood landing monitorFirst) s (fun t =>
        t.planner.counters.jump = bump s.planner.counters.jump ∧ ClosedWithCease s t ∧ SkipRaised s t 8 ∧
        t.health.erasure = s.health.erasure ∧ t.resume = s.resume ∧ OnlyRaised [.health, .repairOverflow] s t ∧
        SensesStay s t)) ∧
    (Withdrawn s →
      Completes (.jump noise n lastGood landing monitorFirst) s (fun t =>
        t.health =
          { s.health with
            quiet := 0, disturbed := true
            counters := { s.health.counters with quietBreak := bump s.health.counters.quietBreak } } ∧
        SensesStay s t))

/-- The tick that brings the load timer to Load Timeout: while LOADING the load is given up with DISC_READY reason 4 and the
wanted position; while confirming the disc is given up with the record's position. The row is the Play Controller's expiring
tick alone (the model's choice, log entry 3). -/
def Obligations.LoadTimesOut : Prop :=
  ∀ s : State, s.console.params.loadTimeout ≤ min 2047 (s.play.loadTimer + 1) →
    (s.play.state = .loading →
      Completes .loadTimeout s (fun t =>
        t.play.state = .empty ∧ t.play.wanted = 0 ∧ t.play.disc = ⟨0, 0, 0, false⟩ ∧
        t.play.counters.loadTimeout = bump s.play.counters.loadTimeout ∧ RaisedOnce s t .discReady (64 + s.play.wanted) ∧
        t.store.slots = [] ∧ t.feeder.block = 0 ∧ t.feeder.frame = 0 ∧ t.feeder.state = .silent ∧
        t.health = s.health ∧ t.resume = s.resume ∧ OnlyRaised [.discReady, .repairOverflow] s t ∧ SensesStay s t)) ∧
    (s.play.state = .coasting ∨ s.play.state = .suspended → s.play.confirming = true →
      Completes .loadTimeout s (fun t =>
        t.play.state = .empty ∧ t.play.confirming = false ∧ t.play.disc = ⟨0, 0, 0, false⟩ ∧
        t.play.counters.loadTimeout = bump s.play.counters.loadTimeout ∧
        RaisedOnce s t .discReady (64 + s.play.disc.position) ∧
        t.store.slots = [] ∧ t.feeder.block = 0 ∧ t.feeder.frame = 0 ∧ t.feeder.state = .silent ∧
        t.health = s.health ∧ t.resume = s.resume ∧ OnlyRaised [.discReady, .repairOverflow] s t ∧ SensesStay s t))

/-- The tick that finds no demand since the last one, the feeder not SILENT: the clock monitor is LOST, OP_CLOCK is raised
with LOST (1); nothing else changes. The row is the clock monitor's expiring tick alone (the model's choice, log entry 3). -/
def Obligations.ClockIsLost : Prop :=
  ∀ s : State, s.feeder.seen = false → s.feeder.clockLost = false → s.feeder.state ≠ .silent →
    exec .clockLoss s =
      .next ((s.setFeeder
        { s.feeder with
          clockLost := true, seen := false
          counters := { s.feeder.counters with clockLoss := bump s.feeder.counters.clockLoss } }).setAttn
        (s.attn.raise .opClock 1))

/-! ### The Output Feeder -/

/-- Frames from within a block, the word clock present. In SILENT and STARVED the next frame of the fade is given, or a zero
frame; the cursor stays. In RUNNING, outside concealment, a GOOD frame is given with its held value; in STARTING and STOPPING it
is scaled by G after the step of 128 / Ramp Length, and the ramp's last frame ends it. In all three states any frame that is not
ABSENT in an undeclared slot is formed by the concealment run in progress, or by the run it begins, and scaled by G: the run measured
from the cursor is bridged by a straight line where a GOOD frame ends it within Interpolate Limit, and else fades to zero with CONCEAL
raised, stays at zero, and rises again at a GOOD frame. The cursor goes to the next frame, the frame is shifted out, and nothing
outside the feeder changes but CONCEAL. The counts of AOCK periods are operands of the model's command (log entry 18); C of 128 where
RISE is skipped is the model's choice (log entry 37). That a measurement stops at the 128th non-GOOD frame, with length 128 and detail
255, and every other stop lies below it, is the model's reading (DEDUCED, log entry 29). -/
def Obligations.FramesGiven : Prop :=
  (∀ (l r : Nat) (s : State), s.feeder.clockLost = false →
    (∀ v : Sample, s.feeder.state = .running → s.feeder.gain = 128 → s.feeder.run = .none → s.feeder.concealC = 128 →
      s.feeder.frame < 587 → Inside s → s.store.frameAt (playPosition s) = ⟨.good, v⟩ →
      Gives l r s v
        { s.feeder with
          frame := s.feeder.frame + 1, last := v, conceal := false
          counters := { s.feeder.counters with good := bump s.feeder.counters.good } }) ∧
    (s.feeder.state = .silent ∨ s.feeder.state = .starved → s.feeder.fade = none →
      Gives l r s ⟨0, 0⟩ { s.feeder with conceal := decide (s.feeder.state = .starved) }) ∧
    (∀ d : Fade, s.feeder.state = .silent ∨ s.feeder.state = .starved → s.feeder.fade = some d →
      Gives l r s (scaleSample d.level (d.remaining - 1) d.length)
        { s.feeder with
          fade := if d.remaining - 1 = 0 then none else some { d with remaining := d.remaining - 1 }
          last := if d.remaining - 1 = 0 then ⟨0, 0⟩ else s.feeder.last
          conceal := decide (s.feeder.state = .starved) }) ∧
    (∀ (v : Sample) (g : Nat), s.feeder.state = .starting → s.feeder.run = .none → s.feeder.concealC = 128 →
      s.feeder.frame < 587 → Inside s → s.store.frameAt (playPosition s) = ⟨.good, v⟩ →
      g = min 128 (s.feeder.gain + if s.console.params.rampLength = 0 then 128 else 128 / s.console.params.rampLength) →
      Gives l r s (scaleSample v g 128)
        { s.feeder with
          frame := s.feeder.frame + 1, last := v, conceal := false, gain := g
          state := if g = 128 then .running else .starting
          counters := { s.feeder.counters with good := bump s.feeder.counters.good } }) ∧
    (∀ (v : Sample) (g : Nat), s.feeder.state = .stopping → s.feeder.run = .none → s.feeder.concealC = 128 →
      s.feeder.frame < 587 → Inside s → s.store.frameAt (playPosition s) = ⟨.good, v⟩ →
      g = s.feeder.gain - (if s.console.params.rampLength = 0 then 128 else 128 / s.console.params.rampLength) →
      Gives l r s (scaleSample v g 128)
        { s.feeder with
          frame := s.feeder.frame + 1, conceal := false, gain := g
          last := if g = 0 then ⟨0, 0⟩ else v
          state := if g = 0 then .silent else .stopping
          counters := { s.feeder.counters with good := bump s.feeder.counters.good } }) ∧
    (∀ (x : Formed) (step g : Nat) (ends : Bool), formFrame s = x → s.feeder.frame < 587 → Inside s → cannotGive s = false →
      step = (if s.console.params.rampLength = 0 then 128 else 128 / s.console.params.rampLength) →
      (s.feeder.state = .running ∧ s.feeder.gain = 128 ∧ g = 128) ∨
        (s.feeder.state = .starting ∧ g = min 128 (s.feeder.gain + step)) ∨
        (s.feeder.state = .stopping ∧ g = s.feeder.gain - step) →
      ends = decide (s.feeder.state = .stopping ∧ g = 0) →
      exec (.frameDemand l r) s =
        .next ((s.setFeeder
          { s.feeder with
            frame := s.feeder.frame + 1, gain := g, given := scaleSample x.value g 128, seen := true
            state := if ends then .silent else if s.feeder.state = .starting ∧ g = 128 then .running else s.feeder.state
            last := if ends then ⟨0, 0⟩ else x.value
            run := if ends then .none else x.run
            concealC := if ends then 128 else x.concealC, conceal := x.conceal
            aodLeft := halfBits (scaleSample x.value g 128).left l
            aodRight := halfBits (scaleSample x.value g 128).right r
            counters := s.feeder.counters.afterFrame x }).setAttn
          (match x.begins with
            | .mute detail => s.attn.raise .conceal (BitVec.ofNat 8 detail)
            | .none | .interpolate => s.attn)))) ∧
  ∀ s : State,
    (∀ (n : Nat) (b : Sample),
      measure s = ⟨n, .endFrame b⟩ ↔
        n < 128 ∧ (∀ i, i < n → Concealable s (playPosition s + i)) ∧
          playPosition s + n < (s.store.playBlock + max s.store.readyDepth 1) * 588 ∧
          s.store.frameAt (playPosition s + n) = ⟨.good, b⟩) ∧
    (∀ n : Nat,
      measure s = ⟨n, .absent⟩ ↔
        n < 128 ∧ (∀ i, i < n → Concealable s (playPosition s + i)) ∧
          playPosition s + n < (s.store.playBlock + max s.store.readyDepth 1) * 588 ∧
          (s.store.frameAt (playPosition s + n)).mark = .absent ∧ s.store.declaredAt (playPosition s + n) = false) ∧
    (∀ n : Nat,
      measure s = ⟨n, .region⟩ ↔
        n < 128 ∧ (∀ i, i < n → Concealable s (playPosition s + i)) ∧
          (s.store.playBlock + max s.store.readyDepth 1) * 588 ≤ playPosition s + n) ∧
    (∀ n : Nat, measure s = ⟨n, .limit⟩ ↔ n = 128 ∧ ∀ i, i < 128 → Concealable s (playPosition s + i)) ∧
    (∀ (n : Nat) (b : Sample) (back : Option Nat), n ≤ s.console.params.interpolateLimit → measure s = ⟨n, .endFrame b⟩ →
      beginRun s back =
        { value := lerpSample s.feeder.last b 1 n
          run := if n ≤ 1 then (match back with
            | none => .none
            | some ramp => .rise ramp) else .interpolate s.feeder.last b n 1 back
          concealC := s.feeder.concealC, cls := .interpolated, conceal := true, begins := .interpolate }) ∧
    (∀ (m : Measured) (back : Option Nat), measure s = m →
      (∀ b, m.stop = .endFrame b → s.console.params.interpolateLimit < m.length) →
      (min s.console.params.rampLength m.length = 0 →
        beginRun s back =
          { value := ⟨0, 0⟩, run := .zero s.console.params.rampLength, concealC := s.feeder.concealC, cls := .muted
            conceal := true, begins := .mute (if m.stop = .limit then 255 else m.length) }) ∧
      (∀ n, min s.console.params.rampLength m.length = n + 1 →
        beginRun s back =
          { value := scaleSample s.feeder.last n (n + 1)
            run := if n = 0 then .zero s.console.params.rampLength
              else .fade s.feeder.last (n + 1) 1 s.console.params.rampLength
            concealC := s.feeder.concealC, cls := .muted, conceal := true
            begins := .mute (if m.stop = .limit then 255 else m.length) })) ∧
    (∀ (a b : Sample) (j n : Nat),
      lerpSample a b j n =
        ⟨BitVec.ofInt 16 (a.left.toInt + Int.tdiv ((b.left.toInt - a.left.toInt) * j) (n + 1)),
          BitVec.ofInt 16 (a.right.toInt + Int.tdiv ((b.right.toInt - a.right.toInt) * j) (n + 1))⟩) ∧
    (s.feeder.run = .none → (s.store.frameAt (playPosition s)).mark ≠ .good → formFrame s = beginRun s none) ∧
    (∀ (a b : Sample) (n given : Nat) (back : Option Nat), s.feeder.run = .interpolate a b n given back →
      formFrame s =
        { value := lerpSample a b (given + 1) n
          run := if n ≤ given + 1 then (match back with
            | none => .none
            | some ramp => .rise ramp) else .interpolate a b n (given + 1) back
          concealC := s.feeder.concealC, cls := .interpolated, conceal := true, begins := .none }) ∧
    (∀ (h : Sample) (n given ramp : Nat), s.feeder.run = .fade h n given ramp →
      formFrame s =
        { value := scaleSample h (n - (given + 1)) n
          run := if n ≤ given + 1 then .zero ramp else .fade h n (given + 1) ramp
          concealC := s.feeder.concealC, cls := .muted, conceal := true, begins := .none }) ∧
    (∀ ramp : Nat, s.feeder.run = .zero ramp →
      ((s.store.frameAt (playPosition s)).mark ≠ .good →
        formFrame s =
          { value := ⟨0, 0⟩, run := .zero ramp, concealC := s.feeder.concealC, cls := .muted, conceal := true
            begins := .none }) ∧
      (∀ v, s.store.frameAt (playPosition s) = ⟨.good, v⟩ → ramp = 0 →
        formFrame s =
          { value := scaleSample v 128 128, run := .none, concealC := 128, cls := .good, conceal := false
            begins := .none }) ∧
      (∀ v, s.store.frameAt (playPosition s) = ⟨.good, v⟩ → ramp ≠ 0 →
        formFrame s =
          { value := scaleSample v (min 128 (128 / ramp)) 128
            run := if min 128 (128 / ramp) = 128 then .none else .rise ramp
            concealC := min 128 (128 / ramp), cls := .good, conceal := true, begins := .none })) ∧
    (∀ ramp : Nat, s.feeder.run = .rise ramp →
      ((s.store.frameAt (playPosition s)).mark ≠ .good → formFrame s = beginRun s (some ramp)) ∧
      (∀ v c, s.store.frameAt (playPosition s) = ⟨.good, v⟩ → c = min 128 (s.feeder.concealC + 128 / ramp) →
        formFrame s =
          { value := scaleSample v c 128, run := if c = 128 then .none else .rise ramp, concealC := c, cls := .good
            conceal := true, begins := .none }))

/-- Where a frame cannot be given as it stands. A demand in STARTING or RUNNING that meets an ABSENT frame of an undeclared slot: the
feeder becomes STARVED with the first frame of a fade and raises STARVED with 2 for a PARTIAL block and 1 otherwise; a COASTING play
state becomes SUSPENDED with a seal of mode PLAYING and cause TRAY where TRAY is among the causes, else DRIVE. In STOPPING it fades and
is SILENT. A demand at the end of the disc gives a zero frame and, once for an arrival, ends the disc. The last frame of a block, in
RUNNING, STARTING or STOPPING, moves the window on, declares an OPEN block at entry, and writes the resume entry in PLAYING and
COASTING, or ends the disc where that was its last block; G, the run and the ramp go on over it. The first demand after a lost clock
raises OP_CLOCK with RETURNED (2): a feeder that was STARTING or RUNNING starts its ramp anew, a STOPPING one is SILENT, and the demand
goes on from there. That the STOPPING one ends its run with C 128 and keeps its last output frame is read from the rules by inference
(DEDUCED, log entry 22). -/
def Obligations.AbsentFrameStarves : Prop :=
  ∀ (l r : Nat) (s : State),
    (s.feeder.state = .running ∨ s.feeder.state = .starting → s.feeder.clockLost = false → Inside s →
      (s.store.frameAt (playPosition s)).mark = .absent → s.store.declaredAt (playPosition s) = false →
      Completes (.frameDemand l r) s (fun t =>
        t.feeder.state = .starved ∧ t.feeder.run = .none ∧ t.feeder.concealC = 128 ∧ t.feeder.conceal = true ∧
        t.feeder.block = s.feeder.block ∧ t.feeder.frame = s.feeder.frame ∧
        t.feeder.counters.starvation = bump s.feeder.counters.starvation ∧
        (s.console.params.rampLength = 0 → t.feeder.given = ⟨0, 0⟩ ∧ t.feeder.fade = none ∧ t.feeder.last = ⟨0, 0⟩) ∧
        (∀ n v, s.console.params.rampLength = n + 2 → v = scaleSample s.feeder.last s.feeder.gain 128 →
          t.feeder.given = scaleSample v (n + 1) (n + 2) ∧ t.feeder.fade = some ⟨v, n + 2, n + 1⟩ ∧
            t.feeder.last = s.feeder.last) ∧
        RaisedOnce s t .starved (if s.store.stateOf s.feeder.block = .partly then 2 else 1) ∧
        t.play.state = (if s.play.state = .coasting then .suspended else s.play.state) ∧
        t.play.causes = s.play.causes ∧ t.play.returnTo = s.play.returnTo ∧
        (s.play.state = .coasting →
          Sealed s t .playing (if s.play.causes.tray then .tray else .drive) ∧
            t.play.counters.suspension = bump s.play.counters.suspension) ∧
        (s.play.state ≠ .coasting → t.resume = s.resume ∧ t.play = s.play) ∧
        t.store = s.store ∧ t.health = s.health ∧ OnlyRaised [.starved] s t ∧ SensesStay s t)) ∧
    (s.feeder.state = .stopping → s.feeder.clockLost = false → Inside s →
      (s.store.frameAt (playPosition s)).mark = .absent → s.store.declaredAt (playPosition s) = false →
      (s.console.params.rampLength = 0 →
        Gives l r s ⟨0, 0⟩
          { s.feeder with
            state := .silent, gain := 0, run := .none, concealC := 128, fade := none, last := ⟨0, 0⟩, conceal := false }) ∧
      ∀ n v, s.console.params.rampLength = n + 2 → v = scaleSample s.feeder.last s.feeder.gain 128 →
        Gives l r s (scaleSample v (n + 1) (n + 2))
          { s.feeder with
            state := .silent, gain := 0, run := .none, concealC := 128, fade := some ⟨v, n + 2, n + 1⟩
            conceal := false }) ∧
    (s.feeder.state = .running ∨ s.feeder.state = .starting ∨ s.feeder.state = .stopping → s.feeder.clockLost = false →
      0 < s.play.disc.extent → s.play.disc.extent * 588 ≤ playPosition s →
      (s.feeder.atEnd = true → Gives l r s ⟨0, 0⟩ { s.feeder with conceal := false }) ∧
      (s.feeder.atEnd = false →
        Completes (.frameDemand l r) s (fun t =>
          DiscEnded s t ∧ t.feeder.given = ⟨0, 0⟩ ∧ t.feeder.run = .none ∧ t.feeder.concealC = 128 ∧
          t.feeder.fade = none ∧ t.health = s.health ∧ OnlyRaised [.endOfDisc, .repairOverflow] s t ∧ SensesStay s t))) ∧
    (∀ (x : Formed) (step g : Nat) (ends : Bool), formFrame s = x → s.feeder.clockLost = false → s.feeder.frame = 587 →
      cannotGive s = false → s.store.wf = true → s.feeder.block = s.store.playBlock →
      step = (if s.console.params.rampLength = 0 then 128 else 128 / s.console.params.rampLength) →
      (s.feeder.state = .running ∧ s.feeder.gain = 128 ∧ g = 128) ∨
        (s.feeder.state = .starting ∧ g = min 128 (s.feeder.gain + step)) ∨
        (s.feeder.state = .stopping ∧ g = s.feeder.gain - step) →
      ends = decide (s.feeder.state = .stopping ∧ g = 0) →
      (s.feeder.block + 1 < s.play.disc.extent → s.play.state ≠ .cueing →
        Completes (.frameDemand l r) s (fun t =>
          t.feeder.given = scaleSample x.value g 128 ∧ t.feeder.gain = g ∧
          t.feeder.last = (if ends then ⟨0, 0⟩ else x.value) ∧ t.feeder.run = (if ends then .none else x.run) ∧
          t.feeder.concealC = (if ends then 128 else x.concealC) ∧
          t.feeder.state =
            (if ends then .silent else if s.feeder.state = .starting ∧ g = 128 then .running else s.feeder.state) ∧
          t.feeder.block = s.feeder.block + 1 ∧ t.feeder.frame = 0 ∧
          t.store.playBlock = s.feeder.block + 1 ∧ t.store.extent = s.store.extent ∧ t.play.state = s.play.state ∧
          t.resume =
            (if s.play.state = .playing ∨ s.play.state = .coasting then
              s.resume.write s.play.disc.position ⟨true, s.play.disc.tag, s.feeder.block + 1, 0, .playing, .none⟩
            else s.resume) ∧
          (t.planner.counters.overflow = s.planner.counters.overflow → s.planner.counters.overflow < 4294967295 →
            (∀ q, (s.feeder.block + 1) * 588 ≤ q → t.store.frameAt q = s.store.frameAt q) ∧
            (s.store.stateOf (s.feeder.block + 1) = .opened → (t.store.slotOf (s.feeder.block + 1)).declared = true)) ∧
          t.health = s.health ∧ OnlyRaised [.conceal, .repairOverflow] s t ∧ SensesStay s t)) ∧
      (s.play.disc.extent = s.feeder.block + 1 → s.feeder.atEnd = false →
        Completes (.frameDemand l r) s (fun t =>
          DiscEnded s t ∧ t.feeder.given = scaleSample x.value g 128 ∧ t.feeder.last = ⟨0, 0⟩ ∧
          t.health = s.health ∧ OnlyRaised [.conceal, .endOfDisc, .repairOverflow] s t ∧ SensesStay s t))) ∧
    (∀ f : Feeder, s.feeder.clockLost = true →
      f = (match s.feeder.state with
        | .starting | .running =>
          if s.console.params.rampLength = 0 then
            { s.feeder with clockLost := false, fade := none, state := .running, gain := 128 }
          else { s.feeder with clockLost := false, fade := none, state := .starting, gain := 0 }
        | .stopping =>
          { s.feeder with
            clockLost := false, fade := none, state := .silent, gain := 0, run := .none, concealC := 128 }
        | .silent | .starved => { s.feeder with clockLost := false }) →
      exec (.frameDemand l r) s =
        exec (.frameDemand l r) ((s.setFeeder f).setAttn (s.attn.raise .opClock 2)))

/-! ### The Pickup Link -/

/-- A BLOCK that meets a free intake entry becomes the newest one; its marks and class come from its erasure list. Where both entries
are then occupied the flow is HELD with the cause INTAKE, and HOLD is requested where it was FLOWING. -/
def Obligations.BlockEntersIntake : Prop :=
  ∀ (noise : Nat) (n : BitVec 4) (bn : BitVec 24) (tag : Tag) (v : Vector Sample 588) (e : Option (List (BitVec 16)))
    (s : State), LinkReady s → s.asm.intake.length < 2 → erasuresWf e = true →
    Completes (.block noise n bn tag v e) s (fun t =>
      t.asm.intake =
        s.asm.intake ++ [entryOf n.toNat bn.toNat tag v.toList (e.map (fun l => l.map BitVec.toNat))] ∧
      t.asm.counters = s.asm.counters ∧ t.link.assembly = .idle ∧
      t.link.counters.received = bump s.link.counters.received ∧
      t.link.counters.noise = bumpBy s.link.counters.noise noise ∧ FlowFollows s t ∧ t.attn = s.attn ∧ AudioStays s t)

/-- A LANDED that names the current stream while SEEKING is taken: counted, the seek timer stops, the lost-message flag is clear, the
Assembler expects the landing BN next. Where the stream has not reached its end and no entry calls for a pre-emption, it is set up by
R25's table: ANCHORED where nothing is held before its target, where its target has three mislocks or where too few frames are GOOD
(a blind seam, counted and raised, in the last two), else SEARCHING; the mislocks that forced a blind seam are cleared. A stream that
has reached its end is closed with the exhaustion check, and a FRONTIER stream that an entry pre-empts is closed. -/
def Obligations.LandedTaken : Prop :=
  ∀ (noise : Nat) (n : BitVec 4) (bn : BitVec 24) (s : State), LinkReady s → bn.toNat < 450000 →
    n.toNat ≠ 0 → n.toNat = s.planner.stream.number → s.planner.stream.state = .seeking →
    Completes (.landed noise n bn) s (fun t =>
      t.planner.counters.landed = bump s.planner.counters.landed ∧ t.planner.stream.timerRuns = false ∧
      t.asm.align.expected = bn.toNat ∧ t.link.lost = false ∧
      t.link.counters.received = bump s.link.counters.received ∧
      t.health = s.health ∧ t.resume = s.resume ∧ OnlyRaised [.seamBlind, .repairOverflow] s t ∧ SensesStay s t) ∧
    ∀ (blind ended early : Prop) (phase : Phase),
      (blind ↔
        (s.planner.stream.purpose = .frontier ∧ 3 ≤ s.planner.frontier.mislocks) ∨
          (s.planner.stream.purpose = .repair ∧
            ∃ e, s.planner.list.find? RepairEntry.active = some e ∧ 3 ≤ e.mislocks)) →
      (ended ↔
        (s.planner.stream.purpose = .repair ∧ s.planner.stream.servedLast < bn.toNat) ∨
          (s.planner.stream.purpose = .frontier ∧
            ((s.store.extent * 588 : Nat) : Int) ≤ (bn.toNat * 588 : Nat) + s.planner.stream.offset)) →
      (early ↔
        s.planner.stream.purpose = .frontier ∧
          ∃ e ∈ s.planner.list,
            e.first - s.store.playBlock ≤ s.console.params.repairLead ∨ s.store.playBlock + 384 ≤ bn.toNat ∨
              s.store.extent ≤ bn.toNat) →
      (phase = .searching ∨ phase = .anchored) →
      (phase = .searching ↔
        s.store.presentIn s.planner.stream.start s.planner.stream.target ≠ 0 ∧ ¬ blind ∧
          s.console.params.matchRun ≤ s.store.goodIn s.planner.stream.start s.planner.stream.target) →
      Completes (.landed noise n bn) s (fun t =>
        (¬ ended → ¬ early →
          t.asm.align = ⟨n.toNat, phase, s.planner.stream.start, s.planner.stream.target, bn.toNat, 0⟩ ∧
          t.planner.stream =
            { s.planner.stream with state := phase.streamState, timerRuns := false, expected := bn.toNat } ∧
          (¬ blind → t.planner.list = s.planner.list ∧ t.planner.frontier = s.planner.frontier) ∧
          (blind → s.planner.stream.purpose = .frontier →
            t.planner.list = s.planner.list ∧ t.planner.frontier = { s.planner.frontier with mislocks := 0 }) ∧
          (blind → s.planner.stream.purpose = .repair →
            t.planner.list = s.planner.list.map (fun e => if e.active then { e with mislocks := 0 } else e) ∧
              t.planner.frontier = s.planner.frontier) ∧
          t.store = s.store ∧ t.feeder = s.feeder ∧ t.play = s.play) ∧
        (phase = .anchored → s.store.presentIn s.planner.stream.start s.planner.stream.target ≠ 0 →
          t.asm.counters.blindSeam = bump s.asm.counters.blindSeam ∧ (blind → RaisedOnce s t .seamBlind 1) ∧
            (¬ blind → RaisedOnce s t .seamBlind 2)) ∧
        (phase = .searching ∨ s.store.presentIn s.planner.stream.start s.planner.stream.target = 0 →
          t.asm.counters.blindSeam = s.asm.counters.blindSeam ∧ OnlyRaised [.repairOverflow] s t) ∧
        (ended → ClosedWithCease s t) ∧
        (¬ ended → early →
          NothingLanded t ∧ Ceased s t ∧ StreamOver s t ∧
            t.planner.counters.preemption = bump s.planner.counters.preemption ∧ t.store = s.store))

/-- A Stale answer adds 1 to the Stale answer counter and does nothing else at the planner: a LANDED or REFUSED outside SEEKING
or with another number, a JUMP outside SEARCHING and ANCHORED or with another number, any of them with number 0. -/
def Obligations.StaleAnswersCounted : Prop :=
  ∀ (noise : Nat) (n : BitVec 4) (s : State), LinkReady s →
    (n.toNat = 0 ∨ n.toNat ≠ s.planner.stream.number ∨ s.planner.stream.state ≠ .seeking →
      (∀ bn : BitVec 24, bn.toNat < 450000 →
        Completes (.landed noise n bn) s (fun t =>
          t.planner =
            { s.planner with
              counters := { s.planner.counters with staleAnswer := bump s.planner.counters.staleAnswer } } ∧
          t.asm = s.asm ∧ t.attn = s.attn ∧ AudioStays s t)) ∧
      (∀ reason : Byte, reason = 1 ∨ reason = 2 →
        Completes (.refused noise n reason) s (fun t =>
          t.planner =
            { s.planner with
              counters := { s.planner.counters with staleAnswer := bump s.planner.counters.staleAnswer } } ∧
          t.asm = s.asm ∧ t.attn = s.attn ∧ AudioStays s t))) ∧
    (n.toNat = 0 ∨ n.toNat ≠ s.planner.stream.number ∨ s.planner.stream.state = .none ∨
        s.planner.stream.state = .seeking →
      ∀ (lastGood landing : BitVec 24) (monitorFirst : Bool),
        Completes (.jump noise n lastGood landing monitorFirst) s (fun t =>
          t.planner =
            { s.planner with
              counters := { s.planner.counters with staleAnswer := bump s.planner.counters.staleAnswer } } ∧
          t.asm = s.asm ∧ t.attn = s.attn ∧ t.store = s.store ∧ t.feeder = s.feeder ∧ t.play = s.play ∧
          t.resume = s.resume ∧ SensesStay s t))

/-- A SETTLED, whatever stream number it bears, is counted; while WITHDRAWN it sets SETTLED-seen, and in STEADY or GUARDED it
changes nothing else. -/
def Obligations.SettledTaken : Prop :=
  ∀ (noise : Nat) (n : BitVec 4) (s : State), LinkReady s →
    Completes (.settled noise n) s (fun t =>
      t.health =
        { s.health with
          settledSeen := (if s.health.state = .withdrawn then true else s.health.settledSeen)
          counters := { s.health.counters with settled := bump s.health.counters.settled } } ∧
      t.asm = s.asm ∧ t.planner = s.planner ∧ t.attn = s.attn ∧ t.store = s.store ∧ t.feeder = s.feeder ∧
      t.play = s.play ∧ t.resume = s.resume ∧ SensesStay s t)

/-- A DISC for the wanted position while LOADING confirms the load, and forgets the entry of another disc. LOAD_ONLY ends in READY;
FROM_START ends in CUEING, or under a supply warning in SUSPENDED with the cause SUPPLY alone; the cursor is at (0, 0) in both.
FROM_RESUME with a valid entry of the tag, its place below the extent, cues there, less Resume Backoff, and pauses on prime where the
entry was saved PAUSED; with none it ends in READY at (0, 0) with RESUME_MISS. A DISC for the record's position while COASTING or
SUSPENDED is matched while confirming, or with DRIVE and without TRAY in the set: one of the same tag confirms the disc again and
returns to play, or stays where SUPPLY is in the set; one of another tag forgets the old entry and is READY at (0, 0). A DISC for
another position while one is awaited is stray, and any other is unsolicited. That a DISC of another tag moves the cursor before the
extent is handed on, and so raises no END_OF_DISC, is the model's choice (log entry 14); G and the last output frame after a stop
request in STARVED or with Ramp Length 0 are the model's reading (log entry 22). -/
def Obligations.DiscConfirmsLoad : Prop :=
  ∀ (noise : Nat) (n : BitVec 4) (tag : Tag) (extent : BitVec 24) (position : Byte) (s : State), LinkReady s →
    1 ≤ extent.toNat → extent.toNat ≤ 450000 → 1 ≤ position.toNat → position.toNat ≤ 6 →
    (s.play.state = .loading → position.toNat = s.play.wanted → 0 < s.console.params.primeDepth →
      (s.play.mode = .loadOnly →
        Completes (.disc noise n tag extent position) s (fun t =>
          t.play.state = .ready ∧ t.play.disc = ⟨position.toNat, tag, extent.toNat, true⟩ ∧
          t.feeder.block = 0 ∧ t.feeder.frame = 0 ∧ t.feeder.state = .silent ∧
          t.store.slots = [] ∧ t.store.playBlock = 0 ∧ t.store.extent = extent.toNat ∧
          t.play.counters.confirmation = bump s.play.counters.confirmation ∧ OtherForgotten s t tag position.toNat ∧
          RaisedOnce s t .discReady (16 + position.toNat) ∧ OnlyRaised [.discReady, .repairOverflow] s t ∧
          t.health = s.health ∧ SensesStay s t)) ∧
      (s.play.mode = .fromStart →
        Completes (.disc noise n tag extent position) s (fun t =>
          t.play.state = (if s.play.supplyWarned then .suspended else .cueing) ∧
          (s.play.supplyWarned = true → t.play.causes = ⟨false, true, false⟩ ∧ t.play.returnTo = .cueing) ∧
          t.play.disc = ⟨position.toNat, tag, extent.toNat, true⟩ ∧
          t.feeder.block = 0 ∧ t.feeder.frame = 0 ∧ t.feeder.state = .silent ∧
          t.store.slots = [] ∧ t.store.playBlock = 0 ∧ t.store.extent = extent.toNat ∧
          t.play.counters.confirmation = bump s.play.counters.confirmation ∧ OtherForgotten s t tag position.toNat ∧
          RaisedOnce s t .discReady (16 + position.toNat) ∧ OnlyRaised [.discReady, .repairOverflow] s t ∧
          t.health = s.health ∧ SensesStay s t)) ∧
      (∀ e : ResumeEntry, s.play.mode = .fromResume → e = s.resume.entry position.toNat →
        (e.valid = true → e.tag = tag → e.bn - s.console.params.resumeBackoff < extent.toNat →
          Completes (.disc noise n tag extent position) s (fun t =>
            t.play.state = (if s.play.supplyWarned then .suspended else .cueing) ∧
            (s.play.supplyWarned = true → t.play.causes = ⟨false, true, false⟩ ∧ t.play.returnTo = .cueing) ∧
            (s.play.pauseOnPrime = false → t.play.pauseOnPrime = decide (e.mode = .paused)) ∧
            t.play.disc = ⟨position.toNat, tag, extent.toNat, true⟩ ∧
            t.feeder.block = e.bn - s.console.params.resumeBackoff ∧
            t.feeder.frame = (if 0 < s.console.params.resumeBackoff then 0 else e.frame) ∧ t.feeder.state = .silent ∧
            t.store.slots = [] ∧ t.store.playBlock = e.bn - s.console.params.resumeBackoff ∧
            t.store.extent = extent.toNat ∧ t.play.counters.confirmation = bump s.play.counters.confirmation ∧
            t.resume = s.resume ∧ RaisedOnce s t .discReady (16 + position.toNat) ∧
            OnlyRaised [.discReady, .repairOverflow] s t ∧ t.health = s.health ∧ SensesStay s t)) ∧
        (e.valid = false ∨ e.tag ≠ tag ∨ extent.toNat ≤ e.bn - s.console.params.resumeBackoff →
          Completes (.disc noise n tag extent position) s (fun t =>
            t.play.state = .ready ∧ t.play.disc = ⟨position.toNat, tag, extent.toNat, true⟩ ∧
            t.feeder.block = 0 ∧ t.feeder.frame = 0 ∧ t.feeder.state = .silent ∧
            t.store.slots = [] ∧ t.store.playBlock = 0 ∧ t.store.extent = extent.toNat ∧
            t.play.counters.confirmation = bump s.play.counters.confirmation ∧ OtherForgotten s t tag position.toNat ∧
            RaisedOnce s t .discReady (32 + position.toNat) ∧ OnlyRaised [.discReady, .repairOverflow] s t ∧
            t.health = s.health ∧ SensesStay s t)))) ∧
    (s.play.state = .coasting ∨ s.play.state = .suspended → position.toNat = s.play.disc.position →
      s.play.confirming = true ∨ (s.play.causes.drive = true ∧ s.play.causes.tray = false) →
      (tag = s.play.disc.tag →
        Completes (.disc noise n tag extent position) s (fun t =>
          t.play.disc = { s.play.disc with confirmed := true } ∧ t.play.confirming = false ∧
          t.play.causes = ⟨false, s.play.causes.supply, false⟩ ∧
          t.play.counters.sameDisc = bump s.play.counters.sameDisc ∧
          (s.play.causes.supply = false → Returns s t) ∧
          (s.play.causes.supply = true → t.play.state = s.play.state ∧ t.feeder = s.feeder ∧ t.store = s.store) ∧
          t.feeder.block = s.feeder.block ∧ t.feeder.frame = s.feeder.frame ∧ t.resume = s.resume ∧
          RaisedOnce s t .discReady (96 + position.toNat) ∧ OnlyRaised [.discReady, .repairOverflow] s t ∧
          t.health = s.health ∧ SensesStay s t)) ∧
      (tag ≠ s.play.disc.tag →
        Completes (.disc noise n tag extent position) s (fun t =>
          t.play.state = .ready ∧ t.play.disc = ⟨position.toNat, tag, extent.toNat, true⟩ ∧
          t.play.confirming = false ∧ t.play.causes = ⟨false, false, false⟩ ∧ t.play.pauseOnPrime = false ∧
          t.feeder.block = 0 ∧ t.feeder.frame = 0 ∧ t.feeder.state = .silent ∧
          t.store.slots = [] ∧ t.store.playBlock = 0 ∧ t.store.extent = extent.toNat ∧
          t.play.counters.newDisc = bump s.play.counters.newDisc ∧
          t.resume = s.resume.write position.toNat ResumeEntry.invalid ∧
          RaisedOnce s t .discReady (112 + position.toNat) ∧ OnlyRaised [.discReady, .repairOverflow] s t ∧
          t.health = s.health ∧ SensesStay s t))) ∧
    ((s.play.state = .loading ∧ position.toNat ≠ s.play.wanted) ∨
        ((s.play.state = .coasting ∨ s.play.state = .suspended) ∧ s.play.confirming = true ∧
          position.toNat ≠ s.play.disc.position) →
      Completes (.disc noise n tag extent position) s (fun t =>
        AnswerCounted s t { s.play.counters with strayAnswer := bump s.play.counters.strayAnswer })) ∧
    (s.play.state = .empty ∨ s.play.state = .ready ∨ s.play.state = .cueing ∨ s.play.state = .playing ∨
        s.play.state = .paused ∨
        ((s.play.state = .coasting ∨ s.play.state = .suspended) ∧ s.play.confirming = false ∧
          (position.toNat ≠ s.play.disc.position ∨ s.play.causes.drive = false ∨ s.play.causes.tray = true)) →
      Completes (.disc noise n tag extent position) s (fun t =>
        AnswerCounted s t { s.play.counters with unsolicited := bump s.play.counters.unsolicited }))

/-- A GONE for the wanted position while LOADING, for the record's position in READY, or for it while confirming: the disc is given up,
EMPTY, with DISC_READY reason 3 (NO_DISC). For the record's position in play with nothing awaited: the disc is UNCONFIRMED, DRIVE among
the causes; PLAYING coasts, unless the feeder is STARVED, and CUEING and PAUSED suspend with a stop request, each with a seal of cause
DRIVE and the return-to state it left; COASTING and SUSPENDED stay. No LOAD is requested, and the planner's stream is closed with CEASE.
A GONE for another position is stray, and one in EMPTY unsolicited. G and the last output frame after a stop request in STARVED or with
Ramp Length 0 are the model's reading (log entry 22). -/
def Obligations.GoneEndsLoad : Prop :=
  ∀ (noise : Nat) (n : BitVec 4) (position : Byte) (s : State), LinkReady s → 1 ≤ position.toNat → position.toNat ≤ 6 →
    (s.play.state = .loading → position.toNat = s.play.wanted →
      Completes (.gone noise n position) s (fun t =>
        DiscCleared t ∧ t.play.wanted = 0 ∧
        RaisedOnce s t .discReady (48 + s.play.wanted) ∧ OnlyRaised [.discReady, .repairOverflow] s t ∧
        t.health = s.health ∧ t.resume = s.resume ∧ SensesStay s t)) ∧
    (s.play.state = .ready ∨
        (s.play.confirming = true ∧ s.play.state ≠ .empty ∧ s.play.state ≠ .loading) →
      position.toNat = s.play.disc.position →
      Completes (.gone noise n position) s (fun t =>
        DiscCleared t ∧ RaisedOnce s t .discReady (48 + position.toNat) ∧
        OnlyRaised [.discReady, .repairOverflow] s t ∧ t.health = s.health ∧ t.resume = s.resume ∧ SensesStay s t)) ∧
    (s.play.confirming = false → position.toNat = s.play.disc.position →
      (s.play.state = .playing →
        Completes (.gone noise n position) s (fun t =>
          t.play.state = (if s.feeder.state = .starved then .suspended else .coasting) ∧
          t.play.counters.coast =
            (if s.feeder.state = .starved then s.play.counters.coast else bump s.play.counters.coast) ∧
          t.play.returnTo = .playing ∧ t.play.causes = { s.play.causes with drive := true } ∧
          t.play.disc = { s.play.disc with confirmed := false } ∧ t.play.confirming = false ∧
          Sealed s t .playing .drive ∧ NoLoadFollows s t ∧ Deactivated s t ∧ t.feeder = s.feeder ∧ t.store = s.store ∧
          t.attn = s.attn ∧ t.health = s.health ∧ SensesStay s t)) ∧
      (∀ back : ReturnTo, (s.play.state = .cueing ∧ back = .cueing) ∨ (s.play.state = .paused ∧ back = .paused) →
        Completes (.gone noise n position) s (fun t =>
          t.play.state = .suspended ∧ t.play.returnTo = back ∧ t.play.causes = { s.play.causes with drive := true } ∧
          t.play.disc = { s.play.disc with confirmed := false } ∧ t.play.confirming = false ∧
          Sealed s t (if back = .paused then .paused else .ready) .drive ∧
          NoLoadFollows s t ∧ Deactivated s t ∧ t.feeder = s.feeder.stop s.console.params.rampLength ∧
          t.store = s.store ∧ t.attn = s.attn ∧ t.health = s.health ∧ SensesStay s t)) ∧
      (s.play.state = .coasting ∨ s.play.state = .suspended →
        Completes (.gone noise n position) s (fun t =>
          NoLoadFollows s t ∧ Deactivated s t ∧
          t.play =
            { s.play with
              causes := { s.play.causes with drive := true }, disc := { s.play.disc with confirmed := false } } ∧
          t.resume = s.resume ∧ t.feeder = s.feeder ∧ t.store = s.store ∧ t.attn = s.attn ∧ t.health = s.health ∧
          SensesStay s t))) ∧
    ((s.play.state = .loading ∧ position.toNat ≠ s.play.wanted) ∨
        (s.play.state ≠ .empty ∧ s.play.state ≠ .loading ∧ position.toNat ≠ s.play.disc.position) →
      Completes (.gone noise n position) s (fun t =>
        AnswerCounted s t { s.play.counters with strayAnswer := bump s.play.counters.strayAnswer })) ∧
    (s.play.state = .empty →
      Completes (.gone noise n position) s (fun t =>
        AnswerCounted s t { s.play.counters with unsolicited := bump s.play.counters.unsolicited }))

/-- A Rate Mark whose measured divisor is 1 to 1,023 and within 35 percent of the current one writes Link Divisor and is counted;
any other leaves the divisor, is counted as a failure, and raises LINK_FAULT with RATE (9). -/
def Obligations.RateMarkMeasured : Prop :=
  ∀ (noise span : Nat) (s : State), LinkReady s →
    (1 ≤ (span + 64) / 128 → (span + 64) / 128 ≤ 1023 →
      20 * (((span + 64) / 128 - s.console.params.linkDivisor) + (s.console.params.linkDivisor - (span + 64) / 128)) ≤
        7 * s.console.params.linkDivisor →
      Completes (.rateMark noise span) s (fun t =>
        t.console = { s.console with params := { s.console.params with linkDivisor := (span + 64) / 128 } } ∧
        t.link.counters.rateLock = bump s.link.counters.rateLock ∧
        t.link.counters.rateFail = s.link.counters.rateFail ∧ t.attn = s.attn ∧ t.asm = s.asm ∧
        t.planner = s.planner ∧ t.store = s.store ∧ t.health = s.health ∧ t.feeder = s.feeder ∧ t.play = s.play)) ∧
    ((span + 64) / 128 < 1 ∨ 1023 < (span + 64) / 128 ∨
        7 * s.console.params.linkDivisor <
          20 * (((span + 64) / 128 - s.console.params.linkDivisor) + (s.console.params.linkDivisor - (span + 64) / 128)) →
      Completes (.rateMark noise span) s (fun t =>
        t.link.counters.rateFail = bump s.link.counters.rateFail ∧
        t.link.counters.rateLock = s.link.counters.rateLock ∧
        RaisedOnce s t .linkFault 9 ∧ OnlyRaised [.linkFault] s t ∧ t.asm = s.asm ∧ t.planner = s.planner ∧
        AudioStays s t))

/-- Lost messages. A faulted character outside DISCARDING loses the message: lost-message flag, DISCARDING, the fault's counter,
LINK_FAULT with its detail; in DISCARDING it is counted, and nothing is lost or reported. A BLOCK header that meets two intake entries
is an Overrun: counted at the Assembler, the message lost and discarded, LINK_FAULT with OVERRUN (8); the Intake is as it was. A sound
character loses a message, with its counter and detail, where it is a body character in IDLE (MARKER, 3), a header inside a message
(TRUNCATED, 4, after which the header is judged), a header of unknown kind (UNKNOWN, 5), the end of an erasure count of 65 to 65,534
(MALFORMED, 6), or the last character of a message whose check does not match (CHECK, 7) or whose content is malformed (MALFORMED).
Where the message is discarded assembly is DISCARDING, and IDLE where it was complete. The kinds, lengths, check and content faults are
those of R101 to R104. Not stated are a Rate Mark header inside a message, and a BLOCK header inside a message that meets two intake
entries. That a faulted character is counted in every DISCARDING, that of an Overrun included, is the model's choice (log entry 36). That
the erasure count is known at the 2,362nd character, the header included, where R102 says 2,361 characters into the message, is the
model's reading (DEDUCED, log entry 31). -/
def Obligations.MessagesLost : Prop :=
  (∀ (c : RxChar) (j : Judged) (x : CharFault) (s : State), s.console.params.receiverEnable = 1 →
    judgeChar (parityKind s.console.params.linkParity) s.console.params.linkStopBits c = some j → j.fault = some x →
    (s.link.assembly ≠ .discarding →
      Completes (.lostMessage [c]) s (fun t =>
        t.link.lost = true ∧ t.link.assembly = .discarding ∧
        t.link.counters.framing =
          (if x = .framing then bump s.link.counters.framing else s.link.counters.framing) ∧
        t.link.counters.parity = (if x = .parity then bump s.link.counters.parity else s.link.counters.parity) ∧
        RaisedOnce s t .linkFault (if x = .framing then 1 else 2) ∧ OnlyRaised [.linkFault] s t ∧
        t.asm = s.asm ∧ t.planner = s.planner ∧ AudioStays s t)) ∧
    (s.link.assembly = .discarding →
      Completes (.discardingCharacter c) s (fun t =>
        t.link.lost = s.link.lost ∧ t.link.assembly = .discarding ∧
        t.link.counters.framing =
          (if x = .framing then bump s.link.counters.framing else s.link.counters.framing) ∧
        t.link.counters.parity = (if x = .parity then bump s.link.counters.parity else s.link.counters.parity) ∧
        t.attn = s.attn ∧ t.asm = s.asm ∧ t.planner = s.planner ∧ AudioStays s t))) ∧
  (∀ (noise : Nat) (n : BitVec 4) (s : State), LinkReady s → 2 ≤ s.asm.intake.length →
    Completes (.overrunAtHeader noise n) s (fun t =>
      t.asm = { s.asm with counters := { s.asm.counters with overrun := bump s.asm.counters.overrun } } ∧
      t.link.lost = true ∧ t.link.assembly = .discarding ∧ RaisedOnce s t .linkFault 8 ∧
      OnlyRaised [.linkFault] s t ∧ t.planner = s.planner ∧ AudioStays s t)) ∧
  (∀ (c : RxChar) (j : Judged) (s : State) (counters : LinkCounters), s.console.params.receiverEnable = 1 →
    judgeChar (parityKind s.console.params.linkParity) s.console.params.linkStopBits c = some j → j.fault = none →
    counters = { s.link.counters with noise := bumpBy s.link.counters.noise j.noisy } →
    (j.marker = false → s.link.assembly = .idle →
      Completes (.lostMessage [c]) s (fun t =>
        LosesMessage s t { counters with marker := bump counters.marker } .discarding ∧ RaisedOnce s t .linkFault 3)) ∧
    (∀ held, j.marker = true → s.link.assembly = .inMessage held →
      (∀ kind, headerKind j.byte = .message kind → kind ≠ .block ∨ s.asm.intake.length < 2 →
        Completes (.lostMessage [c]) s (fun t =>
          LosesMessage s t { counters with truncated := bump counters.truncated } (.inMessage [j.byte]) ∧
            RaisedOnce s t .linkFault 4)) ∧
      (headerKind j.byte = .unknown →
        Completes (.lostMessage [c]) s (fun t =>
          LosesMessage s t
            { counters with truncated := bump counters.truncated, unknownKind := bump counters.unknownKind } .discarding ∧
            t.attn.record Event.linkFault.index = oneMore (oneMore (s.attn.record Event.linkFault.index) 4) 5))) ∧
    (j.marker = true → s.link.assembly = .idle ∨ s.link.assembly = .discarding → headerKind j.byte = .unknown →
      Completes (.lostMessage [c]) s (fun t =>
        LosesMessage s t { counters with unknownKind := bump counters.unknownKind } .discarding ∧
          RaisedOnce s t .linkFault 5)) ∧
    (∀ held bytes kind, j.marker = false → s.link.assembly = .inMessage held → bytes = held.reverse ++ [j.byte] →
      headerKind (bytes.headD 0) = .message kind →
      (kind = .block → bytes.length = 2362 → 65 ≤ erasureCount bytes → erasureCount bytes ≤ 65534 →
        Completes (.lostMessage [c]) s (fun t =>
          LosesMessage s t { counters with malformed := bump counters.malformed } .discarding ∧
            RaisedOnce s t .linkFault 6)) ∧
      (messageLength kind bytes = some bytes.length →
        kind ≠ .block ∨ erasureCount bytes ≤ 64 ∨ erasureCount bytes = 65535 →
        (checkPasses bytes = false →
          Completes (.lostMessage [c]) s (fun t =>
            LosesMessage s t { counters with check := bump counters.check } .idle ∧ RaisedOnce s t .linkFault 7)) ∧
        (checkPasses bytes = true →
          (readMessage kind (bytes.headD 0) ((bytes.drop 1).take (bytes.length - 3))).malformed = true →
          Completes (.lostMessage [c]) s (fun t =>
            LosesMessage s t { counters with malformed := bump counters.malformed } .idle ∧
              RaisedOnce s t .linkFault 6))))) ∧
  (∀ header : Byte,
    headerKind header =
      if header = 0x55 then .rateMark
      else if header.toNat / 16 = 1 then .message .disc
      else if header.toNat / 16 = 2 then .message .block
      else if header.toNat / 16 = 3 then .message .jump
      else if header.toNat / 16 = 4 then .message .landed
      else if header.toNat / 16 = 6 then .message .refused
      else if header.toNat / 16 = 7 then .message .settled
      else if header.toNat / 16 = 8 then .message .gone
      else .unknown) ∧
  (∀ bytes : List Byte,
    messageLength .disc bytes = some 11 ∧ messageLength .jump bytes = some 9 ∧ messageLength .landed bytes = some 6 ∧
    messageLength .refused bytes = some 4 ∧ messageLength .settled bytes = some 3 ∧ messageLength .gone bytes = some 4 ∧
    (bytes.length < 2362 → messageLength .block bytes = none) ∧
    (2362 ≤ bytes.length →
      messageLength .block bytes =
        some (if erasureCount bytes = 65535 then 2364 else 2364 + 2 * erasureCount bytes)) ∧
    (∀ hi lo : Byte,
      checkPasses (bytes ++ [hi, lo]) = true ↔ hi.toNat * 256 + lo.toNat = (crc16 bytes).toNat) ∧
    crc16 [] = 0xFFFF ∧ (∀ b : Byte, crc16 (bytes ++ [b]) = crcShift 8 (crc16 bytes ^^^ (b.zeroExtend 16 <<< 8))) ∧
    ∀ (n : Nat) (r : BitVec 16),
      crcShift 0 r = r ∧ crcShift (n + 1) r = crcShift n (if r.msb then (r <<< 1) ^^^ 0x1021 else r <<< 1)) ∧
  ∀ (n a b : Nat) (tag : Tag) (samples : List Sample) (indices : List Nat),
    ((RxMsg.disc n tag a b).malformed = true ↔ a = 0 ∨ 450000 < a ∨ b < 1 ∨ 6 < b) ∧
    ((RxMsg.block n a tag samples (some indices)).malformed = true ↔
      64 < indices.length ∨ (∃ i ∈ indices, 587 < i) ∨ ¬ indices.Nodup) ∧
    (RxMsg.block n a tag samples none).malformed = false ∧
    ((RxMsg.landed n a).malformed = true ↔ 449999 < a) ∧
    ((RxMsg.refused n a).malformed = true ↔ a ≠ 1 ∧ a ≠ 2) ∧
    ((RxMsg.gone n a).malformed = true ↔ a < 1 ∨ 6 < a) ∧
    (RxMsg.jump n a b).malformed = false ∧ (RxMsg.settled n).malformed = false

/-- A Drive Restart, in whichever order the four blocks take it: assembly IDLE, the receiver in WAIT_HIGH, the transmitter held, the
Intake empty, a break counted, DRIVE_RESTART raised; the Monitor and the parameters are as they were. The flow is FLOWING, the phase
NONE, no stream is left, and PACE and the Play Controller's LOAD alone wait. The Play Controller loads anew, from READY by LOAD_ONLY.
PLAYING coasts, unless the feeder is STARVED, and CUEING and PAUSED suspend with a stop request, each with a seal of cause DRIVE and the
return-to state it left; COASTING and SUSPENDED stay, and nothing is sealed again. G and the last output frame after a stop request in
STARVED or with Ramp Length 0 are the model's reading (log entry 22). The order is an operand of the model's command (log entry 15);
that the break is taken at any count below 384 and leaves the count at 384 is the model's choice (log entry 24). -/
def Obligations.DriveRestartTaken : Prop :=
  ∀ (order : List RestartOwner) (s : State), restartOrderWf order = true → s.console.params.receiverEnable = 1 →
    s.link.breakCount < 384 →
    Completes (.driveRestart order) s (fun t =>
      t.link.sampling = .waitHigh ∧ t.link.assembly = .idle ∧ t.link.tx = .held ∧ t.link.breakCount = 384 ∧
      t.link.counters.breaks = bump s.link.counters.breaks ∧ t.asm.intake = [] ∧
      RaisedOnce s t .driveRestart 0 ∧ t.health = s.health ∧ SensesStay s t ∧
      t.asm.align.phase = .none ∧ t.asm.holdIntake = false ∧ t.asm.holdWindow = false ∧
      .pace s.health.pace ∈ t.link.queue ∧
      (FrontierSound s →
        t.planner.stream.state = .none ∧ t.planner.active = false ∧
          ∀ m ∈ t.link.queue, m.cls = .pace ∨ m.cls = .load) ∧
      (s.play.state = .empty → t.play = s.play) ∧
      (s.play.state = .loading → t.play.state = .loading ∧ t.play.loadTimer = 0 ∧ .load s.play.wanted ∈ t.link.queue) ∧
      (s.play.state = .ready →
        t.play.state = .loading ∧ t.play.mode = .loadOnly ∧ t.play.wanted = s.play.disc.position ∧
          .load s.play.disc.position ∈ t.link.queue) ∧
      (s.play.state = .playing →
        t.play.state = (if s.feeder.state = .starved then .suspended else .coasting) ∧
          t.play.counters.coast =
            (if s.feeder.state = .starved then s.play.counters.coast else bump s.play.counters.coast) ∧
          t.play.returnTo = .playing ∧ Sealed s t .playing .drive ∧ t.feeder = s.feeder ∧ t.store = s.store) ∧
      (∀ back : ReturnTo, (s.play.state = .cueing ∧ back = .cueing) ∨ (s.play.state = .paused ∧ back = .paused) →
        t.play.state = .suspended ∧ t.play.returnTo = back ∧
          t.play.counters.suspension = bump s.play.counters.suspension ∧
          Sealed s t (if back = .paused then .paused else .ready) .drive ∧
          t.feeder = s.feeder.stop s.console.params.rampLength ∧ t.store = s.store) ∧
      (s.play.state = .coasting ∨ s.play.state = .suspended →
        t.play.state = s.play.state ∧ t.play.returnTo = s.play.returnTo ∧ t.resume = s.resume ∧ t.feeder = s.feeder ∧
          t.store = s.store) ∧
      (s.play.state ≠ .empty → s.play.state ≠ .loading → s.play.state ≠ .ready →
        t.play.causes = { s.play.causes with drive := true } ∧ t.play.disc = { s.play.disc with confirmed := false } ∧
          (s.play.causes.tray = true → s.play.confirming = false →
            t.play.confirming = false ∧ t.play.counters.load = s.play.counters.load) ∧
          (s.play.causes.tray = false ∨ s.play.confirming = true →
            t.play.confirming = true ∧ t.play.loadTimer = 0 ∧ .load s.play.disc.position ∈ t.link.queue)))

/-- The line and the transmitter: three high samples end WAIT_HIGH and release a held transmitter, which takes the head of the
queue; a finished message has put its characters on PLC, each in the format in force as it began, is counted and followed by a
gap, and a sent SEEK starts its stream's timer at 0; the end of the gap lets the head go. Each changes nothing else. The gap of
one bit time is a transmitter state of the model (log entry 26); how many characters had begun at each change of the format is a
free value, and the bits of the last whole message stand for PLC (log entry 40). -/
def Obligations.LineAndTransmitter : Prop :=
  ∀ s : State,
    (s.console.params.receiverEnable = 1 → s.link.sampling = .waitHigh → s.link.tx ≠ .held →
      exec .lineIdle s = .next (s.setLink { s.link with sampling := .hunting, breakCount := 0 })) ∧
    (s.console.params.receiverEnable = 1 → s.link.sampling = .waitHigh → s.link.tx = .held →
      exec .transmitterRelease s =
        .next (s.setLink
          { s.link with
            sampling := .hunting, breakCount := 0, queue := s.link.queue.tail
            tx := match s.link.queue with
              | [] => .idle
              | m :: _ => .sending m })) ∧
    (∀ m : TxMsg, s.link.tx = .sending m →
      exec .transmissionComplete s =
        .next ((s.setLink
          { s.link with
            tx := .gap, changes := []
            plc := m.line (formatOf (s.link.changes.map FormatChange.begun) (linkFormat s))
            counters := { s.link.counters with sent := bump s.link.counters.sent } }).setPlanner
          { s.planner with
            stream := match m with
              | .seek n _ =>
                if s.planner.stream.number = n ∧ s.planner.stream.state = .seeking then
                  { s.planner.stream with timer := 0, timerRuns := true }
                else s.planner.stream
              | .cease _ | .hold | .go | .pace _ | .load _ => s.planner.stream })) ∧
    (s.link.tx = .gap →
      exec .transmitterIdle s =
        .next (s.setLink
          { s.link with
            queue := s.link.queue.tail
            tx := match s.link.queue with
              | [] => .idle
              | m :: _ => .sending m }))

/-! ### Placement -/

/-- An entry that is not accepted leaves the Intake and is counted as Stale, Stray or Withheld, by the first test that fails; no
slot changes. The cause INTAKE is gone, and GO is requested where that ends the hold. -/
def Obligations.PlacementDropsEntry : Prop :=
  ∀ (x : IntakeEntry) (rest : List IntakeEntry) (s : State), s.asm.intake = x :: rest →
    (x.stream ≠ s.asm.align.stream ∨ s.asm.align.phase = .none →
      Completes .placement s (fun t =>
        t.asm.intake = rest ∧ t.asm.counters = { s.asm.counters with stale := bump s.asm.counters.stale } ∧
        FlowFollows s t ∧ t.attn = s.attn ∧ AudioStays s t)) ∧
    (x.stream = s.asm.align.stream → s.asm.align.phase ≠ .none → x.tag ≠ s.play.disc.tag →
      Completes .placement s (fun t =>
        t.asm.intake = rest ∧ t.asm.counters = { s.asm.counters with stray := bump s.asm.counters.stray } ∧
        FlowFollows s t ∧ t.attn = s.attn ∧ AudioStays s t)) ∧
    (x.stream = s.asm.align.stream → s.asm.align.phase ≠ .none → x.tag = s.play.disc.tag → Withdrawn s →
      Completes .placement s (fun t =>
        t.asm.intake = rest ∧ t.asm.counters = { s.asm.counters with withheld := bump s.asm.counters.withheld } ∧
        FlowFollows s t ∧ t.attn = s.attn ∧ AudioStays s t))

/-- An entry in sequence of an ANCHORED stream is placed at the stream's offset, and so is one that a lost message made come up to
four blocks late, which takes the flag with it. It leaves the Intake; each frame that is placed reads as its merge with the held one
and every other frame reads as before; placement and disagreements are counted, the next BN is expected, and the scores take the
report: a CLEAN entry lowers both by 1 where it is in sequence, a SOME entry raises the erasure score by 1, an ALL entry by 8; the
health state, the pace and the rough indication follow the scores, and the hold causes the Intake and the window. An overflow the
placement brings about can free frames again (R49). Frame i of the entry belongs at its stated BN times 588 plus i plus the offset, in
the block and at the index that this position gives, and is placed where that is neither before the play position nor at or beyond the
window end. -/
def Obligations.PlacementPlacesEntry : Prop :=
  (∀ (s : State) (x : IntakeEntry) (d : Int) (q : Nat) (f : Frame),
    (q, f) ∈ placedFrames s x d ↔
      ∃ i, x.frames[i]? = some f ∧ (q : Int) = (x.bn * 588 + i : Nat) + d ∧ playPosition s ≤ q ∧
        q < (s.store.playBlock + s.store.length) * 588) ∧
  (∀ (bn i q : Nat) (d : Int), i < 588 → -588 ≤ d → d ≤ 588 → (q : Int) = (bn * 588 + i : Nat) + d →
    (0 ≤ (i : Int) + d → (i : Int) + d < 588 → q / 588 = bn ∧ ((q % 588 : Nat) : Int) = i + d) ∧
    (588 ≤ (i : Int) + d → q / 588 = bn + 1 ∧ ((q % 588 : Nat) : Int) = i + d - 588) ∧
    ((i : Int) + d < 0 → q / 588 + 1 = bn ∧ ((q % 588 : Nat) : Int) = i + d + 588)) ∧
  (∀ (t : Store) (b i : Nat), i < 588 → t.frameAt (b * 588 + i) = Sparse.get Frame.none (t.slotOf b).frames i) ∧
  ∀ (x : IntakeEntry) (rest : List IntakeEntry) (s : State), s.asm.intake = x :: rest → Accepted s x →
    s.asm.align.phase = .anchored →
    (x.bn = s.asm.align.expected →
      Completes .placement s (fun t =>
        t.asm.intake = rest ∧ t.asm.align.expected = x.bn + 1 ∧ t.asm.counters = placedCounters s x s.asm.align.offset ∧
        PlacedAt s t x s.asm.align.offset ∧ Reported s t x.cls true ∧ HealthFollows s t ∧ FlowSound t ∧
        t.link.lost = s.link.lost ∧
        (StreamIsCurrent s → t.planner.stream.state = .searching ∨ t.planner.stream.state = .anchored →
          t.planner.stream.expected = x.bn + 1) ∧
        t.resume = s.resume ∧ OnlyRaised [.health, .repairOverflow] s t ∧ SensesStay s t)) ∧
    (s.asm.align.expected < x.bn → x.bn ≤ s.asm.align.expected + 4 → s.link.lost = true →
      Completes .placement s (fun t =>
        t.asm.intake = rest ∧ t.asm.align.expected = x.bn + 1 ∧ t.asm.counters = placedCounters s x s.asm.align.offset ∧
        PlacedAt s t x s.asm.align.offset ∧ Reported s t x.cls false ∧ HealthFollows s t ∧ FlowSound t ∧
        t.link.lost = false ∧
        t.resume = s.resume ∧ OnlyRaised [.health, .repairOverflow] s t ∧ SensesStay s t))

/-- Continuity and the alignment search. An offset matches where at least Match Run frames in a row agree with the held ones; the
smallest matching offset within Slip Range is chosen, the negative one first. In SEARCHING an entry below the target that matches
nowhere is compared only, one that matches is placed there and anchors the stream (a seam), and one at or beyond the target is a
mislock, which the target counts. An entry out of sequence that a lost message does not explain is a discontinuity. Both close the
stream and raise the skip score by 8. -/
def Obligations.AlignmentSearch : Prop :=
  (∀ (s : State) (x : IntakeEntry) (d : Int),
    offsetMatches s x d = true ↔
      ∃ i, i + s.console.params.matchRun ≤ x.frames.length ∧
        ∀ k, k < s.console.params.matchRun →
          ∃ f, x.frames[i + k]? = some f ∧ f.mark = .good ∧
            ∃ q : Nat, (q : Int) = (x.bn * 588 : Nat) + d + (i + k : Nat) ∧ playPosition s ≤ q ∧
              s.store.frameAt q = ⟨.good, f.value⟩) ∧
  (∀ (s : State) (x : IntakeEntry),
    (chooseOffset s x = none ↔ ∀ d : Int, d.natAbs ≤ s.console.params.slipRange → offsetMatches s x d = false) ∧
    ∀ d : Int,
      chooseOffset s x = some d ↔
        d.natAbs ≤ s.console.params.slipRange ∧ offsetMatches s x d = true ∧
          ∀ d' : Int, offsetMatches s x d' = true → d.natAbs < d'.natAbs ∨ (d.natAbs = d'.natAbs ∧ d ≤ d')) ∧
  ∀ (x : IntakeEntry) (rest : List IntakeEntry) (s : State), s.asm.intake = x :: rest → Accepted s x →
    (s.asm.align.phase = .searching → x.bn = s.asm.align.expected → x.bn < s.asm.align.target →
      chooseOffset s x = none →
      Completes .placement s (fun t =>
        t.asm.intake = rest ∧ t.asm.align.expected = x.bn + 1 ∧
        t.asm.counters = { s.asm.counters with compared := bump s.asm.counters.compared } ∧ Reported s t x.cls true ∧
        (StreamIsCurrent s → s.planner.stream.purpose = .repair → x.bn + 1 ≤ s.planner.stream.servedLast →
          s.planner.active = true → plannerMayRead s = true → s.health.Sound → t.health.rough = s.health.rough →
          t.asm.align = { s.asm.align with expected := x.bn + 1 } ∧
            t.planner.stream = { s.planner.stream with expected := x.bn + 1 } ∧ t.store = s.store) ∧
        t.resume = s.resume ∧ OnlyRaised [.health, .repairOverflow] s t ∧ SensesStay s t)) ∧
    (∀ d : Int, s.asm.align.phase = .searching → x.bn = s.asm.align.expected → x.bn < s.asm.align.target →
      chooseOffset s x = some d →
      Completes .placement s (fun t =>
        t.asm.intake = rest ∧ t.asm.align.expected = x.bn + 1 ∧
        t.asm.counters = { placedCounters s x d with seam := bump s.asm.counters.seam } ∧ PlacedAt s t x d ∧
        (t.asm.align.phase = .none ∨ t.asm.align = { s.asm.align with phase := .anchored, offset := d, expected := x.bn + 1 }) ∧
        (StreamIsCurrent s →
          t.planner.stream.state ≠ .searching ∧
            (t.planner.stream.state = .anchored →
              t.planner.stream.expected = x.bn + 1 ∧ t.planner.stream.offset = d)) ∧
        Reported s t x.cls true ∧ t.resume = s.resume ∧ OnlyRaised [.health, .repairOverflow] s t ∧ SensesStay s t)) ∧
    (s.asm.align.phase = .searching → x.bn = s.asm.align.expected → s.asm.align.target ≤ x.bn → StreamIsCurrent s →
      Completes .placement s (fun t =>
        t.asm.intake = rest ∧ t.asm.counters = s.asm.counters ∧
        t.planner.counters.mislock = bump s.planner.counters.mislock ∧ ClosedWithCease s t ∧ SkipRaised s t 8 ∧
        (s.planner.stream.purpose = .frontier → s.planner.list.find? RepairEntry.active = none → Steady s →
          t.planner.frontier = { s.planner.frontier with mislocks := min 3 (s.planner.frontier.mislocks + 1) }) ∧
        (s.planner.stream.purpose = .repair → Steady s →
          (∀ e ∈ s.planner.list, e.active = true → e.attempts < effectiveRetry s) →
          t.planner.list.map (fun e => (e.first, e.last, e.mislocks)) =
            s.planner.list.map (fun e => (e.first, e.last, if e.active then min 3 (e.mislocks + 1) else e.mislocks))) ∧
        t.resume = s.resume ∧ OnlyRaised [.health, .repairOverflow] s t ∧ SensesStay s t)) ∧
    (x.bn ≠ s.asm.align.expected →
      (s.asm.align.phase = .searching ∨ x.bn < s.asm.align.expected ∨ s.asm.align.expected + 4 < x.bn ∨
        s.link.lost = false) →
      Completes .placement s (fun t =>
        t.asm.intake = rest ∧ t.asm.align.expected = s.asm.align.expected ∧ t.asm.align.phase = .none ∧
        t.asm.counters = { s.asm.counters with discontinuity := bump s.asm.counters.discontinuity } ∧
        (StreamIsCurrent s → ClosedWithCease s t ∧ SkipRaised s t 8) ∧
        t.health.erasure = s.health.erasure ∧ t.resume = s.resume ∧ OnlyRaised [.health, .repairOverflow] s t ∧
        SensesStay s t))

/-- The merge rule, frame by frame: what a held frame and an incoming one make. -/
def Obligations.MergeTable : Prop :=
  ∀ held incoming : Frame, incoming.mark ≠ .absent →
    (held.mark = .absent → mergeFrame held incoming = incoming) ∧
    (held.mark = .erased → incoming.mark = .good → mergeFrame held incoming = incoming) ∧
    (held.mark = .erased → incoming.mark = .erased → mergeFrame held incoming = held) ∧
    (held.mark = .good → incoming.mark = .erased → mergeFrame held incoming = held) ∧
    (held.mark = .good → incoming.mark = .good → held.value = incoming.value →
      mergeFrame held incoming = held ∧ disagrees held incoming = false) ∧
    (held.mark = .good → incoming.mark = .good → held.value ≠ incoming.value →
      mergeFrame held incoming = ⟨.erased, incoming.value⟩ ∧ disagrees held incoming = true)

/-- The Slot Store. Slot states by R6's table, and the recomputation that declares a slot in its row 5; the ready depth, the primed
indication and the fill head; and what each event does: a merge step changes its frame and the pass count, which rises by 1 up to 15,
and no other frame; a declaration sets the declared flag of its slot alone; the window advance frees the block it leaves; a trim frees
the blocks from its BN on, a cut of the extent those the window loses, and a flush all of them. -/
def Obligations.MergeStepWritesFrame : Prop :=
  (∀ x : Slot,
    (x.goodCount = 588 → x.state = .sound) ∧
    (x.goodCount ≠ 588 → x.declared = true → x.goodCount + x.erasedCount = 0 → x.state = .lost) ∧
    (x.goodCount ≠ 588 → x.declared = true → x.goodCount + x.erasedCount ≠ 0 → x.state = .final) ∧
    (x.goodCount ≠ 588 → x.declared = false → x.goodCount + x.erasedCount = 0 → x.state = .free) ∧
    (x.goodCount ≠ 588 → x.declared = false → x.goodCount + x.erasedCount = 588 → x.state = .opened) ∧
    (x.declared = false → 0 < x.goodCount + x.erasedCount → x.goodCount + x.erasedCount < 588 → x.state = .partly) ∧
    ∀ limit,
      (x.declared = false → x.goodCount + x.erasedCount = 588 → 0 < x.erasedCount → limit ≤ x.pass →
        x.recheck limit = { x with declared := true }) ∧
      (x.declared = true ∨ x.goodCount + x.erasedCount < 588 ∨ x.erasedCount = 0 ∨ x.pass < limit →
        x.recheck limit = x)) ∧
  (∀ (t : Store) (primeDepth : Nat),
    (t.readyDepth ≤ t.length ∧ (∀ i, i < t.readyDepth → (t.stateOf (t.playBlock + i)).ready = true) ∧
      (t.readyDepth < t.length → (t.stateOf (t.playBlock + t.readyDepth)).ready = false)) ∧
    (t.primed primeDepth = true ↔
      primeDepth ≤ t.readyDepth ∨
        (0 < t.length ∧ t.readyDepth = t.length ∧ t.playBlock + t.length = t.extent)) ∧
    t.playBlock ≤ t.fillHead ∧ t.fillHead ≤ t.playBlock + t.length ∧
    (∀ b, t.fillHead ≤ b → t.stateOf b = .free) ∧
    (t.playBlock < t.fillHead → t.stateOf (t.fillHead - 1) ≠ .free) ∧
    (t.playBlock < t.extent → t.length = min 384 (t.extent - t.playBlock)) ∧
    (t.extent ≤ t.playBlock → t.length = 0)) ∧
  (∀ (t : Store) (limit b i : Nat) (x : Frame), t.wf = true → t.holds b = true → i < 588 →
    (t.merge limit b [(i, x)]).frameAt (b * 588 + i) = x ∧
    ((t.merge limit b [(i, x)]).slotOf b).pass = min 15 ((t.slotOf b).pass + 1) ∧
    ∀ q, q ≠ b * 588 + i → (t.merge limit b [(i, x)]).frameAt q = t.frameAt q) ∧
  ∀ (t : Store) (b : Nat), t.wf = true →
    (t.holds b = true →
      (t.declare b).slotOf b = { t.slotOf b with declared := true } ∧
        ∀ c, c ≠ b → (t.declare b).slotOf c = t.slotOf c) ∧
    (t.holds b = false → t.declare b = t) ∧
    (t.stateOf b = .opened → t.declareIfOpen b = t.declare b) ∧
    (t.stateOf b ≠ .opened → t.declareIfOpen b = t) ∧
    (b = t.playBlock →
      (t.advance b).playBlock = b + 1 ∧ (t.advance b).extent = t.extent ∧
        (∀ c, b < c → c < b + 384 → (t.advance b).slotOf c = t.slotOf c) ∧
        (t.advance b).slotOf (b + 384) = Slot.empty) ∧
    ((∀ c, c < b → (t.trim b).slotOf c = t.slotOf c) ∧ (∀ c, b ≤ c → (t.trim b).slotOf c = Slot.empty) ∧
      (t.trim b).playBlock = t.playBlock ∧ (t.trim b).extent = t.extent) ∧
    (b ≤ t.extent →
      (∀ c, c < b → (t.setExtent b).slotOf c = t.slotOf c) ∧ (∀ c, b ≤ c → (t.setExtent b).slotOf c = Slot.empty) ∧
        (t.setExtent b).playBlock = t.playBlock ∧ (t.setExtent b).extent = b) ∧
    (∀ c, (t.flush b).slotOf c = Slot.empty) ∧ (t.flush b).playBlock = b ∧ (t.flush b).extent = t.extent

/-- The Repair Planner's own acts. The choice, while active with no stream: the due entry of lowest first BN, else the frontier below
the window's end, else nothing; a stream opens with the next number, its target and start, and a SEEK. Pre-emption closes a FRONTIER
stream when an entry is due. No event ends with a choice or a pre-emption undone. An overflow frees the store from the highest run's
first BN, is counted and raised with the blocks freed, and closes a stream that expects a block at or beyond it, and no other. That an
anchored FRONTIER stream which still expects a block below it goes on, and that the block expected is the Assembler's where a placement
has moved it on before its report, is the model's reading (DEDUCED, log entry 43). Lateness declares the blocks within Deadline Margin
that lie in an entry and are OPEN, or under the declare policy PARTIAL or FREE. -/
def Obligations.PlannerActs : Prop :=
  (∀ (s : State) (e : RepairEntry) (n start : Nat), s.planner.active = true → s.planner.stream.state = .none →
    e ∈ s.planner.list → due s e = true → (∀ x ∈ s.planner.list, due s x = true → x = e ∨ e.first < x.first) →
    s.planner.list.Pairwise (fun a b => a.first < b.first) →
    n = (if s.planner.stream.number = 15 then 1 else s.planner.stream.number + 1) →
    start = max s.store.playBlock (e.first - effectiveOverlap s) →
    (chooseStream s).planner.stream = ⟨n, .seeking, .repair, e.first, start, start, 0, e.last, 0, false⟩ ∧
    (chooseStream s).planner.list =
      s.planner.list.map (fun x => if x.first = e.first then
        { x with attempts := min 15 (x.attempts + 1), active := true } else x) ∧
    (chooseStream s).planner.counters.repairStream = bump s.planner.counters.repairStream ∧
    (chooseStream s).link.Carries (.seek n start) ∧ (chooseStream s).store = s.store) ∧
  (∀ (s : State) (n start : Nat), s.planner.active = true → s.planner.stream.state = .none →
    (∀ e ∈ s.planner.list, due s e = false) → s.planner.frontier.fillHead < s.store.playBlock + s.store.length →
    n = (if s.planner.stream.number = 15 then 1 else s.planner.stream.number + 1) →
    start = max s.store.playBlock (s.planner.frontier.fillHead - effectiveOverlap s) →
    (chooseStream s).planner.stream =
      ⟨n, .seeking, .frontier, s.planner.frontier.fillHead, start, start, 0, s.planner.stream.servedLast, 0, false⟩ ∧
    (chooseStream s).planner.list = s.planner.list ∧
    (chooseStream s).planner.counters.frontierStream = bump s.planner.counters.frontierStream ∧
    (chooseStream s).link.Carries (.seek n start) ∧ (chooseStream s).store = s.store) ∧
  (∀ s : State,
    (s.planner.active = false ∨ s.planner.stream.state ≠ .none ∨
      ((∀ e ∈ s.planner.list, due s e = false) ∧ s.store.playBlock + s.store.length ≤ s.planner.frontier.fillHead) →
      chooseStream s = s) ∧
    (∀ e, due s e = true ↔
      e.first - s.store.playBlock ≤ s.console.params.repairLead ∨ s.asm.holdWindow = true) ∧
    (s.planner.stream.state ≠ .none → s.planner.stream.purpose = .frontier → (∃ e ∈ s.planner.list, due s e = true) →
      (preempt s).planner.stream = { s.planner.stream with state := .none, timerRuns := false } ∧
      (preempt s).planner.counters.preemption = bump s.planner.counters.preemption ∧
      (preempt s).asm.align.phase = .none ∧ (preempt s).link.Carries (.cease s.planner.stream.number) ∧
      (∀ b, TxMsg.seek s.planner.stream.number b ∉ (preempt s).link.queue) ∧ (preempt s).store = s.store) ∧
    (s.planner.stream.state = .none ∨ s.planner.stream.purpose = .repair ∨ (∀ e ∈ s.planner.list, due s e = false) →
      preempt s = s) ∧
    ((settle s).planner.active = true → (settle s).planner.stream.state = .none →
      (∀ e ∈ (settle s).planner.list, due (settle s) e = false) ∧
        (settle s).store.playBlock + (settle s).store.length ≤ (settle s).planner.frontier.fillHead) ∧
    ((settle s).planner.active = true → (settle s).planner.stream.state ≠ .none →
      (settle s).planner.stream.purpose = .frontier →
      ∀ e ∈ (settle s).planner.list, due (settle s) e = false)) ∧
  (∀ (s : State) (r : RepairEntry) (x : Stream) (closes : Prop), s.planner.list.getLast? = some r → s.store.wf = true →
    x = s.planner.stream →
    (closes ↔
      x.state ≠ .none ∧
        r.first ≤
          (if s.asm.align.phase ≠ .none ∧ s.asm.align.stream = x.number then s.asm.align.expected else x.expected)) →
    (overflowOnce s).planner.counters.overflow = bump s.planner.counters.overflow ∧
    RaisedOnce s (overflowOnce s) .repairOverflow (min 255 (s.store.heldFrom r.first)) ∧
    (∀ c, r.first ≤ c → ((overflowOnce s).store.slotOf c).frames = []) ∧
    (∀ c, c < r.first → ((overflowOnce s).store.slotOf c).frames = (s.store.slotOf c).frames) ∧
    (overflowOnce s).planner.list.map (fun e => (e.first, e.last)) = (overflowOnce s).store.runs ∧
    (¬ closes → (overflowOnce s).store = s.store.trim r.first ∧
      (overflowOnce s).planner.stream.state = x.state ∧ (overflowOnce s).planner.stream.number = x.number ∧
      (overflowOnce s).link = s.link) ∧
    (closes → (overflowOnce s).planner.stream.state = .none ∧ (overflowOnce s).asm.align.phase = .none ∧
      (overflowOnce s).link.Carries (.cease x.number) ∧
      (∀ b, TxMsg.seek x.number b ∉ (overflowOnce s).link.queue) ∧
      ((∀ e ∈ s.planner.list, e.active = true → e.attempts < effectiveRetry s) →
        (overflowOnce s).store = s.store.trim r.first))) ∧
  (∀ s : State, s.planner.list.length ≤ 16 → handleOverflow s = s) ∧
  ∀ s : State,
    (∀ b, b ∈ lateBlocks s ↔
      s.store.playBlock ≤ b ∧ b < s.store.playBlock + s.console.params.deadlineMargin ∧
        (∃ e ∈ s.planner.list, e.first ≤ b ∧ b ≤ e.last) ∧
        (s.store.stateOf b = .opened ∨
          (s.console.params.latePolicy = 1 ∧ (s.store.stateOf b = .partly ∨ s.store.stateOf b = .free)))) ∧
    (lateBlocks s = [] → judgeLateness s = s) ∧
    (lateBlocks s ≠ [] → s.store.wf = true → s.planner.counters.overflow < 4294967295 →
      (judgeLateness s).planner.counters.overflow = s.planner.counters.overflow →
      (judgeLateness s).planner.counters.lateDeclaration =
        bumpBy s.planner.counters.lateDeclaration (lateBlocks s).length ∧
      ∀ b,
        (b ∈ lateBlocks s → s.store.holds b = true →
          (judgeLateness s).store.slotOf b = { s.store.slotOf b with declared := true }) ∧
        (b ∉ lateBlocks s → (judgeLateness s).store.slotOf b = s.store.slotOf b))

/-! ### Sense inputs and supply -/

/-- The third sample of a change at TRAY: the level is accepted and captured, TRAY is raised with its code. In: with TRAY
among the causes a LOAD for the record's position is queued or sent and confirming set, else the Play Controller is as it was.
Out, by play state: nothing follows in EMPTY; a load under way is given up with DISC_READY reason 5; from READY the entry is sealed and
the disc given up; CUEING and PAUSED suspend with a stop request, and PLAYING coasts, or suspends where the feeder is STARVED, each
with a seal of cause TRAY and the return-to state it left; COASTING and SUSPENDED stay and re-seal. Where a disc is left, TRAY is among
the causes, the disc is UNCONFIRMED and nothing is awaited, and the planner's stream is closed with CEASE. The row is the sample that
completes the change (the model's choice, log entry 5); G and the last output frame after a stop request in STARVED or with Ramp
Length 0 are the model's reading (log entry 22). -/
def Obligations.TrayChanges : Prop :=
  ∀ s : State, s.sense.tray.count = 2 →
    (s.sense.tray.accepted = .low →
      Completes .trayIn s (fun t =>
        t.sense = { s.sense with tray := ⟨.high, 0, .high, some true⟩ } ∧ RaisedOnce s t .tray 2 ∧ OnlyRaised [.tray] s t ∧
        (s.play.causes.tray = true →
          t.play =
            { s.play with
              confirming := true, loadTimer := 0
              counters := { s.play.counters with load := bump s.play.counters.load } } ∧
          t.link.Carries (.load s.play.disc.position)) ∧
        (s.play.causes.tray = false → t.play = s.play ∧ t.link = s.link) ∧
        t.store = s.store ∧ t.asm = s.asm ∧ t.planner = s.planner ∧ t.health = s.health ∧ t.feeder = s.feeder ∧
        t.supply = s.supply ∧ t.resume = s.resume ∧ t.console = s.console)) ∧
    (s.sense.tray.accepted = .high →
      Completes .trayOut s (fun t =>
        t.sense = { s.sense with tray := ⟨.low, 0, .low, some false⟩ } ∧ RaisedOnce s t .tray 1 ∧
        t.supply = s.supply ∧ t.console = s.console ∧ t.health = s.health ∧
        (s.play.state = .empty →
          t.play = s.play ∧ t.store = s.store ∧ t.feeder = s.feeder ∧ t.resume = s.resume ∧ t.asm = s.asm ∧
          t.planner = s.planner ∧ t.link = s.link ∧ OnlyRaised [.tray] s t) ∧
        (s.play.state = .loading →
          DiscCleared t ∧ t.play.wanted = 0 ∧ RaisedOnce s t .discReady (80 + s.play.wanted) ∧ t.resume = s.resume ∧
          OnlyRaised [.tray, .discReady, .repairOverflow] s t) ∧
        (s.play.state = .ready → DiscCleared t ∧ Sealed s t .ready .tray ∧ OnlyRaised [.tray, .repairOverflow] s t) ∧
        (s.play.state = .playing →
          t.play.state = (if s.feeder.state = .starved then .suspended else .coasting) ∧
          t.play.counters.coast =
            (if s.feeder.state = .starved then s.play.counters.coast else bump s.play.counters.coast) ∧
          t.play.returnTo = .playing ∧ Sealed s t .playing .tray ∧ t.feeder = s.feeder) ∧
        (∀ back : ReturnTo, (s.play.state = .cueing ∧ back = .cueing) ∨ (s.play.state = .paused ∧ back = .paused) →
          t.play.state = .suspended ∧ t.play.returnTo = back ∧
          t.play.counters.suspension = bump s.play.counters.suspension ∧
          Sealed s t (if back = .paused then .paused else .ready) .tray ∧
          t.feeder = s.feeder.stop s.console.params.rampLength) ∧
        (s.play.state = .coasting ∨ s.play.state = .suspended →
          t.play.state = s.play.state ∧ t.play.returnTo = s.play.returnTo ∧ t.play.counters = s.play.counters ∧
          Sealed s t (resealMode s) .tray ∧ t.feeder = s.feeder) ∧
        (s.play.state ≠ .empty → s.play.state ≠ .loading → s.play.state ≠ .ready →
          t.play.causes = { s.play.causes with tray := true } ∧
          t.play.disc = { s.play.disc with confirmed := false } ∧ t.play.confirming = false ∧
          Deactivated s t ∧ t.store = s.store ∧ OnlyRaised [.tray] s t)))

/-- A change at SHOCK: the level is accepted. One that qualifies under SHOCK Edge is captured, SHOCK is raised with its code, and
outside WITHDRAWN the skip score rises by 16, with what a health state it brings about calls for; in WITHDRAWN the quiet count is
broken; of one that does not qualify nothing more follows. The row is the sample that completes the change (the model's choice, log
entry 5). -/
def Obligations.ShockChanges : Prop :=
  ∀ (level : Bool) (s : State), s.sense.shock.count = 2 → s.sense.shock.accepted = levelOf (!level) →
    (s.console.params.shockEdge = 2 ∨ (level = true ∧ s.console.params.shockEdge = 0) ∨
        (level = false ∧ s.console.params.shockEdge = 1) →
      Completes (.shockChange level) s (fun t =>
        t.sense = { s.sense with shock := ⟨levelOf level, 0, levelOf level, some level⟩ } ∧
        RaisedOnce s t .shock (if level then 2 else 1) ∧ OnlyRaised [.shock, .health] s t ∧ SkipRaised s t 16 ∧
        HealthFollows s t ∧
        (Withdrawn s →
          t.health =
            { s.health with
              quiet := 0, disturbed := true
              counters := { s.health.counters with quietBreak := bump s.health.counters.quietBreak } }) ∧
        t.health.erasure = s.health.erasure ∧ t.store = s.store ∧ t.feeder = s.feeder ∧ t.play = s.play ∧
        t.supply = s.supply ∧ t.resume = s.resume ∧ t.console = s.console)) ∧
    ((level = true ∧ s.console.params.shockEdge = 1) ∨ (level = false ∧ s.console.params.shockEdge = 0) →
      exec (.shockChange level) s =
        .next (s.setSense { s.sense with shock := ⟨levelOf level, 0, s.sense.shock.captured, some level⟩ }))

/-- Samples that accept no change. While UNKNOWN the first sample, or one that differs from the one before it, sets the count to 1, an
equal one adds 1, and the third of three equal ones latches the level, raises nothing and captures nothing. Once a level is accepted, a
sample equal to it clears the count, and a first or second differing one raises it by 1. LEVEL_LATCH is the
sample that completes the latch (the model's choice, log entry 5), and the count of 0 after it is read from the rules by inference
(log entry 32). -/
def Obligations.CancellerSamples : Prop :=
  ∀ (level : Bool) (s : State),
    (s.sense.tray.accepted = .unknown → s.sense.tray.count = 2 → s.sense.tray.before = some level →
      exec (.levelLatch .tray level) s =
        .next (s.setSense { s.sense with tray := ⟨levelOf level, 0, s.sense.tray.captured, some level⟩ })) ∧
    (s.sense.shock.accepted = .unknown → s.sense.shock.count = 2 → s.sense.shock.before = some level →
      exec (.levelLatch .shock level) s =
        .next (s.setSense { s.sense with shock := ⟨levelOf level, 0, s.sense.shock.captured, some level⟩ })) ∧
    (s.sense.tray.accepted = .unknown →
      (s.sense.tray.before ≠ some level →
        exec (.cancellerSample .tray level) s =
          .next (s.setSense { s.sense with tray := { s.sense.tray with count := 1, before := some level } })) ∧
      (s.sense.tray.before = some level → s.sense.tray.count < 2 →
        exec (.cancellerSample .tray level) s =
          .next (s.setSense
            { s.sense with tray := { s.sense.tray with count := s.sense.tray.count + 1, before := some level } }))) ∧
    (s.sense.shock.accepted = .unknown →
      (s.sense.shock.before ≠ some level →
        exec (.cancellerSample .shock level) s =
          .next (s.setSense { s.sense with shock := { s.sense.shock with count := 1, before := some level } })) ∧
      (s.sense.shock.before = some level → s.sense.shock.count < 2 →
        exec (.cancellerSample .shock level) s =
          .next (s.setSense
            { s.sense with shock := { s.sense.shock with count := s.sense.shock.count + 1, before := some level } }))) ∧
    (s.sense.tray.accepted = levelOf level →
      exec (.cancellerSample .tray level) s =
        .next (s.setSense { s.sense with tray := { s.sense.tray with count := 0, before := some level } })) ∧
    (s.sense.tray.accepted = levelOf (!level) → s.sense.tray.count < 2 →
      exec (.cancellerSample .tray level) s =
        .next (s.setSense
          { s.sense with tray := { s.sense.tray with count := s.sense.tray.count + 1, before := some level } })) ∧
    (s.sense.shock.accepted = levelOf level →
      exec (.cancellerSample .shock level) s =
        .next (s.setSense { s.sense with shock := { s.sense.shock with count := 0, before := some level } })) ∧
    (s.sense.shock.accepted = levelOf (!level) → s.sense.shock.count < 2 →
      exec (.cancellerSample .shock level) s =
        .next (s.setSense
          { s.sense with shock := { s.sense.shock with count := s.sense.shock.count + 1, before := some level } }))

/-- The second sample in a row below the warning threshold enters WARNING: SUPPLY is raised with WARN (1). In EMPTY, LOADING and
READY only the warning is kept. From every other state play is or becomes SUSPENDED with SUPPLY among the causes, and the Play
Controller makes a stop request, seals the resume entry with cause SUPPLY and requests CEASE for the stream of the planner's record;
entering SUSPENDED is counted, keeps the state to return to, and makes the planner inactive. A CONFIRMED disc stays so, and confirming
goes on. The row is the sample that completes the warning (the model's choice, log entry 5); G and the last output frame after a stop
request in STARVED or with Ramp Length 0 are the model's reading (log entry 22). -/
def Obligations.SupplyWarns : Prop :=
  ∀ (vsense : Nat) (s : State), s.supply.warning = false → s.supply.below = 1 →
    vsense < 1100000 - 100000 * s.console.params.supplyThreshold →
    Completes (.supplyWarning vsense) s (fun t =>
      t.supply = ⟨true, 0, 0, true, s.supply.resetCause⟩ ∧ RaisedOnce s t .supply 1 ∧ OnlyRaised [.supply] s t ∧
      t.play.supplyWarned = true ∧ t.store = s.store ∧ t.health = s.health ∧ t.sense = s.sense ∧ t.console = s.console ∧
      t.play.disc = s.play.disc ∧ t.play.confirming = s.play.confirming ∧
      (s.play.state = .empty ∨ s.play.state = .loading ∨ s.play.state = .ready →
        t.play = { s.play with supplyWarned := true } ∧ t.feeder = s.feeder ∧ t.resume = s.resume ∧ t.asm = s.asm ∧
        t.planner = s.planner ∧ t.link = s.link) ∧
      (s.play.state ≠ .empty → s.play.state ≠ .loading → s.play.state ≠ .ready →
        t.play.state = .suspended ∧ t.play.causes = { s.play.causes with supply := true } ∧
        t.feeder = s.feeder.stop s.console.params.rampLength ∧ t.link.Carries (.cease s.planner.stream.number)) ∧
      (s.play.state = .playing ∨ s.play.state = .coasting →
        t.play.returnTo = .playing ∧ Sealed s t .playing .supply) ∧
      (s.play.state = .paused → t.play.returnTo = .paused ∧ Sealed s t .paused .supply) ∧
      (s.play.state = .cueing → t.play.returnTo = .cueing ∧ Sealed s t .ready .supply) ∧
      (s.play.state = .playing ∨ s.play.state = .coasting ∨ s.play.state = .paused ∨ s.play.state = .cueing →
        t.play.counters.suspension = bump s.play.counters.suspension ∧
        t.play.counters.supplySuspension = bump s.play.counters.supplySuspension ∧ Deactivated s t) ∧
      (s.play.state = .suspended →
        t.play.returnTo = s.play.returnTo ∧ t.play.counters = s.play.counters ∧
        Sealed s t (resealMode s) .supply ∧ t.planner = s.planner ∧ t.asm = s.asm))

/-- Supply samples that bring no warning: in NORMAL one at or above the threshold clears the below count, a first one below it
counts 1; in WARNING one below the recovery level restarts the settling, one at or above it changes nothing. -/
def Obligations.SupplySampled : Prop :=
  ∀ (vsense : Nat) (s : State),
    (s.supply.warning = false → 1100000 - 100000 * s.console.params.supplyThreshold ≤ vsense →
      exec (.supplySample vsense) s = .next (s.setSupply { s.supply with below := 0 })) ∧
    (s.supply.warning = false → s.supply.below = 0 → vsense < 1100000 - 100000 * s.console.params.supplyThreshold →
      exec (.supplySample vsense) s = .next (s.setSupply { s.supply with below := 1 })) ∧
    (s.supply.warning = true → vsense < 1100000 - 100000 * s.console.params.supplyThreshold + 50000 →
      exec (.supplySample vsense) s = .next (s.setSupply { s.supply with settle := 0, dipped := true })) ∧
    (s.supply.warning = true → 1100000 - 100000 * s.console.params.supplyThreshold + 50000 ≤ vsense →
      exec (.supplySample vsense) s = .next s)

/-- The counting tick that brings the settle counter to Supply Settle: the Supply Watch is NORMAL, SUPPLY is raised with
RECOVERED (2), and the Play Controller drops the warning and the cause SUPPLY. Where that empties the set, play returns with
Auto-Resume on, and pauses with a stop request with it off; with no such cause, or another left, its state stays. The row is the
Supply Watch's expiring tick alone (the model's choice, log entry 3); G and the last output frame after a stop request in STARVED or
with Ramp Length 0 are the model's reading (log entry 22). -/
def Obligations.SupplyRecovers : Prop :=
  ∀ s : State, s.supply.warning = true → s.supply.dipped = false →
    s.console.params.supplySettle ≤ min 255 (s.supply.settle + 1) →
    Completes .supplyRecovery s (fun t =>
      t.supply = ⟨false, 0, 0, false, s.supply.resetCause⟩ ∧ RaisedOnce s t .supply 2 ∧
      OnlyRaised [.supply, .repairOverflow] s t ∧ t.play.supplyWarned = false ∧ t.play.causes.supply = false ∧
      (s.play.causes.supply = false →
        t.play = { s.play with supplyWarned := false } ∧ t.store = s.store ∧ t.feeder = s.feeder ∧
          t.planner = s.planner ∧ t.link = s.link) ∧
      (s.play.causes.supply = true → s.play.causes.tray = true ∨ s.play.causes.drive = true →
        t.play = { s.play with supplyWarned := false, causes := { s.play.causes with supply := false } } ∧
          t.store = s.store ∧ t.feeder = s.feeder ∧ t.planner = s.planner ∧ t.link = s.link) ∧
      (s.play.causes = ⟨false, true, false⟩ → s.console.params.autoResume = 1 → Returns s t) ∧
      (s.play.causes = ⟨false, true, false⟩ → s.console.params.autoResume ≠ 1 →
        t.play.state = .paused ∧ t.feeder = s.feeder.stop s.console.params.rampLength ∧ t.store = s.store ∧
          t.planner.active = plannerMayRead t) ∧
      t.feeder.block = s.feeder.block ∧ t.feeder.frame = s.feeder.frame ∧
      t.health = s.health ∧ t.sense = s.sense ∧ t.resume = s.resume ∧ t.console = s.console)

/-! ### The mailbox -/

/-- SELECT of a position 1 to 6 and a mode 0 to 2 clears the disc, keeps the position and the mode, queues LOAD and enters
LOADING; a seal with cause CHANGE comes first from PLAYING and COASTING, with mode PLAYING, and from PAUSED, with mode PAUSED, and
from no other state. The pointer and bus after the byte are those of the row's register (the model's choice, log entry 17). -/
def Obligations.SelectLoads : Prop :=
  ∀ s : State, MailboxFree s → 1 ≤ paramByte s 0 → paramByte s 0 ≤ 6 → paramByte s 1 ≤ 2 →
    Completes .select s (fun t =>
      t.play.state = .loading ∧ t.play.wanted = paramByte s 0 ∧
      t.play.mode =
        (if paramByte s 1 = 0 then .fromStart else if paramByte s 1 = 1 then .fromResume else .loadOnly) ∧
      t.play.disc = ⟨0, 0, 0, false⟩ ∧ t.play.causes = ⟨false, false, false⟩ ∧ t.play.confirming = false ∧
      t.play.pauseOnPrime = false ∧ t.play.loadTimer = 0 ∧ t.play.counters.load = bump s.play.counters.load ∧
      t.link.Carries (.load (paramByte s 0)) ∧
      t.feeder.block = 0 ∧ t.feeder.frame = 0 ∧ t.feeder.state = .silent ∧
      t.store.slots = [] ∧ t.store.playBlock = 0 ∧ t.store.extent = 0 ∧
      (s.play.state = .playing ∨ s.play.state = .coasting → Sealed s t .playing .change) ∧
      (s.play.state = .paused → Sealed s t .paused .change) ∧
      (s.play.state ≠ .playing → s.play.state ≠ .paused → s.play.state ≠ .coasting → t.resume = s.resume) ∧
      t.console = completed s 0x01 .done s.console.response ∧ RaisedOnce s t .commandDone 0x01 ∧
      OnlyRaised [.commandDone, .repairOverflow] s t ∧ t.health = s.health ∧ t.sense = s.sense ∧ t.supply = s.supply)

/-- PLAY of a position within the disc cues it: the cursor, a flushed store, CUEING; from COASTING play is SUSPENDED, keeps its causes
and returns to CUEING. The pointer and bus after the byte are those of the row's register (the model's choice, log entry 17). -/
def Obligations.PlayCues : Prop :=
  ∀ s : State, MailboxFree s → s.play.supplyWarned = false → 0 < s.console.params.primeDepth →
    playBn s < s.play.disc.extent → playFrame s < 588 →
    s.play.state = .ready ∨ s.play.state = .cueing ∨ s.play.state = .playing ∨ s.play.state = .paused ∨
      s.play.state = .coasting →
    Completes .play s (fun t =>
      t.play.state = (if s.play.state = .coasting then .suspended else .cueing) ∧
      (s.play.state = .coasting → t.play.returnTo = .cueing) ∧ t.play.causes = s.play.causes ∧
      t.play.pauseOnPrime = false ∧ t.play.unprimed = false ∧ t.play.disc = s.play.disc ∧
      t.feeder.block = playBn s ∧ t.feeder.frame = playFrame s ∧ t.feeder.state = .silent ∧
      t.store = s.store.flush (playBn s) ∧ t.asm.intake = [] ∧ t.asm.counters = s.asm.counters ∧
      t.console = completed s 0x02 .done s.console.response ∧ RaisedOnce s t .commandDone 0x02 ∧
      OnlyRaised [.commandDone] s t ∧ t.health = s.health ∧ t.sense = s.sense ∧ t.supply = s.supply ∧
      t.resume = s.resume)

/-- PAUSE from PLAYING or CUEING seals the entry with mode PAUSED and enters PAUSED; from PLAYING the feeder is asked to stop: a
STARTING or RUNNING one begins a stop ramp, or is SILENT at once with Ramp Length 0, where the last frame is 0 by the model's choice
(log entry 22), and a STARVED one is SILENT; from CUEING the unprimed mark is set. The pointer and bus after the byte are those of
the row's register (the model's choice, log entry 17). -/
def Obligations.PauseSeals : Prop :=
  ∀ s : State, MailboxFree s → s.play.state = .playing ∨ s.play.state = .cueing →
    Completes .pause s (fun t =>
      t.play.state = .paused ∧ t.play.disc = s.play.disc ∧
      (s.play.state = .cueing → t.play.unprimed = true ∧ t.feeder = s.feeder) ∧
      (s.play.state = .playing → s.feeder.state = .running ∨ s.feeder.state = .starting →
        s.console.params.rampLength ≠ 0 → t.feeder = { s.feeder with state := .stopping }) ∧
      (s.play.state = .playing → s.feeder.state = .running ∨ s.feeder.state = .starting →
        s.console.params.rampLength = 0 →
        t.feeder = { s.feeder with state := .silent, gain := 0, run := .none, concealC := 128, last := ⟨0, 0⟩ }) ∧
      (s.play.state = .playing → s.feeder.state = .starved → t.feeder = { s.feeder with state := .silent, gain := 0 }) ∧
      (s.play.state = .playing → s.feeder.state = .silent ∨ s.feeder.state = .stopping → t.feeder = s.feeder) ∧
      (s.feeder.block < s.play.disc.extent →
        t.resume = s.resume.write s.play.disc.position
          ⟨true, s.play.disc.tag, s.feeder.block, s.feeder.frame, .paused, .none⟩) ∧
      (s.play.disc.extent ≤ s.feeder.block → t.resume = s.resume) ∧
      t.store = s.store ∧ t.asm.counters = s.asm.counters ∧ t.asm.intake = s.asm.intake ∧
      t.console = completed s 0x03 .done s.console.response ∧ RaisedOnce s t .commandDone 0x03 ∧
      OnlyRaised [.commandDone] s t ∧ t.health = s.health ∧ t.sense = s.sense ∧ t.supply = s.supply)

/-- CONTINUE from PAUSED: a store that is not primed leads to CUEING; a primed one to PLAYING, and a SILENT feeder starts, a STOPPING
one turns its ramp, or is RUNNING at once with Ramp Length 0. The pointer and bus after the byte are those of the row's register (the
model's choice, log entry 17). -/
def Obligations.ContinuePlays : Prop :=
  ∀ s : State, MailboxFree s → s.play.supplyWarned = false → s.play.state = .paused →
    (s.play.storePrimed = false →
      Completes .continuePlay s (fun t =>
        t.play.state = .cueing ∧ t.play.pauseOnPrime = false ∧ t.play.unprimed = false ∧ t.play.disc = s.play.disc ∧
        t.feeder = s.feeder ∧ t.store = s.store ∧ t.resume = s.resume ∧
        t.console = completed s 0x04 .done s.console.response ∧ RaisedOnce s t .commandDone 0x04 ∧
        OnlyRaised [.commandDone] s t ∧ t.health = s.health ∧ t.sense = s.sense ∧ t.supply = s.supply)) ∧
    (s.play.storePrimed = true → s.feeder.state = .stopping →
      Completes .continuePlay s (fun t =>
        t.play.state = .playing ∧
        t.feeder =
          (if s.console.params.rampLength = 0 then { s.feeder with state := .running, gain := 128, fade := none }
          else { s.feeder with state := .starting, fade := none }) ∧
        t.store = s.store ∧
        t.resume = s.resume ∧ t.console = completed s 0x04 .done s.console.response ∧
        RaisedOnce s t .commandDone 0x04 ∧ OnlyRaised [.commandDone] s t)) ∧
    (s.play.storePrimed = true → s.feeder.state = .silent →
      Completes .continuePlay s (fun t =>
        t.play.state = .playing ∧ t.play.pauseOnPrime = false ∧ t.play.unprimed = false ∧ t.play.disc = s.play.disc ∧
        t.feeder.state = (if s.console.params.rampLength = 0 then .running else .starting) ∧
        t.feeder.gain = (if s.console.params.rampLength = 0 then 128 else 0) ∧ t.feeder.fade = none ∧
        t.feeder.block = s.feeder.block ∧ t.feeder.frame = s.feeder.frame ∧ t.resume = s.resume ∧
        t.console = completed s 0x04 .done s.console.response ∧ RaisedOnce s t .commandDone 0x04 ∧
        OnlyRaised [.commandDone, .repairOverflow] s t ∧ t.health = s.health ∧ t.sense = s.sense ∧
        t.supply = s.supply))

/-- STOP: with a CONFIRMED disc the store is flushed at the cursor and the state is READY; with an UNCONFIRMED one the disc is
cleared and the state is EMPTY. From PLAYING, PAUSED and COASTING the entry is sealed. The pointer and bus after the byte are those of
the row's register (the model's choice, log entry 17). -/
def Obligations.StopEnds : Prop :=
  ∀ s : State, MailboxFree s → s.play.state ≠ .empty →
    (s.play.disc.confirmed = true →
      Completes .stop s (fun t =>
        t.play.state = .ready ∧ t.play.disc = s.play.disc ∧ t.play.causes = ⟨false, false, false⟩ ∧
        t.store = s.store.flush s.feeder.block ∧ t.asm.intake = [] ∧
        t.feeder.block = s.feeder.block ∧ t.feeder.frame = s.feeder.frame ∧
        (s.feeder.state = .silent → t.feeder.state = .silent) ∧
        (s.feeder.state = .running ∨ s.feeder.state = .starting →
          t.feeder.state = (if s.console.params.rampLength = 0 then .silent else .stopping)) ∧
        (s.play.state = .playing ∨ s.play.state = .paused ∨ s.play.state = .coasting →
          s.feeder.block < s.play.disc.extent →
          t.resume = s.resume.write s.play.disc.position
            ⟨true, s.play.disc.tag, s.feeder.block, s.feeder.frame, .ready, .stop⟩) ∧
        t.console = completed s 0x05 .done s.console.response ∧ RaisedOnce s t .commandDone 0x05 ∧
        OnlyRaised [.commandDone] s t ∧ t.health = s.health ∧ t.sense = s.sense ∧ t.supply = s.supply)) ∧
    (s.play.disc.confirmed = false →
      Completes .stop s (fun t =>
        t.play.state = .empty ∧ t.play.disc = ⟨0, 0, 0, false⟩ ∧ t.play.causes = ⟨false, false, false⟩ ∧
        t.feeder.block = 0 ∧ t.feeder.frame = 0 ∧ t.feeder.state = .silent ∧ t.store.slots = [] ∧
        (s.play.state = .loading → t.play.wanted = 0) ∧
        (s.play.state = .playing ∨ s.play.state = .paused ∨ s.play.state = .coasting → Sealed s t .ready .stop) ∧
        (s.play.state ≠ .playing → s.play.state ≠ .paused → s.play.state ≠ .coasting → t.resume = s.resume) ∧
        t.console = completed s 0x05 .done s.console.response ∧ RaisedOnce s t .commandDone 0x05 ∧
        OnlyRaised [.commandDone, .repairOverflow] s t ∧ t.health = s.health ∧ t.sense = s.sense ∧
        t.supply = s.supply))

/-- SET of a value within the parameter's range, in a state that allows it, is taken: the parameter has the value and the others
are as they were. The value already held changes no block. What a changed value hands on within the SET: Prime Depth the primed
indication, where it changes, and a store that has become primed ends CUEING, in PAUSED or in PLAYING with the feeder's start, and
starts a STARVED feeder in PLAYING; Deadline Margin and Late Policy a judgement of lateness; Repair Lead the pre-emption and choice; Retry
Limit, on a disc that is not rough, the recomputation of every slot; Link Parity and Link Stop Bits a new format from the next
character on; Receiver Enable the receiver's start anew; a sample interval its canceller's count. The pointer and bus after the byte
are those of the row's register (the model's choice, log entry 17). The record of the format changes within a message is the model's own
(DESIGN CHOICE, log entry 40), and WAIT_HIGH also where the receiver is turned off is read from the rules by inference (DEDUCED, log
entry 25). -/
def Obligations.SetWritesParameter : Prop :=
  ∀ (s : State) (id v : Nat) (p : Params), MailboxFree s → id = paramByte s 0 → v = setValue s →
    p = s.console.params.put id v → paramInRange id v = true →
    (18 ≤ id → id ≤ 20 → s.play.state = .empty ∨ s.play.state = .ready) →
    Completes .set s (fun t =>
      t.console.params.get id = v ∧
      (∀ i, i ≠ id → t.console.params.get i = s.console.params.get i) ∧
      t.console.mailbox = (completed s 0x10 .done s.console.response).mailbox ∧
      t.console.response = s.console.response ∧ RaisedOnce s t .commandDone 0x10 ∧
      OnlyRaised [.commandDone, .repairOverflow] s t ∧ t.health = s.health ∧ t.supply = s.supply ∧
      t.resume = s.resume ∧
      (s.console.params.get id = v → t = answeredState s 0x10 .done s.console.response) ∧
      (s.console.params.get id ≠ v →
        (id = 1 → s.feeder.state ≠ .starved → s.play.state ≠ .cueing →
          (s.store.primed v ≠ s.store.primed s.console.params.primeDepth →
            t.play.storePrimed = s.store.primed v ∧ t.feeder.primed = s.store.primed v) ∧
          (s.store.primed v = s.store.primed s.console.params.primeDepth → t.play = s.play ∧ t.feeder = s.feeder)) ∧
        (id = 1 → s.store.primed s.console.params.primeDepth = false → s.store.primed v = true →
          (s.play.state = .cueing → s.play.pauseOnPrime = true →
            t.play.state = .paused ∧ t.play.pauseOnPrime = false ∧ t.feeder = { s.feeder with primed := true } ∧
              t.store = s.store) ∧
          (s.play.state = .cueing → s.play.pauseOnPrime = false →
            t.play.state = .playing ∧ (s.feeder.state = .silent ∨ s.feeder.state = .starved → FeederStarts s t)) ∧
          (s.play.state = .playing → s.feeder.state = .starved → t.play.state = .playing ∧ FeederStarts s t) ∧
          (s.play.state ≠ .cueing → s.play.state ≠ .playing → s.feeder.state = .starved →
            t.play.state = s.play.state ∧ t.feeder = { s.feeder with primed := true } ∧ t.store = s.store)) ∧
        (id = 1 → s.store.primed s.console.params.primeDepth = true → s.store.primed v = false →
          t.play = { s.play with storePrimed := false } ∧ t.feeder = { s.feeder with primed := false } ∧
            t.store = s.store) ∧
        (id = 2 ∨ id = 10 → s.store.wf = true → s.planner.counters.overflow < 4294967295 →
          t.planner.counters.overflow = s.planner.counters.overflow →
          ∀ b ∈ lateBlocks (s.setConsole { s.console with params := p }), s.store.holds b = true →
            (t.store.slotOf b).declared = true) ∧
        (id = 3 → t.planner.active = true →
          (t.planner.stream.state ≠ .none → t.planner.stream.purpose = .frontier →
            ∀ e ∈ t.planner.list, v < e.first - t.store.playBlock) ∧ t.store = s.store) ∧
        (id = 4 → s.health.rough = false → s.store.wf = true →
          ∀ k, (t.store.slotAt k).meetsRow5 v = false) ∧
        (id = 4 → s.health.rough = true → t.store = s.store) ∧
        (id = 18 ∨ id = 19 →
          t.link =
            (match s.link.tx with
              | .sending _ =>
                { s.link with
                  changes :=
                    s.link.changes ++ [⟨⟨s.console.params.linkParity, s.console.params.linkStopBits⟩, s.link.changed⟩]
                  changed := s.link.changed + 1 }
              | .idle | .gap | .held => s.link)) ∧
        (id = 21 →
          t.link.sampling = .waitHigh ∧ t.link.assembly = .idle ∧ t.link.breakCount = 0 ∧
            (s.link.tx = .held →
              t.link.tx = (match s.link.queue with
                | [] => .idle
                | m :: _ => .sending m) ∧ t.link.queue = s.link.queue.tail) ∧
            (s.link.tx ≠ .held → t.link.tx = s.link.tx ∧ t.link.queue = s.link.queue)) ∧
        (id = 22 → t.sense = { s.sense with tray := { s.sense.tray with count := 0 } }) ∧
        (id = 23 → t.sense = { s.sense with shock := { s.sense.shock with count := 0 } }) ∧
        (id ≠ 22 → id ≠ 23 → t.sense = s.sense)))

/-- The commands that fill the response area, with their parameter in range: the record's bytes and zeros after them, and
nothing else changes. READ_SLOT reads the block of the window that has the index's residue, and an unused slot as FREE with implied
BN 0; READ_REPAIR the entry at the index, or zeros, with the stream and the frontier counts. The pointer and bus after the byte are
those of the row's register (the model's choice, log entry 17). An entry that is not valid reads as 12 bytes of 0. -/
def Obligations.ReadCommandsRespond : Prop :=
  ∀ s : State, MailboxFree s →
    (1 ≤ paramByte s 0 → paramByte s 0 ≤ 24 →
      exec .get s = .next (answeredState s 0x11 .done (padResponse
        (bytesOf 1 (paramByte s 0) ++ bytesOf 2 (s.console.params.get (paramByte s 0)) ++
          bytesOf 2 (Params.default.get (paramByte s 0)) ++
          bytesOf 1 (if 18 ≤ paramByte s 0 ∧ paramByte s 0 ≤ 20 then 1 else 0) ++
          bytesOf 2 (effectiveParam (paramByte s 0) s))))) ∧
    (1 ≤ paramByte s 0 → paramByte s 0 ≤ 6 →
      exec .readResume s = .next (answeredState s 0x20 .done (padResponse
        (bytesOf 1 (paramByte s 0) ++
          (if (s.resume.entry (paramByte s 0)).valid then (s.resume.entry (paramByte s 0)).bytes
          else List.replicate 12 0))))) ∧
    (∀ b : Nat, slotIndex s ≤ 383 → s.store.playBlock ≤ b → b < s.store.playBlock + 384 → b % 384 = slotIndex s →
      (b < s.store.extent →
        exec .readSlot s = .next (answeredState s 0x22 .done (padResponse
          (bytesOf 2 (slotIndex s) ++ bytesOf 1 1 ++ bytesOf 3 b ++ bytesOf 1 (s.store.stateOf b).code ++
            bytesOf 2 (s.store.slotOf b).goodCount ++ bytesOf 2 (s.store.slotOf b).erasedCount ++
            bytesOf 2 (s.store.slotOf b).absentCount ++ bytesOf 1 (s.store.slotOf b).pass ++
            bytesOf 1 (if (s.store.slotOf b).declared then 1 else 0))))) ∧
      (s.store.extent ≤ b →
        exec .readSlot s = .next (answeredState s 0x22 .done (padResponse
          (bytesOf 2 (slotIndex s) ++ bytesOf 1 0 ++ bytesOf 3 0 ++ bytesOf 1 0 ++ bytesOf 2 0 ++ bytesOf 2 0 ++
            bytesOf 2 588 ++ bytesOf 1 0 ++ bytesOf 1 0))))) ∧
    (∀ purpose : Nat, paramByte s 0 ≤ 15 → purpose = (if s.planner.stream.purpose = .repair then 4 else 0) →
      (∀ e, s.planner.list[paramByte s 0]? = some e →
        exec .readRepair s = .next (answeredState s 0x23 .done (padResponse
          (bytesOf 1 (paramByte s 0) ++ bytesOf 1 (1 + (if e.active then 2 else 0) + purpose) ++ bytesOf 3 e.first ++
            bytesOf 3 e.last ++ bytesOf 1 e.attempts ++ bytesOf 1 e.mislocks ++ bytesOf 1 s.planner.list.length ++
            bytesOf 1 s.planner.stream.number ++ bytesOf 1 s.planner.stream.state.code ++
            bytesOf 1 s.planner.frontier.refusals ++ bytesOf 1 s.planner.frontier.mislocks)))) ∧
      (s.planner.list.length ≤ paramByte s 0 →
        exec .readRepair s = .next (answeredState s 0x23 .done (padResponse
          (bytesOf 1 (paramByte s 0) ++ bytesOf 1 purpose ++ bytesOf 3 0 ++ bytesOf 3 0 ++ bytesOf 1 0 ++ bytesOf 1 0 ++
            bytesOf 1 s.planner.list.length ++ bytesOf 1 s.planner.stream.number ++
            bytesOf 1 s.planner.stream.state.code ++ bytesOf 1 s.planner.frontier.refusals ++
            bytesOf 1 s.planner.frontier.mislocks))))) ∧
    (paramByte s 1 < (counterGroup s (paramByte s 0)).length →
      exec .readCounters s = .next (answeredState s 0x24 .done (padResponse
        (bytesOf 1 (paramByte s 0) ++ bytesOf 1 (paramByte s 1) ++
          bytesOf 1 (min 3 ((counterGroup s (paramByte s 0)).length - paramByte s 1)) ++ bytesOf 1 0 ++
          (((counterGroup s (paramByte s 0)).drop (paramByte s 1)).take 3).flatMap (bytesOf 4)))))

/-- CLEAR_RESUME with 0 makes all six entries not valid, with 1 to 6 the one named; CLEAR_COUNTERS sets every counter of the six
groups and the Collision count to 0. Neither changes anything else. The pointer and bus after the byte are those of the row's
register (the model's choice, log entry 17). -/
def Obligations.ClearCommandsClear : Prop :=
  ∀ s : State, MailboxFree s →
    (paramByte s 0 = 0 →
      exec .clearResume s =
        .next ((answeredState s 0x21 .done s.console.response).setResume
          (Resume.withEntries (Vector.replicate 6 ResumeEntry.invalid)))) ∧
    (1 ≤ paramByte s 0 → paramByte s 0 ≤ 6 →
      exec .clearResume s =
        .next ((answeredState s 0x21 .done s.console.response).setResume
          (s.resume.write (paramByte s 0) ResumeEntry.invalid))) ∧
    exec .clearCounters s =
      .next
        { answeredState s 0x25 .done s.console.response with
          asm := { s.asm with counters := PlacementCounters.zero }
          planner := { s.planner with counters := PlannerCounters.zero }
          health := { s.health with counters := HealthCounters.zero }
          link := { s.link with counters := LinkCounters.zero }
          feeder := { s.feeder with counters := OutputCounters.zero }
          play := { s.play with counters := PlayCounters.zero }
          console :=
            { completed s 0x25 .done s.console.response with
              mailbox := { (completed s 0x25 .done s.console.response).mailbox with collisionCount := 0 } } }

/-- A code that names no command is completed with UNKNOWN, and a command whose test fails with that test's result; neither changes
anything beyond the mailbox and COMMAND_DONE. The pointer and bus after the byte are those of the row's register (the model's choice,
log entry 17). -/
def Obligations.RefusedCommandsChangeNothing : Prop :=
  ∀ s : State, MailboxFree s →
    (∀ code : Byte, code.toNat ∉ commandCodes →
      exec (.unknownCommand code) s = .next (answeredState s code .unknown s.console.response)) ∧
    (paramByte s 0 < 1 ∨ 6 < paramByte s 0 ∨ 2 < paramByte s 1 →
      exec .select s = .next (answeredState s 0x01 .refusedRange s.console.response)) ∧
    (s.play.state = .empty ∨ s.play.state = .loading ∨ s.play.state = .suspended →
      exec .play s = .next (answeredState s 0x02 .refusedNoDisc s.console.response)) ∧
    (s.play.state ≠ .empty → s.play.state ≠ .loading → s.play.state ≠ .suspended →
      (s.play.supplyWarned = true → exec .play s = .next (answeredState s 0x02 .refusedSupply s.console.response)) ∧
      (s.play.supplyWarned = false → s.play.disc.extent ≤ playBn s ∨ 588 ≤ playFrame s →
        exec .play s = .next (answeredState s 0x02 .refusedRange s.console.response))) ∧
    (s.play.state ≠ .playing → s.play.state ≠ .cueing →
      exec .pause s = .next (answeredState s 0x03 .refusedState s.console.response)) ∧
    (s.play.supplyWarned = true →
      exec .continuePlay s = .next (answeredState s 0x04 .refusedSupply s.console.response)) ∧
    (s.play.supplyWarned = false → s.play.state ≠ .paused →
      exec .continuePlay s = .next (answeredState s 0x04 .refusedState s.console.response)) ∧
    (s.play.state = .empty → exec .stop s = .next (answeredState s 0x05 .refusedState s.console.response)) ∧
    (paramInRange (paramByte s 0) (setValue s) = false →
      exec .set s = .next (answeredState s 0x10 .refusedRange s.console.response)) ∧
    (paramInRange (paramByte s 0) (setValue s) = true → 18 ≤ paramByte s 0 → paramByte s 0 ≤ 20 →
      s.play.state ≠ .empty → s.play.state ≠ .ready →
      exec .set s = .next (answeredState s 0x10 .refusedState s.console.response)) ∧
    (paramByte s 0 = 0 →
      exec .get s = .next (answeredState s 0x11 .refusedRange s.console.response) ∧
      exec .readResume s = .next (answeredState s 0x20 .refusedRange s.console.response)) ∧
    (24 < paramByte s 0 → exec .get s = .next (answeredState s 0x11 .refusedRange s.console.response)) ∧
    (6 < paramByte s 0 →
      exec .readResume s = .next (answeredState s 0x20 .refusedRange s.console.response) ∧
      exec .clearResume s = .next (answeredState s 0x21 .refusedRange s.console.response)) ∧
    (383 < slotIndex s → exec .readSlot s = .next (answeredState s 0x22 .refusedRange s.console.response)) ∧
    (15 < paramByte s 0 → exec .readRepair s = .next (answeredState s 0x23 .refusedRange s.console.response)) ∧
    ((counterGroup s (paramByte s 0)).length ≤ paramByte s 1 →
      exec .readCounters s = .next (answeredState s 0x24 .refusedRange s.console.response))

/-- A PARAM write while not BUSY replaces that byte and starts nothing; a write that met BUSY sets COLLISION and counts. That
the collision row is unconditional, and that a row names its register, are the model's choices (log entries 16 and 17). -/
def Obligations.MailboxWrites : Prop :=
  ∀ s : State, s.console.bus ≠ .refused →
    (∀ (i : Fin 6) (v : Byte), s.console.mailbox.busy = false →
      exec (.paramWrite i v) s =
        .next (s.setConsole
          { s.console with
            bus := .writing, latch := none, pointer := (0x27 + i.val + 1) % 64
            mailbox := { s.console.mailbox with param := s.console.mailbox.param.set i v } })) ∧
    (∀ (register : Fin 7) (v : Byte),
      exec (.mailboxCollision register v) s =
        .next (s.setConsole
          { s.console with
            bus := .writing, latch := none, pointer := (0x27 + register.val + 1) % 64
            mailbox :=
              { s.console.mailbox with
                collision := true, collisionCount := min 255 (s.console.mailbox.collisionCount + 1) } }))

/-! ### The register window -/

/-- The register pointer: taken from the first byte of a write transaction to the part's address, kept where that byte is
above 0x3F, and past the end it goes to 0; a read-only register ignores a byte and the pointer advances; the end of a
transaction releases the latch. That a transaction addressed elsewhere ends the one under way, and that a row names its
register, are the model's choices (log entry 17). -/
def Obligations.RegisterPointer : Prop :=
  ∀ s : State,
    (∀ pointer : Byte, pointer.toNat ≤ 0x3F →
      exec (.registerPointer s.console.address pointer) s =
        .next (s.setConsole { s.console with bus := .writing, latch := none, pointer := pointer.toNat })) ∧
    (∀ pointer : Byte, 0x3F < pointer.toNat →
      exec (.registerPointer s.console.address pointer) s =
        .next (s.setConsole { s.console with bus := .refused, latch := none })) ∧
    (∀ (address : BitVec 7) (pointer : Byte), address ≠ s.console.address →
      exec (.registerPointer address pointer) s =
        .next (s.setConsole { s.console with bus := .idle, latch := none })) ∧
    (∀ (register : BitVec 6) (v : Byte), register.toNat ∉ writableRegisters → s.console.bus ≠ .refused →
      exec (.readOnlyWrite register v) s =
        .next (s.setConsole
          { s.console with bus := .writing, latch := none, pointer := (register.toNat + 1) % 64 })) ∧
    exec .transactionEnd s = .next (s.setConsole { s.console with bus := .idle, latch := none })

/-- A read that begins at the first byte of a multi-byte field sends the field as it stood at that byte; the latch is released
after the field's last byte. While the latch holds the field, the bytes that follow in the same read come from it, whatever the field
has become; a read that begins in the middle of a field sends live bytes and latches nothing; a read that comes to the first byte of
another field latches that one. A byte of its own is sent live. A read of several bytes is the reads of its parts one after another.
The count of bytes in one command and the record of the bytes sent are the model's (log entry 18). -/
def Obligations.SnapshotRead : Prop :=
  (∀ s : State, s.console.response.length = 16 →
    (∀ base width n, fieldAt base = some (base, width) → s.console.pointer = base → 1 ≤ n → n ≤ width →
      (s.console.bus ≠ .reading →
        exec (.snapshotLatch n) s =
          .next (s.setConsole
            { s.console with
              bus := .reading, pointer := (base + n) % 64, sent := (liveField s base width).take n
              latch := if n = width then none else some ⟨base, liveField s base width⟩ })) ∧
      (s.console.bus = .reading →
        exec (.snapshotLatch n) s =
          .next (s.setConsole
            { s.console with
              pointer := (base + n) % 64, sent := s.console.sent ++ (liveField s base width).take n
              latch := if n = width then none else some ⟨base, liveField s base width⟩ }))) ∧
    (∀ base width n i, fieldAt base = some (base, width) → s.console.pointer = base + i → 0 < i → 1 ≤ n → i + n ≤ width →
      (∀ held : List Byte, s.console.bus = .reading → s.console.latch = some ⟨base, held⟩ → held.length = width →
        exec (.snapshotLatch n) s =
          .next (s.setConsole
            { s.console with
              pointer := (base + i + n) % 64, sent := s.console.sent ++ (held.drop i).take n
              latch := if i + n = width then none else some ⟨base, held⟩ })) ∧
      (s.console.bus ≠ .reading →
        exec (.snapshotLatch n) s =
          .next (s.setConsole
            { s.console with
              bus := .reading, pointer := (base + i + n) % 64, sent := ((liveField s base width).drop i).take n
              latch := none }))) ∧
    (s.console.pointer < 64 → fieldAt s.console.pointer = none →
      (s.console.bus ≠ .reading →
        exec (.snapshotLatch 1) s =
          .next (s.setConsole
            { s.console with
              bus := .reading, pointer := (s.console.pointer + 1) % 64, sent := [windowByte s s.console.pointer]
              latch := none })) ∧
      (s.console.bus = .reading →
        exec (.snapshotLatch 1) s =
          .next (s.setConsole
            { s.console with
              pointer := (s.console.pointer + 1) % 64
              sent := s.console.sent ++ [windowByte s s.console.pointer] })))) ∧
  ∀ (n m : Nat) (s t : State), exec (.snapshotLatch n) s = .next t →
    exec (.snapshotLatch (n + m)) s = exec (.snapshotLatch m) t

/-- ACK with a code 1 to 16 clears that event's pending flag and count and keeps its detail; 0xFF does so for all sixteen; every
other value is ignored. The ACK register reads as 0. The pointer and bus after the byte are those of the row's register (the model's
choice, log entry 17). -/
def Obligations.AckAcknowledges : Prop :=
  ∀ (v : Byte) (s : State), s.console.bus ≠ .refused →
    Completes (.ack v) s (fun t =>
      (∀ e : Event,
        t.attn.record e.index =
          (if v = 0xFF ∨ v.toNat = e.index.val + 1 then
            { s.attn.record e.index with pending := false, count := 0 }
          else s.attn.record e.index)) ∧
      t.attn.threshold = s.attn.threshold ∧ t.attn.index = s.attn.index ∧ windowByte t 0x20 = 0 ∧
      t = (s.setConsole { s.console with bus := .writing, latch := none, pointer := 0x21 }).setAttn t.attn)

/-- The other writes of the Attention Controller: the threshold and the event index, and the enable and level of the event the
index names; a value outside the range is ignored. The pointer and bus after the byte are those of the row's register (the model's
choice, log entry 17). -/
def Obligations.AttentionRegisters : Prop :=
  ∀ (v : Byte) (s : State), s.console.bus ≠ .refused →
    (exec (.threshold v) s =
      .next ((s.setConsole { s.console with bus := .writing, latch := none, pointer := 0x22 }).setAttn
        { s.attn with threshold := if v.toNat ≤ 3 then v.toNat else s.attn.threshold })) ∧
    (exec (.eventIndex v) s =
      .next ((s.setConsole { s.console with bus := .writing, latch := none, pointer := 0x23 }).setAttn
        { s.attn with index := if 1 ≤ v.toNat ∧ v.toNat ≤ 16 then v.toNat else s.attn.index })) ∧
    Completes (.eventEnable v) s (fun t =>
      (∀ e : Event,
        t.attn.record e.index =
          (if s.attn.index = e.index.val + 1 ∧ v.toNat ≤ 1 then
            { s.attn.record e.index with enable := decide (v.toNat = 1) }
          else s.attn.record e.index)) ∧
      t.attn.threshold = s.attn.threshold ∧ t.attn.index = s.attn.index ∧
      t = (s.setConsole { s.console with bus := .writing, latch := none, pointer := 0x24 }).setAttn t.attn) ∧
    Completes (.eventLevel v) s (fun t =>
      (∀ e : Event,
        t.attn.record e.index =
          (if s.attn.index = e.index.val + 1 ∧ v.toNat ≤ 3 then { s.attn.record e.index with level := v.toNat }
          else s.attn.record e.index)) ∧
      t.attn.threshold = s.attn.threshold ∧ t.attn.index = s.attn.index ∧
      t = (s.setConsole { s.console with bus := .writing, latch := none, pointer := 0x25 }).setAttn t.attn)

/-! ### The Transmit Queue and the summary -/

/-- What one request does to the Transmit Queue: a SEEK, PACE or LOAD replaces the message of its class in its place or goes to the
tail; a CEASE replaces the one at the head or goes to the head; a HOLD or GO cancels the opposite one, is left where it stands, or goes
to the tail. -/
def Obligations.QueueRequests : Prop :=
  (∀ (m : TxMsg) (q : List TxMsg), m.cls = .seek ∨ m.cls = .pace ∨ m.cls = .load →
    (m.cls ∉ q.map TxMsg.cls → requestQueue m q = q ++ [m]) ∧
    (∀ a x b, q = a ++ x :: b → x.cls = m.cls → m.cls ∉ a.map TxMsg.cls → requestQueue m q = a ++ m :: b)) ∧
  (∀ (n : Nat) (q : List TxMsg), (q.map TxMsg.cls).Nodup →
    (TxClass.cease ∉ q.map TxMsg.cls → requestQueue (.cease n) q = .cease n :: q) ∧
    (∀ k rest, q = .cease k :: rest → requestQueue (.cease n) q = .cease n :: rest)) ∧
  (∀ (m o : TxMsg) (q : List TxMsg), (m = .hold ∧ o = .go) ∨ (m = .go ∧ o = .hold) → (q.map TxMsg.cls).Nodup →
    (TxClass.flow ∉ q.map TxMsg.cls → requestQueue m q = q ++ [m]) ∧
    (m ∈ q → requestQueue m q = q) ∧
    (∀ a b, q = a ++ o :: b → requestQueue m q = a ++ b))

/-- A withdrawal removes the queued SEEK of its stream number, the messages behind it moving up; with no such SEEK queued it changes
nothing, and it counts nothing. -/
def Obligations.SeekWithdrawn : Prop :=
  ∀ (n : Nat) (s : State),
    ((∀ b, TxMsg.seek n b ∉ s.link.queue) → withdrawSeek n s = s) ∧
    (∀ front x back, s.link.queue = front ++ .seek n x :: back →
      (∀ b, TxMsg.seek n b ∉ front) → (∀ b, TxMsg.seek n b ∉ back) →
      withdrawSeek n s = s.setLink { s.link with queue := front ++ back })

/-- The summary is 0 when no event is pending and enabled; otherwise it is the code of one that is, of the highest level, the
lowest code among several, and so at most 16. ATTN is asserted exactly when a pending, enabled event has a level at or above the threshold. -/
def Obligations.SummaryAndAttn : Prop :=
  ∀ a : Attn,
    a.summary ≤ 16 ∧
    (a.summary = 0 ↔ ∀ i, ((a.record i).pending && (a.record i).enable) = false) ∧
    (∀ i : Fin 16, a.summary = i.val + 1 →
      ((a.record i).pending && (a.record i).enable) = true ∧
      ∀ j : Fin 16, ((a.record j).pending && (a.record j).enable) = true →
        (a.record j).level < (a.record i).level ∨ ((a.record j).level = (a.record i).level ∧ i ≤ j)) ∧
    (a.asserted = true ↔
      ∃ i, ((a.record i).pending && (a.record i).enable) = true ∧ a.threshold ≤ (a.record i).level)

/-! ### Invariants of every step -/

/-- Every step keeps the Transmit Queue at one message of a class at most, and empty while the transmitter is IDLE. -/
def Obligations.LinkKept : Prop := ∀ s t : State, s.link.Sound → step s = .next t → t.link.Sound

/-- Every step keeps the health state and the pace level those the skip score stands for, and the scores in their ranges. -/
def Obligations.HealthKept : Prop := ∀ s t : State, s.health.Sound → step s = .next t → t.health.Sound

/-- Every step keeps the store in its canonical form, and the table check the CRC of the six resume entries. It keeps the window
from the cursor's block to the disc's extent with nothing held outside it, pass counts at most 15 and no undeclared slot in row 5 of
R6, and, the parameters in range, the Intake at two entries of 588 present frames. -/
def Obligations.StoreAndResumeKept : Prop :=
  ∀ s t : State, step s = .next t →
    (s.store.wf = true → t.store.wf = true) ∧ (s.resume.Sound → t.resume.Sound) ∧ (StoreSound s → StoreSound t) ∧
      (s.console.params.InRange → IntakeSound s → IntakeSound t)

/-- Every step keeps the Repair List the runs of the store, at most 16, rising and not touching, with at most one ACTIVE entry and none
while the stream is NONE or FRONTIER; the frontier record at the fill head; the planner active where it may read, and with no stream
elsewhere; and the Assembler's phase, stream number, expected BN and offset those of the stream record, which has the offset 0 of its
opening while SEEKING. It keeps the hold causes the two conditions of R41. -/
def Obligations.PlannerKept : Prop :=
  ∀ s t : State, step s = .next t →
    (s.store.wf = true → PlannerSound s → PlannerSound t) ∧ (FlowSound s → FlowSound t)

/-- Every step keeps G and the concealment run in agreement with the feeder state. G 0 in SILENT after a stop request in STARVED, and
no run after the clock's return in STOPPING, are read from the rules by inference (log entry 22). -/
def Obligations.FeederKept : Prop := ∀ s t : State, s.feeder.Sound → step s = .next t → t.feeder.Sound

/-- Every step keeps the suspend-cause set not empty exactly in COASTING and SUSPENDED. -/
def Obligations.PlayKept : Prop := ∀ s t : State, s.play.Sound → step s = .next t → t.play.Sound

/-- Every step keeps no command in progress and every parameter within its range, the canceller counts below 3, the Supply Watch's
counts in range, and the Play Controller's supply warning the Supply Watch's. No command in progress between two steps is the model's
choice (log entry 16), and a canceller count of 0 after a latch is read from the rules by inference (log entry 32). -/
def Obligations.ConsoleAndSensesKept : Prop :=
  ∀ s t : State, step s = .next t →
    (s.console.Sound → t.console.Sound) ∧ (s.console.params.InRange → t.console.params.InRange) ∧
      (s.sense.Sound → t.sense.Sound) ∧ (SupplySound s → SupplySound t)
end

