-- ==== Sys2Proof/Laws/State.lean ====
section
/-! SUPPORT. What each field of State reads after each update of it. -/
namespace Sys2Proof.Machine.State

@[simp] theorem store_setStore (s : State) (x : Store) : (s.setStore x).store = x := rfl
@[simp] theorem asm_setStore (s : State) (x : Store) : (s.setStore x).asm = s.asm := rfl
@[simp] theorem planner_setStore (s : State) (x : Store) : (s.setStore x).planner = s.planner := rfl
@[simp] theorem health_setStore (s : State) (x : Store) : (s.setStore x).health = s.health := rfl
@[simp] theorem link_setStore (s : State) (x : Store) : (s.setStore x).link = s.link := rfl
@[simp] theorem feeder_setStore (s : State) (x : Store) : (s.setStore x).feeder = s.feeder := rfl
@[simp] theorem play_setStore (s : State) (x : Store) : (s.setStore x).play = s.play := rfl
@[simp] theorem sense_setStore (s : State) (x : Store) : (s.setStore x).sense = s.sense := rfl
@[simp] theorem supply_setStore (s : State) (x : Store) : (s.setStore x).supply = s.supply := rfl
@[simp] theorem resume_setStore (s : State) (x : Store) : (s.setStore x).resume = s.resume := rfl
@[simp] theorem console_setStore (s : State) (x : Store) : (s.setStore x).console = s.console := rfl
@[simp] theorem attn_setStore (s : State) (x : Store) : (s.setStore x).attn = s.attn := rfl
@[simp] theorem notices_setStore (s : State) (x : Store) : (s.setStore x).notices = s.notices := rfl
@[simp] theorem pending_setStore (s : State) (x : Store) : (s.setStore x).pending = s.pending := rfl

@[simp] theorem store_setAsm (s : State) (x : Assembler) : (s.setAsm x).store = s.store := rfl
@[simp] theorem asm_setAsm (s : State) (x : Assembler) : (s.setAsm x).asm = x := rfl
@[simp] theorem planner_setAsm (s : State) (x : Assembler) : (s.setAsm x).planner = s.planner := rfl
@[simp] theorem health_setAsm (s : State) (x : Assembler) : (s.setAsm x).health = s.health := rfl
@[simp] theorem link_setAsm (s : State) (x : Assembler) : (s.setAsm x).link = s.link := rfl
@[simp] theorem feeder_setAsm (s : State) (x : Assembler) : (s.setAsm x).feeder = s.feeder := rfl
@[simp] theorem play_setAsm (s : State) (x : Assembler) : (s.setAsm x).play = s.play := rfl
@[simp] theorem sense_setAsm (s : State) (x : Assembler) : (s.setAsm x).sense = s.sense := rfl
@[simp] theorem supply_setAsm (s : State) (x : Assembler) : (s.setAsm x).supply = s.supply := rfl
@[simp] theorem resume_setAsm (s : State) (x : Assembler) : (s.setAsm x).resume = s.resume := rfl
@[simp] theorem console_setAsm (s : State) (x : Assembler) : (s.setAsm x).console = s.console := rfl
@[simp] theorem attn_setAsm (s : State) (x : Assembler) : (s.setAsm x).attn = s.attn := rfl
@[simp] theorem notices_setAsm (s : State) (x : Assembler) : (s.setAsm x).notices = s.notices := rfl
@[simp] theorem pending_setAsm (s : State) (x : Assembler) : (s.setAsm x).pending = s.pending := rfl

@[simp] theorem store_setPlanner (s : State) (x : Planner) : (s.setPlanner x).store = s.store := rfl
@[simp] theorem asm_setPlanner (s : State) (x : Planner) : (s.setPlanner x).asm = s.asm := rfl
@[simp] theorem planner_setPlanner (s : State) (x : Planner) : (s.setPlanner x).planner = x := rfl
@[simp] theorem health_setPlanner (s : State) (x : Planner) : (s.setPlanner x).health = s.health := rfl
@[simp] theorem link_setPlanner (s : State) (x : Planner) : (s.setPlanner x).link = s.link := rfl
@[simp] theorem feeder_setPlanner (s : State) (x : Planner) : (s.setPlanner x).feeder = s.feeder := rfl
@[simp] theorem play_setPlanner (s : State) (x : Planner) : (s.setPlanner x).play = s.play := rfl
@[simp] theorem sense_setPlanner (s : State) (x : Planner) : (s.setPlanner x).sense = s.sense := rfl
@[simp] theorem supply_setPlanner (s : State) (x : Planner) : (s.setPlanner x).supply = s.supply := rfl
@[simp] theorem resume_setPlanner (s : State) (x : Planner) : (s.setPlanner x).resume = s.resume := rfl
@[simp] theorem console_setPlanner (s : State) (x : Planner) : (s.setPlanner x).console = s.console := rfl
@[simp] theorem attn_setPlanner (s : State) (x : Planner) : (s.setPlanner x).attn = s.attn := rfl
@[simp] theorem notices_setPlanner (s : State) (x : Planner) : (s.setPlanner x).notices = s.notices := rfl
@[simp] theorem pending_setPlanner (s : State) (x : Planner) : (s.setPlanner x).pending = s.pending := rfl

@[simp] theorem store_setHealth (s : State) (x : Health) : (s.setHealth x).store = s.store := rfl
@[simp] theorem asm_setHealth (s : State) (x : Health) : (s.setHealth x).asm = s.asm := rfl
@[simp] theorem planner_setHealth (s : State) (x : Health) : (s.setHealth x).planner = s.planner := rfl
@[simp] theorem health_setHealth (s : State) (x : Health) : (s.setHealth x).health = x := rfl
@[simp] theorem link_setHealth (s : State) (x : Health) : (s.setHealth x).link = s.link := rfl
@[simp] theorem feeder_setHealth (s : State) (x : Health) : (s.setHealth x).feeder = s.feeder := rfl
@[simp] theorem play_setHealth (s : State) (x : Health) : (s.setHealth x).play = s.play := rfl
@[simp] theorem sense_setHealth (s : State) (x : Health) : (s.setHealth x).sense = s.sense := rfl
@[simp] theorem supply_setHealth (s : State) (x : Health) : (s.setHealth x).supply = s.supply := rfl
@[simp] theorem resume_setHealth (s : State) (x : Health) : (s.setHealth x).resume = s.resume := rfl
@[simp] theorem console_setHealth (s : State) (x : Health) : (s.setHealth x).console = s.console := rfl
@[simp] theorem attn_setHealth (s : State) (x : Health) : (s.setHealth x).attn = s.attn := rfl
@[simp] theorem notices_setHealth (s : State) (x : Health) : (s.setHealth x).notices = s.notices := rfl
@[simp] theorem pending_setHealth (s : State) (x : Health) : (s.setHealth x).pending = s.pending := rfl

@[simp] theorem store_setLink (s : State) (x : Link) : (s.setLink x).store = s.store := rfl
@[simp] theorem asm_setLink (s : State) (x : Link) : (s.setLink x).asm = s.asm := rfl
@[simp] theorem planner_setLink (s : State) (x : Link) : (s.setLink x).planner = s.planner := rfl
@[simp] theorem health_setLink (s : State) (x : Link) : (s.setLink x).health = s.health := rfl
@[simp] theorem link_setLink (s : State) (x : Link) : (s.setLink x).link = x := rfl
@[simp] theorem feeder_setLink (s : State) (x : Link) : (s.setLink x).feeder = s.feeder := rfl
@[simp] theorem play_setLink (s : State) (x : Link) : (s.setLink x).play = s.play := rfl
@[simp] theorem sense_setLink (s : State) (x : Link) : (s.setLink x).sense = s.sense := rfl
@[simp] theorem supply_setLink (s : State) (x : Link) : (s.setLink x).supply = s.supply := rfl
@[simp] theorem resume_setLink (s : State) (x : Link) : (s.setLink x).resume = s.resume := rfl
@[simp] theorem console_setLink (s : State) (x : Link) : (s.setLink x).console = s.console := rfl
@[simp] theorem attn_setLink (s : State) (x : Link) : (s.setLink x).attn = s.attn := rfl
@[simp] theorem notices_setLink (s : State) (x : Link) : (s.setLink x).notices = s.notices := rfl
@[simp] theorem pending_setLink (s : State) (x : Link) : (s.setLink x).pending = s.pending := rfl

@[simp] theorem store_setFeeder (s : State) (x : Feeder) : (s.setFeeder x).store = s.store := rfl
@[simp] theorem asm_setFeeder (s : State) (x : Feeder) : (s.setFeeder x).asm = s.asm := rfl
@[simp] theorem planner_setFeeder (s : State) (x : Feeder) : (s.setFeeder x).planner = s.planner := rfl
@[simp] theorem health_setFeeder (s : State) (x : Feeder) : (s.setFeeder x).health = s.health := rfl
@[simp] theorem link_setFeeder (s : State) (x : Feeder) : (s.setFeeder x).link = s.link := rfl
@[simp] theorem feeder_setFeeder (s : State) (x : Feeder) : (s.setFeeder x).feeder = x := rfl
@[simp] theorem play_setFeeder (s : State) (x : Feeder) : (s.setFeeder x).play = s.play := rfl
@[simp] theorem sense_setFeeder (s : State) (x : Feeder) : (s.setFeeder x).sense = s.sense := rfl
@[simp] theorem supply_setFeeder (s : State) (x : Feeder) : (s.setFeeder x).supply = s.supply := rfl
@[simp] theorem resume_setFeeder (s : State) (x : Feeder) : (s.setFeeder x).resume = s.resume := rfl
@[simp] theorem console_setFeeder (s : State) (x : Feeder) : (s.setFeeder x).console = s.console := rfl
@[simp] theorem attn_setFeeder (s : State) (x : Feeder) : (s.setFeeder x).attn = s.attn := rfl
@[simp] theorem notices_setFeeder (s : State) (x : Feeder) : (s.setFeeder x).notices = s.notices := rfl
@[simp] theorem pending_setFeeder (s : State) (x : Feeder) : (s.setFeeder x).pending = s.pending := rfl

@[simp] theorem store_setPlay (s : State) (x : Play) : (s.setPlay x).store = s.store := rfl
@[simp] theorem asm_setPlay (s : State) (x : Play) : (s.setPlay x).asm = s.asm := rfl
@[simp] theorem planner_setPlay (s : State) (x : Play) : (s.setPlay x).planner = s.planner := rfl
@[simp] theorem health_setPlay (s : State) (x : Play) : (s.setPlay x).health = s.health := rfl
@[simp] theorem link_setPlay (s : State) (x : Play) : (s.setPlay x).link = s.link := rfl
@[simp] theorem feeder_setPlay (s : State) (x : Play) : (s.setPlay x).feeder = s.feeder := rfl
@[simp] theorem play_setPlay (s : State) (x : Play) : (s.setPlay x).play = x := rfl
@[simp] theorem sense_setPlay (s : State) (x : Play) : (s.setPlay x).sense = s.sense := rfl
@[simp] theorem supply_setPlay (s : State) (x : Play) : (s.setPlay x).supply = s.supply := rfl
@[simp] theorem resume_setPlay (s : State) (x : Play) : (s.setPlay x).resume = s.resume := rfl
@[simp] theorem console_setPlay (s : State) (x : Play) : (s.setPlay x).console = s.console := rfl
@[simp] theorem attn_setPlay (s : State) (x : Play) : (s.setPlay x).attn = s.attn := rfl
@[simp] theorem notices_setPlay (s : State) (x : Play) : (s.setPlay x).notices = s.notices := rfl
@[simp] theorem pending_setPlay (s : State) (x : Play) : (s.setPlay x).pending = s.pending := rfl

@[simp] theorem store_setSense (s : State) (x : Sense) : (s.setSense x).store = s.store := rfl
@[simp] theorem asm_setSense (s : State) (x : Sense) : (s.setSense x).asm = s.asm := rfl
@[simp] theorem planner_setSense (s : State) (x : Sense) : (s.setSense x).planner = s.planner := rfl
@[simp] theorem health_setSense (s : State) (x : Sense) : (s.setSense x).health = s.health := rfl
@[simp] theorem link_setSense (s : State) (x : Sense) : (s.setSense x).link = s.link := rfl
@[simp] theorem feeder_setSense (s : State) (x : Sense) : (s.setSense x).feeder = s.feeder := rfl
@[simp] theorem play_setSense (s : State) (x : Sense) : (s.setSense x).play = s.play := rfl
@[simp] theorem sense_setSense (s : State) (x : Sense) : (s.setSense x).sense = x := rfl
@[simp] theorem supply_setSense (s : State) (x : Sense) : (s.setSense x).supply = s.supply := rfl
@[simp] theorem resume_setSense (s : State) (x : Sense) : (s.setSense x).resume = s.resume := rfl
@[simp] theorem console_setSense (s : State) (x : Sense) : (s.setSense x).console = s.console := rfl
@[simp] theorem attn_setSense (s : State) (x : Sense) : (s.setSense x).attn = s.attn := rfl
@[simp] theorem notices_setSense (s : State) (x : Sense) : (s.setSense x).notices = s.notices := rfl
@[simp] theorem pending_setSense (s : State) (x : Sense) : (s.setSense x).pending = s.pending := rfl

@[simp] theorem store_setSupply (s : State) (x : Supply) : (s.setSupply x).store = s.store := rfl
@[simp] theorem asm_setSupply (s : State) (x : Supply) : (s.setSupply x).asm = s.asm := rfl
@[simp] theorem planner_setSupply (s : State) (x : Supply) : (s.setSupply x).planner = s.planner := rfl
@[simp] theorem health_setSupply (s : State) (x : Supply) : (s.setSupply x).health = s.health := rfl
@[simp] theorem link_setSupply (s : State) (x : Supply) : (s.setSupply x).link = s.link := rfl
@[simp] theorem feeder_setSupply (s : State) (x : Supply) : (s.setSupply x).feeder = s.feeder := rfl
@[simp] theorem play_setSupply (s : State) (x : Supply) : (s.setSupply x).play = s.play := rfl
@[simp] theorem sense_setSupply (s : State) (x : Supply) : (s.setSupply x).sense = s.sense := rfl
@[simp] theorem supply_setSupply (s : State) (x : Supply) : (s.setSupply x).supply = x := rfl
@[simp] theorem resume_setSupply (s : State) (x : Supply) : (s.setSupply x).resume = s.resume := rfl
@[simp] theorem console_setSupply (s : State) (x : Supply) : (s.setSupply x).console = s.console := rfl
@[simp] theorem attn_setSupply (s : State) (x : Supply) : (s.setSupply x).attn = s.attn := rfl
@[simp] theorem notices_setSupply (s : State) (x : Supply) : (s.setSupply x).notices = s.notices := rfl
@[simp] theorem pending_setSupply (s : State) (x : Supply) : (s.setSupply x).pending = s.pending := rfl

@[simp] theorem store_setResume (s : State) (x : Resume) : (s.setResume x).store = s.store := rfl
@[simp] theorem asm_setResume (s : State) (x : Resume) : (s.setResume x).asm = s.asm := rfl
@[simp] theorem planner_setResume (s : State) (x : Resume) : (s.setResume x).planner = s.planner := rfl
@[simp] theorem health_setResume (s : State) (x : Resume) : (s.setResume x).health = s.health := rfl
@[simp] theorem link_setResume (s : State) (x : Resume) : (s.setResume x).link = s.link := rfl
@[simp] theorem feeder_setResume (s : State) (x : Resume) : (s.setResume x).feeder = s.feeder := rfl
@[simp] theorem play_setResume (s : State) (x : Resume) : (s.setResume x).play = s.play := rfl
@[simp] theorem sense_setResume (s : State) (x : Resume) : (s.setResume x).sense = s.sense := rfl
@[simp] theorem supply_setResume (s : State) (x : Resume) : (s.setResume x).supply = s.supply := rfl
@[simp] theorem resume_setResume (s : State) (x : Resume) : (s.setResume x).resume = x := rfl
@[simp] theorem console_setResume (s : State) (x : Resume) : (s.setResume x).console = s.console := rfl
@[simp] theorem attn_setResume (s : State) (x : Resume) : (s.setResume x).attn = s.attn := rfl
@[simp] theorem notices_setResume (s : State) (x : Resume) : (s.setResume x).notices = s.notices := rfl
@[simp] theorem pending_setResume (s : State) (x : Resume) : (s.setResume x).pending = s.pending := rfl

@[simp] theorem store_setConsole (s : State) (x : Console) : (s.setConsole x).store = s.store := rfl
@[simp] theorem asm_setConsole (s : State) (x : Console) : (s.setConsole x).asm = s.asm := rfl
@[simp] theorem planner_setConsole (s : State) (x : Console) : (s.setConsole x).planner = s.planner := rfl
@[simp] theorem health_setConsole (s : State) (x : Console) : (s.setConsole x).health = s.health := rfl
@[simp] theorem link_setConsole (s : State) (x : Console) : (s.setConsole x).link = s.link := rfl
@[simp] theorem feeder_setConsole (s : State) (x : Console) : (s.setConsole x).feeder = s.feeder := rfl
@[simp] theorem play_setConsole (s : State) (x : Console) : (s.setConsole x).play = s.play := rfl
@[simp] theorem sense_setConsole (s : State) (x : Console) : (s.setConsole x).sense = s.sense := rfl
@[simp] theorem supply_setConsole (s : State) (x : Console) : (s.setConsole x).supply = s.supply := rfl
@[simp] theorem resume_setConsole (s : State) (x : Console) : (s.setConsole x).resume = s.resume := rfl
@[simp] theorem console_setConsole (s : State) (x : Console) : (s.setConsole x).console = x := rfl
@[simp] theorem attn_setConsole (s : State) (x : Console) : (s.setConsole x).attn = s.attn := rfl
@[simp] theorem notices_setConsole (s : State) (x : Console) : (s.setConsole x).notices = s.notices := rfl
@[simp] theorem pending_setConsole (s : State) (x : Console) : (s.setConsole x).pending = s.pending := rfl

@[simp] theorem store_setAttn (s : State) (x : Attn) : (s.setAttn x).store = s.store := rfl
@[simp] theorem asm_setAttn (s : State) (x : Attn) : (s.setAttn x).asm = s.asm := rfl
@[simp] theorem planner_setAttn (s : State) (x : Attn) : (s.setAttn x).planner = s.planner := rfl
@[simp] theorem health_setAttn (s : State) (x : Attn) : (s.setAttn x).health = s.health := rfl
@[simp] theorem link_setAttn (s : State) (x : Attn) : (s.setAttn x).link = s.link := rfl
@[simp] theorem feeder_setAttn (s : State) (x : Attn) : (s.setAttn x).feeder = s.feeder := rfl
@[simp] theorem play_setAttn (s : State) (x : Attn) : (s.setAttn x).play = s.play := rfl
@[simp] theorem sense_setAttn (s : State) (x : Attn) : (s.setAttn x).sense = s.sense := rfl
@[simp] theorem supply_setAttn (s : State) (x : Attn) : (s.setAttn x).supply = s.supply := rfl
@[simp] theorem resume_setAttn (s : State) (x : Attn) : (s.setAttn x).resume = s.resume := rfl
@[simp] theorem console_setAttn (s : State) (x : Attn) : (s.setAttn x).console = s.console := rfl
@[simp] theorem attn_setAttn (s : State) (x : Attn) : (s.setAttn x).attn = x := rfl
@[simp] theorem notices_setAttn (s : State) (x : Attn) : (s.setAttn x).notices = s.notices := rfl
@[simp] theorem pending_setAttn (s : State) (x : Attn) : (s.setAttn x).pending = s.pending := rfl

@[simp] theorem store_setNotices (s : State) (x : List Bool) : (s.setNotices x).store = s.store := rfl
@[simp] theorem asm_setNotices (s : State) (x : List Bool) : (s.setNotices x).asm = s.asm := rfl
@[simp] theorem planner_setNotices (s : State) (x : List Bool) : (s.setNotices x).planner = s.planner := rfl
@[simp] theorem health_setNotices (s : State) (x : List Bool) : (s.setNotices x).health = s.health := rfl
@[simp] theorem link_setNotices (s : State) (x : List Bool) : (s.setNotices x).link = s.link := rfl
@[simp] theorem feeder_setNotices (s : State) (x : List Bool) : (s.setNotices x).feeder = s.feeder := rfl
@[simp] theorem play_setNotices (s : State) (x : List Bool) : (s.setNotices x).play = s.play := rfl
@[simp] theorem sense_setNotices (s : State) (x : List Bool) : (s.setNotices x).sense = s.sense := rfl
@[simp] theorem supply_setNotices (s : State) (x : List Bool) : (s.setNotices x).supply = s.supply := rfl
@[simp] theorem resume_setNotices (s : State) (x : List Bool) : (s.setNotices x).resume = s.resume := rfl
@[simp] theorem console_setNotices (s : State) (x : List Bool) : (s.setNotices x).console = s.console := rfl
@[simp] theorem attn_setNotices (s : State) (x : List Bool) : (s.setNotices x).attn = s.attn := rfl
@[simp] theorem notices_setNotices (s : State) (x : List Bool) : (s.setNotices x).notices = x := rfl
@[simp] theorem pending_setNotices (s : State) (x : List Bool) : (s.setNotices x).pending = s.pending := rfl
theorem setNotices_self (s : State) : s.setNotices s.notices = s := rfl

@[simp] theorem store_setPending (s : State) (x : List Instr) : (s.setPending x).store = s.store := rfl
@[simp] theorem asm_setPending (s : State) (x : List Instr) : (s.setPending x).asm = s.asm := rfl
@[simp] theorem planner_setPending (s : State) (x : List Instr) : (s.setPending x).planner = s.planner := rfl
@[simp] theorem health_setPending (s : State) (x : List Instr) : (s.setPending x).health = s.health := rfl
@[simp] theorem link_setPending (s : State) (x : List Instr) : (s.setPending x).link = s.link := rfl
@[simp] theorem feeder_setPending (s : State) (x : List Instr) : (s.setPending x).feeder = s.feeder := rfl
@[simp] theorem play_setPending (s : State) (x : List Instr) : (s.setPending x).play = s.play := rfl
@[simp] theorem sense_setPending (s : State) (x : List Instr) : (s.setPending x).sense = s.sense := rfl
@[simp] theorem supply_setPending (s : State) (x : List Instr) : (s.setPending x).supply = s.supply := rfl
@[simp] theorem resume_setPending (s : State) (x : List Instr) : (s.setPending x).resume = s.resume := rfl
@[simp] theorem console_setPending (s : State) (x : List Instr) : (s.setPending x).console = s.console := rfl
@[simp] theorem attn_setPending (s : State) (x : List Instr) : (s.setPending x).attn = s.attn := rfl
@[simp] theorem notices_setPending (s : State) (x : List Instr) : (s.setPending x).notices = s.notices := rfl
@[simp] theorem pending_setPending (s : State) (x : List Instr) : (s.setPending x).pending = x := rfl

end Sys2Proof.Machine.State
end

