-- ==== Sys2Proof/Laws/Sparse.lean ====
section
/-!
SUPPORT. The canonical sparse lists: what is read back after a write, and that writes, filters and maps keep the form. Then
the Slot Store: each of its events keeps `Store.wf`.
-/
namespace Sys2Proof.Machine

section
variable {α : Type} [DecidableEq α] {d : α}

theorem Sparse.wfFrom_cons {low k : Nat} {v : α} {rest : List (Nat × α)} :
    Sparse.wfFrom d low ((k, v) :: rest) = true ↔ low ≤ k ∧ v ≠ d ∧ Sparse.wfFrom d (k + 1) rest = true := by
  simp [Sparse.wfFrom, and_assoc]

/-- The form with a higher bound holds with a lower one. -/
theorem Sparse.wfFrom_mono {l : List (Nat × α)} {low low' : Nat} (h : low' ≤ low) (w : Sparse.wfFrom d low l = true) :
    Sparse.wfFrom d low' l = true := by
  cases l with
  | nil => rfl
  | cons e rest =>
    obtain ⟨k, v⟩ := e
    rw [Sparse.wfFrom_cons] at w ⊢
    exact ⟨Nat.le_trans h w.1, w.2⟩

/-- A key below the bound of a list reads as unlisted. -/
theorem Sparse.get_below {l : List (Nat × α)} {low i : Nat} (w : Sparse.wfFrom d low l = true) (h : i < low) :
    Sparse.get d l i = d := by
  cases l with
  | nil => rfl
  | cons e rest =>
    obtain ⟨k, v⟩ := e
    rw [Sparse.wfFrom_cons] at w
    have hk : i < k := Nat.lt_of_lt_of_le h w.1
    simp [Sparse.get, Nat.ne_of_lt hk, hk]

/-- A write keeps the form. -/
theorem Sparse.wfFrom_put {l : List (Nat × α)} {low i : Nat} {v : α} (w : Sparse.wfFrom d low l = true) (h : low ≤ i) :
    Sparse.wfFrom d low (Sparse.put d l i v) = true := by
  induction l generalizing low with
  | nil =>
    unfold Sparse.put
    split
    · rfl
    · rename_i hv
      simp [Sparse.wfFrom, h, hv]
  | cons e rest ih =>
    obtain ⟨k, x⟩ := e
    have w' := Sparse.wfFrom_cons.mp w
    unfold Sparse.put
    split
    · rename_i hik
      split
      · exact w
      · rename_i hv
        rw [Sparse.wfFrom_cons]
        exact ⟨h, hv, Sparse.wfFrom_cons.mpr ⟨hik, w'.2⟩⟩
    · rename_i hik
      split
      · rename_i he
        split
        · exact Sparse.wfFrom_mono (by omega) w'.2.2
        · rename_i hv
          rw [Sparse.wfFrom_cons, he]
          exact ⟨w'.1, hv, w'.2.2⟩
      · rename_i he
        rw [Sparse.wfFrom_cons]
        exact ⟨w'.1, w'.2.1, ih w'.2.2 (by omega)⟩

theorem Sparse.wf_put {l : List (Nat × α)} {i : Nat} {v : α} (w : Sparse.wf d l = true) :
    Sparse.wf d (Sparse.put d l i v) = true := Sparse.wfFrom_put w (Nat.zero_le i)

/-- A filtered list keeps the form. -/
theorem Sparse.wfFrom_filter {l : List (Nat × α)} {low : Nat} (p : Nat × α → Bool) (w : Sparse.wfFrom d low l = true) :
    Sparse.wfFrom d low (l.filter p) = true := by
  induction l generalizing low with
  | nil => rfl
  | cons e rest ih =>
    obtain ⟨k, x⟩ := e
    rw [Sparse.wfFrom_cons] at w
    rw [List.filter_cons]
    split
    · rw [Sparse.wfFrom_cons]
      exact ⟨w.1, w.2.1, ih w.2.2⟩
    · exact Sparse.wfFrom_mono (by omega) (ih w.2.2)

/-- A map over the values that never gives the unlisted one keeps the form. -/
theorem Sparse.wfFrom_map {l : List (Nat × α)} {low : Nat} (g : α → α) (hg : ∀ x, x ≠ d → g x ≠ d)
    (w : Sparse.wfFrom d low l = true) : Sparse.wfFrom d low (l.map (fun e => (e.1, g e.2))) = true := by
  induction l generalizing low with
  | nil => rfl
  | cons e rest ih =>
    obtain ⟨k, x⟩ := e
    rw [Sparse.wfFrom_cons] at w
    rw [List.map_cons, Sparse.wfFrom_cons]
    exact ⟨w.1, hg x w.2.1, ih w.2.2⟩

/-- What a write lists was listed before, or is what is written. -/
theorem Sparse.mem_put {l : List (Nat × α)} {i : Nat} {v : α} {e : Nat × α} (h : e ∈ Sparse.put d l i v) :
    e ∈ l ∨ e = (i, v) := by
  induction l with
  | nil =>
    unfold Sparse.put at h
    split at h
    · cases h
    · exact Or.inr (List.mem_singleton.mp h)
  | cons x rest ih =>
    obtain ⟨k, y⟩ := x
    unfold Sparse.put at h
    split at h
    · split at h
      · exact Or.inl h
      · rcases List.mem_cons.mp h with h | h
        · exact Or.inr h
        · exact Or.inl h
    · split at h
      · split at h
        · exact Or.inl (List.mem_cons_of_mem _ h)
        · rcases List.mem_cons.mp h with h | h
          · exact Or.inr h
          · exact Or.inl (List.mem_cons_of_mem _ h)
      · rcases List.mem_cons.mp h with h | h
        · exact Or.inl (h ▸ List.mem_cons_self)
        · rcases ih h with h | h
          · exact Or.inl (List.mem_cons_of_mem _ h)
          · exact Or.inr h

/-- What is written is read back. -/
theorem Sparse.get_put_self {l : List (Nat × α)} {low i : Nat} {v : α} (w : Sparse.wfFrom d low l = true) :
    Sparse.get d (Sparse.put d l i v) i = v := by
  induction l generalizing low with
  | nil =>
    unfold Sparse.put
    split
    · rename_i hv
      exact hv.symm
    · simp [Sparse.get]
  | cons e rest ih =>
    obtain ⟨k, x⟩ := e
    have w' := Sparse.wfFrom_cons.mp w
    unfold Sparse.put
    split
    · rename_i hik
      split
      · rename_i hv
        simp [Sparse.get, Nat.ne_of_lt hik, hik, hv]
      · simp [Sparse.get]
    · rename_i hik
      split
      · rename_i he
        split
        · rename_i hv
          rw [hv]
          exact Sparse.get_below w'.2.2 (by omega)
        · simp [Sparse.get]
      · rename_i he
        simp only [Sparse.get, he, if_false, hik]
        exact ih w'.2.2

/-- Another key reads as before. -/
theorem Sparse.get_put_other {l : List (Nat × α)} {low i j : Nat} {v : α} (w : Sparse.wfFrom d low l = true) (h : j ≠ i) :
    Sparse.get d (Sparse.put d l i v) j = Sparse.get d l j := by
  induction l generalizing low with
  | nil =>
    unfold Sparse.put
    split
    · rfl
    · simp [Sparse.get, h]
  | cons e rest ih =>
    obtain ⟨k, x⟩ := e
    have w' := Sparse.wfFrom_cons.mp w
    unfold Sparse.put
    split
    · rename_i hik
      split
      · rfl
      · simp only [Sparse.get, h, if_false]
        by_cases hj : j < i
        · have hk : j < k := by omega
          simp [hj, Nat.ne_of_lt hk, hk]
        · simp [hj]
    · rename_i hik
      split
      · rename_i he
        subst he
        split
        · simp only [Sparse.get, h, if_false]
          by_cases hj : j < i
          · simp only [hj, if_true]
            exact Sparse.get_below w'.2.2 (by omega)
          · simp [hj]
        · simp [Sparse.get, h]
      · simp only [Sparse.get]
        by_cases hjk : j = k
        · simp [hjk]
        · by_cases hj : j < k
          · simp [hjk, hj]
          · simp only [hjk, if_false, hj]
            exact ih w'.2.2

end

/-! ### The Slot Store -/

/-- A slot in canonical form: its frames rise by index below 588. -/
def Slot.wf (x : Slot) : Bool :=
  Sparse.wf Frame.none x.frames && x.frames.all (fun f => decide (f.1 < Config.framesPerBlock))

theorem Slot.wf_empty : Slot.empty.wf = true := rfl

theorem Store.wf_iff (t : Store) :
    t.wf = true ↔
      Sparse.wf Slot.empty t.slots = true ∧ ∀ e ∈ t.slots, e.1 < Config.slotCount ∧ e.2.wf = true := by
  simp [Store.wf, Slot.wf, List.all_eq_true, and_assoc]

theorem Sparse.get_mem {α : Type} {d : α} {l : List (Nat × α)} {i : Nat} (h : Sparse.get d l i ≠ d) :
    (i, Sparse.get d l i) ∈ l := by
  induction l with
  | nil => exact absurd rfl h
  | cons e rest ih =>
    obtain ⟨k, x⟩ := e
    unfold Sparse.get at h ⊢
    by_cases hik : i = k
    · simp [hik]
    · simp only [hik, if_false] at h ⊢
      by_cases hlt : i < k
      · simp [hlt] at h
      · simp only [hlt, if_false] at h ⊢
        exact List.mem_cons_of_mem _ (ih h)

/-- Every slot of a canonical store is in canonical form. -/
theorem Store.slotAt_wf {t : Store} (w : t.wf = true) (k : Nat) : (t.slotAt k).wf = true := by
  by_cases h : t.slotAt k = Slot.empty
  · rw [h]; rfl
  · exact (((Store.wf_iff t).mp w).2 _ (Sparse.get_mem h)).2

theorem Store.slotOf_wf {t : Store} (w : t.wf = true) (b : Nat) : (t.slotOf b).wf = true := by
  unfold Store.slotOf
  split
  · exact Store.slotAt_wf w _
  · rfl

theorem Store.setSlot_wf {t : Store} (w : t.wf = true) (b : Nat) {x : Slot} (hx : x.wf = true) :
    (t.setSlot b x).wf = true := by
  unfold Store.setSlot
  split
  · rw [Store.wf_iff] at w ⊢
    refine ⟨Sparse.wf_put w.1, ?_⟩
    intro e he
    rcases Sparse.mem_put he with he | he
    · exact w.2 e he
    · rw [he]
      exact ⟨Nat.mod_lt _ (by decide), hx⟩
  · exact w

theorem Store.declare_wf {t : Store} (w : t.wf = true) (b : Nat) : (t.declare b).wf = true :=
  Store.setSlot_wf w b (Store.slotOf_wf w b)

theorem Store.declareIfOpen_wf {t : Store} (w : t.wf = true) (b : Nat) : (t.declareIfOpen b).wf = true := by
  unfold Store.declareIfOpen
  split
  · exact Store.declare_wf w b
  · exact w

theorem Slot.recheck_wf {x : Slot} (w : x.wf = true) (limit : Nat) : (x.recheck limit).wf = true := by
  unfold Slot.recheck
  split <;> exact w

theorem mergeFrames_wf (step : List (Nat × Frame)) :
    ∀ {held : List (Nat × Frame)}, Sparse.wf Frame.none held = true →
      Sparse.wf Frame.none (mergeFrames held step) = true := by
  induction step with
  | nil => exact fun w => w
  | cons f rest ih => exact fun w => ih (Sparse.wf_put w)

theorem mergeFrames_index (step : List (Nat × Frame)) (hs : ∀ f ∈ step, f.1 < Config.framesPerBlock) :
    ∀ {held : List (Nat × Frame)}, (∀ f ∈ held, f.1 < Config.framesPerBlock) →
      ∀ f ∈ mergeFrames held step, f.1 < Config.framesPerBlock := by
  induction step with
  | nil => exact fun w => w
  | cons g rest ih =>
    intro held w
    refine ih (fun f hf => hs f (List.mem_cons_of_mem _ hf)) ?_
    intro f hf
    rcases Sparse.mem_put hf with hf | hf
    · exact w f hf
    · rw [hf]
      exact hs g List.mem_cons_self

theorem Slot.merge_wf {x : Slot} (w : x.wf = true) (limit : Nat) {step : List (Nat × Frame)}
    (hs : ∀ f ∈ step, f.1 < Config.framesPerBlock) : (x.merge limit step).wf = true := by
  refine Slot.recheck_wf ?_ limit
  simp only [Slot.wf, Bool.and_eq_true, List.all_eq_true, decide_eq_true_eq] at w ⊢
  exact ⟨mergeFrames_wf step w.1, mergeFrames_index step hs w.2⟩

/-- A merge step whose indices are below 588 keeps the canonical form. -/
theorem Store.merge_wf {t : Store} (w : t.wf = true) (limit b : Nat) {step : List (Nat × Frame)}
    (hs : ∀ f ∈ step, f.1 < Config.framesPerBlock) : (t.merge limit b step).wf = true := by
  unfold Store.merge
  split
  · exact w
  · exact Store.setSlot_wf w b (Slot.merge_wf (Store.slotOf_wf w b) limit hs)

theorem Store.filter_wf {t : Store} (w : t.wf = true) (p : Nat × Slot → Bool) (e : Nat) :
    ({ t with extent := e, slots := t.slots.filter p } : Store).wf = true := by
  rw [Store.wf_iff] at w ⊢
  exact ⟨Sparse.wfFrom_filter p w.1, fun x hx => w.2 x (List.mem_filter.mp hx).1⟩

theorem Store.trim_wf {t : Store} (w : t.wf = true) (x : Nat) : (t.trim x).wf = true := Store.filter_wf w _ _

theorem Store.setExtent_wf {t : Store} (w : t.wf = true) (e : Nat) : (t.setExtent e).wf = true := Store.filter_wf w _ _

theorem Store.flush_wf (t : Store) (p : Nat) : (t.flush p).wf = true := rfl

theorem Store.advance_wf {t : Store} (w : t.wf = true) (b : Nat) : (t.advance b).wf = true := by
  rw [Store.wf_iff] at w ⊢
  refine ⟨Sparse.wf_put w.1, ?_⟩
  intro e he
  rcases Sparse.mem_put he with he | he
  · exact w.2 e he
  · rw [he]
    exact ⟨Nat.mod_lt _ (by decide), rfl⟩

theorem Slot.recheck_ne_empty (limit : Nat) (x : Slot) (h : x ≠ Slot.empty) : x.recheck limit ≠ Slot.empty := by
  unfold Slot.recheck
  split
  · intro he
    have hd : true = false := congrArg Slot.declared he
    cases hd
  · exact h

theorem Store.recheckAll_wf {t : Store} (w : t.wf = true) (limit : Nat) : (t.recheckAll limit).wf = true := by
  rw [Store.wf_iff] at w ⊢
  refine ⟨Sparse.wfFrom_map (Slot.recheck limit) (Slot.recheck_ne_empty limit) w.1, ?_⟩
  intro e he
  obtain ⟨x, hx, rfl⟩ := List.mem_map.mp he
  exact ⟨(w.2 x hx).1, Slot.recheck_wf (w.2 x hx).2 limit⟩

theorem Store.reset_wf : Store.reset.wf = true := rfl

end Sys2Proof.Machine
end

