-- ==== Sys2Proof/Laws/Queue.lean ====
section
/-!
SUPPORT. The Transmit Queue: each request, withdrawal and begin of a transmission keeps at most one message of a class, and
leaves an IDLE transmitter with an empty queue. The flow state, whose evaluation requests HOLD and GO.
-/
namespace Sys2Proof.Machine

/-- A replacement in place leaves the classes as they were; otherwise the class comes last. -/
theorem replaceOrAdd_classes (m : TxMsg) (q : List TxMsg) :
    (replaceOrAdd m q).map TxMsg.cls =
      if m.cls ∈ q.map TxMsg.cls then q.map TxMsg.cls else q.map TxMsg.cls ++ [m.cls] := by
  induction q with
  | nil => simp [replaceOrAdd]
  | cons x rest ih =>
    unfold replaceOrAdd
    by_cases h : x.cls = m.cls
    · simp [h]
    · have h' : ¬ m.cls = x.cls := fun e => h e.symm
      simp only [h, if_false, List.map_cons, ih, List.mem_cons, h', false_or]
      split <;> simp

theorem replaceOrAdd_nodup (m : TxMsg) {q : List TxMsg} (h : (q.map TxMsg.cls).Nodup) :
    ((replaceOrAdd m q).map TxMsg.cls).Nodup := by
  rw [replaceOrAdd_classes]
  split
  · exact h
  · rename_i hm
    exact List.nodup_append.mpr ⟨h, List.nodup_singleton _, by
      intro a ha b hb hab
      rw [List.mem_singleton] at hb
      exact hm (hb ▸ hab ▸ ha)⟩

theorem filter_classes_nodup (p : TxMsg → Bool) {q : List TxMsg} (h : (q.map TxMsg.cls).Nodup) :
    ((q.filter p).map TxMsg.cls).Nodup := h.sublist ((List.filter_sublist (p := p)).map _)

theorem not_mem_dropClass (c : TxClass) (q : List TxMsg) : c ∉ (dropClass c q).map TxMsg.cls := by
  intro h
  obtain ⟨m, hm, hc⟩ := List.mem_map.mp h
  have := (List.mem_filter.mp hm).2
  simp [hc] at this

theorem flow_contains {q : List TxMsg} (h : TxClass.flow ∈ q.map TxMsg.cls) : TxMsg.hold ∈ q ∨ TxMsg.go ∈ q := by
  obtain ⟨m, hm, hc⟩ := List.mem_map.mp h
  cases m <;> simp [TxMsg.cls] at hc
  · exact Or.inl hm
  · exact Or.inr hm

theorem flowRequest_nodup {m o : TxMsg} (hm : m.cls = .flow) (hmo : ∀ q : List TxMsg, TxClass.flow ∈ q.map TxMsg.cls → m ∈ q ∨ o ∈ q)
    {q : List TxMsg} (h : (q.map TxMsg.cls).Nodup) : ((flowRequest m o q).map TxMsg.cls).Nodup := by
  unfold flowRequest
  split
  · exact filter_classes_nodup _ h
  · rename_i ho
    split
    · exact h
    · rename_i hq
      rw [List.map_append, List.nodup_append]
      refine ⟨h, by simp, ?_⟩
      intro a ha b hb hab
      simp only [List.map_cons, List.map_nil, List.mem_singleton, hm] at hb
      subst hb
      rw [hab] at ha
      rcases hmo q ha with k | k
      · exact hq (List.contains_iff_mem.mpr k)
      · exact ho (List.contains_iff_mem.mpr k)

/-- Every request keeps at most one message of a class (R108, R109). -/
theorem requestQueue_nodup (m : TxMsg) {q : List TxMsg} (h : (q.map TxMsg.cls).Nodup) :
    ((requestQueue m q).map TxMsg.cls).Nodup := by
  cases m with
  | seek n b => exact replaceOrAdd_nodup _ h
  | pace l => exact replaceOrAdd_nodup _ h
  | load p => exact replaceOrAdd_nodup _ h
  | cease n =>
    show ((TxMsg.cease n).cls :: (dropClass .cease q).map TxMsg.cls).Nodup
    exact List.nodup_cons.mpr ⟨not_mem_dropClass _ _, filter_classes_nodup _ h⟩
  | hold => exact flowRequest_nodup rfl (fun q k => flow_contains k) h
  | go => exact flowRequest_nodup rfl (fun q k => (flow_contains k).symm) h

/-- An IDLE transmitter takes the head; then the link is sound. -/
theorem Link.kick_sound {l : Link} (h : (l.queue.map TxMsg.cls).Nodup) : l.kick.Sound := by
  unfold Link.kick
  split
  · rename_i m rest htx hq
    rw [hq] at h
    exact ⟨(List.nodup_cons.mp h).2, fun k => by cases k⟩
  · rename_i hno
    refine ⟨h, ?_⟩
    intro k
    cases hq : l.queue with
    | nil => rfl
    | cons m rest => exact absurd rfl (fun _ : l = l => hno m rest k hq)

theorem Link.request_sound {l : Link} (h : l.Sound) (m : TxMsg) :
    ({ l with queue := requestQueue m l.queue } : Link).kick.Sound :=
  Link.kick_sound (requestQueue_nodup m h.1)

theorem Link.withdraw_sound {l : Link} (h : l.Sound) (p : TxMsg → Bool) :
    ({ l with queue := l.queue.filter p } : Link).Sound :=
  ⟨filter_classes_nodup _ h.1, fun k => by
    show l.queue.filter p = []
    rw [h.2 k]; rfl⟩

/-- A link whose queue and transmitter are as before is as sound as before. -/
theorem Link.sound_of_same {l m : Link} (h : l.Sound) (hq : m.queue = l.queue) (ht : m.tx = l.tx) : m.Sound := by
  unfold Link.Sound at h ⊢
  rw [hq, ht]
  exact h

/-- A link whose transmitter is not IDLE is sound when its queue holds at most one message of a class. -/
theorem Link.sound_of_busy {m : Link} (hq : (m.queue.map TxMsg.cls).Nodup) (ht : m.tx ≠ .idle) : m.Sound :=
  ⟨hq, fun k => absurd k ht⟩

theorem Link.lineHigh_sound {l : Link} (h : l.Sound) : l.lineHigh.Sound := by
  unfold Link.lineHigh
  dsimp only
  split
  · exact Link.kick_sound h.1
  all_goals exact Link.sound_of_same h rfl rfl

theorem Link.switched_sound {l : Link} (h : l.Sound) : l.switched.Sound := by
  unfold Link.switched
  dsimp only
  split
  · exact Link.kick_sound h.1
  all_goals exact Link.sound_of_same h rfl rfl

theorem Link.formatChanging_sound {l : Link} (h : l.Sound) (f : LinkFormat) : (l.formatChanging f).Sound := by
  unfold Link.formatChanging
  split
  · exact Link.sound_of_same h rfl rfl
  all_goals exact h

theorem Link.finish_sound {l : Link} (h : l.Sound) (m : TxMsg) (now : LinkFormat) :
    (l.finish m now).Sound :=
  Link.sound_of_busy h.1 (by simp [Link.finish])

theorem Link.restart_sound (l : Link) : l.restart.Sound :=
  Link.sound_of_busy (by simp [Link.restart]) (by simp [Link.restart])

theorem Link.afterReset_sound : Link.afterReset.Sound :=
  Link.sound_of_busy (by simp [Link.afterReset, Link.reset]) (by simp [Link.afterReset])

/-- What a request of the classes SEEK, CEASE and FLOW, or a withdrawal of a SEEK, leaves of the link. -/
structure Link.Leads (l x : Link) : Prop where
  sound : l.Sound → x.Sound
  rest  : x = { l with queue := x.queue, tx := x.tx }
  other : ∀ m : TxMsg, m.cls = .pace ∨ m.cls = .load → l.Carries m → x.Carries m
  busy  : l.tx ≠ .idle → x.tx = l.tx

theorem mem_replaceOrAdd {x m : TxMsg} (hx : x.cls ≠ m.cls) {q : List TxMsg} (h : x ∈ q) : x ∈ replaceOrAdd m q := by
  induction q with
  | nil => cases h
  | cons y rest ih =>
    unfold replaceOrAdd
    rcases List.mem_cons.mp h with rfl | k
    · rw [if_neg hx]
      exact List.mem_cons_self
    · split
      · exact List.mem_cons_of_mem _ k
      · exact List.mem_cons_of_mem _ (ih k)

theorem mem_dropClass {x : TxMsg} {c : TxClass} (hx : x.cls ≠ c) {q : List TxMsg} (h : x ∈ q) : x ∈ dropClass c q :=
  List.mem_filter.mpr ⟨h, decide_eq_true hx⟩

theorem mem_flowRequest {x m o : TxMsg} (hx : x.cls ≠ .flow) {q : List TxMsg} (h : x ∈ q) : x ∈ flowRequest m o q := by
  unfold flowRequest
  split
  · exact mem_dropClass hx h
  · split
    · exact h
    · exact List.mem_append_left _ h

/-- A request leaves the messages of other classes in the queue (R109). -/
theorem mem_requestQueue {x m : TxMsg} (hx : x.cls ≠ m.cls) {q : List TxMsg} (h : x ∈ q) : x ∈ requestQueue m q := by
  cases m with
  | seek n b => exact mem_replaceOrAdd hx h
  | pace l => exact mem_replaceOrAdd hx h
  | load p => exact mem_replaceOrAdd hx h
  | cease n => exact List.mem_cons_of_mem _ (mem_dropClass hx h)
  | hold => exact mem_flowRequest hx h
  | go => exact mem_flowRequest hx h

theorem Link.kick_rest (l : Link) : l.kick = { l with queue := l.kick.queue, tx := l.kick.tx } := by
  unfold Link.kick
  split <;> rfl

theorem Link.kick_busy {l : Link} (h : l.tx ≠ .idle) : l.kick = l := by
  unfold Link.kick
  split
  · rename_i e _
    exact absurd e h
  · rfl

theorem Link.kick_carries {l : Link} {x : TxMsg} (h : l.Carries x) : l.kick.Carries x := by
  unfold Link.kick
  split
  · rename_i m rest ht hq
    rcases h with k | k
    · rw [hq] at k
      rcases List.mem_cons.mp k with rfl | k
      · exact Or.inr rfl
      · exact Or.inl k
    · rw [ht] at k
      cases k
  · exact h

theorem Link.request_leads (l : Link) {m : TxMsg} (hm : m.cls ≠ .pace ∧ m.cls ≠ .load) :
    l.Leads ({ l with queue := requestQueue m l.queue } : Link).kick where
  sound h := Link.request_sound h m
  rest := Link.kick_rest _
  other x hx h := Link.kick_carries (by
    have d : x.cls ≠ m.cls := by
      rcases hx with k | k <;> rw [k]
      · exact Ne.symm hm.1
      · exact Ne.symm hm.2
    rcases h with k | k
    · exact Or.inl (mem_requestQueue d k)
    · exact Or.inr k)
  busy h :=
    (congrArg Link.tx (Link.kick_busy (l := { l with queue := requestQueue m l.queue }) h) :)

/-- A request stands in the queue, or is being sent, once it is made (R109, R111). -/
theorem mem_requestQueue_self {m : TxMsg} (hm : m.cls ≠ .flow) (q : List TxMsg) : m ∈ requestQueue m q := by
  have replaced : ∀ q : List TxMsg, m ∈ replaceOrAdd m q := by
    intro q
    induction q with
    | nil => exact List.mem_cons_self
    | cons y rest ih =>
      unfold replaceOrAdd
      split
      · exact List.mem_cons_self
      · exact List.mem_cons_of_mem _ ih
  cases m with
  | seek n b => exact replaced q
  | pace l => exact replaced q
  | load p => exact replaced q
  | cease n => exact List.mem_cons_self
  | hold => exact absurd rfl hm
  | go => exact absurd rfl hm

theorem Link.request_carries (l : Link) {m : TxMsg} (hm : m.cls ≠ .flow) :
    ({ l with queue := requestQueue m l.queue } : Link).kick.Carries m :=
  Link.kick_carries (Or.inl (mem_requestQueue_self hm _))

/-- What is dropped with the flow requests leaves the other classes. -/
theorem Link.dropFlow_leads (l : Link) : l.Leads l.dropFlow where
  sound h := Link.withdraw_sound h _
  rest := rfl
  other x hx h := by
    rcases h with k | k
    · refine Or.inl (mem_dropClass ?_ k)
      rcases hx with c | c <;> rw [c] <;> decide
    · exact Or.inr k
  busy _ := rfl

theorem Link.withdraw_leads (l : Link) (n : Nat) :
    l.Leads { l with queue := l.queue.filter (fun m => !m.isSeekOf n) } where
  sound h := Link.withdraw_sound h _
  rest := rfl
  other x hx h := by
    rcases h with k | k
    · refine Or.inl (List.mem_filter.mpr ⟨k, ?_⟩)
      cases x with
      | seek n b => rcases hx with c | c <;> cases c
      | cease n => rfl
      | hold => rfl
      | go => rfl
      | pace l => rfl
      | load p => rfl
    · exact Or.inr k
  busy _ := rfl

/-! ### The flow state (R41) -/

/-- The hold causes are the two conditions as the Assembler computes them. -/
theorem flowSound_iff (s : State) :
    FlowSound s ↔ s.asm.holdIntake = intakeFull s ∧ s.asm.holdWindow = windowFull s := by
  have h (a : Bool) {b : Bool} {p : Prop} (hb : b = true ↔ p) : (a = true ↔ p) ↔ a = b := by
    rw [← hb, ← Bool.eq_iff_iff]
  have hw : windowFull s = true ↔
      s.asm.align.phase ≠ .none ∧
        (((s.store.playBlock + 384) * 588 : Nat) ≤ (s.asm.align.expected * 588 : Nat) + s.asm.align.offset ∨
          ((s.store.extent * 588 : Nat) : Int) ≤ (s.asm.align.expected * 588 : Nat) + s.asm.align.offset) := by
    unfold windowFull
    rw [Bool.and_eq_true, Bool.or_eq_true, decide_eq_true_eq, decide_eq_true_eq, decide_eq_true_eq]
  exact and_congr (h _ decide_eq_true_iff) (h _ hw)

/-- The relation rests on the Intake, the hold causes, the alignment state, the play position's block and the extent alone. -/
theorem FlowSound.congr {s t : State} (ha : t.asm = s.asm) (hp : t.store.playBlock = s.store.playBlock)
    (he : t.store.extent = s.store.extent) (h : FlowSound s) : FlowSound t := by
  unfold FlowSound
  rw [ha, hp, he]
  exact h

/-- An evaluation makes the hold causes the two conditions, whatever they were. -/
theorem evaluateFlow_flowSound (s : State) : FlowSound (evaluateFlow s) := by
  have h : FlowSound (s.setAsm { s.asm with holdIntake := intakeFull s, holdWindow := windowFull s }) :=
    (flowSound_iff _).mpr ⟨rfl, rfl⟩
  unfold evaluateFlow
  dsimp only
  split <;> split
  · exact h
  · exact FlowSound.congr rfl rfl rfl h
  · exact FlowSound.congr rfl rfl rfl h
  · exact h

end Sys2Proof.Machine
end

