-- ==== Sys2Proof/Laws/Moves.lean ====
section
/-!
SUPPORT. What the operations inside a step can do, said once for every property of states. A structure such as
`PlannerMoves K` says that K is kept by the primitive changes one side of the part makes; then K is kept by each of that
side's operations. A frame ("this block is as it was") and an invariant are both such a K.
-/
namespace Sys2Proof.Machine

/-! ### Choosing and closing streams -/

/-- What a change of the Assembler leaves alone while the planner chooses: the Intake, the counters, the expected next BN. -/
structure Assembler.Leads (a x : Assembler) : Prop where
  intake   : x.intake = a.intake
  counters : x.counters = a.counters
  expected : x.align.expected = a.align.expected

/-- The planner's counters of the answers and reports it takes; the others are set to 0. -/
def PlannerCounters.answers (c : PlannerCounters) : PlannerCounters :=
  { c with frontierStream := 0, repairStream := 0, preemption := 0, exhaustion := 0, lateDeclaration := 0, overflow := 0 }

/-- What a change of the planner leaves alone while it chooses: the counters of answers; a stopped seek timer stays stopped. -/
structure Planner.Leads (p x : Planner) : Prop where
  answers : x.counters.answers = p.counters.answers
  timer   : p.stream.timerRuns = false → x.stream.timerRuns = false

/-- K is kept by the changes a choice of streams and an evaluation of flow make: no store, no event. -/
structure ChoiceMoves (K : State → Prop) : Prop where
  setAsm : ∀ {s : State} (x : Assembler), s.asm.Leads x → K s → K (s.setAsm x)
  setPlanner : ∀ {s : State} (x : Planner), s.planner.Leads x → K s → K (s.setPlanner x)
  setLink : ∀ {s : State} (x : Link), s.link.Leads x → K s → K (s.setLink x)

namespace ChoiceMoves

variable {K : State → Prop} {s : State}

theorem txRequest (M : ChoiceMoves K) (m : TxMsg) (hm : m.cls ≠ .pace ∧ m.cls ≠ .load) (h : K s) : K (txRequest m s) :=
  M.setLink _ (Link.request_leads s.link hm) h

theorem withdrawSeek (M : ChoiceMoves K) (n : Nat) (h : K s) : K (withdrawSeek n s) :=
  M.setLink _ (Link.withdraw_leads s.link n) h

theorem setStream (M : ChoiceMoves K) (x : Stream) (hx : s.planner.stream.timerRuns = false → x.timerRuns = false)
    (h : K s) : K (setStream x s) := M.setPlanner _ ⟨rfl, hx⟩ h
theorem setList (M : ChoiceMoves K) (x : List RepairEntry) (h : K s) : K (setList x s) := M.setPlanner _ ⟨rfl, fun w => w⟩ h
theorem setFrontier (M : ChoiceMoves K) (x : Frontier) (h : K s) : K (setFrontier x s) :=
  M.setPlanner _ ⟨rfl, fun w => w⟩ h
theorem countPlanner (M : ChoiceMoves K) (f : PlannerCounters → PlannerCounters)
    (hf : (f s.planner.counters).answers = s.planner.counters.answers) (h : K s) : K (countPlanner f s) :=
  M.setPlanner _ ⟨hf, fun w => w⟩ h
theorem clearPhase (M : ChoiceMoves K) (h : K s) : K (clearPhase s) := M.setAsm _ ⟨rfl, rfl, rfl⟩ h
theorem maintain (M : ChoiceMoves K) (h : K s) : K (maintain s) := M.setPlanner _ ⟨rfl, fun w => w⟩ h
theorem mirrorFrontier (M : ChoiceMoves K) (old : Store) (h : K s) : K (mirrorFrontier old s) := M.setPlanner _ ⟨rfl, fun w => w⟩ h
theorem absorb (M : ChoiceMoves K) (old : Store) (h : K s) : K (absorb old s) := M.maintain (M.mirrorFrontier old h)

theorem evaluateFlow (M : ChoiceMoves K) (h : K s) : K (evaluateFlow s) := by
  have k : K (s.setAsm { s.asm with holdIntake := intakeFull s, holdWindow := windowFull s }) :=
    M.setAsm _ ⟨rfl, rfl, rfl⟩ h
  have no : ∀ m : TxMsg, m = .go ∨ m = .hold → m.cls ≠ .pace ∧ m.cls ≠ .load := by
    rintro m (rfl | rfl) <;> exact ⟨nofun, nofun⟩
  unfold Machine.evaluateFlow
  dsimp only
  split <;> split
  · exact k
  · exact M.txRequest _ (no _ (Or.inl rfl)) k
  · exact M.txRequest _ (no _ (Or.inr rfl)) k
  · exact k

/-- A close up to the exhaustion check. -/
theorem closeQuiet (M : ChoiceMoves K) (close : Close) (hc : close.checksExhaustion = false) (h : K s) :
    K (closeStream close s) := by
  unfold Machine.closeStream
  split
  · exact h
  · have k := M.clearPhase (M.withdrawSeek s.planner.stream.number
      (M.setStream { s.planner.stream with state := .none, timerRuns := false } (fun _ => rfl) h))
    dsimp only
    have no : ¬ close.checksExhaustion = true := by
      rw [hc]
      decide
    split <;> split
    · exact absurd ‹close.checksExhaustion = true› no
    · exact absurd ‹close.checksExhaustion = true› no
    · exact M.setList _ (M.txRequest _ ⟨nofun, nofun⟩ k)
    · exact M.setList _ k

theorem openStream (M : ChoiceMoves K) (purpose : Purpose) (target last : Nat) (h : K s) :
    K (openStream purpose target last s) := M.txRequest _ ⟨nofun, nofun⟩ (M.setStream _ (fun _ => rfl) h)
theorem openFrontier (M : ChoiceMoves K) (h : K s) : K (openFrontier s) := M.openStream _ _ _ (M.countPlanner _ rfl h)
theorem openRepair (M : ChoiceMoves K) (e : RepairEntry) (h : K s) : K (openRepair e s) :=
  M.openStream _ _ _ (M.countPlanner _ rfl (M.setList _ h))

theorem chooseStream (M : ChoiceMoves K) (h : K s) : K (chooseStream s) := by
  unfold Machine.chooseStream
  split
  · split
    · exact M.openRepair _ h
    · split
      · exact M.openFrontier h
      · exact h
  · exact h

theorem preempt (M : ChoiceMoves K) (h : K s) : K (preempt s) := by
  unfold Machine.preempt
  split
  · exact M.countPlanner _ rfl (M.closeQuiet _ rfl h)
  · exact h

theorem settle (M : ChoiceMoves K) (h : K s) : K (settle s) := by
  have once : ∀ {u : State}, K u → K (Machine.evaluateFlow (Machine.chooseStream (Machine.preempt u))) :=
    fun k => M.evaluateFlow (M.chooseStream (M.preempt k))
  unfold Machine.settle
  dsimp only
  split
  · exact once (once h)
  · exact once h

theorem plannerNotice (M : ChoiceMoves K) (byRestart : Bool) (h : K s) : K (plannerNotice byRestart s) := by
  unfold Machine.plannerNotice
  dsimp only
  split
  · exact M.settle (M.setPlanner _ ⟨rfl, fun w => w⟩ h)
  · exact M.settle (M.closeQuiet _ rfl (M.setPlanner _ ⟨rfl, fun w => w⟩ h))

theorem plannerRestart (M : ChoiceMoves K) (h : K s) : K (plannerRestart s) := M.settle (M.closeQuiet _ rfl h)

theorem reflow (M : ChoiceMoves K) (h : K s) : K (reflow s) := by
  unfold Machine.reflow
  dsimp only
  split
  · exact M.settle (M.evaluateFlow h)
  · exact M.evaluateFlow h

theorem mapTargetMislocks (M : ChoiceMoves K) (f : Nat → Nat) (h : K s) : K (mapTargetMislocks f s) := by
  unfold Machine.mapTargetMislocks
  split
  · exact M.setFrontier _ h
  · exact M.setList _ h

theorem advanceSeekTimer (M : ChoiceMoves K) (h : K s) : K (advanceSeekTimer s) := M.setStream _ (fun w => w) h

end ChoiceMoves

/-! ### The planner's notices of the store -/

/-- What the planner's own changes of the store leave alone: the canonical form, the extent and the Play Block. -/
structure Store.Leads (t x : Store) : Prop where
  wf        : t.wf = true → x.wf = true
  extent    : x.extent = t.extent
  playBlock : x.playBlock = t.playBlock

namespace Store

/-- A write of one slot leaves the extent and the Play Block alone. -/
theorem setSlot_figures (t : Store) (b : Nat) (x : Slot) :
    (t.setSlot b x).extent = t.extent ∧ (t.setSlot b x).playBlock = t.playBlock := by
  unfold Store.setSlot
  split <;> exact ⟨rfl, rfl⟩

theorem declare_leads (t : Store) (b : Nat) : t.Leads (t.declare b) :=
  ⟨fun w => declare_wf w b, (setSlot_figures t b _).1, (setSlot_figures t b _).2⟩

theorem trim_leads (t : Store) (x : Nat) : t.Leads (t.trim x) := ⟨fun w => trim_wf w x, rfl, rfl⟩

theorem recheckAll_leads (t : Store) (limit : Nat) : t.Leads (t.recheckAll limit) :=
  ⟨fun w => recheckAll_wf w limit, rfl, rfl⟩

theorem declareIfOpen_leads (t : Store) (b : Nat) : t.Leads (t.declareIfOpen b) := by
  refine ⟨fun w => declareIfOpen_wf w b, ?_, ?_⟩ <;> unfold Store.declareIfOpen <;> split
  · exact (setSlot_figures t b _).1
  · rfl
  · exact (setSlot_figures t b _).2
  · rfl

theorem merge_leads (t : Store) (limit b : Nat) {step : List (Nat × Frame)} (hs : ∀ f ∈ step, f.1 < Config.framesPerBlock) :
    t.Leads (t.merge limit b step) := by
  refine ⟨fun w => merge_wf w limit b hs, ?_, ?_⟩ <;> unfold Store.merge <;> split
  · rfl
  · exact (setSlot_figures t b _).1
  · rfl
  · exact (setSlot_figures t b _).2

end Store

/-- Where the record agrees with the Assembler, or no placement runs, the expected next BN is the record's. -/
theorem expectedNext_record {s : State}
    (h : s.asm.align.phase ≠ .none → s.asm.align.stream = s.planner.stream.number →
      s.asm.align.expected = s.planner.stream.expected) :
    expectedNext s = s.planner.stream.expected := by
  unfold expectedNext
  split
  · rename_i k
    exact h k.1 k.2
  · rfl

/-- When an overflow from `x` closes the stream (R15, R49). -/
theorem overflowCloses_iff (x : Nat) (s : State) : overflowCloses x s = true ↔ x ≤ expectedNext s := decide_eq_true_iff

/-- K is kept, beside the moves of a choice, by the planner's own changes of the store, by the emptying of the Intake, and by
REPAIR_OVERFLOW. -/
structure PlannerMoves (K : State → Prop) : Prop extends ChoiceMoves K where
  setStore : ∀ {s : State} (x : Store), s.store.Leads x → K s → K (s.setStore x)
  setNotices : ∀ {s : State} (x : List Bool), K s → K (s.setNotices x)
  dropIntake : ∀ {s : State}, K s → K (s.setAsm { s.asm with intake := [] })
  overflow : ∀ {s : State} (d : Nat), K s → K (raise .repairOverflow d s)

namespace PlannerMoves

variable {K : State → Prop} {s : State}

theorem postReadiness (M : PlannerMoves K) (before : Nat × Bool) (h : K s) : K (postReadiness before s) := by
  unfold Machine.postReadiness
  dsimp only
  split
  · exact h
  · exact M.setNotices _ h

/-- One event at the store, after what it does there. -/
theorem changeStoreFrom (M : PlannerMoves K) (f : Store → Store) (h : K (s.setStore (f s.store))) : K (changeStore f s) :=
  M.postReadiness _ h

theorem plannerDeclare (M : PlannerMoves K) (b : Nat) (h : K s) : K (plannerDeclare s b) :=
  M.absorb _ (M.changeStoreFrom _ (M.setStore _ (Store.declare_leads _ b) h))

theorem plannerDeclares (M : PlannerMoves K) (blocks : List Nat) : ∀ {s : State}, K s → K (plannerDeclares blocks s) := by
  induction blocks with
  | nil => exact fun h => h
  | cons b rest ih => exact fun h => ih (M.plannerDeclare b h)

theorem exhaust (M : PlannerMoves K) (served : Option RepairEntry) (h : K s) : K (exhaust served s) := by
  unfold Machine.exhaust
  split
  · exact h
  · split
    · exact M.plannerDeclares _ (M.countPlanner _ rfl h)
    · exact h

theorem closeStream (M : PlannerMoves K) (close : Close) (h : K s) : K (closeStream close s) := by
  unfold Machine.closeStream
  split
  · exact h
  · have k := M.clearPhase (M.withdrawSeek s.planner.stream.number
      (M.setStream { s.planner.stream with state := .none, timerRuns := false } (fun _ => rfl) h))
    dsimp only
    split <;> split
    · exact M.exhaust _ (M.setList _ (M.txRequest _ ⟨nofun, nofun⟩ k))
    · exact M.exhaust _ (M.setList _ k)
    · exact M.setList _ (M.txRequest _ ⟨nofun, nofun⟩ k)
    · exact M.setList _ k

theorem overflowOnce (M : PlannerMoves K) (h : K s) : K (overflowOnce s) := by
  unfold Machine.overflowOnce
  split
  · exact h
  · rename_i r _
    have k : K (Machine.changeStore (fun t => t.trim r.first) (Machine.setList s.planner.list.dropLast s)) :=
      M.changeStoreFrom _ (M.setStore _ (Store.trim_leads _ _) (M.setList _ h))
    dsimp only
    split
    · exact M.absorb _ (M.overflow _ (M.countPlanner _ rfl (M.closeStream _ k)))
    · exact M.absorb _ (M.overflow _ (M.countPlanner _ rfl k))

theorem overflowLoop (M : PlannerMoves K) (n : Nat) : ∀ {s : State}, K s → K (overflowLoop n s) := by
  induction n with
  | zero => exact fun h => h
  | succ n ih =>
    intro s h
    unfold Machine.overflowLoop
    split
    · exact ih (M.overflowOnce h)
    · exact h

theorem handleOverflow (M : PlannerMoves K) (h : K s) : K (handleOverflow s) := M.overflowLoop _ h

theorem judgeLateness (M : PlannerMoves K) (h : K s) : K (judgeLateness s) := by
  unfold Machine.judgeLateness
  dsimp only
  split
  · exact h
  · exact M.handleOverflow (M.plannerDeclares _ (M.countPlanner _ rfl h))

theorem takeStoreNotice (M : PlannerMoves K) (old : Store) (h : K s) : K (takeStoreNotice old s) :=
  M.judgeLateness (M.handleOverflow (M.absorb old h))

/-- An event at the store, whatever it does there, up to the end of the planner's event. -/
theorem storeNotifiedFrom (M : PlannerMoves K) (f : Store → Store) (h : K (s.setStore (f s.store))) :
    K (storeNotified f s) := by
  unfold Machine.storeNotified
  dsimp only
  split
  · exact M.takeStoreNotice _ (M.changeStoreFrom _ h)
  · exact M.changeStoreFrom _ h

/-- An event at the store, whatever it does there. -/
theorem storeEventFrom (M : PlannerMoves K) (f : Store → Store) (h : K (s.setStore (f s.store))) : K (storeEvent f s) := by
  unfold Machine.storeEvent
  dsimp only
  split
  · exact M.settle (M.storeNotifiedFrom _ h)
  · exact M.storeNotifiedFrom _ h

/-- A flush, after what it frees. -/
theorem flushStoreFrom (M : PlannerMoves K) (p : Nat) (h : K (s.setStore (s.store.flush p))) : K (flushStore p s) :=
  M.settle (M.setFrontier _ (M.absorb _ (M.closeStream _ (M.dropIntake (M.changeStoreFrom (fun t => t.flush p) h)))))

theorem endCheck (M : PlannerMoves K) (h : K s) : K (endCheck s) := by
  unfold Machine.endCheck
  split
  · exact M.closeStream _ h
  · exact h

theorem takePlacement (M : PlannerMoves K) (n e : Nat) (d : Option Int) (h : K s) : K (takePlacement n e d s) := by
  unfold Machine.takePlacement
  refine M.settle ?_
  split
  · exact M.endCheck (M.setStream _ (fun w => by
      unfold Stream.report
      split <;> exact w) h)
  · exact h

theorem retryLimitChanged (M : PlannerMoves K) (h : K s) : K (retryLimitChanged s) :=
  M.storeEventFrom _ (M.setStore _ (Store.recheckAll_leads _ _) h)

theorem declareEntry (M : PlannerMoves K) (h : K s) : K (declareEntry s) :=
  M.storeEventFrom _ (M.setStore _ (Store.declareIfOpen_leads _ _) h)

theorem takeStep (M : PlannerMoves K) (m : MergeStep) (hm : ∀ f ∈ m.frames, f.1 < Config.framesPerBlock) (h : K s) :
    K (takeStep s m) := M.storeNotifiedFrom _ (M.setStore _ (Store.merge_leads _ _ _ hm) h)

theorem takeSteps (M : PlannerMoves K) (steps : List MergeStep)
    (hs : ∀ m ∈ steps, ∀ f ∈ m.frames, f.1 < Config.framesPerBlock) : ∀ {s : State}, K s → K (takeSteps steps s) := by
  induction steps with
  | nil => exact fun h => h
  | cons m rest ih =>
    exact fun h => ih (fun x hx => hs x (List.mem_cons_of_mem _ hx)) (M.takeStep m (hs m List.mem_cons_self) h)

theorem assemblerRestart (M : PlannerMoves K) (h : K s) : K (assemblerRestart s) := by
  have k : K ((s.setAsm { s.asm with intake := [] }).setAsm
      { s.asm with intake := [], holdIntake := false, holdWindow := false }) :=
    M.setAsm _ ⟨rfl, rfl, rfl⟩ (M.dropIntake h)
  exact M.setLink _ (Link.dropFlow_leads _) (M.clearPhase k)

end PlannerMoves

/-- The indices of the merge steps of a placement are below 588. -/
theorem mergeSteps_index (t : Store) (bn : Nat) (placed : List (Nat × Frame)) :
    ∀ m ∈ mergeSteps t bn placed, ∀ f ∈ m.frames, f.1 < Config.framesPerBlock := by
  intro m hm f hf
  obtain ⟨b, _, rfl⟩ := List.mem_map.mp (List.mem_filter.mp hm).1
  obtain ⟨x, _, rfl⟩ := List.mem_map.mp hf
  exact Nat.mod_lt _ (by decide)

/-! ### The Play Controller's and the Output Feeder's side -/

/-- K is kept, beside the planner's moves, by changes of the store, the feeder and the Play Controller. -/
structure CueMoves (K : State → Prop) : Prop extends PlannerMoves K where
  changeStore : ∀ {s : State} (x : Store), (s.store.wf = true → x.wf = true) → K s → K (s.setStore x)
  setFeeder : ∀ {s : State} (x : Feeder), (s.feeder.Sound → x.Sound) → K s → K (s.setFeeder x)
  setPlay : ∀ {s : State} (x : Play), x.supplyWarned = s.play.supplyWarned → K s → K (s.setPlay x)

/-! #### The feeder's operations keep its relations -/

theorem Feeder.endRun_sound {f : Feeder} (h : f.Sound) : f.endRun.Sound :=
  ⟨h.1, h.2.1, h.2.2.1, fun _ => ⟨rfl, rfl⟩⟩

theorem Feeder.cue_sound {f : Feeder} (h : f.Sound) (ramp bn frame : Nat) : (f.cue ramp bn frame).Sound := by
  unfold Feeder.cue
  dsimp only
  split
  · exact ⟨h.1, h.2.1, h.2.2.1, fun _ => ⟨rfl, rfl⟩⟩
  · refine ⟨Nat.zero_le _, ?_, fun _ => rfl, fun _ => ⟨rfl, rfl⟩⟩
    intro k
    cases k

theorem Feeder.start_sound {f : Feeder} (ramp gain : Nat) (hg : gain ≤ 128) : (f.start ramp gain).Sound := by
  unfold Feeder.start
  split
  · refine ⟨Nat.le_refl _, fun _ => rfl, ?_, ?_⟩
    · intro k; cases k
    · intro k; rcases k with k | k <;> cases k
  · refine ⟨hg, ?_, ?_, ?_⟩
    · intro k; cases k
    · intro k; cases k
    · intro k; rcases k with k | k <;> cases k

theorem Feeder.rampedDown_sound (f : Feeder) : f.rampedDown.Sound := by
  refine ⟨Nat.zero_le _, ?_, fun _ => rfl, fun _ => ⟨rfl, rfl⟩⟩
  intro k; cases k

theorem Feeder.stop_sound {f : Feeder} (h : f.Sound) (ramp : Nat) : (f.stop ramp).Sound := by
  unfold Feeder.stop
  have stopping : ({ f with state := .stopping } : Feeder).Sound := by
    refine ⟨h.1, ?_, ?_, ?_⟩
    · intro k; cases k
    · intro k; cases k
    · intro k; rcases k with k | k <;> cases k
  split
  · split
    · exact Feeder.rampedDown_sound f
    · exact stopping
  · split
    · exact Feeder.rampedDown_sound f
    · exact stopping
  · rename_i hs
    refine ⟨Nat.zero_le _, ?_, fun _ => rfl, fun _ => h.2.2.2 (Or.inr hs)⟩
    intro k; cases k
  · exact h
  · exact h

theorem Feeder.endDisc_sound {f : Feeder} (h : f.Sound) : f.endDisc.Sound := by
  unfold Feeder.endDisc
  split
  · exact h
  · refine ⟨Nat.zero_le _, ?_, fun _ => rfl, fun _ => ⟨rfl, rfl⟩⟩
    intro k; cases k

namespace CueMoves

variable {K : State → Prop} {s : State}

theorem storeEvent (M : CueMoves K) (f : Store → Store) (hf : s.store.wf = true → (f s.store).wf = true) (h : K s) :
    K (storeEvent f s) := M.storeEventFrom f (M.changeStore _ hf h)

theorem flushStore (M : CueMoves K) (p : Nat) (h : K s) : K (flushStore p s) :=
  M.flushStoreFrom p (M.changeStore _ (fun _ => Store.flush_wf _ _) h)

theorem changeExtent (M : CueMoves K) (e : Nat) (h : K s) : K (changeExtent e s) := by
  unfold Machine.changeExtent
  split
  · exact h
  · exact M.storeEvent _ (fun w => Store.setExtent_wf w _) h

theorem mapFeeder (M : CueMoves K) (g : Feeder → Feeder) (hg : s.feeder.Sound → (g s.feeder).Sound) (h : K s) :
    K (mapFeeder g s) := M.setFeeder _ hg h
theorem mapPlay (M : CueMoves K) (g : Play → Play) (hg : (g s.play).supplyWarned = s.play.supplyWarned) (h : K s) :
    K (mapPlay g s) := M.setPlay _ hg h
theorem countPlay (M : CueMoves K) (f : PlayCounters → PlayCounters) (h : K s) : K (countPlay f s) := M.setPlay _ rfl h
theorem enterState (M : CueMoves K) (x : PlayState) (b : Bool) (h : K s) : K (enterState x b s) :=
  M.plannerNotice b (M.setPlay _ rfl h)
theorem requestFlush (M : CueMoves K) (bn : Nat) (h : K s) : K (requestFlush bn s) :=
  M.flushStore bn (M.setPlay _ rfl (M.setNotices _ h))
theorem cueFeeder (M : CueMoves K) (bn frame : Nat) (h : K s) : K (cueFeeder bn frame s) :=
  M.setFeeder _ (fun w => Feeder.cue_sound w _ _ _) h
theorem cueAt (M : CueMoves K) (bn frame : Nat) (h : K s) : K (cueAt bn frame s) :=
  M.requestFlush bn (M.cueFeeder bn frame h)
theorem stopRequest (M : CueMoves K) (h : K s) : K (stopRequest s) := M.setFeeder _ (fun w => Feeder.stop_sound w _) h
theorem flushAtCursor (M : CueMoves K) (h : K s) : K (flushAtCursor s) := M.stopRequest (M.requestFlush _ h)
theorem clearDisc (M : CueMoves K) (h : K s) : K (clearDisc s) := M.cueAt _ _ (M.changeExtent _ (M.setPlay _ rfl h))
theorem playRequest (M : CueMoves K) (h : K s) : K (playRequest s) := by
  have fromZero : K (Machine.declareEntry (Machine.mapFeeder (fun f => f.start (rampLength s) 0) s)) :=
    M.declareEntry (M.mapFeeder _ (fun _ => Feeder.start_sound _ _ (by decide)) h)
  unfold Machine.playRequest
  split
  · exact fromZero
  · exact M.mapFeeder _ (fun w => Feeder.start_sound _ _ w.1) h
  · split
    · exact fromZero
    · exact h
  · exact h
  · exact h

theorem feederPrimed (M : CueMoves K) (p : Bool) (h : K s) : K (feederPrimed p s) := by
  have k : K (Machine.mapFeeder (fun f => { f with primed := p }) s) := M.mapFeeder _ (fun w => w) h
  unfold Machine.feederPrimed
  dsimp only
  split
  · exact M.declareEntry (M.mapFeeder _ (fun _ => Feeder.start_sound _ _ (by decide)) k)
  · exact k

theorem leaveCueing (M : CueMoves K) (h : K s) : K (leaveCueing s) := by
  unfold Machine.leaveCueing
  split
  · exact M.enterState _ _ (M.setPlay _ rfl h)
  · exact M.playRequest (M.enterState _ _ h)

theorem testCueing (M : CueMoves K) (h : K s) : K (testCueing s) := by
  unfold Machine.testCueing
  split
  · exact M.leaveCueing h
  · exact h

theorem playPrimed (M : CueMoves K) (p : Bool) (h : K s) : K (playPrimed p s) := by
  unfold Machine.playPrimed
  dsimp only
  split
  · exact M.leaveCueing (M.setPlay _ rfl h)
  · exact M.setPlay _ rfl h

theorem takeReadiness (M : CueMoves K) (primed : Bool) (h : K s) : K (takeReadiness s primed) :=
  M.playPrimed _ (M.feederPrimed _ h)

theorem takeAll (M : CueMoves K) (notices : List Bool) : ∀ {s : State}, K s → K (notices.foldl Machine.takeReadiness s) := by
  induction notices with
  | nil => exact fun h => h
  | cons b rest ih => exact fun h => ih (M.takeReadiness b h)

theorem takeHanded (M : CueMoves K) (h : K s) : K (takeHanded s) := M.takeAll _ (M.setNotices _ h)

theorem takeNotices (M : CueMoves K) (h : K s) : K (takeNotices s) := M.takeHanded (M.takeHanded h)

/-- A step keeps what the command's own effect and the notices keep. -/
theorem inStep (M : CueMoves K) {f : State → State} (hf : ∀ {u : State}, K u → K (f u)) {t : State} (h : K s)
    (e : inStep f s = .next t) : K t := by
  cases e
  exact M.setNotices _ (M.takeNotices (hf (M.setNotices _ h)))

theorem returnToPlay (M : CueMoves K) (h : K s) : K (returnToPlay s) := by
  unfold Machine.returnToPlay
  split
  · split
    · exact M.playRequest (M.enterState _ _ (M.countPlay _ h))
    · split
      · exact M.playRequest (M.enterState _ _ h)
      · exact M.testCueing (M.stopRequest (M.enterState _ _ h))
  · exact M.stopRequest (M.enterState _ _ h)
  · exact M.testCueing (M.stopRequest (M.enterState _ _ h))

theorem runPlay (M : CueMoves K) (h : K s) : K (runPlay s) := by
  unfold Machine.runPlay
  dsimp only
  split
  · exact M.enterState _ _ (M.setPlay _ rfl (M.cueAt _ _ (M.setPlay _ rfl h)))
  · exact M.testCueing (M.enterState _ _ (M.cueAt _ _ (M.setPlay _ rfl h)))

theorem runContinue (M : CueMoves K) (h : K s) : K (runContinue s) := by
  unfold Machine.runContinue
  dsimp only
  split
  · exact M.playRequest (M.enterState _ _ (M.setPlay _ rfl h))
  · exact M.testCueing (M.enterState _ _ (M.setPlay _ rfl h))

theorem strayAnswer (M : CueMoves K) (h : K s) : K (strayAnswer s) := M.setPlay _ rfl h
theorem unsolicited (M : CueMoves K) (h : K s) : K (unsolicited s) := M.setPlay _ rfl h

theorem coastOrSuspend (M : CueMoves K) (b : Bool) (h : K s) : K (coastOrSuspend b s) := by
  unfold Machine.coastOrSuspend
  split
  · exact M.enterState _ _ h
  · exact M.countPlay _ (M.enterState _ _ h)

end CueMoves

/-- The events the Play Controller and the Output Feeder raise (section 9.7). -/
def Event.byPlay (e : Event) : Bool :=
  [Event.discReady, .endOfDisc, .opClock, .conceal, .starved].contains e

/-- K is kept, beside those moves, by writes of the Resume Table, by LOAD, and by the events of the two blocks. -/
structure PlayMoves (K : State → Prop) : Prop extends CueMoves K where
  write : ∀ {s : State} (p : Nat) (e : ResumeEntry), K s → K (resumeWrite p e s)
  raised : ∀ {s : State} (e : Event) (d : Nat), e.byPlay = true → K s → K (raise e d s)
  loadRequested : ∀ {s : State} (p : Nat), K s → K (Machine.txRequest (.load p) s)

namespace PlayMoves

variable {K : State → Prop} {s : State}

theorem raiseReady (M : PlayMoves K) (r : ReadyReason) (p : Nat) (h : K s) : K (raiseReady r p s) := M.raised _ _ rfl h
theorem queueLoad (M : PlayMoves K) (p : Nat) (h : K s) : K (queueLoad p s) :=
  M.setPlay _ rfl (M.setPlay _ rfl (M.loadRequested _ h))
theorem loadForConfirmation (M : PlayMoves K) (h : K s) : K (loadForConfirmation s) := M.setPlay _ rfl (M.queueLoad _ h)

theorem sealAs (M : PlayMoves K) (m : SaveMode) (c : SealCause) (h : K s) : K (sealAs m c s) := by
  unfold Machine.sealAs
  dsimp only
  split
  · exact M.write _ _ h
  · exact h

theorem sealEntry (M : PlayMoves K) (c : SealCause) (h : K s) : K (sealEntry c s) := M.sealAs _ c h
theorem invalidate (M : PlayMoves K) (p : Nat) (h : K s) : K (invalidate p s) := M.write _ _ h

theorem playBoundary (M : PlayMoves K) (b : Nat) (h : K s) : K (playBoundary b s) := by
  unfold Machine.playBoundary
  dsimp only
  split
  · exact M.write _ _ h
  · exact h

theorem runSelect (M : PlayMoves K) (h : K s) : K (runSelect s) := by
  unfold Machine.runSelect
  dsimp only
  refine M.enterState _ _ (M.queueLoad _ (M.setPlay _ rfl (M.clearDisc ?_)))
  split <;> first | exact M.sealEntry _ h | exact h

theorem runPause (M : PlayMoves K) (h : K s) : K (runPause s) := by
  unfold Machine.runPause
  dsimp only
  refine M.enterState _ _ ?_
  split
  · exact M.setPlay _ rfl (M.sealAs _ _ h)
  · exact M.stopRequest (M.sealAs _ _ h)

theorem runStopFrom (M : PlayMoves K) (w : Nat) (h : K s) :
    K (if s.play.disc.confirmed = true then
        Machine.flushAtCursor (Machine.enterState .ready false (Machine.mapPlay (fun p => { p with causes := Causes.none }) s))
      else Machine.enterState .empty false (Machine.mapPlay (fun p => { p with wanted := w }) (Machine.clearDisc s))) := by
  split
  · exact M.flushAtCursor (M.enterState _ _ (M.setPlay _ rfl h))
  · exact M.enterState _ _ (M.setPlay _ rfl (M.clearDisc h))

theorem runStop (M : PlayMoves K) (h : K s) : K (runStop s) := by
  unfold Machine.runStop
  cases e : s.play.state
  case playing | paused | coasting => exact M.runStopFrom _ (M.sealAs _ _ h)
  all_goals exact M.runStopFrom _ h

theorem endLoading (M : PlayMoves K) (r : ReadyReason) (h : K s) : K (endLoading r s) :=
  M.raiseReady _ _ (M.enterState _ _ (M.setPlay _ rfl (M.clearDisc h)))

theorem loseDisc (M : PlayMoves K) (r : ReadyReason) (h : K s) : K (loseDisc r s) :=
  M.raiseReady _ _ (M.enterState _ _ (M.clearDisc h))

theorem followPlan (M : PlayMoves K) (plan : LoadPlan) (h : K s) : K (followPlan plan s) := by
  unfold Machine.followPlan
  dsimp only
  split
  · exact M.enterState _ _ (M.mapPlay _ rfl (M.mapPlay _ rfl (M.cueAt _ _ h)))
  · exact M.testCueing (M.enterState _ _ (M.mapPlay _ rfl (M.cueAt _ _ h)))

theorem forgetOther (M : PlayMoves K) (tag : Tag) (p : Nat) (h : K s) : K (forgetOther tag p s) := by
  unfold Machine.forgetOther
  dsimp only
  split
  · exact M.invalidate _ h
  · exact h

theorem confirmLoad (M : PlayMoves K) (tag : Tag) (e p : Nat) (h : K s) : K (confirmLoad tag e p s) :=
  M.raiseReady _ _ (M.followPlan _ (M.forgetOther _ _ (M.changeExtent _ (M.countPlay _ (M.mapPlay _ rfl h)))))

theorem sameDisc (M : PlayMoves K) (h : K s) : K (sameDisc s) := by
  unfold Machine.sameDisc
  dsimp only
  split
  · exact M.returnToPlay (M.countPlay _ (M.raiseReady _ _ (M.setPlay _ rfl h)))
  · exact M.plannerNotice _ (M.countPlay _ (M.raiseReady _ _ (M.setPlay _ rfl h)))

theorem newDisc (M : PlayMoves K) (tag : Tag) (e p : Nat) (h : K s) : K (newDisc tag e p s) := by
  unfold Machine.newDisc
  exact M.countPlay _ (M.raiseReady _ _ (M.enterState _ _ (M.requestFlush _ (M.changeExtent _ (M.cueFeeder _ _
    (M.setPlay _ rfl (M.invalidate _ h)))))))

theorem takeDisc (M : PlayMoves K) (tag : Tag) (e p : Nat) (h : K s) : K (takeDisc tag e p s) := by
  unfold Machine.takeDisc
  have away : K (if matchesReturn p s.play = true then
        (if tag = s.play.disc.tag then Machine.sameDisc s else Machine.newDisc tag e p s)
      else if s.play.confirming = true ∧ p ≠ s.play.disc.position then Machine.strayAnswer s
      else Machine.unsolicited s) := by
    split
    · split
      · exact M.sameDisc h
      · exact M.newDisc _ _ _ h
    · split
      · exact M.strayAnswer h
      · exact M.unsolicited h
  split
  · split
    · exact M.confirmLoad _ _ _ h
    · exact M.strayAnswer h
  · exact away
  · exact away
  all_goals exact M.unsolicited h

theorem driveAway (M : PlayMoves K) (b reload : Bool) (h : K s) : K (driveAway b reload s) := by
  have load : ∀ {u : State}, K u →
      K (if (reload && (!u.play.causes.tray || u.play.confirming)) = true then Machine.loadForConfirmation u else u) := by
    intro u k
    split
    · exact M.loadForConfirmation k
    · exact k
  unfold Machine.driveAway
  dsimp only
  split
  · exact M.enterState _ _ (M.stopRequest (load (M.setPlay _ rfl (M.sealEntry _ h))))
  · exact M.enterState _ _ (M.stopRequest (load (M.setPlay _ rfl (M.sealEntry _ h))))
  · exact M.coastOrSuspend _ (load (M.setPlay _ rfl (M.sealEntry _ h)))
  · exact M.plannerNotice _ (load (M.setPlay _ rfl h))
  · exact M.plannerNotice _ (load (M.setPlay _ rfl h))
  all_goals exact h

theorem takeGone (M : PlayMoves K) (p : Nat) (h : K s) : K (takeGone p s) := by
  unfold Machine.takeGone
  have rest : K (if p ≠ s.play.disc.position then Machine.strayAnswer s
      else if s.play.confirming = true then Machine.loseDisc .noDisc s else Machine.driveAway false false s) := by
    split
    · exact M.strayAnswer h
    · split
      · exact M.loseDisc _ h
      · exact M.driveAway _ _ h
  split
  · exact M.unsolicited h
  · split
    · exact M.endLoading _ h
    · exact M.strayAnswer h
  · split
    · exact M.loseDisc _ h
    · exact M.strayAnswer h
  all_goals exact rest

theorem playRestart (M : PlayMoves K) (h : K s) : K (playRestart s) := by
  unfold Machine.playRestart
  split
  · exact h
  · exact M.queueLoad _ h
  · exact M.enterState _ _ (M.queueLoad _ (M.setPlay _ rfl (M.clearDisc h)))
  all_goals exact M.driveAway _ _ h

theorem playTrayOut (M : PlayMoves K) (h : K s) : K (playTrayOut s) := by
  unfold Machine.playTrayOut
  dsimp only
  split
  · exact h
  · exact M.endLoading _ h
  · exact M.enterState _ _ (M.clearDisc (M.sealEntry _ h))
  · exact M.enterState _ _ (M.stopRequest (M.setPlay _ rfl (M.sealEntry _ h)))
  · exact M.enterState _ _ (M.stopRequest (M.setPlay _ rfl (M.sealEntry _ h)))
  · exact M.coastOrSuspend _ (M.setPlay _ rfl (M.sealEntry _ h))
  · exact M.plannerNotice _ (M.setPlay _ rfl (M.sealEntry _ h))
  · exact M.plannerNotice _ (M.setPlay _ rfl (M.sealEntry _ h))

theorem playTrayIn (M : PlayMoves K) (h : K s) : K (playTrayIn s) := by
  unfold Machine.playTrayIn
  split
  · exact M.loadForConfirmation h
  · exact h

theorem timeOutLoad (M : PlayMoves K) (h : K s) : K (timeOutLoad s) := by
  unfold Machine.timeOutLoad
  dsimp only
  split
  · exact M.endLoading _ (M.setPlay _ rfl (M.countPlay _ h))
  · exact M.loseDisc _ (M.setPlay _ rfl (M.countPlay _ h))

theorem loadTick (M : PlayMoves K) (h : K s) : K (loadTick s) := by
  unfold Machine.loadTick
  split
  · exact M.timeOutLoad h
  · split
    · exact M.setPlay _ rfl h
    · exact h

theorem playStarved (M : PlayMoves K) (h : K s) : K (playStarved s) := by
  unfold Machine.playStarved
  split
  · exact M.enterState _ _ (M.sealAs _ _ h)
  · exact h

theorem supplySuspends (M : PlayMoves K) (h : K s) : K (supplySuspends s) :=
  M.txRequest _ ⟨nofun, nofun⟩ (M.sealEntry _ (M.stopRequest h))

theorem playSupplyWarning (M : PlayMoves K) (h : K (Machine.mapPlay (fun p => { p with supplyWarned := true }) s)) :
    K (playSupplyWarning s) := by
  unfold Machine.playSupplyWarning
  dsimp only
  split
  · exact M.enterState _ _ (M.countPlay _ (M.supplySuspends (M.setPlay _ rfl h)))
  · exact M.enterState _ _ (M.countPlay _ (M.supplySuspends (M.setPlay _ rfl h)))
  · exact M.enterState _ _ (M.countPlay _ (M.supplySuspends (M.setPlay _ rfl h)))
  · exact M.enterState _ _ (M.countPlay _ (M.supplySuspends (M.setPlay _ rfl h)))
  · exact M.supplySuspends (M.setPlay _ rfl h)
  all_goals exact h

theorem playSupplyRecovery (M : PlayMoves K)
    (h : K (Machine.mapPlay (fun p => { p with supplyWarned := false, causes := { p.causes with supply := false } }) s)) :
    K (playSupplyRecovery s) := by
  unfold Machine.playSupplyRecovery
  dsimp only
  split
  · split
    · exact M.returnToPlay h
    · exact M.stopRequest (M.enterState _ _ h)
  · exact h

theorem endNotice (M : PlayMoves K) (h : K s) : K (endNotice s) := by
  unfold Machine.endNotice
  dsimp only
  split
  · exact M.enterState _ _ (M.setPlay _ rfl (M.invalidate _ (M.countPlay _ (M.raised _ _ rfl h))))
  · exact M.enterState _ _ (M.clearDisc (M.setPlay _ rfl (M.invalidate _ (M.countPlay _ (M.raised _ _ rfl h)))))

theorem endOfDisc (M : PlayMoves K) (h : K s) : K (endOfDisc s) := by
  unfold Machine.endOfDisc
  split
  · exact h
  · exact M.endNotice (M.mapFeeder _ Feeder.endDisc_sound h)

theorem feederExtent (M : PlayMoves K) (h : K s) : K (feederExtent s) := by
  unfold Machine.feederExtent
  split
  · exact M.endOfDisc h
  · split
    · exact M.mapFeeder _ (fun w => w) h
    · exact h

theorem cutExtent (M : PlayMoves K) (x : Nat) (h : K s) : K (cutExtent x s) := by
  unfold Machine.cutExtent
  dsimp only
  split
  · exact M.feederExtent (M.raiseReady _ _ (M.changeExtent _ (M.setPlay _ rfl h)))
  · exact h

end PlayMoves

end Sys2Proof.Machine
end

