-- ==== Sys2Proof/Laws/Outer.lean ====
section
/-!
SUPPORT. Frames of the planner's side. `KeepsOuter a t`: from `a` to `t` only the slots of the store, the Assembler, the planner, the link
and the record of REPAIR_OVERFLOW may differ; `KeepsOuter.moves` gives it for every operation of Laws/Moves.lean.
-/
namespace Sys2Proof.Machine

/-! ### Records of events -/

/-- The record of an event after a write of one record. -/
theorem Attn.record_setRecord (a : Attn) (i j : Fin 16) (r : EventRecord) :
    (a.setRecord i r).record j = if i = j then r else a.record j := by
  unfold Attn.setRecord Attn.record
  simp only [Fin.getElem_fin, Vector.getElem_set, Fin.val_inj]

/-- A raise changes the record of its own event only. -/
theorem Attn.record_raise_other (a : Attn) (e : Event) (d : Byte) (j : Fin 16) (h : j ≠ e.index) :
    (a.raise e d).record j = a.record j := by
  unfold Attn.raise
  rw [Attn.record_setRecord, if_neg (Ne.symm h)]

/-- The record of an event after it is raised (R190). -/
theorem Attn.record_raise (a : Attn) (e : Event) (d : Byte) :
    (a.raise e d).record e.index =
      { a.record e.index with pending := true, count := satAdd 255 (a.record e.index).count 1, detail := d } := by
  unfold Attn.raise
  rw [Attn.record_setRecord, if_pos rfl]

/-! ### Frames -/

theorem Assembler.Leads.refl (a : Assembler) : a.Leads a := ⟨rfl, rfl, rfl⟩
theorem Assembler.Leads.trans {a b c : Assembler} (h : a.Leads b) (k : b.Leads c) : a.Leads c :=
  ⟨k.intake.trans h.intake, k.counters.trans h.counters, k.expected.trans h.expected⟩

theorem Link.Leads.refl (l : Link) : l.Leads l := ⟨fun h => h, rfl, fun _ _ h => h, fun _ => rfl⟩
theorem Link.Leads.trans {a b c : Link} (h : a.Leads b) (k : b.Leads c) : a.Leads c where
  sound w := k.sound (h.sound w)
  rest := by
    have e := k.rest
    rw [h.rest] at e
    exact e
  other m hm w := k.other m hm (h.other m hm w)
  busy w := by
    have e := h.busy w
    exact (k.busy (by rw [e]; exact w)).trans e

theorem Planner.Leads.refl (p : Planner) : p.Leads p := ⟨rfl, fun w => w⟩
theorem Planner.Leads.trans {a b c : Planner} (h : a.Leads b) (k : b.Leads c) : a.Leads c :=
  ⟨k.answers.trans h.answers, fun w => k.timer (h.timer w)⟩

theorem Store.Leads.refl (t : Store) : t.Leads t := ⟨fun w => w, rfl, rfl⟩
theorem Store.Leads.trans {a b c : Store} (h : a.Leads b) (k : b.Leads c) : a.Leads c :=
  ⟨fun w => k.wf (h.wf w), k.extent.trans h.extent, k.playBlock.trans h.playBlock⟩

/-- From `a` to `t` only the planner's choice may differ: its list, frontier, stream and activity, the alignment and hold causes
of the Assembler, the queue and the transmitter of the link. -/
structure KeepsChoice (a t : State) : Prop where
  store   : t.store = a.store
  health  : t.health = a.health
  feeder  : t.feeder = a.feeder
  play    : t.play = a.play
  sense   : t.sense = a.sense
  supply  : t.supply = a.supply
  resume  : t.resume = a.resume
  console : t.console = a.console
  attn    : t.attn = a.attn
  notices : t.notices = a.notices
  pending : t.pending = a.pending
  asm     : a.asm.Leads t.asm
  planner : a.planner.Leads t.planner
  link    : a.link.Leads t.link

/-! ### One event at the store -/

/-- Handing a notice of readiness changes the notices alone (R16). -/
theorem postReadiness_notices (before : Nat × Bool) (s : State) : ∃ x, postReadiness before s = s.setNotices x := by
  unfold postReadiness
  dsimp only
  split
  · exact ⟨s.notices, rfl⟩
  · exact ⟨_, rfl⟩

/-- An event at the store writes the store and hands at most one notice (R16). -/
theorem changeStore_notices (f : Store → Store) (s : State) : ∃ x, changeStore f s = (s.setStore (f s.store)).setNotices x :=
  postReadiness_notices _ _

section
variable (f : Store → Store) (s : State)

@[simp] theorem changeStore_store : (changeStore f s).store = f s.store := by
  obtain ⟨_, e⟩ := changeStore_notices f s
  rw [e]
  rfl
@[simp] theorem changeStore_health : (changeStore f s).health = s.health := by
  obtain ⟨_, e⟩ := changeStore_notices f s
  rw [e]
  rfl
@[simp] theorem changeStore_feeder : (changeStore f s).feeder = s.feeder := by
  obtain ⟨_, e⟩ := changeStore_notices f s
  rw [e]
  rfl
@[simp] theorem changeStore_play : (changeStore f s).play = s.play := by
  obtain ⟨_, e⟩ := changeStore_notices f s
  rw [e]
  rfl
@[simp] theorem changeStore_sense : (changeStore f s).sense = s.sense := by
  obtain ⟨_, e⟩ := changeStore_notices f s
  rw [e]
  rfl
@[simp] theorem changeStore_supply : (changeStore f s).supply = s.supply := by
  obtain ⟨_, e⟩ := changeStore_notices f s
  rw [e]
  rfl
@[simp] theorem changeStore_resume : (changeStore f s).resume = s.resume := by
  obtain ⟨_, e⟩ := changeStore_notices f s
  rw [e]
  rfl
@[simp] theorem changeStore_console : (changeStore f s).console = s.console := by
  obtain ⟨_, e⟩ := changeStore_notices f s
  rw [e]
  rfl
@[simp] theorem changeStore_attn : (changeStore f s).attn = s.attn := by
  obtain ⟨_, e⟩ := changeStore_notices f s
  rw [e]
  rfl
@[simp] theorem changeStore_asm : (changeStore f s).asm = s.asm := by
  obtain ⟨_, e⟩ := changeStore_notices f s
  rw [e]
  rfl
@[simp] theorem changeStore_planner : (changeStore f s).planner = s.planner := by
  obtain ⟨_, e⟩ := changeStore_notices f s
  rw [e]
  rfl
@[simp] theorem changeStore_link : (changeStore f s).link = s.link := by
  obtain ⟨_, e⟩ := changeStore_notices f s
  rw [e]
  rfl
@[simp] theorem changeStore_pending : (changeStore f s).pending = s.pending := by
  obtain ⟨_, e⟩ := changeStore_notices f s
  rw [e]
  rfl
end

namespace KeepsChoice

theorem refl (a : State) : KeepsChoice a a :=
  ⟨rfl, rfl, rfl, rfl, rfl, rfl, rfl, rfl, rfl, rfl, rfl, Assembler.Leads.refl _, Planner.Leads.refl _,
    Link.Leads.refl _⟩

/-- The frame is kept by every move of a choice. -/
theorem moves (a : State) : ChoiceMoves (KeepsChoice a) where
  setAsm _ w h := { h with asm := h.asm.trans w }
  setPlanner _ w h := { h with planner := h.planner.trans w }
  setLink _ w h := { h with link := h.link.trans w }

theorem settle (s : State) : KeepsChoice s (settle s) := (moves s).settle (refl s)
theorem plannerNotice (b : Bool) (s : State) : KeepsChoice s (plannerNotice b s) := (moves s).plannerNotice b (refl s)
theorem reflow (s : State) : KeepsChoice s (reflow s) := (moves s).reflow (refl s)
theorem plannerRestart (s : State) : KeepsChoice s (plannerRestart s) := (moves s).plannerRestart (refl s)

/-- A flush frees the store and the Intake; the rest is the planner's choice (R14, R44, R70). -/
theorem flushStore (p : Nat) (s : State) :
    KeepsChoice ((changeStore (fun t => t.flush p) s).setAsm { s.asm with intake := [] }) (flushStore p s) := by
  have same : (changeStore (fun t => t.flush p) s).asm = s.asm := changeStore_asm _ s
  have M := moves ((changeStore (fun t => t.flush p) s).setAsm { s.asm with intake := [] })
  rw [← same] at M ⊢
  exact M.settle (M.setFrontier _ (M.absorb _ (M.closeQuiet _ rfl (refl _))))

end KeepsChoice

/-- From `a` to `t` only the planner's side may differ: the slots of the store, the Assembler but its counters, the planner but its counters of
answers, the queue and the transmitter, and the record of REPAIR_OVERFLOW. -/
structure KeepsOuter (a t : State) : Prop where
  health  : t.health = a.health
  feeder  : t.feeder = a.feeder
  play    : t.play = a.play
  sense   : t.sense = a.sense
  supply  : t.supply = a.supply
  resume  : t.resume = a.resume
  console : t.console = a.console
  pending : t.pending = a.pending
  counted : t.asm.counters = a.asm.counters
  planner : a.planner.Leads t.planner
  link    : a.link.Leads t.link
  store   : a.store.Leads t.store
  attn    : ∀ i, i ≠ Event.repairOverflow.index → t.attn.record i = a.attn.record i

namespace KeepsOuter

theorem refl (a : State) : KeepsOuter a a :=
  ⟨rfl, rfl, rfl, rfl, rfl, rfl, rfl, rfl, rfl, Planner.Leads.refl _, Link.Leads.refl _, Store.Leads.refl _, fun _ _ => rfl⟩

/-- The frame is kept by every move of the planner's side. -/
theorem moves (a : State) : PlannerMoves (KeepsOuter a) where
  setAsm _ w h := { h with counted := w.counters.trans h.counted }
  setPlanner _ w h := { h with planner := h.planner.trans w }
  setLink _ w h := { h with link := h.link.trans w }
  setStore _ w h := { h with store := h.store.trans w }
  setNotices _ h := { h with }
  dropIntake h := { h with }
  overflow _ h := { h with attn := fun i hi => (Attn.record_raise_other _ _ _ i hi).trans (h.attn i hi) }

/-- An event at the store: the frame of what follows from what it does there. -/
theorem storeEvent (f : Store → Store) (s : State) : KeepsOuter (s.setStore (f s.store)) (storeEvent f s) :=
  (moves _).storeEventFrom f (refl _)

end KeepsOuter

/-- From `a` to `t` only the planner's side, the feeder and the Play Controller may differ. -/
structure KeepsRest (a t : State) : Prop where
  health  : t.health = a.health
  sense   : t.sense = a.sense
  supply  : t.supply = a.supply
  resume  : t.resume = a.resume
  console : t.console = a.console
  pending : t.pending = a.pending
  warned  : t.play.supplyWarned = a.play.supplyWarned
  counted : t.asm.counters = a.asm.counters
  planner : a.planner.Leads t.planner
  link    : a.link.Leads t.link
  attn    : ∀ i, i ≠ Event.repairOverflow.index → t.attn.record i = a.attn.record i

namespace KeepsRest

theorem refl (a : State) : KeepsRest a a :=
  ⟨rfl, rfl, rfl, rfl, rfl, rfl, rfl, rfl, Planner.Leads.refl _, Link.Leads.refl _, fun _ _ => rfl⟩

theorem trans {a b c : State} (h : KeepsRest a b) (k : KeepsRest b c) : KeepsRest a c :=
  ⟨k.health.trans h.health, k.sense.trans h.sense, k.supply.trans h.supply, k.resume.trans h.resume,
    k.console.trans h.console, k.pending.trans h.pending, k.warned.trans h.warned, k.counted.trans h.counted,
    h.planner.trans k.planner, h.link.trans k.link, fun i hi => (k.attn i hi).trans (h.attn i hi)⟩

/-- The frame is kept by every move of the feeder and the Play Controller that writes no entry and raises no event. -/
theorem moves (a : State) : CueMoves (KeepsRest a) where
  setAsm _ w h := { h with counted := w.counters.trans h.counted }
  setPlanner _ w h := { h with planner := h.planner.trans w }
  setLink _ w h := { h with link := h.link.trans w }
  setStore _ _ h := { h with }
  setNotices _ h := { h with }
  changeStore _ _ h := { h with }
  dropIntake h := { h with }
  overflow _ h := { h with attn := fun i hi => (Attn.record_raise_other _ _ _ i hi).trans (h.attn i hi) }
  setFeeder _ _ h := { h with }
  setPlay _ w h := { h with warned := w.trans h.warned }

/-- What the notices of readiness of a step leave alone (R16). -/
theorem takeNotices (s : State) : KeepsRest s (takeNotices s) := (moves s).takeNotices (refl s)

end KeepsRest

/-- Where no notice was handed, none is taken (R16). -/
theorem takeNotices_none {s : State} (h : s.notices = []) : takeNotices s = s := by
  unfold takeNotices takeHanded
  rw [h]
  cases s
  cases h
  rfl

/-- A command that hands no notice of readiness has its own effect alone. -/
theorem inStep_quiet {f : State → State} {s : State} (h : (f (s.setNotices [])).notices = []) :
    inStep f s = .next ((f (s.setNotices [])).setNotices s.notices) := by
  unfold inStep
  rw [takeNotices_none h]

/-! ### The frames as equations -/

section
variable (s : State)

@[simp] theorem settle_store : (settle s).store = s.store := (KeepsChoice.settle s).store
@[simp] theorem settle_health : (settle s).health = s.health := (KeepsChoice.settle s).health
@[simp] theorem settle_feeder : (settle s).feeder = s.feeder := (KeepsChoice.settle s).feeder
@[simp] theorem settle_play : (settle s).play = s.play := (KeepsChoice.settle s).play
@[simp] theorem settle_sense : (settle s).sense = s.sense := (KeepsChoice.settle s).sense
@[simp] theorem settle_supply : (settle s).supply = s.supply := (KeepsChoice.settle s).supply
@[simp] theorem settle_resume : (settle s).resume = s.resume := (KeepsChoice.settle s).resume
@[simp] theorem settle_console : (settle s).console = s.console := (KeepsChoice.settle s).console
@[simp] theorem settle_attn : (settle s).attn = s.attn := (KeepsChoice.settle s).attn
@[simp] theorem settle_pending : (settle s).pending = s.pending := (KeepsChoice.settle s).pending
@[simp] theorem settle_intake : (settle s).asm.intake = s.asm.intake := (KeepsChoice.settle s).asm.intake
@[simp] theorem settle_counted : (settle s).asm.counters = s.asm.counters := (KeepsChoice.settle s).asm.counters

@[simp] theorem plannerNotice_store (b : Bool) : (plannerNotice b s).store = s.store := (KeepsChoice.plannerNotice b s).store
@[simp] theorem plannerNotice_health (b : Bool) : (plannerNotice b s).health = s.health := (KeepsChoice.plannerNotice b s).health
@[simp] theorem plannerNotice_feeder (b : Bool) : (plannerNotice b s).feeder = s.feeder := (KeepsChoice.plannerNotice b s).feeder
@[simp] theorem plannerNotice_play (b : Bool) : (plannerNotice b s).play = s.play := (KeepsChoice.plannerNotice b s).play
@[simp] theorem plannerNotice_sense (b : Bool) : (plannerNotice b s).sense = s.sense := (KeepsChoice.plannerNotice b s).sense
@[simp] theorem plannerNotice_supply (b : Bool) : (plannerNotice b s).supply = s.supply := (KeepsChoice.plannerNotice b s).supply
@[simp] theorem plannerNotice_resume (b : Bool) : (plannerNotice b s).resume = s.resume := (KeepsChoice.plannerNotice b s).resume
@[simp] theorem plannerNotice_console (b : Bool) : (plannerNotice b s).console = s.console := (KeepsChoice.plannerNotice b s).console
@[simp] theorem plannerNotice_attn (b : Bool) : (plannerNotice b s).attn = s.attn := (KeepsChoice.plannerNotice b s).attn
@[simp] theorem plannerNotice_pending (b : Bool) : (plannerNotice b s).pending = s.pending := (KeepsChoice.plannerNotice b s).pending
@[simp] theorem plannerNotice_intake (b : Bool) : (plannerNotice b s).asm.intake = s.asm.intake := (KeepsChoice.plannerNotice b s).asm.intake
@[simp] theorem plannerNotice_counted (b : Bool) : (plannerNotice b s).asm.counters = s.asm.counters := (KeepsChoice.plannerNotice b s).asm.counters

@[simp] theorem reflow_store : (reflow s).store = s.store := (KeepsChoice.reflow s).store
@[simp] theorem reflow_health : (reflow s).health = s.health := (KeepsChoice.reflow s).health
@[simp] theorem reflow_feeder : (reflow s).feeder = s.feeder := (KeepsChoice.reflow s).feeder
@[simp] theorem reflow_play : (reflow s).play = s.play := (KeepsChoice.reflow s).play
@[simp] theorem reflow_sense : (reflow s).sense = s.sense := (KeepsChoice.reflow s).sense
@[simp] theorem reflow_supply : (reflow s).supply = s.supply := (KeepsChoice.reflow s).supply
@[simp] theorem reflow_resume : (reflow s).resume = s.resume := (KeepsChoice.reflow s).resume
@[simp] theorem reflow_console : (reflow s).console = s.console := (KeepsChoice.reflow s).console
@[simp] theorem reflow_attn : (reflow s).attn = s.attn := (KeepsChoice.reflow s).attn
@[simp] theorem reflow_pending : (reflow s).pending = s.pending := (KeepsChoice.reflow s).pending
@[simp] theorem reflow_intake : (reflow s).asm.intake = s.asm.intake := (KeepsChoice.reflow s).asm.intake
@[simp] theorem reflow_counted : (reflow s).asm.counters = s.asm.counters := (KeepsChoice.reflow s).asm.counters

@[simp] theorem flushStore_store (p : Nat) : (flushStore p s).store = s.store.flush p :=
  (KeepsChoice.flushStore p s).store.trans (changeStore_store _ s)
@[simp] theorem flushStore_health (p : Nat) : (flushStore p s).health = s.health :=
  (KeepsChoice.flushStore p s).health.trans (changeStore_health _ s)
@[simp] theorem flushStore_feeder (p : Nat) : (flushStore p s).feeder = s.feeder :=
  (KeepsChoice.flushStore p s).feeder.trans (changeStore_feeder _ s)
@[simp] theorem flushStore_play (p : Nat) : (flushStore p s).play = s.play :=
  (KeepsChoice.flushStore p s).play.trans (changeStore_play _ s)
@[simp] theorem flushStore_sense (p : Nat) : (flushStore p s).sense = s.sense :=
  (KeepsChoice.flushStore p s).sense.trans (changeStore_sense _ s)
@[simp] theorem flushStore_supply (p : Nat) : (flushStore p s).supply = s.supply :=
  (KeepsChoice.flushStore p s).supply.trans (changeStore_supply _ s)
@[simp] theorem flushStore_resume (p : Nat) : (flushStore p s).resume = s.resume :=
  (KeepsChoice.flushStore p s).resume.trans (changeStore_resume _ s)
@[simp] theorem flushStore_console (p : Nat) : (flushStore p s).console = s.console :=
  (KeepsChoice.flushStore p s).console.trans (changeStore_console _ s)
@[simp] theorem flushStore_attn (p : Nat) : (flushStore p s).attn = s.attn :=
  (KeepsChoice.flushStore p s).attn.trans (changeStore_attn _ s)
@[simp] theorem flushStore_pending (p : Nat) : (flushStore p s).pending = s.pending :=
  (KeepsChoice.flushStore p s).pending.trans (changeStore_pending _ s)
@[simp] theorem flushStore_intake (p : Nat) : (flushStore p s).asm.intake = [] := (KeepsChoice.flushStore p s).asm.intake

@[simp] theorem storeEvent_health (f : Store → Store) : (storeEvent f s).health = s.health := (KeepsOuter.storeEvent f s).health
@[simp] theorem storeEvent_feeder (f : Store → Store) : (storeEvent f s).feeder = s.feeder := (KeepsOuter.storeEvent f s).feeder
@[simp] theorem storeEvent_play (f : Store → Store) : (storeEvent f s).play = s.play := (KeepsOuter.storeEvent f s).play
@[simp] theorem storeEvent_sense (f : Store → Store) : (storeEvent f s).sense = s.sense := (KeepsOuter.storeEvent f s).sense
@[simp] theorem storeEvent_supply (f : Store → Store) : (storeEvent f s).supply = s.supply := (KeepsOuter.storeEvent f s).supply
@[simp] theorem storeEvent_resume (f : Store → Store) : (storeEvent f s).resume = s.resume := (KeepsOuter.storeEvent f s).resume
@[simp] theorem storeEvent_console (f : Store → Store) : (storeEvent f s).console = s.console := (KeepsOuter.storeEvent f s).console
@[simp] theorem storeEvent_extent (f : Store → Store) : (storeEvent f s).store.extent = (f s.store).extent := (KeepsOuter.storeEvent f s).store.extent
@[simp] theorem storeEvent_playBlock (f : Store → Store) : (storeEvent f s).store.playBlock = (f s.store).playBlock :=
  (KeepsOuter.storeEvent f s).store.playBlock
@[simp] theorem storeEvent_pending (f : Store → Store) : (storeEvent f s).pending = s.pending := (KeepsOuter.storeEvent f s).pending

end

/-! ### The notice of readiness -/

/-- Outside STARVED the feeder takes the notice by keeping the primed indication (R124). -/
theorem feederPrimed_feeder (p : Bool) {s : State} (h : s.feeder.state ≠ .starved) :
    feederPrimed p s = s.setFeeder { s.feeder with primed := p } := by
  unfold feederPrimed mapFeeder
  dsimp only
  rw [if_neg]
  simp [h]

/-- A notice taken where the store is not primed leaves the feeder as it is but for the primed indication, STARVED included (R124). -/
theorem feederPrimed_fallen (p : Bool) {s : State} (h : s.store.primed s.console.params.primeDepth = false) :
    feederPrimed p s = s.setFeeder { s.feeder with primed := p } := by
  unfold feederPrimed mapFeeder
  dsimp only
  rw [if_neg]
  simp [h]

/-- Outside CUEING the Play Controller takes the notice by keeping the primed indication and clearing the unprimed mark
(R133). -/
theorem playPrimed_play (p : Bool) {s : State} (h : s.play.state ≠ .cueing) :
    playPrimed p s = s.setPlay { s.play with storePrimed := p, unprimed := s.play.unprimed && !p } := by
  unfold playPrimed mapPlay
  dsimp only
  rw [if_neg]
  simp [h]

/-- Outside STARVED and CUEING one notice of readiness changes no state of the feeder or the Play Controller. -/
theorem takeReadiness_still (p : Bool) {s : State} (hf : s.feeder.state ≠ .starved) (hp : s.play.state ≠ .cueing) :
    takeReadiness s p =
      (s.setFeeder { s.feeder with primed := p }).setPlay
        { s.play with storePrimed := p, unprimed := s.play.unprimed && !p } := by
  unfold takeReadiness
  rw [feederPrimed_feeder _ hf]
  exact playPrimed_play _ (s := s.setFeeder _) hp

/-- Outside STARVED a notice that the store is not primed changes no state either (R146). -/
theorem takeReadiness_unprimed {s : State} (hf : s.feeder.state ≠ .starved) :
    takeReadiness s false = (s.setFeeder { s.feeder with primed := false }).setPlay { s.play with storePrimed := false } := by
  unfold takeReadiness
  rw [feederPrimed_feeder _ hf]
  unfold playPrimed mapPlay
  simp

/-- The notices of a step where none of them starts the feeder or ends CUEING: what the last one says is kept, no other
notice is handed (R16). -/
theorem takeAll_still (l : List Bool) : ∀ {s : State}, s.feeder.state ≠ .starved → s.play.state ≠ .cueing →
    l.foldl takeReadiness s =
      (s.setFeeder { s.feeder with primed := l.getLastD s.feeder.primed }).setPlay
        { s.play with
          storePrimed := l.getLastD s.play.storePrimed
          unprimed := s.play.unprimed && l.all (!·) } := by
  induction l with
  | nil =>
    intro s _ _
    simp
    rfl
  | cons p rest ih =>
    intro s hf hp
    rw [List.foldl_cons, takeReadiness_still p hf hp, List.all_cons, List.getLastD_cons, List.getLastD_cons, ← Bool.and_assoc]
    exact ih (s := (s.setFeeder { s.feeder with primed := p }).setPlay
      { s.play with storePrimed := p, unprimed := s.play.unprimed && !p }) hf hp

theorem takeNotices_still {s : State} (hf : s.feeder.state ≠ .starved) (hp : s.play.state ≠ .cueing) :
    takeNotices s =
      ((s.setNotices []).setFeeder { s.feeder with primed := s.notices.getLastD s.feeder.primed }).setPlay
        { s.play with
          storePrimed := s.notices.getLastD s.play.storePrimed
          unprimed := s.play.unprimed && s.notices.all (!·) } := by
  have one : takeHanded s =
      ((s.setNotices []).setFeeder { s.feeder with primed := s.notices.getLastD s.feeder.primed }).setPlay
        { s.play with
          storePrimed := s.notices.getLastD s.play.storePrimed
          unprimed := s.play.unprimed && s.notices.all (!·) } := takeAll_still s.notices (s := s.setNotices []) hf hp
  unfold takeNotices
  rw [one]
  rfl

/-! ### A flushed store -/

/-- A store with no slot listed is ready nowhere (R6, R11). -/
theorem Store.readyDepth_empty {t : Store} (h : t.slots = []) : t.readyDepth = 0 := by
  have free : ∀ b, t.stateOf b = .free := by
    intro b
    unfold Store.stateOf Store.slotOf Store.slotAt
    rw [h]
    split <;> rfl
  unfold Store.readyDepth
  cases t.length with
  | zero => rfl
  | succ n =>
    unfold Store.readyFrom
    rw [free]
    rfl

/-- After a flush the store is not primed, Prime Depth being above 0 (R11, R14, R183). -/
theorem Store.flush_unprimed (t : Store) (p : Nat) {depth : Nat} (h : 0 < depth) : (t.flush p).primed depth = false := by
  unfold Store.primed
  rw [Store.readyDepth_empty rfl]
  simp only [Bool.or_eq_false_iff, Bool.and_eq_false_iff, decide_eq_false_iff_not]
  exact ⟨by omega, Or.inl (by omega)⟩

end Sys2Proof.Machine
end

