-- ==== Sys2Proof/Laws/PerInstr.lean ====
section
/-!
SUPPORT. One lemma per command for each statement about commands as syntax: `Unspelled`, no word spells the command (the
table of the block gives no row any bits).
-/
namespace Sys2Proof.Laws.Unspelled

/-- No word spells the command. -/
def Statement (i : Instr) : Prop := ∀ nbits w : Nat, decodeTableWord nbits w ≠ some i

theorem powerOnReset : ∀ addr retention, Statement (.powerOnReset addr retention) := fun _ _ _ _ => nofun
theorem systemReset : ∀ cause addr retention, Statement (.systemReset cause addr retention) := fun _ _ _ _ _ => nofun
theorem blockTick : Statement .blockTick := fun _ _ => nofun
theorem recovery : Statement .recovery := fun _ _ => nofun
theorem seekTimeout : Statement .seekTimeout := fun _ _ => nofun
theorem loadTimeout : Statement .loadTimeout := fun _ _ => nofun
theorem clockLoss : Statement .clockLoss := fun _ _ => nofun
theorem frameDemand : ∀ leftClocks rightClocks, Statement (.frameDemand leftClocks rightClocks) := fun _ _ _ _ => nofun
theorem block : ∀ noise stream bn tag samples erasures, Statement (.block noise stream bn tag samples erasures) := fun _ _ _ _ _ _ _ _ => nofun
theorem placement : Statement .placement := fun _ _ => nofun
theorem landed : ∀ noise stream bn, Statement (.landed noise stream bn) := fun _ _ _ _ _ => nofun
theorem refused : ∀ noise stream reason, Statement (.refused noise stream reason) := fun _ _ _ _ _ => nofun
theorem jump : ∀ noise stream lastGood landing monitorFirst, Statement (.jump noise stream lastGood landing monitorFirst) := fun _ _ _ _ _ _ _ => nofun
theorem settled : ∀ noise stream, Statement (.settled noise stream) := fun _ _ _ _ => nofun
theorem disc : ∀ noise stream tag extent position, Statement (.disc noise stream tag extent position) := fun _ _ _ _ _ _ _ => nofun
theorem gone : ∀ noise stream position, Statement (.gone noise stream position) := fun _ _ _ _ _ => nofun
theorem rateMark : ∀ noise span, Statement (.rateMark noise span) := fun _ _ _ _ => nofun
theorem lostMessage : ∀ chars, Statement (.lostMessage chars) := fun _ _ _ => nofun
theorem driveRestart : ∀ order, Statement (.driveRestart order) := fun _ _ _ => nofun
theorem transmitterRelease : Statement .transmitterRelease := fun _ _ => nofun
theorem transmissionComplete : Statement .transmissionComplete := fun _ _ => nofun
theorem trayIn : Statement .trayIn := fun _ _ => nofun
theorem trayOut : Statement .trayOut := fun _ _ => nofun
theorem shockChange : ∀ level, Statement (.shockChange level) := fun _ _ _ => nofun
theorem levelLatch : ∀ pin level, Statement (.levelLatch pin level) := fun _ _ _ _ => nofun
theorem supplyWarning : ∀ vsense, Statement (.supplyWarning vsense) := fun _ _ _ => nofun
theorem supplyRecovery : Statement .supplyRecovery := fun _ _ => nofun
theorem select : Statement .select := fun _ _ => nofun
theorem play : Statement .play := fun _ _ => nofun
theorem pause : Statement .pause := fun _ _ => nofun
theorem continuePlay : Statement .continuePlay := fun _ _ => nofun
theorem stop : Statement .stop := fun _ _ => nofun
theorem set : Statement .set := fun _ _ => nofun
theorem get : Statement .get := fun _ _ => nofun
theorem readResume : Statement .readResume := fun _ _ => nofun
theorem clearResume : Statement .clearResume := fun _ _ => nofun
theorem readSlot : Statement .readSlot := fun _ _ => nofun
theorem readRepair : Statement .readRepair := fun _ _ => nofun
theorem readCounters : Statement .readCounters := fun _ _ => nofun
theorem clearCounters : Statement .clearCounters := fun _ _ => nofun
theorem softReset : Statement .softReset := fun _ _ => nofun
theorem unknownCommand : ∀ code, Statement (.unknownCommand code) := fun _ _ _ => nofun
theorem mailboxCollision : ∀ register value, Statement (.mailboxCollision register value) := fun _ _ _ _ => nofun
theorem paramWrite : ∀ index value, Statement (.paramWrite index value) := fun _ _ _ _ => nofun
theorem registerPointer : ∀ address pointer, Statement (.registerPointer address pointer) := fun _ _ _ _ => nofun
theorem ack : ∀ value, Statement (.ack value) := fun _ _ _ => nofun
theorem threshold : ∀ value, Statement (.threshold value) := fun _ _ _ => nofun
theorem eventIndex : ∀ value, Statement (.eventIndex value) := fun _ _ _ => nofun
theorem eventEnable : ∀ value, Statement (.eventEnable value) := fun _ _ _ => nofun
theorem eventLevel : ∀ value, Statement (.eventLevel value) := fun _ _ _ => nofun
theorem readOnlyWrite : ∀ register value, Statement (.readOnlyWrite register value) := fun _ _ _ _ => nofun
theorem snapshotLatch : ∀ count, Statement (.snapshotLatch count) := fun _ _ _ => nofun
theorem overrunAtHeader : ∀ noise stream, Statement (.overrunAtHeader noise stream) := fun _ _ _ _ => nofun
theorem transmitterIdle : Statement .transmitterIdle := fun _ _ => nofun
theorem lineIdle : Statement .lineIdle := fun _ _ => nofun
theorem discardingCharacter : ∀ char, Statement (.discardingCharacter char) := fun _ _ _ => nofun
theorem supplySample : ∀ vsense, Statement (.supplySample vsense) := fun _ _ _ => nofun
theorem cancellerSample : ∀ pin level, Statement (.cancellerSample pin level) := fun _ _ _ _ => nofun
theorem transactionEnd : Statement .transactionEnd := fun _ _ => nofun

end Sys2Proof.Laws.Unspelled
end

