-- ==== Sys2Proof/Laws/Play.lean ====
section
/-!
SUPPORT. The requests of the Play Controller as equations: what each leaves in the Play Controller, the feeder, the store and the
Resume Table, so that a proof about a play command rewrites with these and unfolds none of them.
-/
namespace Sys2Proof.Machine

section
variable (s : State)

/-! ### The play state -/

@[simp] theorem Play.enter_state (p : Play) (x : PlayState) : (p.enter x).state = x := rfl
@[simp] theorem Play.enter_causes (p : Play) (x : PlayState) : (p.enter x).causes = p.causes := rfl
@[simp] theorem enterState_play (x : PlayState) (b : Bool) : (enterState x b s).play = s.play.enter x := plannerNotice_play _ b
@[simp] theorem enterState_feeder (x : PlayState) (b : Bool) : (enterState x b s).feeder = s.feeder := plannerNotice_feeder _ b
@[simp] theorem enterState_store (x : PlayState) (b : Bool) : (enterState x b s).store = s.store := plannerNotice_store _ b
@[simp] theorem enterState_resume (x : PlayState) (b : Bool) : (enterState x b s).resume = s.resume := plannerNotice_resume _ b
@[simp] theorem enterState_attn (x : PlayState) (b : Bool) : (enterState x b s).attn = s.attn := plannerNotice_attn _ b
@[simp] theorem enterState_console (x : PlayState) (b : Bool) : (enterState x b s).console = s.console := plannerNotice_console _ b
@[simp] theorem enterState_health (x : PlayState) (b : Bool) : (enterState x b s).health = s.health := plannerNotice_health _ b
@[simp] theorem countPlay_play (f : PlayCounters → PlayCounters) :
    (countPlay f s).play = { s.play with counters := f s.play.counters } := rfl
@[simp] theorem mapPlay_play (g : Play → Play) : (mapPlay g s).play = g s.play := rfl
@[simp] theorem mapFeeder_play (g : Feeder → Feeder) : (mapFeeder g s).play = s.play := rfl
@[simp] theorem raise_play (e : Event) (d : Nat) : (raise e d s).play = s.play := rfl
@[simp] theorem txRequest_play (m : TxMsg) : (txRequest m s).play = s.play := rfl
@[simp] theorem resumeWrite_play (p : Nat) (e : ResumeEntry) : (resumeWrite p e s).play = s.play := rfl
@[simp] theorem invalidate_play (p : Nat) : (invalidate p s).play = s.play := rfl
@[simp] theorem raiseReady_play (r : ReadyReason) (p : Nat) : (raiseReady r p s).play = s.play := rfl

/-! ### Requests of the store and the feeder -/

@[simp] theorem changeExtent_play (e : Nat) : (changeExtent e s).play = s.play := by
  unfold changeExtent
  split <;> simp

@[simp] theorem changeExtent_feeder (e : Nat) : (changeExtent e s).feeder = s.feeder := by
  unfold changeExtent
  split <;> simp

@[simp] theorem changeExtent_console (e : Nat) : (changeExtent e s).console = s.console := by
  unfold changeExtent
  split <;> simp

@[simp] theorem changeExtent_extent (e : Nat) : (changeExtent e s).store.extent = e := by
  unfold changeExtent
  split
  · assumption
  · simp [Store.setExtent]

@[simp] theorem requestFlush_play (b : Nat) : (requestFlush b s).play = { s.play with storePrimed := false } := flushStore_play _ b
@[simp] theorem requestFlush_feeder (b : Nat) : (requestFlush b s).feeder = s.feeder := flushStore_feeder _ b
@[simp] theorem requestFlush_store (b : Nat) : (requestFlush b s).store = s.store.flush b := flushStore_store _ b
@[simp] theorem cueAt_play (b f : Nat) : (cueAt b f s).play = { s.play with storePrimed := false } := requestFlush_play _ b
@[simp] theorem cueAt_feeder (b f : Nat) : (cueAt b f s).feeder = s.feeder.cue (rampLength s) b f := requestFlush_feeder _ b
@[simp] theorem cueAt_store (b f : Nat) : (cueAt b f s).store = s.store.flush b := requestFlush_store _ b
@[simp] theorem stopRequest_play : (stopRequest s).play = s.play := rfl
@[simp] theorem flushAtCursor_play : (flushAtCursor s).play = { s.play with storePrimed := false } :=
  requestFlush_play s s.feeder.block
@[simp] theorem declareEntry_play : (declareEntry s).play = s.play := storeEvent_play s _

/-- Clear the disc (R136): the record, the causes and the marks. -/
@[simp] theorem clearDisc_play :
    (clearDisc s).play =
      { s.play with
        disc := DiscRecord.empty, causes := Causes.none, confirming := false, pauseOnPrime := false
        unprimed := false, storePrimed := false } := by
  unfold clearDisc
  simp

@[simp] theorem clearDisc_feeder : (clearDisc s).feeder = s.feeder.cue (rampLength s) 0 0 := by
  unfold clearDisc
  rw [cueAt_feeder, changeExtent_feeder]
  unfold rampLength
  rw [changeExtent_console]
  rfl

/-- Clear the disc (R5, R14, R136): an empty store with P and extent 0. -/
@[simp] theorem clearDisc_store : (clearDisc s).store = ⟨0, 0, []⟩ := by
  unfold clearDisc
  rw [cueAt_store]
  unfold Store.flush
  simp

/-- LOAD leaves the Play Controller with a timer at 0 and the counter raised (R143). -/
@[simp] theorem queueLoad_play (p : Nat) :
    (queueLoad p s).play =
      { s.play with loadTimer := 0, counters := { s.play.counters with load := bump s.play.counters.load } } := rfl

@[simp] theorem loadForConfirmation_play :
    (loadForConfirmation s).play =
      { s.play with
        loadTimer := 0, confirming := true, counters := { s.play.counters with load := bump s.play.counters.load } } := rfl

@[simp] theorem sealAs_play (m : SaveMode) (c : SealCause) : (sealAs m c s).play = s.play := by
  unfold sealAs
  dsimp only
  split <;> rfl

@[simp] theorem sealAs_feeder (m : SaveMode) (c : SealCause) : (sealAs m c s).feeder = s.feeder := by
  unfold sealAs
  dsimp only
  split <;> rfl

@[simp] theorem sealEntry_play (c : SealCause) : (sealEntry c s).play = s.play := sealAs_play s _ c
@[simp] theorem sealEntry_feeder (c : SealCause) : (sealEntry c s).feeder = s.feeder := sealAs_feeder s _ c
@[simp] theorem supplySuspends_play : (supplySuspends s).play = s.play := sealEntry_play (stopRequest s) _

@[simp] theorem playRequest_play : (playRequest s).play = s.play := by
  unfold playRequest
  split
  · exact declareEntry_play _
  · rfl
  · split
    · exact declareEntry_play _
    · rfl
  · rfl
  · rfl

@[simp] theorem feederPrimed_play (p : Bool) : (feederPrimed p s).play = s.play := by
  unfold feederPrimed
  dsimp only
  split
  · exact declareEntry_play _
  · rfl

end

/-- The end of CUEING (R146). -/
theorem leaveCueing_play (s : State) :
    (leaveCueing s).play =
      if s.play.pauseOnPrime = true then ({ s.play with pauseOnPrime := false } : Play).enter .paused
      else s.play.enter .playing := by
  unfold leaveCueing
  split
  · exact enterState_play _ _ _
  · simp

end Sys2Proof.Machine
end

