-- ==== Sys2Proof/Laws/Rows.lean ====
section
/-!
SUPPORT. What every command can do, said once: `AllMoves K` adds to the moves of the planner and the Play Controller those of
the Monitor, the senses, the Supply Watch and the Console Port; then K is kept by every command but the three resets, for
which the caller says what holds after them (`exec_keeps`, `step_keeps`).
-/
namespace Sys2Proof.Machine

/-- A change of the two scores alone; the skip score stands while WITHDRAWN (R76, R77, R82). -/
structure Health.Scored (h x : Health) : Prop where
  state   : x.state = h.state
  pace    : x.pace = h.pace
  quiet   : x.quiet = h.quiet
  skip    : h.skip ≤ 511 → x.skip ≤ 511
  erasure : h.erasure ≤ 255 → x.erasure ≤ 255
  frozen  : h.state = .withdrawn → x.skip = h.skip

theorem satAdd_le (largest count amount : Nat) : satAdd largest count amount ≤ largest := Nat.min_le_left _ _

theorem Health.scored_skip (h : Health) (amount : Nat) (w : h.state ≠ .withdrawn) :
    h.Scored { h with skip := satAdd 511 h.skip amount } :=
  ⟨rfl, rfl, rfl, fun _ => satAdd_le _ _ _, fun k => k, fun k => absurd k w⟩

theorem Health.scored_report (h : Health) (cls : ErasureClass) (inSequence : Bool) : h.Scored (h.report cls inSequence) := by
  unfold Health.report
  split
  · split
    · refine ⟨rfl, rfl, rfl, fun k => ?_, fun k => ?_, fun k => ?_⟩
      · dsimp only
        split
        · exact k
        · exact Nat.le_trans (Nat.sub_le _ _) k
      · exact Nat.le_trans (Nat.sub_le _ _) k
      · dsimp only
        rw [if_pos k]
    · exact ⟨rfl, rfl, rfl, fun k => k, fun k => k, fun _ => rfl⟩
  · exact ⟨rfl, rfl, rfl, fun k => k, fun _ => satAdd_le _ _ _, fun _ => rfl⟩
  · exact ⟨rfl, rfl, rfl, fun k => k, fun _ => satAdd_le _ _ _, fun _ => rfl⟩

/-- K is kept, beside the moves of the planner and the Play Controller, by changes of the Monitor, of the link and of the
Assembler, by the planner's counters of answers, and by any event. -/
structure DriveMoves (K : State → Prop) : Prop extends PlayMoves K where
  setAny : ∀ {s : State} (x : Assembler), K s → K (s.setAsm x)
  changePlanner : ∀ {s : State} (x : Planner), K s → K (s.setPlanner x)
  requested : ∀ {s : State} (m : TxMsg), K s → K (Machine.txRequest m s)
  changeLink : ∀ {s : State} (x : Link), (s.link.Sound → x.Sound) → K s → K (s.setLink x)
  raisedAny : ∀ {s : State} (e : Event) (d : Nat), K s → K (raise e d s)
  setHealth : ∀ {s : State} (x : Health), (s.health.Sound → x.Sound) → K s → K (s.setHealth x)
  rederived : ∀ {s : State} (x : Health), s.health.Scored x → K s → K (rederiveHealth (s.setHealth x))

namespace DriveMoves

variable {K : State → Prop} {s : State}

/-! ### The Monitor -/

theorem countHealth (M : DriveMoves K) (f : HealthCounters → HealthCounters) (h : K s) : K (countHealth f s) :=
  M.setHealth _ (fun w => w) h

theorem addSkip (M : DriveMoves K) (amount : Nat) (h : K s) : K (addSkip amount s) := by
  unfold Machine.addSkip
  split
  · exact h
  · rename_i w
    exact M.rederived _ (Health.scored_skip _ _ w) h

theorem rederiveRough (M : DriveMoves K) (before : Bool) (h : K s) : K (rederiveRough before s) := by
  unfold Machine.rederiveRough
  split
  · exact h
  · split
    · exact M.raisedAny _ _ (M.retryLimitChanged h)
    · exact M.raisedAny _ _ (M.retryLimitChanged (M.countHealth _ h))

theorem takeReport (M : DriveMoves K) (cls : ErasureClass) (inSequence : Bool) (h : K s) : K (takeReport cls inSequence s) :=
  M.rederiveRough _ (M.rederived _ (Health.scored_report _ _ _) h)

theorem breakQuiet (M : DriveMoves K) (h : K s) : K (breakQuiet s) :=
  M.setHealth _ (fun w => ⟨w.1, w.2.1, w.2.2.1, w.2.2.2.1, Nat.zero_le _⟩) h

theorem monitorJump (M : DriveMoves K) (h : K s) : K (monitorJump s) := by
  unfold Machine.monitorJump
  split
  · exact M.breakQuiet h
  · exact h

theorem monitorShock (M : DriveMoves K) (h : K s) : K (monitorShock s) := by
  unfold Machine.monitorShock
  split
  · exact M.breakQuiet h
  · exact M.addSkip _ h

theorem monitorSettled (M : DriveMoves K) (h : K s) : K (monitorSettled s) := M.setHealth _ (fun w => w) h

theorem recoverHealth (M : DriveMoves K) (h : K s) : K (recoverHealth s) :=
  M.raisedAny _ _ (M.plannerNotice _ (M.requested _ (M.setHealth _
    (fun w => ⟨rfl, rfl, Nat.zero_le _, w.2.2.2.1, Nat.zero_le _⟩) h)))

theorem monitorTick (M : DriveMoves K) (h : K s) : K (monitorTick s) := by
  unfold Machine.monitorTick
  split
  · exact M.recoverHealth h
  · refine M.setHealth _ (fun w => ⟨w.1, w.2.1, w.2.2.1, w.2.2.2.1, ?_⟩) h
    dsimp only
    split
    · exact satAdd_le _ _ _
    · exact w.2.2.2.2

/-! ### The current stream -/

theorem countAnswer (M : DriveMoves K) (f : PlannerCounters → PlannerCounters) (h : K s) : K (countPlanner f s) :=
  M.changePlanner _ h

theorem seekSent (M : DriveMoves K) (n : Nat) (h : K s) : K (seekSent n s) := by
  unfold Machine.seekSent
  dsimp only
  split
  · exact M.changePlanner _ h
  · exact h

theorem countPlacement (M : DriveMoves K) (f : PlacementCounters → PlacementCounters) (h : K s) :
    K (countPlacement f s) := M.setAny _ h
theorem setAlign (M : DriveMoves K) (a : Align) (h : K s) : K (setAlign a s) := M.setAny _ h
theorem staleAnswer (M : DriveMoves K) (h : K s) : K (staleAnswer s) := M.countAnswer _ h

theorem beginLanding (M : DriveMoves K) (l : Nat) (h : K s) : K (beginLanding l s) := by
  unfold Machine.beginLanding
  dsimp only
  split
  · exact M.mapTargetMislocks _ (M.changePlanner _ (M.countAnswer _ h))
  · exact M.changePlanner _ (M.countAnswer _ h)

theorem setUp (M : DriveMoves K) (n start target landing : Nat) (blind : Bool) (h : K s) :
    K (setUp n start target landing blind s) := by
  have k : K ((s.setAsm { s.asm with align := ⟨n, (setUpKindOf start target blind s).phase, start, target, landing, 0⟩
      }).setLink { s.link with lost := false }) := M.changeLink _ (fun w => w) (M.setAny _ h)
  unfold Machine.setUp SetUpKind.report
  dsimp only
  split
  · exact k
  · exact k
  · exact M.raisedAny _ _ (M.countPlacement _ k)
  · exact M.raisedAny _ _ (M.countPlacement _ k)

theorem land (M : DriveMoves K) (landing : Nat) (h : K s) : K (land landing s) := by
  unfold Machine.land
  exact M.settle (M.endCheck (M.changePlanner _ (M.evaluateFlow (M.setUp _ _ _ _ _ (M.beginLanding _ h)))))

theorem takeLanded (M : DriveMoves K) (n landing : Nat) (h : K s) : K (takeLanded n landing s) := by
  unfold Machine.takeLanded
  split
  · exact M.land _ h
  · exact M.staleAnswer h

theorem refuseFrontier (M : DriveMoves K) (h : K s) : K (refuseFrontier s) := by
  unfold Machine.refuseFrontier
  dsimp only
  split
  · exact M.cutExtent _ (M.countAnswer _ (M.setFrontier _ h))
  · exact M.setFrontier _ h

theorem refuseBusy (M : DriveMoves K) (h : K s) : K (refuseBusy s) := by
  have k := M.closeStream .busy (M.countAnswer (fun c => { c with refusedBusy := bump c.refusedBusy }) h)
  unfold Machine.refuseBusy
  dsimp only
  refine M.addSkip _ (M.settle ?_)
  split
  · exact M.refuseFrontier k
  · exact k

theorem refuseRange (M : DriveMoves K) (h : K s) : K (refuseRange s) :=
  M.settle (M.cutExtent _ (M.closeStream _ (M.countAnswer _ h)))

theorem takeRefused (M : DriveMoves K) (n reason : Nat) (h : K s) : K (takeRefused n reason s) := by
  unfold Machine.takeRefused
  split
  · split
    · exact M.refuseBusy h
    · exact M.refuseRange h
  · exact M.staleAnswer h

theorem breakStream (M : DriveMoves K) (h : K s) : K (breakStream s) := M.addSkip _ (M.settle (M.closeStream _ h))

theorem takeJump (M : DriveMoves K) (n : Nat) (h : K s) : K (takeJump n s) := by
  unfold Machine.takeJump
  split
  · exact M.breakStream (M.countAnswer _ h)
  · exact M.staleAnswer h

theorem takeDiscontinuity (M : DriveMoves K) (n : Nat) (h : K s) : K (takeDiscontinuity n s) := by
  unfold Machine.takeDiscontinuity
  split
  · exact M.breakStream h
  · exact M.settle h

theorem takeMislock (M : DriveMoves K) (n : Nat) (h : K s) : K (takeMislock n s) := by
  unfold Machine.takeMislock
  split
  · exact M.addSkip _ (M.settle (M.closeStream _ (M.countAnswer _ (M.mapTargetMislocks _ h))))
  · exact M.settle h

theorem timeOutSeek (M : DriveMoves K) (h : K s) : K (timeOutSeek s) :=
  M.addSkip _ (M.settle (M.closeStream _ (M.countAnswer _ (M.advanceSeekTimer h))))

theorem seekTick (M : DriveMoves K) (h : K s) : K (seekTick s) := by
  unfold Machine.seekTick
  split
  · exact M.timeOutSeek h
  · split
    · exact M.advanceSeekTimer h
    · exact h

/-! ### Placement -/

theorem dropEntry (M : DriveMoves K) (f : PlacementCounters → PlacementCounters) (h : K s) : K (dropEntry f s) :=
  M.reflow (M.countPlacement _ h)
theorem discontinuity (M : DriveMoves K) (h : K s) : K (discontinuity s) :=
  M.takeDiscontinuity _ (M.evaluateFlow (M.clearPhase (M.countPlacement _ h)))
theorem mislock (M : DriveMoves K) (h : K s) : K (mislock s) := M.takeMislock _ (M.evaluateFlow (M.clearPhase h))
theorem reportPlacement (M : DriveMoves K) (n : Nat) (x : IntakeEntry) (d : Option Int) (b : Bool) (h : K s) :
    K (reportPlacement n x d b s) := M.takeReport _ _ (M.takePlacement _ _ _ h)
theorem compareOnly (M : DriveMoves K) (x : IntakeEntry) (h : K s) : K (compareOnly x s) :=
  M.reportPlacement _ _ _ _ (M.evaluateFlow (M.setAlign _ (M.countPlacement _ h)))
theorem placeAt (M : DriveMoves K) (x : IntakeEntry) (d : Int) (a : Option Int) (b : Bool) (h : K s) :
    K (placeAt x d a b s) :=
  M.reportPlacement _ _ _ _ (M.takeSteps _ (mergeSteps_index _ _ _)
    (M.evaluateFlow (M.setAlign _ (M.countPlacement _ h))))

theorem placeInSequence (M : DriveMoves K) (x : IntakeEntry) (h : K s) : K (placeInSequence x s) := by
  unfold Machine.placeInSequence
  dsimp only
  split
  · split
    · exact M.mislock h
    · split
      · exact M.compareOnly _ h
      · exact M.placeAt _ _ _ _ h
  · exact M.placeAt _ _ _ _ h

theorem placeAccepted (M : DriveMoves K) (x : IntakeEntry) (h : K s) : K (placeAccepted x s) := by
  unfold Machine.placeAccepted
  split
  · exact M.placeInSequence _ h
  · split
    · exact M.placeAt _ _ _ _ (M.changeLink _ (fun w => w) h)
    · exact M.discontinuity h

theorem judgeEntry (M : DriveMoves K) (x : IntakeEntry) (h : K s) : K (judgeEntry x s) := by
  unfold Machine.judgeEntry
  split
  · exact M.dropEntry _ h
  · split
    · exact M.dropEntry _ h
    · split
      · exact M.dropEntry _ h
      · exact M.placeAccepted _ h

theorem placement (M : DriveMoves K) (h : K s) : K (placement s) := by
  unfold Machine.placement
  split
  · exact h
  · exact M.judgeEntry _ (M.setAny _ h)

end DriveMoves

/-! ### The Output Feeder's demand -/

theorem Feeder.fadeFrame_sound {f : Feeder} (h : f.Sound) : f.fadeFrame.Sound := by
  unfold Feeder.fadeFrame
  dsimp only
  split <;> exact h

theorem Feeder.beginFade_sound {f : Feeder} (h : f.Sound) (ramp : Nat) : (f.beginFade ramp).Sound := by
  unfold Feeder.beginFade
  split <;> exact h

theorem Feeder.beginFade_gain (f : Feeder) (ramp : Nat) : (f.beginFade ramp).gain = f.gain := by
  unfold Feeder.beginFade
  split <;> rfl

theorem Feeder.starve_sound {f : Feeder} (h : f.Sound) (ramp : Nat) : (f.starve ramp).Sound := by
  refine Feeder.fadeFrame_sound ⟨(Feeder.beginFade_sound h ramp).1, ?_, ?_, fun _ => ⟨rfl, rfl⟩⟩
  · intro k; cases k
  · intro k; cases k

theorem Feeder.stopShort_sound (f : Feeder) (ramp : Nat) : (f.stopShort ramp).Sound := by
  refine Feeder.fadeFrame_sound ⟨Nat.zero_le _, ?_, fun _ => rfl, fun _ => ⟨rfl, rfl⟩⟩
  intro k; cases k

theorem Feeder.clockBack_sound {f : Feeder} (h : f.Sound) (ramp : Nat) : (f.clockBack ramp).Sound := by
  unfold Feeder.clockBack
  dsimp only
  split
  · exact Feeder.start_sound _ _ (by decide)
  · exact Feeder.start_sound _ _ (by decide)
  · refine ⟨Nat.zero_le _, ?_, fun _ => rfl, fun _ => ⟨rfl, rfl⟩⟩
    intro k; cases k
  · exact h
  · exact h

theorem Feeder.steppedGain_le {f : Feeder} (h : f.gain ≤ 128) (ramp : Nat) : f.steppedGain ramp ≤ 128 := by
  unfold Feeder.steppedGain
  split
  · exact Nat.min_le_left _ _
  · exact Nat.le_trans (Nat.sub_le _ _) h
  all_goals exact h

theorem Feeder.advance_fields (f : Feeder) :
    f.advance.gain = f.gain ∧ f.advance.state = f.state ∧ f.advance.run = f.run ∧ f.advance.concealC = f.concealC := by
  unfold Feeder.advance
  split <;> exact ⟨rfl, rfl, rfl, rfl⟩

/-- A frame given in STARTING, RUNNING or STOPPING keeps the feeder's relations. -/
theorem Feeder.give_sound {f : Feeder} (h : f.Sound) (ramp : Nat) (x : Formed)
    (playing : f.state ≠ .silent ∧ f.state ≠ .starved) : (f.give ramp x).advance.Sound := by
  obtain ⟨g, e, _, _⟩ := Feeder.advance_fields (f.give ramp x)
  refine ⟨?_, ?_, ?_, ?_⟩
  · rw [g]
    exact Feeder.steppedGain_le h.1 ramp
  · rw [g, e]
    intro k
    have k' : f.state = .running := k
    show f.steppedGain ramp = 128
    unfold Feeder.steppedGain
    rw [k']
    exact h.2.1 k'
  · rw [e]
    exact fun k => absurd k playing.1
  · rw [e]
    intro k
    rcases k with k | k
    · exact absurd k playing.1
    · exact absurd k playing.2

theorem Feeder.finishRamp_sound {f : Feeder} (h : f.Sound) : f.finishRamp.Sound := by
  unfold Feeder.finishRamp
  split
  · split
    · rename_i g
      refine ⟨h.1, fun _ => g, ?_, ?_⟩
      · intro k; cases k
      · intro k; rcases k with k | k <;> cases k
    · exact h
  · split
    · exact Feeder.rampedDown_sound f
    · exact h
  all_goals exact h

namespace PlayMoves

variable {K : State → Prop} {s : State}

theorem clockReturn (M : PlayMoves K) (h : K s) : K (clockReturn s) := by
  unfold Machine.clockReturn
  split
  · exact M.raised _ _ rfl (M.mapFeeder _ (fun w => Feeder.clockBack_sound w _) h)
  · exact h

theorem boundary (M : PlayMoves K) (b : Nat) (h : K s) : K (boundary b s) := by
  have k := M.playBoundary (b + 1) (M.declareEntry (M.storeEvent (fun t => t.advance b) (fun w => Store.advance_wf w _) h))
  unfold Machine.boundary
  dsimp only
  split
  · exact M.endOfDisc k
  · exact k

theorem raiseConceal (M : PlayMoves K) (x : Formed) (h : K s) : K (raiseConceal x s) := by
  unfold Machine.raiseConceal
  split
  · exact h
  · exact h
  · exact M.raised _ _ rfl h

theorem giveFrame (M : PlayMoves K) (playing : s.feeder.state ≠ .silent ∧ s.feeder.state ≠ .starved) (h : K s) :
    K (giveFrame s) := by
  have same : (Machine.raiseConceal (formFrame s) s).feeder = s.feeder := by
    unfold Machine.raiseConceal
    split <;> rfl
  have k : K (Machine.mapFeeder (fun f => (f.give (rampLength s) (formFrame s)).advance)
      (Machine.raiseConceal (formFrame s) s)) :=
    M.mapFeeder _ (fun w => Feeder.give_sound w _ _ (by rw [same]; exact playing)) (M.raiseConceal _ h)
  unfold Machine.giveFrame
  dsimp only
  split
  · exact M.mapFeeder _ Feeder.finishRamp_sound (M.boundary _ k)
  · exact M.mapFeeder _ Feeder.finishRamp_sound k

theorem starve (M : PlayMoves K) (h : K s) : K (starve s) :=
  M.playStarved (M.raised _ _ rfl (M.mapFeeder _ (fun w => Feeder.starve_sound w _) h))

theorem demandPlaying (M : PlayMoves K) (playing : s.feeder.state ≠ .silent ∧ s.feeder.state ≠ .starved) (h : K s) :
    K (demandPlaying s) := by
  unfold Machine.demandPlaying
  split
  · exact M.endOfDisc (M.mapFeeder _ (fun w => w) h)
  · split
    · split
      · exact M.mapFeeder _ (fun _ => Feeder.stopShort_sound _ _) h
      · exact M.starve h
    · exact M.giveFrame playing h

theorem demand (M : PlayMoves K) (h : K s) : K (demand s) := by
  have k := M.clockReturn (M.mapFeeder (fun f => { f with seen := true }) (fun w => w) h)
  unfold Machine.demand
  dsimp only
  split
  · exact M.mapFeeder _ Feeder.fadeFrame_sound k
  · exact M.mapFeeder _ Feeder.fadeFrame_sound k
  all_goals
    rename_i e
    refine M.demandPlaying ⟨?_, ?_⟩ k <;> rw [e] <;> intro c <;> cases c

theorem frameDemand (M : PlayMoves K) (l r : Nat) (h : K s) : K (frameDemand l r s) :=
  M.mapFeeder _ (fun w => w) (M.demand h)

theorem loseClock (M : PlayMoves K) (h : K s) : K (loseClock s) := M.raised _ _ rfl (M.mapFeeder _ (fun w => w) h)

theorem clockTick (M : PlayMoves K) (h : K s) : K (clockTick s) := by
  unfold Machine.clockTick
  split
  · exact M.loseClock h
  · exact M.mapFeeder _ (fun w => w) h

end PlayMoves

/-! ### The link -/

namespace DriveMoves

variable {K : State → Prop} {s : State}

theorem mapLink (M : DriveMoves K) (g : Link → Link) (hg : s.link.Sound → (g s.link).Sound) (h : K s) : K (mapLink g s) :=
  M.changeLink _ hg h
theorem countLink (M : DriveMoves K) (f : LinkCounters → LinkCounters) (h : K s) : K (countLink f s) :=
  M.changeLink _ (fun w => w) h
theorem setAssembly (M : DriveMoves K) (a : RxAssembly) (h : K s) : K (setAssembly a s) := M.changeLink _ (fun w => w) h
theorem loseMessage (M : DriveMoves K) (x : Loss) (h : K s) : K (loseMessage x s) :=
  M.raisedAny _ _ (M.changeLink _ (fun w => w) h)
theorem overrun (M : DriveMoves K) (h : K s) : K (overrun s) := M.setAssembly _ (M.loseMessage _ (M.countPlacement _ h))

theorem truncate (M : DriveMoves K) (h : K s) : K (truncate s) := by
  unfold Machine.truncate
  split
  · exact M.loseMessage _ h
  all_goals exact h

theorem lineHigh (M : DriveMoves K) (h : K s) : K (lineHigh s) := by
  unfold Machine.lineHigh
  split
  · exact M.mapLink _ Link.lineHigh_sound h
  · exact h

theorem acceptEntry (M : DriveMoves K) (x : IntakeEntry) (h : K s) : K (acceptEntry x s) := M.reflow (M.setAny _ h)

theorem dispatchJump (M : DriveMoves K) (n : Nat) (b : Bool) (h : K s) : K (dispatchJump n b s) := by
  unfold Machine.dispatchJump
  split
  · exact M.takeJump _ (M.monitorJump h)
  · exact M.monitorJump (M.takeJump _ h)

theorem dispatch (M : DriveMoves K) (b : Bool) (m : RxMsg) (h : K s) : K (dispatch b m s) := by
  unfold Machine.dispatch
  split
  · exact M.takeDisc _ _ _ h
  · exact M.acceptEntry _ h
  · exact M.dispatchJump _ _ h
  · exact M.takeLanded _ _ h
  · exact M.takeRefused _ _ h
  · exact M.monitorSettled h
  · exact M.takeGone _ h

theorem deliver (M : DriveMoves K) (b : Bool) (m : RxMsg) (h : K s) : K (deliver b m s) := by
  unfold Machine.deliver
  split
  · exact M.loseMessage _ h
  · exact M.dispatch _ _ (M.countLink _ h)

theorem beginMessage (M : DriveMoves K) (noise : Nat) (h : K s) : K (beginMessage noise s) :=
  M.setAssembly _ (M.truncate (M.mapLink _ (fun w => w) (M.lineHigh h)))

theorem receive (M : DriveMoves K) (noise : Nat) (b : Bool) (m : RxMsg) (h : K s) : K (receive noise b m s) := by
  unfold Machine.receive
  split
  · exact M.deliver _ _ (M.beginMessage _ h)
  · exact h

theorem receiveBlock (M : DriveMoves K) (noise n bn : Nat) (tag : Tag) (v : List Sample) (e : Option (List Nat)) (h : K s) :
    K (receiveBlock noise n bn tag v e s) := by
  unfold Machine.receiveBlock
  dsimp only
  split
  · split
    · exact M.overrun (M.beginMessage _ h)
    · split
      · exact M.setAssembly _ (M.loseMessage _ (M.beginMessage _ h))
      · exact M.deliver _ _ (M.beginMessage _ h)
  · exact h

theorem ownerRestart (M : DriveMoves K) (x : RestartOwner) (h : K s) : K (ownerRestart s x) := by
  unfold Machine.ownerRestart
  split
  · exact M.assemblerRestart h
  · exact M.plannerRestart h
  · exact M.requested _ h
  · exact M.playRestart h

theorem ownerRestarts (M : DriveMoves K) (order : List RestartOwner) : ∀ {s : State}, K s → K (order.foldl Machine.ownerRestart s) := by
  induction order with
  | nil => exact fun h => h
  | cons x rest ih => exact fun h => ih (M.ownerRestart x h)

theorem restartDrive (M : DriveMoves K) (order : List RestartOwner) (h : K s) : K (restartDrive order s) :=
  M.ownerRestarts _ (M.raisedAny _ _ (M.mapLink _ (fun _ => Link.restart_sound _) h))

theorem transmitted (M : DriveMoves K) (h : K s) : K (transmitted s) := by
  have k : ∀ m, K (Machine.mapLink (fun l => l.finish m (linkFormat s)) s) := fun m =>
    M.mapLink _ (fun w => Link.finish_sound w _ _) h
  unfold Machine.transmitted
  dsimp only
  split
  · split
    · exact M.seekSent _ (k _)
    all_goals exact k _
  all_goals exact h

theorem gapOver (M : DriveMoves K) (h : K s) : K (gapOver s) := by
  unfold Machine.gapOver
  split
  · exact M.mapLink _ (fun w => Link.kick_sound w.1) h
  all_goals exact h

end DriveMoves

/-! ### The Console Port, the senses and the supply -/

/-- What a change of the Console Port keeps: no command in progress, and the ranges of the parameters. -/
def Console.Leads (c x : Console) : Prop := (c.Sound → x.Sound) ∧ (c.params.InRange → x.params.InRange)

theorem Console.leads_same {c x : Console} (m : x.mailbox.busy = c.mailbox.busy) (p : x.params = c.params) : c.Leads x :=
  ⟨fun h => m.trans h, fun h => p ▸ h⟩

/-- Writing one parameter leaves the others. -/
theorem Params.get_put (p : Params) {id : Nat} (v : Nat) (low : 1 ≤ id) (high : id ≤ 24) (j : Nat) :
    (p.put id v).get j = if j = id then v else p.get j := by
  split
  · rename_i e
    subst e
    interval_cases j <;> rfl
  · rename_i e
    interval_cases id <;> unfold Params.get <;> split <;> first | rfl | exact absurd rfl e

theorem Params.put_inRange {p : Params} (h : p.InRange) {id v : Nat} (hv : paramInRange id v = true) :
    (p.put id v).InRange := by
  intro j low high
  by_cases k : 1 ≤ id ∧ id ≤ 24
  · rw [Params.get_put p v k.1 k.2]
    split
    · rename_i e
      rw [e]
      exact hv
    · exact h j low high
  · have none : paramRange id = none := by
      unfold paramRange
      split <;> first | rfl | exact absurd ⟨by decide, by decide⟩ k
    unfold paramInRange at hv
    rw [none] at hv
    cases hv

/-- K is kept, beside the moves of the drive's side, by changes of the senses and of the Console Port, by a mailbox command
whose owner keeps it, and by the Supply Watch. -/
structure AllMoves (K : State → Prop) : Prop extends DriveMoves K where
  setSense : ∀ {s : State} (x : Sense), (s.sense.Sound → x.Sound) → K s → K (s.setSense x)
  setConsole : ∀ {s : State} (x : Console), s.console.Leads x → K s → K (s.setConsole x)
  setAttn : ∀ {s : State} (x : Attn), K s → K (s.setAttn x)
  clearResume : ∀ {s : State}, K s → K (s.setResume Resume.clearAll)
  commanded : ∀ {s : State} (code : Byte) (owner : State → Answer), (∀ u, K u → K (owner u).2) → K s →
    K (commandWrite code owner s)
  sampled : ∀ {s : State} (vsense : Nat), K s → K (sampleSupply vsense s)
  settled : ∀ {s : State}, K s → K (supplyTick s)
  recovered : ∀ {s : State}, supplyRecoveryDue s = true → K s → K (recoverSupply s)

theorem Canceller.latch_count {c : Canceller} (h : c.count ≤ 2) (level : Bool) : (c.latch level).count ≤ 2 := by
  unfold Canceller.latch
  dsimp only
  split <;> split <;> first | exact Nat.zero_le _ | (dsimp only; omega)

theorem Canceller.track_count {c : Canceller} (h : c.count ≤ 2) (level : Bool) : (c.track level).count ≤ 2 := by
  unfold Canceller.track
  dsimp only
  split
  · exact Nat.zero_le _
  · split
    · exact Nat.zero_le _
    · dsimp only; omega

theorem Canceller.sample_count {c : Canceller} (h : c.count ≤ 2) (level : Bool) : (c.sample level).count ≤ 2 := by
  unfold Canceller.sample
  split
  · exact Canceller.latch_count h level
  · exact Canceller.track_count h level

/-- A transaction that begins leaves the mailbox and the parameters (R176, R177). -/
theorem Console.beginWrite_same (c : Console) (a : BitVec 7) (p : Byte) :
    (c.beginWrite a p).mailbox = c.mailbox ∧ (c.beginWrite a p).params = c.params := by
  unfold Console.beginWrite
  dsimp only
  split
  · split <;> exact ⟨rfl, rfl⟩
  · exact ⟨rfl, rfl⟩

theorem Console.addressed_same (c : Console) (r : Nat) :
    (c.addressed r).mailbox = c.mailbox ∧ (c.addressed r).params = c.params := by
  unfold Console.addressed
  split
  · exact ⟨rfl, rfl⟩
  · exact Console.beginWrite_same _ _ _

namespace AllMoves

variable {K : State → Prop} {s : State}

theorem mapConsole (M : AllMoves K) (g : Console → Console) (hg : s.console.Leads (g s.console)) (h : K s) :
    K (mapConsole g s) := M.setConsole _ hg h

theorem mapSame (M : AllMoves K) (g : Console → Console) (m : (g s.console).mailbox.busy = s.console.mailbox.busy)
    (p : (g s.console).params = s.console.params) (h : K s) : K (Machine.mapConsole g s) :=
  M.setConsole _ (Console.leads_same m p) h

/-! #### Characters -/

theorem takeRateMark (M : AllMoves K) (span : Option Nat) (h : K s) : K (takeRateMark span s) := by
  have fails : K (Machine.failRate s) := M.raisedAny _ _ (M.countLink _ h)
  unfold Machine.takeRateMark
  split
  · exact fails
  · split
    · rename_i n e
      refine M.countLink _ (M.setConsole _ ⟨fun w => w, fun w => ?_⟩ h)
      refine Params.put_inRange w (id := 20) ?_
      unfold rateLocks at e
      simp only [Bool.and_eq_true, decide_eq_true_eq] at e
      simp [paramInRange, paramRange, e.1.1, e.1.2]
    · exact fails

theorem takeFaulted (M : AllMoves K) (x : CharFault) (h : K s) : K (takeFaulted x s) := by
  unfold Machine.takeFaulted
  split
  · exact M.countLink _ h
  all_goals exact M.setAssembly _ (M.loseMessage _ h)

theorem takeHeader (M : AllMoves K) (b : Byte) (span : Option Nat) (h : K s) : K (takeHeader b span s) := by
  unfold Machine.takeHeader
  split
  · exact M.takeRateMark _ (M.setAssembly _ h)
  · exact M.setAssembly _ (M.loseMessage _ h)
  · split
    · exact M.overrun h
    · exact M.setAssembly _ h

theorem complete (M : AllMoves K) (kind : RxKind) (bytes : List Byte) (h : K s) : K (complete kind bytes s) := by
  unfold Machine.complete
  dsimp only
  split
  · exact M.deliver _ _ (M.setAssembly _ h)
  · exact M.loseMessage _ (M.setAssembly _ h)

theorem takeHeld (M : AllMoves K) (held : List Byte) (h : K s) : K (takeHeld held s) := by
  unfold Machine.takeHeld
  dsimp only
  split
  · exact M.setAssembly _ h
  · exact M.setAssembly _ h
  · split
    · exact M.setAssembly _ (M.loseMessage _ h)
    · split
      · exact M.setAssembly _ h
      · split
        · exact M.complete _ _ h
        · exact M.setAssembly _ h

theorem takeBody (M : AllMoves K) (b : Byte) (h : K s) : K (takeBody b s) := by
  unfold Machine.takeBody
  split
  · exact M.setAssembly _ (M.loseMessage _ h)
  · exact h
  · exact M.takeHeld _ h

theorem assemble (M : AllMoves K) (j : Judged) (span : Option Nat) (h : K s) : K (assemble j span s) := by
  unfold Machine.assemble
  split
  · exact M.takeFaulted _ h
  · split
    · exact M.takeHeader _ _ (M.truncate h)
    · exact M.takeBody _ h

theorem receiveChar (M : AllMoves K) (c : RxChar) (h : K s) : K (receiveChar c s) := by
  unfold Machine.receiveChar
  split
  · dsimp only
    split
    · exact M.lineHigh h
    · exact M.assemble _ _ (M.mapLink _ (fun w => w) (M.lineHigh h))
  · exact h

theorem receiveChars (M : AllMoves K) (chars : List RxChar) : ∀ {s : State}, K s → K (receiveChars chars s) := by
  induction chars with
  | nil => exact fun h => h
  | cons c rest ih => exact fun h => ih (M.takeNotices (M.receiveChar c h))

/-! #### Senses and ticks -/

theorem sampleTray (M : AllMoves K) (level : Bool) (h : K s) : K (sampleTray level s) := by
  unfold Machine.sampleTray
  dsimp only
  split
  · split
    · exact M.playTrayIn (M.raisedAny _ _ (M.setSense _ (fun w => ⟨Canceller.sample_count w.1 _, w.2⟩) h))
    · exact M.playTrayOut (M.raisedAny _ _ (M.setSense _ (fun w => ⟨Canceller.sample_count w.1 _, w.2⟩) h))
  · exact M.setSense _ (fun w => ⟨Canceller.sample_count w.1 _, w.2⟩) h

theorem sampleShock (M : AllMoves K) (level : Bool) (h : K s) : K (sampleShock level s) := by
  unfold Machine.sampleShock
  dsimp only
  split
  · exact M.monitorShock (M.raisedAny _ _ (M.setSense _ (fun w => ⟨w.1, Canceller.sample_count w.2 _⟩) h))
  · exact M.setSense _ (fun w => ⟨w.1, Canceller.sample_count w.2 _⟩) h

theorem samplePin (M : AllMoves K) (pin : SensePin) (level : Bool) (h : K s) : K (samplePin pin level s) := by
  unfold Machine.samplePin
  split
  · exact M.sampleTray _ h
  · exact M.sampleShock _ h

theorem blockTick (M : AllMoves K) (h : K s) : K (blockTick s) :=
  M.clockTick (M.settled (M.monitorTick (M.loadTick (M.seekTick h))))

/-! #### The mailbox and the window -/

theorem dataByte (M : AllMoves K) (effect : Nat → State → State) (he : ∀ r {u : State}, K u → K (effect r u)) (h : K s) :
    K (dataByte effect s) := he _ (M.mapSame _ rfl rfl h)

theorem busWrite (M : AllMoves K) (r : Nat) (effect : Nat → State → State) (he : ∀ r {u : State}, K u → K (effect r u))
    (h : K s) : K (busWrite r effect s) := by
  have same := Console.addressed_same s.console r
  unfold Machine.busWrite
  split
  · exact h
  all_goals exact M.dataByte effect he (M.mapSame _ (congrArg Mailbox.busy same.1) same.2 h)

theorem testedAnswer (result : State → Result) (run : State → State) (hr : K (run s)) (h : K s) :
    K (tested result run s).2 := by
  unfold tested
  split
  · exact hr
  · exact h

theorem respond (M : AllMoves K) (bytes : List Byte) (h : K s) : K (respond bytes s) := M.mapSame _ rfl rfl h

theorem noteFormat (M : AllMoves K) (id : Nat) (h : K s) : K (noteFormat id s) := by
  unfold Machine.noteFormat
  split
  · exact M.mapLink _ (fun w => Link.formatChanging_sound w _) h
  · exact h

theorem paramChanged (M : AllMoves K) (before : Nat × Bool) (id : Nat) (h : K s) : K (paramChanged before id s) := by
  unfold Machine.paramChanged
  split
  · exact M.postReadiness _ h
  · exact M.settle (M.judgeLateness h)
  · exact M.settle h
  · split
    · exact h
    · exact M.retryLimitChanged h
  · exact M.settle (M.judgeLateness h)
  · exact M.mapLink _ Link.switched_sound h
  · exact M.setSense _ (fun w => ⟨Nat.zero_le _, w.2⟩) h
  · exact M.setSense _ (fun w => ⟨w.1, Nat.zero_le _⟩) h
  · exact h

theorem setParam (M : AllMoves K) (id v : Nat) (hv : paramInRange id v = true) (h : K s) : K (setParam id v s) := by
  unfold Machine.setParam
  split
  · exact h
  · exact M.paramChanged _ _ (M.mapConsole _ ⟨fun w => w, fun w => Params.put_inRange w hv⟩ (M.noteFormat id h))

theorem setAnswered (M : AllMoves K) (h : K s) : K (answerSet s).2 := by
  unfold answerSet tested
  split
  · rename_i e
    refine M.setParam _ _ ?_ h
    unfold setResult at e
    dsimp only at e
    split at e
    · assumption
    · cases e
  · exact h

theorem clearCounters (M : AllMoves K) (h : K s) : K (clearCounters s) := by
  have k : K ((s.setAsm { s.asm with counters := PlacementCounters.zero }).setPlanner
      { s.planner with counters := PlannerCounters.zero }) :=
    M.changePlanner _ (M.setAny _ h)
  exact M.setConsole _ (Console.leads_same rfl rfl) (M.setPlay _ rfl (M.setFeeder _ (fun w => w)
    (M.changeLink _ (fun w => w) (M.setHealth _ (fun w => w) k))))

theorem answered (M : AllMoves K) :
    ∀ u, K u → K (answerSelect u).2 ∧ K (answerPlay u).2 ∧ K (answerPause u).2 ∧ K (answerContinue u).2 ∧
      K (answerStop u).2 ∧ K (answerSet u).2 ∧ K (answerGet u).2 ∧ K (answerReadResume u).2 ∧ K (answerClearResume u).2 ∧
      K (answerReadSlot u).2 ∧ K (answerReadRepair u).2 ∧ K (answerReadCounters u).2 ∧ K (answerClearCounters u).2 ∧
      K (answerUnknown u).2 := by
  intro u h
  refine ⟨testedAnswer _ _ (M.runSelect h) h, testedAnswer _ _ (M.runPlay h) h, testedAnswer _ _ (M.runPause h) h,
    testedAnswer _ _ (M.runContinue h) h, testedAnswer _ _ (M.runStop h) h, M.setAnswered h,
    testedAnswer _ _ (M.respond _ h) h, testedAnswer _ _ (M.respond _ h) h, testedAnswer _ _ ?_ h,
    testedAnswer _ _ (M.respond _ h) h, testedAnswer _ _ (M.respond _ h) h, testedAnswer _ _ (M.respond _ h) h,
    M.clearCounters h, h⟩
  split
  · exact M.clearResume h
  · exact M.invalidate _ h

theorem paramWrite (M : AllMoves K) (i : Fin 6) (v : Byte) (h : K s) : K (paramWrite i v s) := by
  unfold Machine.paramWrite
  split
  · exact M.mapSame _ rfl rfl h
  · exact M.mapSame _ rfl rfl h

/-- Every code but SOFT_RESET written to CMD. -/
theorem cmdWrite (M : AllMoves K) (code : Byte) (hc : code.toNat = 0x5A → K (softResetWrite s)) (h : K s) :
    K (cmdWrite code s) := by
  have A := M.answered
  unfold Machine.cmdWrite
  split
  · exact M.commanded _ _ (fun u k => (A u k).1) h
  · exact M.commanded _ _ (fun u k => (A u k).2.1) h
  · exact M.commanded _ _ (fun u k => (A u k).2.2.1) h
  · exact M.commanded _ _ (fun u k => (A u k).2.2.2.1) h
  · exact M.commanded _ _ (fun u k => (A u k).2.2.2.2.1) h
  · exact M.commanded _ _ (fun u k => (A u k).2.2.2.2.2.1) h
  · exact M.commanded _ _ (fun u k => (A u k).2.2.2.2.2.2.1) h
  · exact M.commanded _ _ (fun u k => (A u k).2.2.2.2.2.2.2.1) h
  · exact M.commanded _ _ (fun u k => (A u k).2.2.2.2.2.2.2.2.1) h
  · exact M.commanded _ _ (fun u k => (A u k).2.2.2.2.2.2.2.2.2.1) h
  · exact M.commanded _ _ (fun u k => (A u k).2.2.2.2.2.2.2.2.2.2.1) h
  · exact M.commanded _ _ (fun u k => (A u k).2.2.2.2.2.2.2.2.2.2.2.1) h
  · exact M.commanded _ _ (fun u k => (A u k).2.2.2.2.2.2.2.2.2.2.2.2.1) h
  · rename_i e; exact hc e
  · exact M.commanded _ _ (fun u k => (A u k).2.2.2.2.2.2.2.2.2.2.2.2.2) h

theorem registerWrite (M : AllMoves K) (register : Nat) (v : Byte) (hc : K (softResetWrite s)) (h : K s) :
    K (registerWrite register v s) := by
  unfold Machine.registerWrite
  split
  iterate 5 exact M.setAttn _ h
  iterate 6 exact M.paramWrite _ _ h
  · exact M.cmdWrite _ (fun _ => hc) h
  · exact h

theorem sendByte (M : AllMoves K) (h : K s) : K (sendByte s) := by
  unfold Machine.sendByte
  exact M.mapSame _ rfl rfl h

theorem sendBytes (M : AllMoves K) (n : Nat) : ∀ {s : State}, K s → K (sendBytes n s) := by
  induction n with
  | zero => exact fun h => h
  | succ n ih => exact fun h => ih (M.sendByte h)

end AllMoves

/-- K is kept by every command, if what the three resets leave has it. -/
theorem exec_keeps {K : State → Prop} (M : AllMoves K) (c : Instr) {s t : State}
    (hard : ∀ cause addr x, K (hardReset cause addr x s)) (soft : ∀ {u : State}, K u → K (softReset u)) (h : K s)
    (e : exec c s = .next t) : K t := by
  have softWrite : ∀ {u : State}, K u → K (softResetWrite u) := by
    intro u k
    unfold softResetWrite
    split
    · exact M.mapSame _ rfl rfl k
    · exact soft k
  have written : ∀ (r : Nat) (v : Byte) {u : State}, K u → K (writeByte r v u) :=
    fun _ _ _ k => M.busWrite _ _ (fun _ _ w => M.registerWrite _ _ (softWrite w) w) k
  unfold exec at e
  cases c <;> dsimp only at e
  case powerOnReset => cases e; exact hard _ _ _
  case systemReset => cases e; exact hard _ _ _
  case softReset => cases e; exact written _ _ h
  case blockTick => exact M.inStep M.blockTick h e
  case recovery => exact M.inStep (fun k => by split <;> first | exact M.recoverHealth k | exact k) h e
  case seekTimeout => exact M.inStep (fun k => by split <;> first | exact M.timeOutSeek k | exact k) h e
  case loadTimeout => exact M.inStep (fun k => by split <;> first | exact M.timeOutLoad k | exact k) h e
  case clockLoss => exact M.inStep (fun k => by split <;> first | exact M.loseClock k | exact k) h e
  case frameDemand => exact M.inStep (M.frameDemand _ _) h e
  case block => exact M.inStep (M.receiveBlock _ _ _ _ _ _) h e
  case placement => exact M.inStep M.placement h e
  case landed => exact M.inStep (M.receive _ _ _) h e
  case refused => exact M.inStep (M.receive _ _ _) h e
  case jump => exact M.inStep (M.receive _ _ _) h e
  case settled => exact M.inStep (M.receive _ _ _) h e
  case disc => exact M.inStep (M.receive _ _ _) h e
  case gone => exact M.inStep (M.receive _ _ _) h e
  case rateMark =>
    exact M.inStep (fun k => by
      split
      · exact M.takeRateMark _ (M.beginMessage _ k)
      · exact k) h e
  case lostMessage => exact M.inStep (M.receiveChars _) h e
  case driveRestart => exact M.inStep (fun k => by split <;> first | exact M.restartDrive _ k | exact k) h e
  case transmitterRelease => exact M.inStep M.lineHigh h e
  case transmissionComplete => exact M.inStep M.transmitted h e
  case trayIn => exact M.inStep (M.sampleTray _) h e
  case trayOut => exact M.inStep (M.sampleTray _) h e
  case shockChange => exact M.inStep (M.sampleShock _) h e
  case levelLatch => exact M.inStep (M.samplePin _ _) h e
  case supplyWarning => exact M.inStep (M.sampled _) h e
  case supplyRecovery =>
    exact M.inStep (fun k => by
      split
      · rename_i d; exact M.recovered d k
      · exact k) h e
  case registerPointer =>
    have same := Console.beginWrite_same
    exact M.inStep (fun k => M.mapSame _ (congrArg Mailbox.busy (same _ _ _).1) (same _ _ _).2 k) h e
  case mailboxCollision => exact M.inStep (fun k => M.busWrite _ _ (fun _ _ w => M.mapSame _ rfl rfl w) k) h e
  case snapshotLatch =>
    have same : ∀ c : Console, c.beginRead.mailbox = c.mailbox ∧ c.beginRead.params = c.params := by
      intro c
      unfold Console.beginRead
      split <;> exact ⟨rfl, rfl⟩
    exact M.inStep (fun k => M.sendBytes _ (M.mapSame _ (congrArg Mailbox.busy (same _).1) (same _).2 k)) h e
  case overrunAtHeader =>
    exact M.inStep (fun k => by
      split
      · exact M.takeHeader _ _ (M.beginMessage _ k)
      · exact k) h e
  case transmitterIdle => exact M.inStep M.gapOver h e
  case lineIdle => exact M.inStep M.lineHigh h e
  case discardingCharacter => exact M.inStep (M.receiveChar _) h e
  case supplySample => exact M.inStep (M.sampled _) h e
  case cancellerSample => exact M.inStep (M.samplePin _ _) h e
  case transactionEnd => exact M.inStep (fun k => M.mapSame _ rfl rfl k) h e
  all_goals exact M.inStep (written _ _) h e

/-! ### Building the moves -/

section
variable {K : State → Prop} {s : State}

/-- A property that a change of the Monitor always keeps is kept by a change of the health state. -/
theorem rederived_of (M : PlayMoves K) (requested : ∀ {u : State} (m : TxMsg), K u → K (txRequest m u))
    (raised : ∀ {u : State} (e : Event) (d : Nat), K u → K (raise e d u))
    (any : ∀ {u : State} (y : Health), K u → K (u.setHealth y)) (x : Health) (h : K s) :
    K (rederiveHealth (s.setHealth x)) := by
  have paced : ∀ {u : State} (level : Pace), K u → K (requestPace level u) := by
    intro u level k
    unfold requestPace
    split
    · exact k
    · exact requested _ (any _ k)
  unfold rederiveHealth
  dsimp only
  split
  · exact any _ h
  · exact raised _ _ (paced _ (M.plannerNotice _ (any _ (any _ h))))

/-- A property that a change of the Console Port always keeps is kept by a mailbox command. -/
theorem commanded_of (raised : ∀ {u : State} (e : Event) (d : Nat), K u → K (raise e d u))
    (any : ∀ {u : State} (x : Console), K u → K (u.setConsole x)) (code : Byte) (owner : State → Answer)
    (ho : ∀ u, K u → K (owner u).2) (h : K s) : K (commandWrite code owner s) := by
  unfold commandWrite
  split
  · exact any _ h
  · exact raised _ _ (any _ (ho _ (any _ h)))

/-- A property that a change of the Supply Watch or of the Play Controller always keeps is kept by a supply sample. -/
theorem sampled_of (M : PlayMoves K) (raised : ∀ {u : State} (e : Event) (d : Nat), K u → K (raise e d u))
    (play : ∀ {u : State} (x : Play), K u → K (u.setPlay x))
    (supply : ∀ {u : State} (x : Supply), K u → K (u.setSupply x)) (v : Nat) (h : K s) : K (sampleSupply v s) := by
  unfold sampleSupply
  dsimp only
  split
  · exact raised _ _ (M.playSupplyWarning (play _ (supply _ h)))
  · exact supply _ h

theorem recovered_of (M : PlayMoves K) (raised : ∀ {u : State} (e : Event) (d : Nat), K u → K (raise e d u))
    (play : ∀ {u : State} (x : Play), K u → K (u.setPlay x))
    (supply : ∀ {u : State} (x : Supply), K u → K (u.setSupply x)) (h : K s) : K (recoverSupply s) :=
  raised _ _ (M.playSupplyRecovery (play _ (supply _ h)))

theorem settled_of (M : PlayMoves K) (raised : ∀ {u : State} (e : Event) (d : Nat), K u → K (raise e d u))
    (play : ∀ {u : State} (x : Play), K u → K (u.setPlay x))
    (supply : ∀ {u : State} (x : Supply), K u → K (u.setSupply x)) (h : K s) : K (supplyTick s) := by
  unfold supplyTick
  split
  · exact recovered_of M raised play supply h
  · split
    · exact supply _ h
    · exact h

end

/-! ### What a register write comes to -/

/-- The Console Port after a data byte for a register was taken (R177). -/
def Console.after (c : Console) (register : Nat) : Console :=
  { c with bus := .writing, latch := none, pointer := nextPointer register }

/-- A byte for a register is written to that register where the transaction is not refused, the pointer past it (R177). -/
theorem busWrite_taken {r : Nat} (hr : r < 64) (effect : Nat → State → State) {s : State} (h : s.console.bus ≠ .refused) :
    busWrite r effect s = effect r (s.setConsole (s.console.after r)) := by
  have addressed : (s.console.addressed r).pointer = r ∧
      ({ s.console.addressed r with latch := none, pointer := nextPointer (s.console.addressed r).pointer } : Console) =
        s.console.after r := by
    unfold Console.addressed
    split
    · rename_i e
      exact ⟨e.2, by rw [e.2]; unfold Console.after; rw [← e.1]⟩
    · have low : (BitVec.ofNat 8 r).toNat = r := by
        rw [BitVec.toNat_ofNat]
        omega
      unfold Console.beginWrite
      dsimp only
      rw [if_pos rfl, if_pos (by rw [low]; omega)]
      dsimp only
      rw [low]
      exact ⟨rfl, rfl⟩
  have taken : busWrite r effect s = dataByte effect (mapConsole (fun c => c.addressed r) s) := by
    unfold busWrite
    split
    · rename_i e
      exact absurd e h
    all_goals rfl
  rw [taken]
  show effect (s.console.addressed r).pointer (s.setConsole _) = _
  rw [addressed.1]
  exact congrArg (fun c => effect r (s.setConsole c)) addressed.2

/-- A refused transaction takes no byte (R177). -/
theorem busWrite_refused (r : Nat) (effect : Nat → State → State) {s : State} (h : s.console.bus = .refused) :
    busWrite r effect s = s := by
  unfold busWrite
  rw [h]

/-- The state in which the owner of a mailbox command takes it (R177, R180). -/
def accepted (code : Byte) (s : State) : State :=
  s.setConsole { s.console.after 0x2D with mailbox := s.console.mailbox.accept code }

/-- A code that the table of R194 gives an owner, written to CMD while not BUSY, is taken by the owner and completed (R180,
R181). -/
theorem writeCommand_taken (code : Byte) (owner : State → Answer) {s : State}
    (names : ∀ u, cmdWrite code u = commandWrite code owner u) (busy : s.console.mailbox.busy = false)
    (bus : s.console.bus ≠ .refused) :
    writeCommand code s = completeCommand code (owner (accepted code s)).1 (owner (accepted code s)).2 := by
  unfold writeCommand writeByte
  rw [busWrite_taken (by decide) _ bus]
  show cmdWrite code _ = _
  rw [names]
  unfold commandWrite
  rw [if_neg]
  · rfl
  · show ¬ s.console.mailbox.busy = true
    rw [busy]
    decide

theorem tested_done (result : State → Result) (run : State → State) {s : State} (h : result s = .done) :
    tested result run s = (.done, run s) := by
  unfold tested
  rw [if_pos h]

theorem tested_refused (result : State → Result) (run : State → State) {s : State} (h : result s ≠ .done) :
    tested result run s = (result s, s) := by
  unfold tested
  rw [if_neg h]

/-! ### Writes of the Resume Table -/

theorem Resume.withEntries_sound (entries : Vector ResumeEntry 6) : (Resume.withEntries entries).Sound := rfl
theorem Resume.clearAll_sound : Resume.clearAll.Sound := Resume.withEntries_sound _

theorem Resume.write_sound {r : Resume} (h : r.Sound) (p : Nat) (e : ResumeEntry) : (r.write p e).Sound := by
  unfold Resume.write
  split
  · exact Resume.withEntries_sound _
  · exact h

end Sys2Proof.Machine
end

