-- ==== Sys2Proof/Tests/Slice0.lean ====
section
/-!
SUPPORT. Tests of the author's own work: an ill-formed command for each check of WellFormed, single steps on small states, and
for each statement with hypotheses a state that meets them, one for each clause, at boundary values where a clause has a range.
-/
namespace Sys2Proof.Tests

open Sys2Proof.Machine Sys2Proof.Claims

/-! ### Ill-formed commands are refused -/

/-- One low bit, all samples alike. -/
def low : BitSamples := ⟨false, false, false⟩

/-- One high bit, all samples alike. -/
def high : BitSamples := ⟨true, true, true⟩

/-- A retention image of one byte value throughout. -/
def image (n : Nat) : RetentionImage := ⟨List.replicate n 0, 0x040E⟩

theorem test_wf_power_on_image : (Instr.powerOnReset false (some (image 71))).wf = false := by decide
theorem test_wf_brown_out_image : (Instr.systemReset .brownOut false (some (image 73))).wf = false := by decide
theorem test_wf_resetn_image : (Instr.systemReset .resetn false (some (image 70))).wf = false := by decide
theorem test_wf_block_count : erasuresWf (some ((List.range 65).map (BitVec.ofNat 16))) = false := by decide
theorem test_wf_block_index : erasuresWf (some [588]) = false := by decide
theorem test_wf_block_twice : erasuresWf (some [3, 3]) = false := by decide
theorem test_wf_block :
    (Instr.block 0 1 2 3 (Vector.replicate 588 Sample.zero) (some [588])).wf = false := test_wf_block_index
theorem test_wf_landed : (Instr.landed 0 1 450000).wf = false := by decide
theorem test_wf_refused : (Instr.refused 0 1 3).wf = false := by decide
theorem test_wf_disc_extent : (Instr.disc 0 0 0 0 1).wf = false := by decide
theorem test_wf_disc_large : (Instr.disc 0 0 0 450001 1).wf = false := by decide
theorem test_wf_disc_position : (Instr.disc 0 0 0 1 7).wf = false := by decide
theorem test_wf_gone : (Instr.gone 0 0 0).wf = false := by decide
theorem test_wf_lost_empty : (Instr.lostMessage []).wf = false := by decide
theorem test_wf_lost_short : (Instr.lostMessage [⟨List.replicate 10 low, none⟩]).wf = false := by decide
theorem test_wf_restart_twice :
    (Instr.driveRestart [.planner, .planner, .monitor, .assembler]).wf = false := by decide
theorem test_wf_restart_short : (Instr.driveRestart [.planner, .monitor, .assembler]).wf = false := by decide
theorem test_wf_unknown : (Instr.unknownCommand 0x5A).wf = false := by decide
theorem test_wf_read_only : (Instr.readOnlyWrite 0x20 0).wf = false := by decide
theorem test_wf_snapshot : (Instr.snapshotLatch 0).wf = false := by decide
theorem test_wf_discarding : (Instr.discardingCharacter ⟨List.replicate 14 high, none⟩).wf = false := by decide
theorem test_wf_accepts : (Instr.disc 0 0 0 450000 6).wf = true := by decide

/-! ### Single operations and steps -/

/-- The CRC of the nine ASCII digits, the usual check value of this polynomial and start value. -/
theorem test_crc : crc16 [0x31, 0x32, 0x33, 0x34, 0x35, 0x36, 0x37, 0x38, 0x39] = 0x29B1 := by decide +kernel

/-- The check of six entries that are not valid (R174). -/
theorem test_crc_blank : Resume.crc Resume.blank.entries = Resume.blank.check := by decide +kernel

/-- IDENT reads 0xA2, and the summary is 0 after reset (R190, R194). -/
theorem test_window : windowByte State.reset 0 = 0xA2 ∧ windowByte State.reset 0x1F = 0 := by decide

/-- The header character of HOLD on PLC: marker set, least significant bit first (R92, R108). -/
theorem test_hold_line :
    (TxMsg.line (fun _ => ⟨0, 1⟩) .hold).take 11 =
      [false, false, false, false, false, true, true, false, true, true, true] := by decide

/-- A change to two stop bits after one character of HOLD has begun is kept from the second on (R92). -/
theorem test_format_changes :
    (TxMsg.line (formatOf [(⟨0, 1⟩, 1)] ⟨0, 2⟩) .hold).length = 11 + 12 + 12 := by decide

/-- A straight line from 0 to 100 over three frames (R126). -/
theorem test_lerp : (lerpWord 0 100 1 3, lerpWord 0 100 2 3, lerpWord 0 100 3 3) = (25, 50, 75) := by decide

/-- A value below zero is rounded toward zero (R119). -/
theorem test_scale : scaleWord (-3) 64 128 = -1 := by decide

/-- SELECT at position 2 puts the part in LOADING with LOAD behind the PACE of reset (R138). -/
theorem test_select :
    (match exec .select (State.reset.setConsole
        { State.reset.console with
          mailbox := { State.reset.console.mailbox with param := #v[2, 0, 0, 0, 0, 0] } }) with
      | .next t => (t.play.state, t.play.wanted, t.link.queue, t.console.mailbox.result)
      | .fault _ => (.empty, 0, [], .none)
      | .refused _ => (.empty, 0, [], .none)) = (.loading, 2, [.load 2], .done) := by decide

/-- A write to a PARAM register over the bus (R177, R180). -/
theorem test_param :
    (match exec (.paramWrite 5 0x7F) State.reset with
      | .next t => (t.console.mailbox.param[5], t.console.pointer)
      | .fault _ => (0, 0)
      | .refused _ => (0, 0)) = (0x7F, 0x2D) := by decide

/-! ### Witnesses: states that meet a statement's hypotheses -/

/-- A play state with a disc of 100 blocks at position 1. -/
def inState (x : PlayState) : State :=
  State.reset.setPlay { Play.reset with state := x, disc := ⟨1, 7, 100, true⟩ }

/-- A play state with its return-to state. -/
def returning (x : PlayState) (back : ReturnTo) : State := mapPlay (fun p => { p with returnTo := back }) (inState x)

/-- A feeder state at a cursor. -/
def feeding (x : FeederState) (block frame gain : Nat) (s : State) : State :=
  s.setFeeder { Feeder.reset with state := x, block := block, frame := frame, gain := gain }

/-- A current stream with number 3 and a start BN. -/
def streaming (x : StreamState) (start : Nat) (s : State) : State :=
  s.setPlanner { Planner.reset with stream := { Stream.reset with number := 3, state := x, start := start } }

/-- The Monitor WITHDRAWN with a skip score of 256. -/
def away (settled : Bool) (quiet : Nat) : State :=
  State.reset.setHealth
    { Health.reset with state := .withdrawn, skip := 256, pace := .low, settledSeen := settled, quiet := quiet }

/-- The mailbox with six PARAM bytes. -/
def params (v : Vector Byte 6) (s : State) : State :=
  s.setConsole { s.console with mailbox := { s.console.mailbox with param := v } }

/-- A store of extent 100 that holds a value in one frame. -/
def holding (q : Nat) (x : Frame) (s : State) : State :=
  s.setStore ⟨0, 100, [(q / 588, ⟨[(q % 588, x)], 1, false⟩)]⟩

/-- An intake entry for a stream. -/
def entry (stream bn : Nat) (tag : Tag) : IntakeEntry := ⟨stream, bn, tag, [⟨.good, Sample.zero⟩], .clean⟩

/-- One entry in the Intake, and the alignment state it meets. -/
def placing (x : IntakeEntry) (phase : Phase) (s : State) : State :=
  s.setAsm { Assembler.reset with intake := [x], align := ⟨3, phase, 0, 0, 5, 0⟩ }

theorem test_witness_StepTakesFront :
    (∃ (c : Instr) (rest : List Instr) (s : State), s.pending = c :: rest) ∧ ∃ s : State, s.pending = [] :=
  ⟨⟨.blockTick, [], State.reset.setPending [.blockTick], rfl⟩, State.reset, rfl⟩

theorem test_witness_ResetValues : ∃ e : Event, e ≠ .restarted := ⟨.commandDone, by decide⟩

theorem test_witness_HardResets :
    ∃ s : State, s.resume.check = Resume.crc s.resume.entries ∧ ∀ i : Fin 6, s.resume.entries[i].inRange = true :=
  ⟨State.reset, by decide +kernel, by decide +kernel⟩

/-- An image as a reset recorded RESETN finds it; a check that does not match; one that does, with every entry in range; one that
does, with a mode byte of 3. -/
theorem test_witness_ResumeTableJudged :
    (∃ (m : RetentionImage) (c : Instr), c = .systemReset .resetn false (some m) ∧ m.bytes.length = 72) ∧
    (∃ m : RetentionImage, m.bytes.length = 72 ∧ crc16 m.bytes ≠ m.check) ∧
    (∃ m : RetentionImage, m.bytes.length = 72 ∧ crc16 m.bytes = m.check ∧
      ∀ i : Fin 6, storedEntry ((m.bytes.drop (12 * i.val)).take 12) ≠ none) ∧
    ∃ m : RetentionImage, m.bytes.length = 72 ∧ crc16 m.bytes = m.check ∧
      ∃ i : Fin 6, storedEntry ((m.bytes.drop (12 * i.val)).take 12) = none :=
  ⟨⟨image 72, _, rfl, by decide⟩, ⟨⟨List.replicate 72 0, 0⟩, by decide, by decide +kernel⟩,
    ⟨⟨List.replicate 72 0, 0x040E⟩, by decide, by decide +kernel, by decide +kernel⟩,
    ⟨List.replicate 72 3, crc16 (List.replicate 72 3)⟩, by decide, by decide +kernel, 5, by decide +kernel⟩

theorem test_witness_MailboxFree : ∃ s : State, MailboxFree s := ⟨State.reset, rfl, nofun⟩

/-- Every counter runs, each one tick short of its end. -/
theorem test_witness_BlockTickCounts :
    ∃ s : State,
      (s.planner.stream.timerRuns = true ∧ min 1023 (s.planner.stream.timer + 1) < s.console.params.seekTimeout) ∧
      (s.play.state = .loading ∧ min 2047 (s.play.loadTimer + 1) < s.console.params.loadTimeout) ∧
      ((Withdrawn s ∧ s.health.settledSeen = true ∧ s.health.disturbed = false) ∧
        min 255 (s.health.quiet + 1) < s.console.params.quietCount) ∧
      ((s.supply.warning = true ∧ s.supply.dipped = false) ∧
        min 255 (s.supply.settle + 1) < s.console.params.supplySettle) ∧ s.feeder.seen = true :=
  ⟨{ away true 62 with
      planner := { Planner.reset with stream := { Stream.reset with timer := 148, timerRuns := true } }
      play := { Play.reset with state := .loading, loadTimer := 598 }
      supply := ⟨true, 0, 36, false, .powerOn⟩
      feeder := { Feeder.reset with seen := true } },
    ⟨rfl, by decide⟩, ⟨rfl, by decide⟩, ⟨⟨rfl, rfl, rfl⟩, by decide⟩, ⟨⟨rfl, rfl⟩, by decide⟩, rfl⟩

theorem test_witness_RecoveryRuns :
    ∃ s : State, Withdrawn s ∧ s.health.settledSeen = true ∧ s.health.disturbed = false ∧
      s.console.params.quietCount ≤ min 255 (s.health.quiet + 1) :=
  ⟨away true 63, rfl, rfl, rfl, by decide⟩

theorem test_witness_LoadTimesOut :
    (∃ s : State, s.console.params.loadTimeout ≤ min 2047 (s.play.loadTimer + 1) ∧ s.play.state = .loading) ∧
    (∃ s : State, s.console.params.loadTimeout ≤ min 2047 (s.play.loadTimer + 1) ∧ s.play.state = .coasting ∧
      s.play.confirming = true) ∧
    ∃ s : State, s.console.params.loadTimeout ≤ min 2047 (s.play.loadTimer + 1) ∧ s.play.state = .suspended ∧
      s.play.confirming = true :=
  ⟨⟨State.reset.setPlay { Play.reset with state := .loading, loadTimer := 599 }, by decide, rfl⟩,
    ⟨State.reset.setPlay { Play.reset with state := .coasting, confirming := true, loadTimer := 599 },
      by decide, rfl, rfl⟩,
    State.reset.setPlay { Play.reset with state := .suspended, confirming := true, loadTimer := 599 },
    by decide, rfl, rfl⟩

theorem test_witness_ClockIsLost :
    ∃ s : State, s.feeder.seen = false ∧ s.feeder.clockLost = false ∧ s.feeder.state ≠ .silent :=
  ⟨feeding .running 0 0 128 State.reset, rfl, rfl, nofun⟩

/-- The last cursor position that is not the end of a block, with and without a known extent. -/
theorem test_witness_FramesGiven_running :
    (∃ (s : State) (v : Sample), s.feeder.clockLost = false ∧ s.feeder.state = .running ∧ s.feeder.gain = 128 ∧
      s.feeder.run = .none ∧ s.feeder.concealC = 128 ∧ s.feeder.frame = 586 ∧ playPosition s < s.play.disc.extent * 588 ∧
      s.store.frameAt (playPosition s) = ⟨.good, v⟩) ∧
    ∃ (s : State) (v : Sample), s.feeder.clockLost = false ∧ s.feeder.state = .running ∧ s.feeder.gain = 128 ∧
      s.feeder.run = .none ∧ s.feeder.concealC = 128 ∧ s.feeder.frame = 0 ∧ s.play.disc.extent = 0 ∧
      s.store.frameAt (playPosition s) = ⟨.good, v⟩ :=
  ⟨⟨feeding .running 0 586 128 (holding 586 ⟨.good, ⟨1, 2⟩⟩ (inState .playing)), ⟨1, 2⟩, rfl, rfl, rfl, rfl, rfl, rfl,
      by decide, by decide⟩,
    feeding .running 0 0 128 (holding 0 ⟨.good, ⟨1, 2⟩⟩ State.reset), ⟨1, 2⟩, rfl, rfl, rfl, rfl, rfl, rfl, rfl,
    by decide⟩

/-- A feeder with a fade. -/
def fading (x : FeederState) (left : Nat) : State :=
  State.reset.setFeeder { Feeder.reset with state := x, fade := some ⟨⟨1, 2⟩, 64, left⟩ }

/-- SILENT without a fade; a fade in SILENT at its last frame and in STARVED before it. -/
theorem test_witness_FramesGiven_fades :
    (∃ s : State, s.feeder.clockLost = false ∧ s.feeder.state = .silent ∧ s.feeder.fade = none) ∧
    (∃ (s : State) (d : Fade), s.feeder.clockLost = false ∧ s.feeder.state = .silent ∧ s.feeder.fade = some d ∧
      d.remaining - 1 = 0) ∧
    ∃ (s : State) (d : Fade), s.feeder.clockLost = false ∧ s.feeder.state = .starved ∧ s.feeder.fade = some d ∧
      d.remaining - 1 = 1 :=
  ⟨⟨State.reset, rfl, rfl, rfl⟩, ⟨fading .silent 1, ⟨⟨1, 2⟩, 64, 1⟩, rfl, rfl, rfl, rfl⟩,
    fading .starved 2, ⟨⟨1, 2⟩, 64, 2⟩, rfl, rfl, rfl, rfl⟩

/-- The last frame of a start ramp, and of a stop ramp, of steps of 2. -/
theorem test_witness_FramesGiven_ramps :
    (∃ (s : State) (v : Sample) (g : Nat), s.feeder.clockLost = false ∧ s.feeder.state = .starting ∧ s.feeder.run = .none ∧
      s.feeder.concealC = 128 ∧ s.feeder.frame < 587 ∧ Inside s ∧ s.store.frameAt (playPosition s) = ⟨.good, v⟩ ∧
      g = min 128 (s.feeder.gain + if s.console.params.rampLength = 0 then 128 else 128 / s.console.params.rampLength) ∧
      g = 128) ∧
    ∃ (s : State) (v : Sample) (g : Nat), s.feeder.clockLost = false ∧ s.feeder.state = .stopping ∧ s.feeder.run = .none ∧
      s.feeder.concealC = 128 ∧ s.feeder.frame < 587 ∧ Inside s ∧ s.store.frameAt (playPosition s) = ⟨.good, v⟩ ∧
      g = s.feeder.gain - (if s.console.params.rampLength = 0 then 128 else 128 / s.console.params.rampLength) ∧ g = 0 :=
  ⟨⟨feeding .starting 0 0 126 (holding 0 ⟨.good, ⟨1, 2⟩⟩ State.reset), ⟨1, 2⟩, 128, rfl, rfl, rfl, rfl, by decide,
      Or.inl rfl, by decide, by decide, rfl⟩,
    feeding .stopping 0 0 2 (holding 0 ⟨.good, ⟨1, 2⟩⟩ State.reset), ⟨1, 2⟩, 0, rfl, rfl, rfl, rfl, by decide,
    Or.inl rfl, by decide, by decide, rfl⟩

/-- A block whose frame 1 is ERASED between GOOD frames, the rest ABSENT. -/
def damaged (run : Run) (frame ramp : Nat) : State :=
  ((inState .playing).setStore
    ⟨0, 100, [(0, ⟨[(0, ⟨.good, ⟨1, 2⟩⟩), (1, ⟨.erased, ⟨0, 0⟩⟩), (2, ⟨.good, ⟨5, 6⟩⟩), (3, ⟨.erased, ⟨0, 0⟩⟩)], 1, false⟩)]⟩).setFeeder
    { Feeder.reset with state := .running, gain := 128, run := run, frame := frame } |>.setConsole
    { State.reset.console with params := { Params.default with rampLength := ramp } }

/-- A run of one frame that a GOOD frame ends, within Interpolate Limit; one that an ABSENT frame ends, with a ramp and without. -/
theorem test_witness_FramesGiven_measured :
    (∃ (s : State) (b : Sample), s.feeder.frame < 587 ∧ Inside s ∧ cannotGive s = false ∧ measure s = ⟨1, .endFrame b⟩ ∧
      1 ≤ s.console.params.interpolateLimit ∧ s.feeder.run = .none ∧
      (s.store.frameAt (playPosition s)).mark ≠ .good) ∧
    (∃ (s : State) (m : Measured), measure s = m ∧ (∀ b, m.stop = .endFrame b → s.console.params.interpolateLimit < m.length) ∧
      min s.console.params.rampLength m.length = 0) ∧
    ∃ (s : State) (m : Measured) (n : Nat), measure s = m ∧
      (∀ b, m.stop = .endFrame b → s.console.params.interpolateLimit < m.length) ∧
      min s.console.params.rampLength m.length = n + 1 :=
  ⟨⟨damaged .none 1 64, ⟨5, 6⟩, by decide, Or.inr (by decide), by decide, by decide, by decide, rfl,
      by decide⟩,
    ⟨damaged .none 3 0, ⟨1, .absent⟩, by decide, nofun, rfl⟩,
    damaged .none 3 64, ⟨1, .absent⟩, 0, by decide, nofun, rfl⟩

/-- A frame of the ZERO phase, by feeder state and G, with steps of 2. -/
def formed (x : FeederState) (gain : Nat) : State :=
  mapFeeder (fun f => { f with state := x, gain := gain }) (damaged (.zero 64) 1 64)

/-- A frame a run forms in RUNNING; in STARTING, where G reaches 128; in STOPPING, where G reaches 0, and one step short of it. -/
theorem test_witness_FramesGiven_formed :
    ∀ p ∈ [(FeederState.running, 128), (.starting, 126), (.stopping, 2), (.stopping, 4)], ∃ s : State,
      s.feeder.clockLost = false ∧ s.feeder.frame < 587 ∧ Inside s ∧ cannotGive s = false ∧ s.feeder.state = p.1 ∧
        s.feeder.gain = p.2 ∧ s.console.params.rampLength = 64 := by
  simp only [List.forall_mem_cons]
  refine ⟨⟨formed .running 128, rfl, by decide, Or.inr (by decide), by decide, rfl, rfl, rfl⟩,
    ⟨formed .starting 126, rfl, by decide, Or.inr (by decide), by decide, rfl, rfl, rfl⟩,
    ⟨formed .stopping 2, rfl, by decide, Or.inr (by decide), by decide, rfl, rfl, rfl⟩,
    ⟨formed .stopping 4, rfl, by decide, Or.inr (by decide), by decide, rfl, rfl, rfl⟩, nofun⟩

/-- A run that meets the end of the examination region, and one that reaches 128 frames. -/
theorem test_witness_FramesGiven_limits :
    (∃ s : State, measure s = ⟨1, .region⟩) ∧ ∃ s : State, measure s = ⟨128, .limit⟩ :=
  ⟨⟨(inState .playing).setStore ⟨0, 100, [(0, ⟨[], 0, true⟩)]⟩ |>.setFeeder { Feeder.reset with frame := 587 },
      by decide⟩,
    (inState .playing).setStore ⟨0, 100, [(0, ⟨[], 0, true⟩)]⟩, by decide +kernel⟩

/-- Each run in progress, with ZERO and RISE at a GOOD frame and at another. -/
theorem test_witness_FramesGiven_runs :
    (∃ (s : State) (a b : Sample), s.feeder.run = .interpolate a b 2 1 none) ∧
    (∃ (s : State) (h : Sample), s.feeder.run = .fade h 64 63 64) ∧
    (∃ s : State, s.feeder.run = .zero 64 ∧ (s.store.frameAt (playPosition s)).mark ≠ .good) ∧
    (∃ (s : State) (v : Sample), s.feeder.run = .zero 0 ∧ s.store.frameAt (playPosition s) = ⟨.good, v⟩) ∧
    (∃ (s : State) (v : Sample), s.feeder.run = .zero 64 ∧ s.store.frameAt (playPosition s) = ⟨.good, v⟩) ∧
    (∃ s : State, s.feeder.run = .rise 64 ∧ (s.store.frameAt (playPosition s)).mark ≠ .good) ∧
    ∃ (s : State) (v : Sample), s.feeder.run = .rise 64 ∧ s.store.frameAt (playPosition s) = ⟨.good, v⟩ :=
  ⟨⟨damaged (.interpolate ⟨1, 2⟩ ⟨5, 6⟩ 2 1 none) 1 64, ⟨1, 2⟩, ⟨5, 6⟩, rfl⟩, ⟨damaged (.fade ⟨1, 2⟩ 64 63 64) 1 64, ⟨1, 2⟩, rfl⟩,
    ⟨damaged (.zero 64) 1 64, rfl, by decide⟩, ⟨damaged (.zero 0) 0 64, ⟨1, 2⟩, rfl, by decide⟩,
    ⟨damaged (.zero 64) 0 64, ⟨1, 2⟩, rfl, by decide⟩, ⟨damaged (.rise 64) 1 64, rfl, by decide⟩,
    damaged (.rise 64) 0 64, ⟨1, 2⟩, rfl, by decide⟩

/-- RUNNING at the disc's last frame with a FREE slot, coasting with TRAY or without; STARTING with no known extent and a PARTIAL
slot. -/
theorem test_witness_AbsentFrameStarves :
    (∀ tray : Bool, ∃ s : State, s.feeder.state = .running ∧ s.feeder.clockLost = false ∧
      playPosition s < s.play.disc.extent * 588 ∧ (s.store.frameAt (playPosition s)).mark = .absent ∧
      s.store.declaredAt (playPosition s) = false ∧ s.store.stateOf s.feeder.block = .free ∧
      s.console.params.rampLength = 62 + 2 ∧ s.play.state = .coasting ∧ s.play.causes = ⟨tray, true, false⟩) ∧
    ∃ s : State, s.feeder.state = .starting ∧ s.feeder.clockLost = false ∧ s.play.disc.extent = 0 ∧
      (s.store.frameAt (playPosition s)).mark = .absent ∧ s.store.declaredAt (playPosition s) = false ∧
      s.store.stateOf s.feeder.block = .partly ∧ s.play.state ≠ .coasting :=
  ⟨fun tray => ⟨feeding .running 99 587 128 (mapPlay (fun p => { p with causes := ⟨tray, true, false⟩ }) (inState .coasting)),
      rfl, rfl, by cases tray <;> decide, by cases tray <;> decide, by cases tray <;> decide,
      by cases tray <;> decide, rfl, rfl, rfl⟩,
    feeding .starting 0 0 2 (holding 5 ⟨.good, ⟨1, 2⟩⟩ State.reset), rfl, rfl, rfl, by decide, by decide,
    by decide, nofun⟩

/-- STOPPING at an ABSENT frame, with a ramp and without. -/
theorem test_witness_AbsentFrameStarves_stopping :
    (∃ s : State, s.feeder.state = .stopping ∧ s.feeder.clockLost = false ∧ Inside s ∧
      (s.store.frameAt (playPosition s)).mark = .absent ∧ s.store.declaredAt (playPosition s) = false ∧
      s.console.params.rampLength = 62 + 2) ∧
    ∃ s : State, s.feeder.state = .stopping ∧ s.feeder.clockLost = false ∧ Inside s ∧
      (s.store.frameAt (playPosition s)).mark = .absent ∧ s.store.declaredAt (playPosition s) = false ∧
      s.console.params.rampLength = 0 :=
  ⟨⟨feeding .stopping 0 0 64 (inState .paused), rfl, rfl, Or.inr (by decide), by decide, by decide, rfl⟩,
    (feeding .stopping 0 0 64 (inState .paused)).setConsole
      { State.reset.console with params := { Params.default with rampLength := 0 } },
    rfl, rfl, Or.inr (by decide), by decide, by decide, rfl⟩

/-- A demand at the disc's end, taken and not yet taken; the clock lost. -/
theorem test_witness_AbsentFrameStarves_end :
    (∃ s : State, s.feeder.state = .running ∧ s.feeder.clockLost = false ∧ 0 < s.play.disc.extent ∧
      s.play.disc.extent * 588 = playPosition s ∧ s.feeder.atEnd = false) ∧
    (∃ s : State, s.feeder.state = .stopping ∧ s.feeder.clockLost = false ∧ 0 < s.play.disc.extent ∧
      s.play.disc.extent * 588 = playPosition s ∧ s.feeder.atEnd = true) ∧
    ∃ s : State, s.feeder.clockLost = true ∧ s.feeder.state = .stopping :=
  ⟨⟨feeding .running 100 0 128 (inState .playing), rfl, rfl, by decide, by decide, rfl⟩,
    ⟨(inState .playing).setFeeder { Feeder.reset with state := .stopping, block := 100, atEnd := true }, rfl, rfl, by decide,
      by decide, rfl⟩,
    State.reset.setFeeder { Feeder.reset with state := .stopping, clockLost := true }, rfl, rfl⟩

/-- A feeder with G at its last frame but of a block, in a store of 100 blocks that holds the frame. -/
def lastFrame (x : FeederState) (block gain : Nat) (y : PlayState) : State :=
  feeding x block 587 gain ((inState y).setStore ⟨block, 100, [(block, ⟨[(587, ⟨.good, ⟨1, 2⟩⟩)], 1, false⟩)]⟩)

/-- The last frame of the disc's last block but one and of its last block: RUNNING; STARTING as G reaches 128 and one step short of
it; STOPPING as G reaches 0 and one step short of it; in PLAYING, COASTING and PAUSED. -/
theorem test_witness_AbsentFrameStarves_boundary :
    ∀ p ∈ [(FeederState.running, 128), (.starting, 126), (.starting, 124), (.stopping, 2), (.stopping, 4)],
      ∀ y ∈ [PlayState.playing, .coasting, .paused], ∀ b ∈ [98, 99], ∃ s : State,
        s.feeder.state = p.1 ∧ s.feeder.gain = p.2 ∧ s.console.params.rampLength = 64 ∧ s.feeder.clockLost = false ∧
          s.feeder.frame = 587 ∧ cannotGive s = false ∧ s.store.wf = true ∧ s.feeder.block = s.store.playBlock ∧
          s.play.state = y ∧ s.feeder.block = b ∧ s.play.disc.extent = 100 ∧ s.feeder.atEnd = false := by
  intro p hp y hy b hb
  refine ⟨lastFrame p.1 b p.2 y, rfl, rfl, rfl, rfl, rfl, ?_, ?_, rfl, rfl, rfl, rfl, rfl⟩
  · revert p y b
    decide
  · show Store.wf ⟨b, 100, [(b, ⟨[(587, ⟨.good, ⟨1, 2⟩⟩)], 1, false⟩)]⟩ = true
    revert b
    decide

/-- An empty store of extent 100. -/
def room : State := State.reset.setStore ⟨0, 100, []⟩

/-- Both counts of entries below 2, with the hold causes R41 asks for, and an erasure list at its last index. -/
theorem test_witness_BlockEntersIntake :
    (∃ (e : Option (List (BitVec 16))) (s : State), LinkReady s ∧ s.asm.intake.length = 0 ∧ erasuresWf e = true ∧
      e = none ∧ FlowSound s) ∧
    ∃ (e : Option (List (BitVec 16))) (s : State), LinkReady s ∧ s.asm.intake.length = 1 ∧ erasuresWf e = true ∧
      e = some [587] ∧ FlowSound s ∧ flowHeld s = false ∧ TxMsg.go ∉ s.link.queue :=
  ⟨⟨none, State.reset, ⟨rfl, rfl⟩, rfl, rfl, rfl, by decide, by decide⟩,
    some [587], placing (entry 3 5 7) .searching room, ⟨rfl, rfl⟩, rfl, by decide, rfl, ⟨by decide, by decide⟩, rfl,
    nofun⟩

/-- BLOCK at the second entry holds the flow, and the HOLD requested cancels a GO that still waits (R41, R42). -/
theorem test_hold :
    (match exec (.block 0 3 0 7 (Vector.replicate 588 Sample.zero) none)
        ((placing (entry 3 5 7) .searching room).setLink { Link.reset with tx := .sending (.load 1), queue := [.go] }) with
      | .next t => (t.asm.holdIntake, t.asm.holdWindow, t.link.queue)
      | .fault _ => (false, false, [])
      | .refused _ => (false, false, [])) = (true, false, []) := by decide

/-- A LANDED of the current stream while SEEKING. -/
def Landing (n : BitVec 4) (bn : BitVec 24) (s : State) : Prop :=
  LinkReady s ∧ bn.toNat < 450000 ∧ n.toNat ≠ 0 ∧ n.toNat = s.planner.stream.number ∧ s.planner.stream.state = .seeking

/-- Stream 3 in SEEKING from block 0, Match Run 32, beside a list, the frontier's mislocks and a store. -/
def seeking (purpose : Purpose) (target mislocks : Nat) (list : List RepairEntry) (t : Store) : State :=
  { inState .playing with
    store := t
    console := { State.reset.console with params := { Params.default with matchRun := 32 } }
    planner :=
      { Planner.reset with
        list := list, frontier := ⟨0, mislocks, 0⟩
        stream := { Stream.reset with number := 3, state := .seeking, purpose := purpose, target := target } } }

/-- A store of extent 100 with the first frames of block 0 GOOD, each of a value of its own. -/
def opening (n : Nat) : Store :=
  ⟨0, 100, [(0, ⟨(List.range n).map (fun i => (i, ⟨.good, ⟨BitVec.ofNat 16 (i + 1), 7⟩⟩)), 1, false⟩)]⟩

/-- The landing of a REPAIR stream that serves block 0: nothing held, 31 GOOD frames, 32 of them, and three mislocks; the last block
is the one served, so the stream has not ended. -/
theorem test_witness_LandedTaken :
    (∃ (n : BitVec 4) (bn : BitVec 24) (s : State), Landing n bn s ∧ s.planner.stream.purpose = .repair ∧
      bn.toNat = s.planner.stream.servedLast ∧ s.planner.list.find? RepairEntry.active = none ∧
      s.store.presentIn s.planner.stream.start s.planner.stream.target = 0) ∧
    (∃ (n : BitVec 4) (bn : BitVec 24) (s : State), Landing n bn s ∧ s.planner.stream.purpose = .repair ∧
      bn.toNat = s.planner.stream.servedLast ∧ s.planner.list.find? RepairEntry.active = none ∧
      s.store.presentIn s.planner.stream.start s.planner.stream.target ≠ 0 ∧
      s.store.goodIn s.planner.stream.start s.planner.stream.target + 1 = s.console.params.matchRun) ∧
    (∃ (n : BitVec 4) (bn : BitVec 24) (s : State), Landing n bn s ∧ s.planner.stream.purpose = .repair ∧
      bn.toNat = s.planner.stream.servedLast ∧ s.planner.list.find? RepairEntry.active = none ∧
      s.store.presentIn s.planner.stream.start s.planner.stream.target ≠ 0 ∧
      s.console.params.matchRun = s.store.goodIn s.planner.stream.start s.planner.stream.target) ∧
    ∃ (n : BitVec 4) (bn : BitVec 24) (s : State) (e : RepairEntry), Landing n bn s ∧ s.planner.stream.purpose = .repair ∧
      bn.toNat = s.planner.stream.servedLast ∧ s.planner.list.find? RepairEntry.active = some e ∧ e.mislocks = 3 ∧
      s.store.presentIn s.planner.stream.start s.planner.stream.target ≠ 0 :=
  ⟨⟨3, 0, seeking .repair 1 0 [] (opening 0), ⟨⟨rfl, rfl⟩, by decide, by decide, rfl, rfl⟩, rfl, rfl, rfl, by decide⟩,
    ⟨3, 0, seeking .repair 1 0 [] (opening 31), ⟨⟨rfl, rfl⟩, by decide, by decide, rfl, rfl⟩, rfl, rfl, rfl,
      by decide, by decide⟩,
    ⟨3, 0, seeking .repair 1 0 [] (opening 32), ⟨⟨rfl, rfl⟩, by decide, by decide, rfl, rfl⟩, rfl, rfl, rfl,
      by decide, by decide⟩,
    3, 0, seeking .repair 1 0 [⟨0, 0, 1, 3, true⟩] (opening 32), ⟨0, 0, 1, 3, true⟩,
    ⟨⟨rfl, rfl⟩, by decide, by decide, rfl, rfl⟩, rfl, rfl, rfl, rfl, by decide⟩

/-- A FRONTIER stream with three mislocks and nothing due; one that a due entry pre-empts; one at the disc's end. -/
theorem test_witness_LandedTaken_frontier :
    (∃ (n : BitVec 4) (bn : BitVec 24) (s : State), Landing n bn s ∧ s.planner.stream.purpose = .frontier ∧
      s.planner.frontier.mislocks = 3 ∧ s.planner.list = [] ∧
      ((bn.toNat * 588 : Nat) : Int) + s.planner.stream.offset < (s.store.extent * 588 : Nat)) ∧
    (∃ (n : BitVec 4) (bn : BitVec 24) (s : State) (e : RepairEntry), Landing n bn s ∧
      s.planner.stream.purpose = .frontier ∧ e ∈ s.planner.list ∧
      e.first - s.store.playBlock = s.console.params.repairLead ∧
      ((bn.toNat * 588 : Nat) : Int) + s.planner.stream.offset < (s.store.extent * 588 : Nat)) ∧
    ∃ (n : BitVec 4) (bn : BitVec 24) (s : State), Landing n bn s ∧ s.planner.stream.purpose = .frontier ∧
      ((s.store.extent * 588 : Nat) : Int) = (bn.toNat * 588 : Nat) + s.planner.stream.offset :=
  ⟨⟨3, 99, seeking .frontier 1 3 [] (opening 32), ⟨⟨rfl, rfl⟩, by decide, by decide, rfl, rfl⟩, rfl, rfl, rfl, by decide⟩,
    ⟨3, 99, seeking .frontier 1 0 [⟨96, 96, 0, 0, false⟩] (opening 32), ⟨96, 96, 0, 0, false⟩,
      ⟨⟨rfl, rfl⟩, by decide, by decide, rfl, rfl⟩, rfl, by decide, by decide, by decide⟩,
    3, 100, seeking .frontier 1 0 [] (opening 32), ⟨⟨rfl, rfl⟩, by decide, by decide, rfl, rfl⟩, rfl, by decide⟩

/-- A REPAIR stream that lands beyond the block it serves. -/
theorem test_witness_LandedTaken_ended :
    ∃ (n : BitVec 4) (bn : BitVec 24) (s : State), Landing n bn s ∧ s.planner.stream.purpose = .repair ∧
      s.planner.stream.servedLast + 1 = bn.toNat :=
  ⟨3, 1, seeking .repair 1 0 [] (opening 32), ⟨⟨rfl, rfl⟩, by decide, by decide, rfl, rfl⟩, rfl, rfl⟩

/-- Number 0, another number, and another state, for both kinds of answer. -/
theorem test_witness_StaleAnswersCounted :
    (∃ (n : BitVec 4) (s : State), LinkReady s ∧ n.toNat = 0) ∧
    (∃ (n : BitVec 4) (s : State), LinkReady s ∧ n.toNat ≠ s.planner.stream.number) ∧
    (∃ s : State, LinkReady s ∧ s.planner.stream.state ≠ .seeking ∧ s.planner.stream.state ≠ .none) ∧
    (∃ s : State, LinkReady s ∧ s.planner.stream.state = .none) ∧
    (∃ s : State, LinkReady s ∧ s.planner.stream.state = .seeking) ∧
    (∃ bn : BitVec 24, bn.toNat < 450000) ∧ (∃ reason : Byte, reason = 1) ∧ ∃ reason : Byte, reason = 2 :=
  ⟨⟨0, State.reset, ⟨rfl, rfl⟩, rfl⟩, ⟨15, streaming .seeking 0 State.reset, ⟨rfl, rfl⟩, by decide⟩,
    ⟨streaming .searching 0 State.reset, ⟨rfl, rfl⟩, nofun, nofun⟩, ⟨State.reset, ⟨rfl, rfl⟩, rfl⟩,
    ⟨streaming .seeking 0 State.reset, ⟨rfl, rfl⟩, rfl⟩, ⟨449999, by decide⟩, ⟨1, rfl⟩, 2, rfl⟩

/-- A current stream with a purpose, and the Repair List and refusals beside it. -/
def serving (x : StreamState) (purpose : Purpose) (start refusals : Nat) (list : List RepairEntry) (s : State) : State :=
  s.setPlanner
    { Planner.reset with
      list := list, frontier := ⟨2, 0, refusals⟩
      stream := { Stream.reset with number := 3, state := x, purpose := purpose, start := start, timer := 149, timerRuns := true } }

theorem test_witness_StreamCloses_timeout :
    ∃ s : State, s.planner.stream.timerRuns = true ∧
      s.console.params.seekTimeout ≤ min 1023 (s.planner.stream.timer + 1) ∧ s.planner.stream.state = .seeking ∧ Steady s :=
  ⟨serving .seeking .repair 0 0 [] (inState .playing), rfl, by decide, rfl, nofun, nofun⟩

/-- The exhaustion check below the effective Retry Limit of 4 and at it. -/
theorem test_witness_StreamCloses_exhaustion :
    (∃ (s : State) (e : RepairEntry), s.planner.list.find? RepairEntry.active = some e ∧ e.attempts + 1 = effectiveRetry s) ∧
    ∃ (s : State) (e : RepairEntry), s.planner.list.find? RepairEntry.active = some e ∧ effectiveRetry s = e.attempts ∧
      s.store.wf = true ∧ s.store.holds e.last = true ∧ e.first ≤ e.last :=
  ⟨⟨serving .seeking .repair 0 0 [⟨1, 2, 3, 0, true⟩] State.reset, ⟨1, 2, 3, 0, true⟩, rfl, rfl⟩,
    serving .seeking .repair 0 0 [⟨1, 2, 4, 0, true⟩] (holding 5 ⟨.good, ⟨1, 2⟩⟩ State.reset), ⟨1, 2, 4, 0, true⟩, rfl, rfl,
    by decide, by decide, by decide⟩

/-- REFUSED BUSY of a REPAIR stream, and of a FRONTIER one with its next refusal below the effective Retry Limit of 4 and at it. -/
theorem test_witness_StreamCloses_busy :
    (∃ (n : BitVec 4) (s : State), LinkReady s ∧ n.toNat ≠ 0 ∧ n.toNat = s.planner.stream.number ∧
      s.planner.stream.state = .seeking ∧ Steady s ∧ s.planner.stream.purpose = .repair) ∧
    (∃ (n : BitVec 4) (s : State), LinkReady s ∧ n.toNat ≠ 0 ∧ n.toNat = s.planner.stream.number ∧
      s.planner.stream.state = .seeking ∧ Steady s ∧ s.planner.stream.purpose = .frontier ∧
      s.planner.list.find? RepairEntry.active = none ∧ min 15 (s.planner.frontier.refusals + 1) < effectiveRetry s) ∧
    ∃ (n : BitVec 4) (s : State), LinkReady s ∧ n.toNat ≠ 0 ∧ n.toNat = s.planner.stream.number ∧
      s.planner.stream.state = .seeking ∧ Steady s ∧ s.planner.stream.purpose = .frontier ∧
      s.planner.list.find? RepairEntry.active = none ∧ effectiveRetry s = min 15 (s.planner.frontier.refusals + 1) ∧
      s.planner.frontier.fillHead < s.play.disc.extent ∧ s.play.disc.confirmed = true :=
  ⟨⟨3, serving .seeking .repair 0 0 [] (inState .playing), ⟨rfl, rfl⟩, by decide, rfl, rfl, ⟨nofun, nofun⟩, rfl⟩,
    ⟨3, serving .seeking .frontier 0 2 [] (inState .playing), ⟨rfl, rfl⟩, by decide, rfl, rfl, ⟨nofun, nofun⟩, rfl, rfl,
      by decide⟩,
    3, serving .seeking .frontier 0 3 [] (inState .playing), ⟨rfl, rfl⟩, by decide, rfl, rfl, ⟨nofun, nofun⟩, rfl, rfl,
    by decide, by decide, rfl⟩

/-- REFUSED RANGE with the start BN at the disc's extent, one below it, at 0, and at the cursor. -/
theorem test_witness_StreamCloses_range :
    (∃ (n : BitVec 4) (s : State), LinkReady s ∧ n.toNat ≠ 0 ∧ n.toNat = s.planner.stream.number ∧
      s.planner.stream.state = .seeking ∧ Steady s ∧ s.play.disc.extent = s.planner.stream.start) ∧
    (∃ (n : BitVec 4) (s : State), LinkReady s ∧ n.toNat ≠ 0 ∧ n.toNat = s.planner.stream.number ∧
      s.planner.stream.state = .seeking ∧ s.planner.stream.start < s.play.disc.extent ∧ s.play.disc.confirmed = true ∧
      playPosition s < s.planner.stream.start * 588) ∧
    (∃ (n : BitVec 4) (s : State), LinkReady s ∧ n.toNat ≠ 0 ∧ n.toNat = s.planner.stream.number ∧
      s.planner.stream.state = .seeking ∧ s.planner.stream.start < s.play.disc.extent ∧ s.planner.stream.start = 0) ∧
    ∃ (n : BitVec 4) (s : State), LinkReady s ∧ n.toNat ≠ 0 ∧ n.toNat = s.planner.stream.number ∧
      s.planner.stream.state = .seeking ∧ s.planner.stream.start < s.play.disc.extent ∧ 0 < s.planner.stream.start ∧
      s.planner.stream.start * 588 = playPosition s ∧ s.feeder.atEnd = false :=
  ⟨⟨3, serving .seeking .repair 100 0 [] (inState .playing), ⟨rfl, rfl⟩, by decide, rfl, rfl, ⟨nofun, nofun⟩, rfl⟩,
    ⟨3, serving .seeking .repair 99 0 [] (inState .playing), ⟨rfl, rfl⟩, by decide, rfl, rfl, by decide, rfl, by decide⟩,
    ⟨3, serving .seeking .repair 0 0 [] (inState .playing), ⟨rfl, rfl⟩, by decide, rfl, rfl, by decide, rfl⟩,
    3, serving .seeking .repair 7 0 [] (feeding .running 7 0 128 (inState .playing)), ⟨rfl, rfl⟩, by decide, rfl, rfl,
    by decide, by decide, by decide, rfl⟩

theorem test_witness_StreamCloses_jump :
    (∃ (n : BitVec 4) (s : State), LinkReady s ∧ n.toNat ≠ 0 ∧ n.toNat = s.planner.stream.number ∧
      s.planner.stream.state = .searching) ∧
    (∃ (n : BitVec 4) (s : State), LinkReady s ∧ n.toNat ≠ 0 ∧ n.toNat = s.planner.stream.number ∧
      s.planner.stream.state = .anchored ∧ ¬ Withdrawn s) ∧
    ∃ s : State, LinkReady s ∧ Withdrawn s :=
  ⟨⟨3, streaming .searching 0 State.reset, ⟨rfl, rfl⟩, by decide, rfl, rfl⟩,
    ⟨3, streaming .anchored 0 State.reset, ⟨rfl, rfl⟩, by decide, rfl, rfl, nofun⟩, away false 0, ⟨rfl, rfl⟩, rfl⟩

theorem test_witness_SettledTaken : ∃ s : State, LinkReady s := ⟨State.reset, rfl, rfl⟩

/-- A position of the carousel that DISC and GONE can name (R193). -/
abbrev Slotted (position : Byte) : Prop := 1 ≤ position.toNat ∧ position.toNat ≤ 6

/-- An extent that DISC can name (R193). -/
abbrev Extended (extent : BitVec 24) : Prop := 1 ≤ extent.toNat ∧ extent.toNat ≤ 450000

/-- LOADING for a position in a mode, beside an entry for it in the Resume Table. -/
def loading (wanted : Nat) (mode : SelectMode) (warned : Bool) (e : ResumeEntry) : State :=
  (State.reset.setPlay
    { Play.reset with state := .loading, wanted := wanted, mode := mode, supplyWarned := warned }).setResume
    (Resume.blank.write wanted e)

/-- LOADING for positions 1 and 6 by LOAD_ONLY and by FROM_START, the second under a supply warning; FROM_RESUME with an entry in
the disc's last block, with none, with one of another tag and with one at the extent; the extents 1 and 450,000. -/
theorem test_witness_DiscConfirmsLoad :
    (∃ (extent : BitVec 24) (position : Byte) (s : State), LinkReady s ∧ Extended extent ∧ Slotted position ∧
      s.play.state = .loading ∧ position.toNat = s.play.wanted ∧ 0 < s.console.params.primeDepth ∧
      s.play.mode = .loadOnly) ∧
    (∃ (extent : BitVec 24) (position : Byte) (s : State), LinkReady s ∧ Extended extent ∧ Slotted position ∧
      s.play.state = .loading ∧ position.toNat = s.play.wanted ∧ 0 < s.console.params.primeDepth ∧
      s.play.mode = .fromStart ∧ s.play.supplyWarned = true) ∧
    (∃ (tag : Tag) (extent : BitVec 24) (position : Byte) (s : State) (e : ResumeEntry), LinkReady s ∧ Extended extent ∧
      Slotted position ∧ s.play.state = .loading ∧ position.toNat = s.play.wanted ∧ 0 < s.console.params.primeDepth ∧
      s.play.mode = .fromResume ∧ e = s.resume.entry position.toNat ∧ e.valid = true ∧ e.tag = tag ∧
      e.bn - s.console.params.resumeBackoff + 1 = extent.toNat ∧ s.play.pauseOnPrime = false) ∧
    (∃ (tag : Tag) (extent : BitVec 24) (position : Byte) (s : State) (e : ResumeEntry), LinkReady s ∧ Extended extent ∧
      Slotted position ∧ s.play.state = .loading ∧ position.toNat = s.play.wanted ∧ 0 < s.console.params.primeDepth ∧
      s.play.mode = .fromResume ∧ e = s.resume.entry position.toNat ∧ e.valid = true ∧ e.tag ≠ tag) ∧
    (∃ (extent : BitVec 24) (position : Byte) (s : State) (e : ResumeEntry), LinkReady s ∧ Extended extent ∧
      Slotted position ∧ s.play.state = .loading ∧ position.toNat = s.play.wanted ∧ 0 < s.console.params.primeDepth ∧
      s.play.mode = .fromResume ∧ e = s.resume.entry position.toNat ∧ e.valid = false) ∧
    ∃ (extent : BitVec 24) (position : Byte) (s : State) (e : ResumeEntry), LinkReady s ∧ Extended extent ∧
      Slotted position ∧ s.play.state = .loading ∧ position.toNat = s.play.wanted ∧ 0 < s.console.params.primeDepth ∧
      s.play.mode = .fromResume ∧ e = s.resume.entry position.toNat ∧
      extent.toNat = e.bn - s.console.params.resumeBackoff :=
  ⟨⟨1, 1, loading 1 .loadOnly false ResumeEntry.invalid, ⟨rfl, rfl⟩, by decide, by decide, rfl, rfl, by decide, rfl⟩,
    ⟨450000, 6, loading 6 .fromStart true ResumeEntry.invalid, ⟨rfl, rfl⟩, by decide, by decide, rfl, rfl, by decide, rfl,
      rfl⟩,
    ⟨7, 100, 2, loading 2 .fromResume false ⟨true, 7, 99, 5, .paused, .none⟩, ⟨true, 7, 99, 5, .paused, .none⟩, ⟨rfl, rfl⟩,
      by decide, by decide, rfl, rfl, by decide, rfl, by decide, rfl, rfl, rfl, rfl⟩,
    ⟨8, 100, 2, loading 2 .fromResume false ⟨true, 7, 99, 5, .paused, .none⟩, ⟨true, 7, 99, 5, .paused, .none⟩, ⟨rfl, rfl⟩,
      by decide, by decide, rfl, rfl, by decide, rfl, by decide, rfl, by decide⟩,
    ⟨100, 2, loading 2 .fromResume false ResumeEntry.invalid, ResumeEntry.invalid, ⟨rfl, rfl⟩, by decide, by decide, rfl, rfl,
      by decide, rfl, by decide, rfl⟩,
    99, 2, loading 2 .fromResume false ⟨true, 7, 99, 5, .paused, .none⟩, ⟨true, 7, 99, 5, .paused, .none⟩, ⟨rfl, rfl⟩,
    by decide, by decide, rfl, rfl, by decide, rfl, by decide, rfl⟩

/-- COASTING or SUSPENDED with a set of causes, for the disc of tag 7 at position 1. -/
def waiting (x : PlayState) (causes : Causes) (confirming : Bool) : State :=
  State.reset.setPlay
    { Play.reset with state := x, causes := causes, confirming := confirming, disc := ⟨1, 7, 100, false⟩ }

/-- An awaited DISC of the same tag, with SUPPLY in the set and without; one of another tag; a stray one while LOADING and while
confirming; an unsolicited one in EMPTY, and while COASTING for another position, without DRIVE, and with TRAY in the set. -/
theorem test_witness_DiscConfirmsLoad_awaited :
    (∃ (tag : Tag) (position : Byte) (s : State), LinkReady s ∧ Slotted position ∧ s.play.state = .coasting ∧
      position.toNat = s.play.disc.position ∧ s.play.causes.drive = true ∧ s.play.causes.tray = false ∧
      s.play.confirming = false ∧ tag = s.play.disc.tag ∧ s.play.causes.supply = false) ∧
    (∃ (tag : Tag) (position : Byte) (s : State), LinkReady s ∧ Slotted position ∧ s.play.state = .suspended ∧
      position.toNat = s.play.disc.position ∧ s.play.confirming = true ∧ tag = s.play.disc.tag ∧
      s.play.causes.supply = true) ∧
    (∃ (tag : Tag) (position : Byte) (s : State), LinkReady s ∧ Slotted position ∧ s.play.state = .suspended ∧
      position.toNat = s.play.disc.position ∧ s.play.confirming = true ∧ tag ≠ s.play.disc.tag) ∧
    (∃ (position : Byte) (s : State), LinkReady s ∧ Slotted position ∧ s.play.state = .loading ∧
      position.toNat ≠ s.play.wanted) ∧
    (∃ (position : Byte) (s : State), LinkReady s ∧ Slotted position ∧ s.play.state = .coasting ∧ s.play.confirming = true ∧
      position.toNat ≠ s.play.disc.position) ∧
    (∃ s : State, LinkReady s ∧ s.play.state = .empty) ∧
    (∃ (position : Byte) (s : State), LinkReady s ∧ Slotted position ∧ s.play.state = .coasting ∧
      s.play.confirming = false ∧ position.toNat ≠ s.play.disc.position) ∧
    (∃ (position : Byte) (s : State), LinkReady s ∧ Slotted position ∧ s.play.state = .suspended ∧
      s.play.confirming = false ∧ position.toNat = s.play.disc.position ∧ s.play.causes.drive = false) ∧
    ∃ (position : Byte) (s : State), LinkReady s ∧ Slotted position ∧ s.play.state = .coasting ∧
      s.play.confirming = false ∧ position.toNat = s.play.disc.position ∧ s.play.causes.tray = true :=
  ⟨⟨7, 1, waiting .coasting ⟨false, false, true⟩ false, ⟨rfl, rfl⟩, by decide, rfl, rfl, rfl, rfl, rfl, rfl, rfl⟩,
    ⟨7, 1, waiting .suspended ⟨true, true, false⟩ true, ⟨rfl, rfl⟩, by decide, rfl, rfl, rfl, rfl, rfl⟩,
    ⟨8, 1, waiting .suspended ⟨true, false, false⟩ true, ⟨rfl, rfl⟩, by decide, rfl, rfl, rfl, by decide⟩,
    ⟨1, loading 6 .loadOnly false ResumeEntry.invalid, ⟨rfl, rfl⟩, by decide, rfl, by decide⟩,
    ⟨6, waiting .coasting ⟨true, false, false⟩ true, ⟨rfl, rfl⟩, by decide, rfl, rfl, by decide⟩,
    ⟨State.reset, ⟨rfl, rfl⟩, rfl⟩,
    ⟨6, waiting .coasting ⟨false, false, true⟩ false, ⟨rfl, rfl⟩, by decide, rfl, rfl, by decide⟩,
    ⟨1, waiting .suspended ⟨false, true, false⟩ false, ⟨rfl, rfl⟩, by decide, rfl, rfl, rfl, rfl⟩,
    1, waiting .coasting ⟨true, false, true⟩ false, ⟨rfl, rfl⟩, by decide, rfl, rfl, rfl, rfl⟩

/-- Each return-to state, with the store primed and without. -/
theorem test_witness_Returns :
    ∀ (back : ReturnTo) (primed : Bool), ∃ s : State, s.play.returnTo = back ∧ s.play.storePrimed = primed ∧
      s.play.state = .suspended ∧ s.feeder.state = .silent :=
  fun back primed =>
    ⟨State.reset.setPlay { Play.reset with state := .suspended, returnTo := back, storePrimed := primed }, rfl, rfl, rfl, rfl⟩

/-- GONE for the wanted position; in READY; while confirming; from each state of play; for another position; in EMPTY. -/
theorem test_witness_GoneEndsLoad :
    (∃ (position : Byte) (s : State), LinkReady s ∧ Slotted position ∧ s.play.state = .loading ∧
      position.toNat = s.play.wanted) ∧
    (∃ (position : Byte) (s : State), LinkReady s ∧ Slotted position ∧ s.play.state = .ready ∧
      position.toNat = s.play.disc.position) ∧
    (∃ (position : Byte) (s : State), LinkReady s ∧ Slotted position ∧ s.play.confirming = true ∧
      s.play.state = .suspended ∧ position.toNat = s.play.disc.position) ∧
    (∀ x : PlayState, ∃ (position : Byte) (s : State), LinkReady s ∧ Slotted position ∧ s.play.confirming = false ∧
      position.toNat = s.play.disc.position ∧ s.play.state = x) ∧
    (∃ (position : Byte) (s : State), LinkReady s ∧ Slotted position ∧ s.play.state = .loading ∧
      position.toNat ≠ s.play.wanted) ∧
    (∃ (position : Byte) (s : State), LinkReady s ∧ Slotted position ∧ s.play.state = .paused ∧
      position.toNat ≠ s.play.disc.position) ∧
    ∃ (position : Byte) (s : State), LinkReady s ∧ Slotted position ∧ s.play.state = .empty :=
  ⟨⟨6, loading 6 .loadOnly false ResumeEntry.invalid, ⟨rfl, rfl⟩, by decide, rfl, rfl⟩,
    ⟨1, inState .ready, ⟨rfl, rfl⟩, by decide, rfl, rfl⟩,
    ⟨1, waiting .suspended ⟨true, false, false⟩ true, ⟨rfl, rfl⟩, by decide, rfl, rfl, rfl⟩,
    fun x => ⟨1, inState x, ⟨rfl, rfl⟩, by decide, rfl, rfl, rfl⟩,
    ⟨1, loading 6 .loadOnly false ResumeEntry.invalid, ⟨rfl, rfl⟩, by decide, rfl, by decide⟩,
    ⟨6, inState .paused, ⟨rfl, rfl⟩, by decide, rfl, by decide⟩, 1, State.reset, ⟨rfl, rfl⟩, by decide, rfl⟩

/-- Link Divisor 100. -/
def dividing : State :=
  State.reset.setConsole { State.reset.console with params := { Params.default with linkDivisor := 100 } }

/-- A measured divisor of 135 against 100 is at the 35 percent; 136 is beyond it; so are 0 and 1,024. -/
theorem test_witness_RateMarkMeasured :
    (∃ (span : Nat) (s : State), LinkReady s ∧ (span + 64) / 128 = 135 ∧ s.console.params.linkDivisor = 100 ∧
      20 * (((span + 64) / 128 - s.console.params.linkDivisor) + (s.console.params.linkDivisor - (span + 64) / 128)) =
        7 * s.console.params.linkDivisor) ∧
    (∃ (span : Nat) (s : State), LinkReady s ∧ (span + 64) / 128 = 136 ∧
      7 * s.console.params.linkDivisor <
        20 * (((span + 64) / 128 - s.console.params.linkDivisor) + (s.console.params.linkDivisor - (span + 64) / 128))) ∧
    (∃ (span : Nat) (s : State), LinkReady s ∧ (span + 64) / 128 < 1) ∧
    ∃ (span : Nat) (s : State), LinkReady s ∧ 1023 < (span + 64) / 128 :=
  ⟨⟨17280, dividing, ⟨rfl, rfl⟩, by decide, by decide, by decide⟩, ⟨17344, dividing, ⟨rfl, rfl⟩, by decide, by decide⟩,
    ⟨63, dividing, ⟨rfl, rfl⟩, by decide⟩, 131008, dividing, ⟨rfl, rfl⟩, by decide⟩

/-- A character in the reset format that carries a byte after a marker, high for a header. -/
def carrying (b : Byte) (marker : Bool) : RxChar :=
  let bit (x : Bool) : BitSamples := if x then high else low
  ⟨[low] ++ (List.finRange 8).map (fun i => bit (b.getLsb i)) ++ [bit marker] ++ [high], none⟩

/-- The link with a message under way whose bytes so far are given, the latest first. -/
def receiving (held : List Byte) : State := State.reset.setLink { Link.reset with assembly := .inMessage held }

/-- A framing fault in the reset format, a parity fault with Link Parity EVEN, each taken in IDLE and in DISCARDING; and a
header that meets two entries. -/
theorem test_witness_MessagesLost :
    (∃ (c : RxChar) (j : Judged) (s : State), s.console.params.receiverEnable = 1 ∧
      judgeChar (parityKind s.console.params.linkParity) s.console.params.linkStopBits c = some j ∧
      j.fault = some .framing ∧ s.link.assembly ≠ .discarding) ∧
    (∃ (c : RxChar) (j : Judged) (s : State), s.console.params.receiverEnable = 1 ∧
      judgeChar (parityKind s.console.params.linkParity) s.console.params.linkStopBits c = some j ∧
      j.fault = some .parity ∧ s.link.assembly = .discarding) ∧
    ∃ s : State, LinkReady s ∧ 2 ≤ s.asm.intake.length :=
  ⟨⟨⟨List.replicate 11 low, none⟩, ⟨0, false, some .framing, 0⟩, State.reset, rfl, by decide, rfl, nofun⟩,
    ⟨⟨List.replicate 10 low ++ [high, high], none⟩, ⟨0, false, some .parity, 0⟩,
      (State.reset.setConsole
        { State.reset.console with params := { Params.default with linkParity := 1 } }).setLink
        { Link.reset with assembly := .discarding },
      rfl, by decide, rfl, rfl⟩,
    State.reset.setAsm { Assembler.reset with intake := [entry 3 5 7, entry 3 6 7] }, ⟨rfl, rfl⟩, by decide⟩

/-- A sound body character in IDLE; inside a message a header of DISC, of BLOCK with a free entry, and of unknown kind 5; a header
of unknown kind in IDLE and in DISCARDING. -/
theorem test_witness_MessagesLost_header :
    (∃ j, judgeChar .none 1 (carrying 0xA5 false) = some j ∧ j.fault = none ∧ j.marker = false ∧
      State.reset.link.assembly = .idle) ∧
    (∀ b ∈ [(0x11 : Byte), 0x22], ∃ j kind, judgeChar .none 1 (carrying b true) = some j ∧ j.fault = none ∧ j.marker = true ∧
      headerKind j.byte = .message kind ∧ (receiving [0x41]).link.assembly = .inMessage [0x41] ∧
      (receiving [0x41]).asm.intake.length < 2) ∧
    (∃ j, judgeChar .none 1 (carrying 0x51 true) = some j ∧ j.fault = none ∧ j.marker = true ∧ headerKind j.byte = .unknown) ∧
    ∃ s : State, s.link.assembly = .discarding ∧ s.console.params = Params.default := by
  refine ⟨⟨⟨0xA5, false, none, 0⟩, by decide, rfl, rfl, rfl⟩, ?_,
    ⟨⟨0x51, true, none, 0⟩, by decide, rfl, rfl, by decide⟩,
    State.reset.setLink { Link.reset with assembly := .discarding }, rfl, rfl⟩
  simp only [List.forall_mem_cons]
  exact ⟨⟨⟨0x11, true, none, 0⟩, .disc, by decide, rfl, rfl, by decide, rfl, by decide⟩,
    ⟨⟨0x22, true, none, 0⟩, .block, by decide, rfl, rfl, by decide, rfl, by decide⟩, nofun⟩

/-- The bytes of a BLOCK up to its erasure count, the latest first but for the count's last byte. -/
def counting (hi : Byte) : List Byte := hi :: List.replicate 2359 0 ++ [0x21]

/-- An erasure count of 65 and of 65,534. -/
theorem test_witness_MessagesLost_count :
    ∀ p ∈ [((0x00 : Byte), (0x41 : Byte), 65), (0xFF, 0xFE, 65534)], ∃ bytes, bytes = (counting p.1).reverse ++ [p.2.1] ∧
      headerKind (bytes.headD 0) = .message .block ∧ bytes.length = 2362 ∧ erasureCount bytes = p.2.2 := by
  simp only [List.forall_mem_cons]
  exact ⟨⟨_, rfl, by decide +kernel, by decide +kernel, by decide +kernel⟩,
    ⟨_, rfl, by decide +kernel, by decide +kernel, by decide +kernel⟩, nofun⟩

/-- A complete BLOCK that marks no frame, one that names 64 and one that marks all, under a check of zeros. -/
theorem test_witness_MessagesLost_block :
    ∀ p ∈ [((0x00 : Byte), (0x00 : Byte), 2, 0), (0x00, 0x40, 130, 64), (0xFF, 0xFF, 2, 65535)], ∃ bytes : List Byte,
      bytes = (counting p.1).reverse ++ [p.2.1] ++ List.replicate p.2.2.1 0 ∧ headerKind (bytes.headD 0) = .message .block ∧
        messageLength .block bytes = some bytes.length ∧ erasureCount bytes = p.2.2.2 := by
  simp only [List.forall_mem_cons]
  exact ⟨⟨_, rfl, by decide +kernel, by decide +kernel, by decide +kernel⟩,
    ⟨_, rfl, by decide +kernel, by decide +kernel, by decide +kernel⟩,
    ⟨_, rfl, by decide +kernel, by decide +kernel, by decide +kernel⟩, nofun⟩

/-- SETTLED with a check that does not match; REFUSED with reason 3 under a check that matches. -/
theorem test_witness_MessagesLost_complete :
    (∃ bytes : List Byte, messageLength .settled bytes = some bytes.length ∧ headerKind (bytes.headD 0) = .message .settled ∧
      checkPasses bytes = false) ∧
    ∃ bytes : List Byte, messageLength .refused bytes = some bytes.length ∧
      headerKind (bytes.headD 0) = .message .refused ∧ checkPasses bytes = true ∧
      (readMessage .refused (bytes.headD 0) ((bytes.drop 1).take (bytes.length - 3))).malformed = true :=
  ⟨⟨[0x71, 0, 0], by decide, by decide, by decide⟩,
    [0x61, 3] ++ bytesOf 2 (crc16 [0x61, 3]).toNat, by decide, by decide, by decide +kernel, by decide +kernel⟩

/-- A break one sample short, with the planner's relations, in each play state, with TRAY among the causes and without. -/
theorem test_witness_DriveRestartTaken :
    (∀ (x : PlayState) (tray : Bool), ∃ (order : List RestartOwner) (s : State), restartOrderWf order = true ∧
      s.console.params.receiverEnable = 1 ∧ s.link.breakCount + 1 = 384 ∧ s.play.state = x ∧ s.play.causes.tray = tray ∧
      s.play.confirming = false) ∧
    ∃ (order : List RestartOwner) (s : State), restartOrderWf order = true ∧ s.console.params.receiverEnable = 1 ∧
      s.link.breakCount = 0 ∧ FrontierSound s :=
  ⟨fun x tray => ⟨[.monitor, .playController, .planner, .assembler],
      (mapPlay (fun p => { p with causes := ⟨tray, false, false⟩ }) (inState x)).setLink { Link.reset with breakCount := 383 },
      by decide, rfl, rfl, rfl, rfl, rfl⟩,
    [.assembler, .planner, .monitor, .playController], State.reset, by decide, rfl, rfl, by decide, by decide,
    by decide, by decide, fun _ => rfl, nofun, by decide, by decide⟩

theorem test_witness_LineAndTransmitter :
    (∃ s : State, s.console.params.receiverEnable = 1 ∧ s.link.sampling = .waitHigh ∧ s.link.tx ≠ .held) ∧
    (∃ s : State, s.console.params.receiverEnable = 1 ∧ s.link.sampling = .waitHigh ∧ s.link.tx = .held ∧
      s.link.queue = [.load 1]) ∧
    (∃ (m : TxMsg) (s : State), s.link.tx = .sending m ∧ m = .seek 3 0 ∧
      s.planner.stream.number = 3 ∧ s.planner.stream.state = .seeking ∧ s.link.changes = [⟨⟨0, 1⟩, 0⟩]) ∧
    ∃ s : State, s.link.tx = .gap :=
  ⟨⟨State.reset, rfl, rfl, nofun⟩, ⟨State.reset.setLink { Link.reset with tx := .held, queue := [.load 1] }, rfl, rfl, rfl, rfl⟩,
    ⟨.seek 3 0,
      streaming .seeking 0
        (State.reset.setLink { Link.reset with tx := .sending (.seek 3 0), changes := [⟨⟨0, 1⟩, 0⟩], changed := 1 }),
      rfl, rfl, rfl, rfl, rfl⟩,
    State.reset.setLink { Link.reset with tx := .gap }, rfl⟩

/-- A full Intake whose drop lets the flow go again, with no HOLD left to cancel. -/
theorem test_witness_PlacementDropsEntry_flow :
    ∃ s : State, s.asm.intake = [entry 4 5 7, entry 4 6 7] ∧ s.asm.align.stream ≠ 4 ∧ FlowSound s ∧ flowHeld s = true ∧
      TxMsg.hold ∉ s.link.queue :=
  ⟨State.reset.setAsm { Assembler.reset with intake := [entry 4 5 7, entry 4 6 7], holdIntake := true }, rfl, by decide,
    ⟨by decide, by decide⟩, rfl, by decide⟩

theorem test_witness_PlacementDropsEntry :
    (∃ (x : IntakeEntry) (rest : List IntakeEntry) (s : State), s.asm.intake = x :: rest ∧
      x.stream ≠ s.asm.align.stream) ∧
    (∃ (x : IntakeEntry) (rest : List IntakeEntry) (s : State), s.asm.intake = x :: rest ∧
      x.stream = s.asm.align.stream ∧ s.asm.align.phase = .none) ∧
    (∃ (x : IntakeEntry) (rest : List IntakeEntry) (s : State), s.asm.intake = x :: rest ∧
      x.stream = s.asm.align.stream ∧ s.asm.align.phase ≠ .none ∧ x.tag ≠ s.play.disc.tag) ∧
    ∃ (x : IntakeEntry) (rest : List IntakeEntry) (s : State), s.asm.intake = x :: rest ∧
      x.stream = s.asm.align.stream ∧ s.asm.align.phase ≠ .none ∧ x.tag = s.play.disc.tag ∧ Withdrawn s :=
  ⟨⟨entry 4 5 7, [], placing (entry 4 5 7) .anchored State.reset, rfl, by decide⟩,
    ⟨entry 3 5 7, [], placing (entry 3 5 7) .none State.reset, rfl, rfl, rfl⟩,
    ⟨entry 3 5 8, [], placing (entry 3 5 8) .anchored (inState .playing), rfl, rfl, nofun, by decide⟩,
    entry 3 5 0, [], placing (entry 3 5 0) .searching (away false 0), rfl, rfl, nofun, rfl, rfl⟩

/-- A delivered block of stream 3 and tag 7. -/
def delivered (bn : Nat) (cls : ErasureClass) : IntakeEntry :=
  ⟨3, bn, 7, List.replicate 588 ⟨if cls = .all then .erased else .good, Sample.zero⟩, cls⟩

/-- In sequence, of each class; one and four blocks late after a lost message; a placement at the widest offsets. -/
theorem test_witness_PlacementPlacesEntry :
    (∀ cls : ErasureClass, ∃ (x : IntakeEntry) (rest : List IntakeEntry) (s : State), s.asm.intake = x :: rest ∧
      Accepted s x ∧ s.asm.align.phase = .anchored ∧ x.bn = s.asm.align.expected ∧ x.cls = cls) ∧
    (∀ k : Fin 4, ∃ (x : IntakeEntry) (rest : List IntakeEntry) (s : State), s.asm.intake = x :: rest ∧
      Accepted s x ∧ s.asm.align.phase = .anchored ∧ x.bn = s.asm.align.expected + k.val + 1 ∧ s.link.lost = true) ∧
    ∃ (x : IntakeEntry) (s : State), PlacementSound s x (-588) ∧ PlacementSound s x 588 :=
  ⟨fun cls => ⟨delivered 5 cls, [], placing (delivered 5 cls) .anchored (inState .playing), rfl, ⟨rfl, nofun, rfl, nofun⟩,
      rfl, rfl, rfl⟩,
    fun k => ⟨delivered (5 + k.val + 1) .clean, [],
      placing (delivered (5 + k.val + 1) .clean) .anchored
        ((inState .playing).setLink { Link.reset with lost := true }), rfl, ⟨rfl, nofun, rfl, nofun⟩, rfl, rfl, rfl⟩,
    delivered 5 .clean, inState .playing, ⟨rfl, rfl, List.length_replicate, by decide, by decide, by decide⟩,
    rfl, rfl, List.length_replicate, by decide, by decide, by decide⟩

/-- The alignment state of stream 3, current at the planner too, with a target, over a store. -/
def searchingFor (x : IntakeEntry) (target : Nat) (lost : Bool) (t : Store) : State :=
  { inState .playing with
    store := t
    link := { Link.reset with lost := lost }
    console := { State.reset.console with params := { Params.default with matchRun := 32, slipRange := 8 } }
    asm := { Assembler.reset with intake := [x], align := ⟨3, .searching, 0, target, 0, 0⟩ }
    planner :=
      { Planner.reset with
        active := true, stream := { Stream.reset with number := 3, state := .searching, purpose := .repair, servedLast := 1 } } }

/-- A delivery of block 0 whose frames are the held ones of `opening 40` from frame 8 on. -/
def slipped : IntakeEntry :=
  ⟨3, 0, 7, (List.range 32).map (fun i => ⟨.good, ⟨BitVec.ofNat 16 (i + 9), 7⟩⟩), .clean⟩

/-- Nothing held, so no offset matches; a match at the end of Slip Range; block 0 against the targets 1 and 0. -/
theorem test_witness_AlignmentSearch :
    (∃ (x : IntakeEntry) (rest : List IntakeEntry) (s : State), s.asm.intake = x :: rest ∧ Accepted s x ∧
      s.asm.align.phase = .searching ∧ x.bn = s.asm.align.expected ∧ x.bn + 1 = s.asm.align.target ∧
      chooseOffset s x = none ∧ StreamIsCurrent s ∧ s.planner.stream.purpose = .repair ∧
      x.bn + 1 = s.planner.stream.servedLast ∧ s.planner.active = true ∧ plannerMayRead s = true) ∧
    (∃ (x : IntakeEntry) (rest : List IntakeEntry) (s : State), s.asm.intake = x :: rest ∧ Accepted s x ∧
      s.asm.align.phase = .searching ∧ x.bn = s.asm.align.expected ∧ x.bn + 1 = s.asm.align.target ∧
      chooseOffset s x = some s.console.params.slipRange ∧ StreamIsCurrent s) ∧
    ∃ (x : IntakeEntry) (rest : List IntakeEntry) (s : State), s.asm.intake = x :: rest ∧ Accepted s x ∧
      s.asm.align.phase = .searching ∧ x.bn = s.asm.align.expected ∧ s.asm.align.target = x.bn ∧ StreamIsCurrent s ∧
      s.planner.stream.purpose = .repair ∧ Steady s ∧
      ∀ e ∈ s.planner.list, e.active = true → e.attempts < effectiveRetry s :=
  ⟨⟨slipped, [], searchingFor slipped 1 false (opening 0), rfl, ⟨rfl, nofun, rfl, nofun⟩, rfl, rfl, rfl, by decide,
      ⟨rfl, nofun⟩, rfl, rfl, rfl, rfl⟩,
    ⟨slipped, [], searchingFor slipped 1 false (opening 40), rfl, ⟨rfl, nofun, rfl, nofun⟩, rfl, rfl, rfl, by decide,
      rfl, nofun⟩,
    slipped, [], searchingFor slipped 0 false (opening 0), rfl, ⟨rfl, nofun, rfl, nofun⟩, rfl, rfl, rfl, ⟨rfl, nofun⟩, rfl,
    ⟨nofun, nofun⟩, nofun⟩

/-- The mislock of a FRONTIER stream; an entry out of sequence in SEARCHING, one below the expected BN, one five above it after a
lost message, and one that is late with no message lost. -/
theorem test_witness_AlignmentSearch_breaks :
    (∃ (x : IntakeEntry) (rest : List IntakeEntry) (s : State), s.asm.intake = x :: rest ∧ Accepted s x ∧
      s.asm.align.phase = .searching ∧ x.bn = s.asm.align.expected ∧ s.asm.align.target ≤ x.bn ∧ StreamIsCurrent s ∧
      s.planner.stream.purpose = .frontier ∧ s.planner.list.find? RepairEntry.active = none ∧ Steady s) ∧
    (∃ (x : IntakeEntry) (rest : List IntakeEntry) (s : State), s.asm.intake = x :: rest ∧ Accepted s x ∧
      x.bn ≠ s.asm.align.expected ∧ s.asm.align.phase = .searching ∧ StreamIsCurrent s) ∧
    (∃ (x : IntakeEntry) (rest : List IntakeEntry) (s : State), s.asm.intake = x :: rest ∧ Accepted s x ∧
      x.bn + 1 = s.asm.align.expected ∧ s.asm.align.phase = .anchored) ∧
    (∃ (x : IntakeEntry) (rest : List IntakeEntry) (s : State), s.asm.intake = x :: rest ∧ Accepted s x ∧
      s.asm.align.expected + 5 = x.bn ∧ s.asm.align.phase = .anchored ∧ s.link.lost = true) ∧
    ∃ (x : IntakeEntry) (rest : List IntakeEntry) (s : State), s.asm.intake = x :: rest ∧ Accepted s x ∧
      x.bn = s.asm.align.expected + 1 ∧ s.asm.align.phase = .anchored ∧ s.link.lost = false :=
  ⟨⟨delivered 5 .clean, [],
      placing (delivered 5 .clean) .searching (streaming .searching 0 (inState .playing)), rfl, ⟨rfl, nofun, rfl, nofun⟩, rfl,
      rfl, by decide, ⟨rfl, nofun⟩, rfl, rfl, nofun, nofun⟩,
    ⟨{ slipped with bn := 1 }, [], searchingFor { slipped with bn := 1 } 1 true (opening 0), rfl, ⟨rfl, nofun, rfl, nofun⟩,
      by decide, rfl, rfl, nofun⟩,
    ⟨delivered 4 .clean, [], placing (delivered 4 .clean) .anchored (inState .playing), rfl, ⟨rfl, nofun, rfl, nofun⟩, rfl,
      rfl⟩,
    ⟨delivered 10 .clean, [],
      placing (delivered 10 .clean) .anchored ((inState .playing).setLink { Link.reset with lost := true }), rfl,
      ⟨rfl, nofun, rfl, nofun⟩, rfl, rfl, rfl⟩,
    delivered 6 .clean, [], placing (delivered 6 .clean) .anchored (inState .playing), rfl, ⟨rfl, nofun, rfl, nofun⟩, rfl,
    rfl, rfl⟩

/-- The clauses of the merge table differ in the marks, or in whether the values are equal. -/
theorem test_witness_MergeTable :
    (∃ a b : Frame, b.mark ≠ .absent ∧ a.mark = .absent) ∧
    (∃ a b : Frame, b.mark ≠ .absent ∧ a.mark = .erased ∧ b.mark = .good) ∧
    (∃ a b : Frame, b.mark ≠ .absent ∧ a.mark = .erased ∧ b.mark = .erased) ∧
    (∃ a b : Frame, b.mark ≠ .absent ∧ a.mark = .good ∧ b.mark = .erased) ∧
    (∃ a b : Frame, b.mark ≠ .absent ∧ a.mark = .good ∧ b.mark = .good ∧ a.value = b.value) ∧
    ∃ a b : Frame, b.mark ≠ .absent ∧ a.mark = .good ∧ b.mark = .good ∧ a.value ≠ b.value :=
  ⟨⟨Frame.none, ⟨.good, ⟨1, 2⟩⟩, nofun, rfl⟩, ⟨⟨.erased, ⟨1, 2⟩⟩, ⟨.good, ⟨1, 2⟩⟩, nofun, rfl, rfl⟩,
    ⟨⟨.erased, ⟨1, 2⟩⟩, ⟨.erased, ⟨3, 2⟩⟩, nofun, rfl, rfl⟩, ⟨⟨.good, ⟨1, 2⟩⟩, ⟨.erased, ⟨3, 2⟩⟩, nofun, rfl, rfl⟩,
    ⟨⟨.good, ⟨1, 2⟩⟩, ⟨.good, ⟨1, 2⟩⟩, nofun, rfl, rfl, rfl⟩,
    ⟨.good, ⟨1, 2⟩⟩, ⟨.good, ⟨1, 3⟩⟩, nofun, rfl, rfl, by decide⟩

/-- A slot whose first frames are GOOD and whose others, up to a count, are ERASED. -/
def slotOfCounts (good present pass : Nat) (declared : Bool) : Slot :=
  ⟨(List.range present).map (fun i => (i, ⟨if i < good then .good else .erased, Sample.zero⟩)), pass, declared⟩

/-- Each row of R6's table, and the recomputation with the pass count at the limit and one below it. -/
theorem test_witness_MergeStepWritesFrame_states :
    (∃ x : Slot, x.goodCount = 588) ∧
    (∃ x : Slot, x.goodCount ≠ 588 ∧ x.declared = true ∧ x.goodCount + x.erasedCount = 0) ∧
    (∃ x : Slot, x.goodCount = 587 ∧ x.declared = true) ∧
    (∃ x : Slot, x.declared = false ∧ x.goodCount + x.erasedCount = 0) ∧
    (∃ x : Slot, x.declared = false ∧ x.goodCount + x.erasedCount = 587) ∧
    (∃ (x : Slot) (limit : Nat), x.declared = false ∧ x.goodCount + x.erasedCount = 588 ∧ x.erasedCount = 1 ∧
      limit = x.pass) ∧
    ∃ (x : Slot) (limit : Nat), x.declared = false ∧ x.goodCount + x.erasedCount = 588 ∧ x.erasedCount = 1 ∧
      x.pass + 1 = limit :=
  ⟨⟨slotOfCounts 588 588 1 false, by decide +kernel⟩, ⟨slotOfCounts 0 0 0 true, by decide, rfl, rfl⟩,
    ⟨slotOfCounts 587 587 0 true, by decide +kernel, rfl⟩, ⟨Slot.empty, rfl, rfl⟩,
    ⟨slotOfCounts 1 587 1 false, rfl, by decide +kernel⟩,
    ⟨slotOfCounts 587 588 1 false, 1, rfl, by decide +kernel, by decide +kernel, rfl⟩,
    slotOfCounts 587 588 1 false, 2, rfl, by decide +kernel, by decide +kernel, rfl⟩

/-- The last frame of the last block of the disc; a block just outside the window; an OPEN and a FREE one; an extent that cuts
nothing; a window with blocks to play and one with none. -/
theorem test_witness_MergeStepWritesFrame :
    (∃ (t : Store) (b i : Nat), t.wf = true ∧ t.holds b = true ∧ i = 587 ∧ b + 1 = t.extent) ∧
    (∃ (t : Store) (b : Nat), t.wf = true ∧ t.holds b = false ∧ b = t.extent) ∧
    (∃ (t : Store) (b : Nat), t.wf = true ∧ t.stateOf b = .opened ∧ b = t.playBlock) ∧
    (∃ (t : Store) (b : Nat), t.wf = true ∧ t.stateOf b ≠ .opened ∧ b = t.extent) ∧
    (∃ t : Store, t.playBlock < t.fillHead) ∧ (∃ t : Store, t.readyDepth < t.length) ∧
    (∃ t : Store, t.playBlock + 1 = t.extent) ∧ ∃ t : Store, t.extent = t.playBlock :=
  ⟨⟨⟨0, 100, []⟩, 99, 587, rfl, by decide, rfl, rfl⟩, ⟨⟨0, 100, []⟩, 100, rfl, by decide, rfl⟩,
    ⟨⟨0, 100, [(0, slotOfCounts 587 588 1 false)]⟩, 0, by decide +kernel, by decide +kernel, rfl⟩,
    ⟨⟨0, 100, []⟩, 100, rfl, by decide, rfl⟩, ⟨opening 1, by decide⟩, ⟨opening 1, by decide⟩,
    ⟨⟨99, 100, []⟩, rfl⟩, ⟨100, 100, []⟩, rfl⟩

/-- A planner with a list, a fill head and a stream, over a store. -/
def planning (list : List RepairEntry) (fillHead : Nat) (x : Stream) (t : Store) : State :=
  { inState .playing with
    store := t, planner := { Planner.reset with list := list, frontier := ⟨fillHead, 0, 0⟩, stream := x, active := true } }

/-- A stream by its state, purpose and expected BN. -/
def streamOf (x : StreamState) (purpose : Purpose) (expected : Nat) : Stream :=
  { Stream.reset with number := 3, state := x, purpose := purpose, expected := expected }

/-- The choice: an entry at Repair Lead and one beyond it; no entry due below the window's end; nothing to read at it. -/
theorem test_witness_PlannerActs_choice :
    (∃ (s : State) (e : RepairEntry), s.planner.active = true ∧ s.planner.stream.state = .none ∧ e ∈ s.planner.list ∧
      due s e = true ∧ e.first - s.store.playBlock = s.console.params.repairLead ∧
      (∀ x ∈ s.planner.list, due s x = true → x = e ∨ e.first < x.first) ∧
      s.planner.list.Pairwise (fun a b => a.first < b.first)) ∧
    (∃ s : State, s.planner.active = true ∧ s.planner.stream.state = .none ∧ (∀ e ∈ s.planner.list, due s e = false) ∧
      s.planner.frontier.fillHead + 1 = s.store.playBlock + s.store.length) ∧
    ∃ s : State, s.planner.active = true ∧ s.planner.stream.state = .none ∧ (∀ e ∈ s.planner.list, due s e = false) ∧
      s.store.playBlock + s.store.length = s.planner.frontier.fillHead :=
  ⟨⟨planning [⟨96, 97, 0, 0, false⟩, ⟨99, 99, 0, 0, false⟩] 100 Stream.reset ⟨0, 100, []⟩, ⟨96, 97, 0, 0, false⟩, rfl, rfl,
      by decide, by decide, rfl, by decide, by decide⟩,
    ⟨planning [⟨97, 97, 0, 0, false⟩] 99 Stream.reset ⟨0, 100, []⟩, rfl, rfl, by decide, by decide⟩,
    planning [⟨97, 97, 0, 0, false⟩] 100 Stream.reset ⟨0, 100, []⟩, rfl, rfl, by decide, by decide⟩

/-- A pre-emption; streams that nothing pre-empts; what an event can end with. -/
theorem test_witness_PlannerActs_preemption :
    (∃ s : State, s.planner.stream.state ≠ .none ∧ s.planner.stream.purpose = .frontier ∧
      ∃ e ∈ s.planner.list, due s e = true) ∧
    (∃ s : State, s.planner.stream.state ≠ .none ∧ s.planner.stream.purpose = .repair) ∧
    (∃ s : State, (settle s).planner.active = true ∧ (settle s).planner.stream.state = .none) ∧
    ∃ s : State, (settle s).planner.active = true ∧ (settle s).planner.stream.state ≠ .none ∧
      (settle s).planner.stream.purpose = .frontier :=
  ⟨⟨planning [⟨0, 0, 0, 0, false⟩] 1 (streamOf .anchored .frontier 1) (opening 1), nofun, rfl, ⟨0, 0, 0, 0, false⟩,
      by decide, by decide⟩,
    ⟨planning [] 1 (streamOf .anchored .repair 1) (opening 1), nofun, rfl⟩,
    ⟨planning [] 100 Stream.reset ⟨0, 100, []⟩, by decide, by decide⟩,
    planning [] 99 Stream.reset ⟨0, 100, []⟩, by decide, by decide, by decide⟩

/-- Stream 3 ANCHORED at the Assembler, with its expected next BN and its offset. -/
def expecting (expected : Nat) (offset : Int) (s : State) : State :=
  s.setAsm { s.asm with align := ⟨3, .anchored, 0, 0, expected, offset⟩ }

/-- An overflow one block beyond the stream's expected BN, for a REPAIR and for an anchored FRONTIER stream, which goes on; at it; at
the BN that the placement under way has moved on to while the record still expects the block before; and with no stream. -/
theorem test_witness_PlannerActs_overflow :
    (∃ (s : State) (r : RepairEntry), s.planner.list.getLast? = some r ∧ s.store.wf = true ∧
      s.planner.stream.state = .anchored ∧ s.planner.stream.purpose = .repair ∧ s.planner.stream.expected + 1 = r.first) ∧
    (∃ (s : State) (r : RepairEntry), s.planner.list.getLast? = some r ∧ s.store.wf = true ∧
      s.planner.stream.state = .searching ∧ r.first = s.planner.stream.expected ∧
      ∀ e ∈ s.planner.list, e.active = true → e.attempts < effectiveRetry s) ∧
    (∃ (s : State) (r : RepairEntry), s.planner.list.getLast? = some r ∧ s.store.wf = true ∧
      s.planner.stream.state = .anchored ∧ s.planner.stream.purpose = .frontier ∧ s.planner.stream.expected + 1 = r.first ∧
      s.asm.align = ⟨3, .anchored, 0, 0, 0, 0⟩ ∧ s.planner.stream.number = 3 ∧ overflowCloses r.first s = false) ∧
    (∃ (s : State) (r : RepairEntry), s.planner.list.getLast? = some r ∧ s.store.wf = true ∧
      s.planner.stream.state = .searching ∧ s.planner.stream.purpose = .frontier ∧ s.asm.align.phase = .anchored ∧
      s.asm.align.stream = s.planner.stream.number ∧ s.planner.stream.expected + 1 = r.first ∧
      s.asm.align.expected = r.first ∧ overflowCloses r.first s = true ∧ ∀ e ∈ s.planner.list, e.active = true → e.attempts < effectiveRetry s) ∧
    (∃ (s : State) (r : RepairEntry), s.planner.list.getLast? = some r ∧ s.store.wf = true ∧
      s.planner.stream.state = .none) ∧
    ∃ s : State, s.planner.list.length = 16 :=
  ⟨⟨planning [⟨1, 1, 0, 0, false⟩] 2 (streamOf .anchored .repair 0) (opening 1), ⟨1, 1, 0, 0, false⟩, rfl,
      by decide, rfl, rfl, rfl⟩,
    ⟨planning [⟨1, 1, 0, 0, false⟩] 2 (streamOf .searching .frontier 1) (opening 1), ⟨1, 1, 0, 0, false⟩, rfl,
      by decide, rfl, rfl, by decide⟩,
    ⟨expecting 0 0 (planning [⟨1, 1, 0, 0, false⟩] 2 (streamOf .anchored .frontier 0) (opening 1)), ⟨1, 1, 0, 0, false⟩, rfl,
      by decide, rfl, rfl, rfl, rfl, rfl, by decide⟩,
    ⟨expecting 1 8 (planning [⟨1, 1, 0, 0, false⟩] 2 (streamOf .searching .frontier 0) (opening 1)), ⟨1, 1, 0, 0, false⟩, rfl,
      by decide, rfl, rfl, rfl, rfl, rfl, rfl, by decide, by decide⟩,
    ⟨planning [⟨1, 1, 0, 0, false⟩] 2 Stream.reset (opening 1), ⟨1, 1, 0, 0, false⟩, rfl, by decide, rfl⟩,
    planning (List.replicate 16 ⟨1, 1, 0, 0, false⟩) 2 Stream.reset (opening 1), rfl⟩

/-- A PARTIAL block in the last place of Deadline Margin under the declare policy, and under the other one. -/
theorem test_witness_PlannerActs_lateness :
    (∃ s : State, s.console.params.latePolicy = 1 ∧ lateBlocks s = [7] ∧ s.store.holds 7 = true ∧ s.store.wf = true ∧
      s.planner.counters.overflow = 0) ∧
    ∃ s : State, s.console.params.latePolicy = 0 ∧ lateBlocks s = [] :=
  ⟨⟨planning [⟨7, 8, 0, 0, false⟩] 9 Stream.reset ⟨0, 100, [(7, slotOfCounts 1 1 1 false)]⟩ |>.setConsole
        { State.reset.console with params := { Params.default with latePolicy := 1 } },
      rfl, by decide, by decide, by decide, rfl⟩,
    planning [⟨7, 8, 0, 0, false⟩] 9 Stream.reset ⟨0, 100, [(7, slotOfCounts 1 1 1 false)]⟩, rfl, by decide⟩

/-- A tray input one sample short of a change, from the LOW and from the HIGH level. -/
def trayAt (x : Level) (causes : Causes) (s : State) : State :=
  (s.setSense { Sense.reset with tray := ⟨x, 2, .unknown, none⟩ }).setPlay { s.play with causes := causes }

/-- TRAY in with the cause and without; TRAY out in every play state with every feeder state and return-to state, a stream under way. -/
theorem test_witness_TrayChanges :
    (∃ s : State, s.sense.tray.count = 2 ∧ s.sense.tray.accepted = .low ∧ s.play.causes.tray = true) ∧
    (∃ s : State, s.sense.tray.count = 2 ∧ s.sense.tray.accepted = .low ∧ s.play.causes.tray = false) ∧
    ∀ (x : PlayState) (f : FeederState) (back : ReturnTo), ∃ s : State, s.sense.tray.count = 2 ∧
      s.sense.tray.accepted = .high ∧ s.play.state = x ∧ s.feeder.state = f ∧ s.play.returnTo = back ∧
      s.feeder.block + 1 = s.play.disc.extent ∧ s.planner.stream.state ≠ .none :=
  ⟨⟨trayAt .low ⟨true, false, false⟩ (inState .suspended), rfl, rfl, rfl⟩,
    ⟨trayAt .low Causes.none State.reset, rfl, rfl, rfl⟩,
    fun x f back =>
      ⟨trayAt .high Causes.none (streaming .anchored 0 (feeding f 99 0 128 (returning x back))), rfl, rfl, rfl, rfl, rfl, rfl,
        nofun⟩⟩

/-- A shock input with its edge parameter and health state. -/
def shockAt (x : Level) (edge : Nat) (s : State) : State :=
  (s.setSense { Sense.reset with shock := ⟨x, 2, .unknown, none⟩ }).setConsole
    { s.console with params := { s.console.params with shockEdge := edge } }

theorem test_witness_ShockChanges :
    (∃ s : State, s.sense.shock.count = 2 ∧ s.sense.shock.accepted = levelOf (!true) ∧
      s.console.params.shockEdge = 0 ∧ ¬ Withdrawn s) ∧
    (∃ s : State, s.sense.shock.count = 2 ∧ s.sense.shock.accepted = levelOf (!false) ∧
      s.console.params.shockEdge = 1 ∧ Withdrawn s) ∧
    (∃ s : State, s.sense.shock.count = 2 ∧ s.sense.shock.accepted = levelOf (!false) ∧ s.console.params.shockEdge = 2) ∧
    (∃ s : State, s.sense.shock.count = 2 ∧ s.sense.shock.accepted = levelOf (!true) ∧ s.console.params.shockEdge = 1) ∧
    ∃ s : State, s.sense.shock.count = 2 ∧ s.sense.shock.accepted = levelOf (!false) ∧ s.console.params.shockEdge = 0 :=
  ⟨⟨shockAt .low 0 State.reset, rfl, rfl, rfl, nofun⟩, ⟨shockAt .high 1 (away false 0), rfl, rfl, rfl, rfl⟩,
    ⟨shockAt .high 2 State.reset, rfl, rfl, rfl⟩, ⟨shockAt .low 1 State.reset, rfl, rfl, rfl⟩,
    shockAt .high 0 State.reset, rfl, rfl, rfl⟩

/-- The skip score one shock below each threshold, with the Monitor's relations: 112 for GUARDED, 240 for WITHDRAWN. -/
theorem test_witness_ShockChanges_health :
    ∀ p ∈ [(111, HealthState.steady), (112, .steady), (239, .guarded), (240, .guarded)], ∃ s : State,
      s.sense.shock.count = 2 ∧ s.sense.shock.accepted = levelOf (!true) ∧ s.console.params.shockEdge = 0 ∧
        ¬ Withdrawn s ∧ s.health.Sound ∧ s.health.skip = p.1 ∧ s.health.state = p.2 := by
  let at_ (n : Nat) : State :=
    (shockAt .low 0 State.reset).setHealth { Health.reset with skip := n, state := healthOf n, pace := paceOf (healthOf n) }
  have h (n : Nat) (x : HealthState) (hn : healthOf n = x) (hx : x ≠ .withdrawn) (hl : n ≤ 511) : ∃ s : State,
      s.sense.shock.count = 2 ∧ s.sense.shock.accepted = levelOf (!true) ∧ s.console.params.shockEdge = 0 ∧
        ¬ Withdrawn s ∧ s.health.Sound ∧ s.health.skip = n ∧ s.health.state = x :=
    ⟨at_ n, rfl, rfl, rfl, fun w => hx (hn.symm.trans w), ⟨rfl, rfl, hl, Nat.zero_le _, Nat.zero_le _⟩, rfl, hn⟩
  simp only [List.forall_mem_cons]
  exact ⟨h _ _ (by decide) nofun (by decide), h _ _ (by decide) nofun (by decide), h _ _ (by decide) nofun (by decide),
    h _ _ (by decide) nofun (by decide), nofun⟩

/-- A frame at its own index, one that an offset takes into the next block and one into the block before, each at its boundary. -/
theorem test_witness_PlacementPlacesEntry_index :
    (∃ (bn i q : Nat) (d : Int), i = 587 ∧ d = -587 ∧ (q : Int) = (bn * 588 + i : Nat) + d ∧ 0 = (i : Int) + d) ∧
    (∃ (bn i q : Nat) (d : Int), i = 587 ∧ d = 1 ∧ (q : Int) = (bn * 588 + i : Nat) + d ∧ 588 = (i : Int) + d) ∧
    ∃ (bn i q : Nat) (d : Int), i = 587 ∧ d = -588 ∧ (q : Int) = (bn * 588 + i : Nat) + d ∧ -1 = (i : Int) + d :=
  ⟨⟨1, 587, 588, -587, by decide⟩, ⟨1, 587, 1176, 1, by decide⟩, 1, 587, 587, -588, by decide⟩

/-- The scores from which a placed entry crosses a threshold, with the Monitor's relations: an ALL entry that makes the disc rough
at 128, and a CLEAN one that makes it smooth again and lowers a skip score of 128 to STEADY. -/
theorem test_witness_PlacementPlacesEntry_health :
    (∃ (x : IntakeEntry) (rest : List IntakeEntry) (s : State), s.asm.intake = x :: rest ∧ Accepted s x ∧
      s.asm.align.phase = .anchored ∧ x.bn = s.asm.align.expected ∧ x.cls = .all ∧ s.health.Sound ∧
      s.health.erasure = 120 ∧ s.health.rough = false ∧ s.store.wf = true) ∧
    ∃ (x : IntakeEntry) (rest : List IntakeEntry) (s : State), s.asm.intake = x :: rest ∧ Accepted s x ∧
      s.asm.align.phase = .anchored ∧ x.bn = s.asm.align.expected ∧ x.cls = .clean ∧ s.health.Sound ∧
      s.health.erasure = 128 ∧ s.health.rough = true ∧ s.health.skip = 128 :=
  ⟨⟨delivered 5 .all, [],
      (placing (delivered 5 .all) .anchored (inState .playing)).setHealth { Health.reset with erasure := 120 }, rfl,
      ⟨rfl, nofun, rfl, nofun⟩, rfl, rfl, rfl, ⟨rfl, rfl, by decide, by decide, by decide⟩, rfl, rfl, rfl⟩,
    delivered 5 .clean, [],
    (placing (delivered 5 .clean) .anchored (inState .playing)).setHealth
      { Health.reset with erasure := 128, skip := 128, state := .guarded, pace := .low },
    rfl, ⟨rfl, nofun, rfl, nofun⟩, rfl, rfl, rfl, ⟨rfl, rfl, by decide, by decide, by decide⟩, rfl, rfl, rfl⟩

/-- Both inputs with one canceller record. -/
def sensing (c : Canceller) : State := State.reset.setSense ⟨c, c⟩

theorem test_witness_CancellerSamples :
    (∃ s : State, (s.sense.tray.accepted = .unknown ∧ s.sense.tray.count = 2 ∧ s.sense.tray.before = some true) ∧
      s.sense.shock.accepted = .unknown ∧ s.sense.shock.count = 2 ∧ s.sense.shock.before = some true) ∧
    (∃ s : State, (s.sense.tray.accepted = .unknown ∧ s.sense.tray.before ≠ some true) ∧
      s.sense.shock.accepted = .unknown ∧ s.sense.shock.before ≠ some true) ∧
    (∃ s : State, (s.sense.tray.accepted = .unknown ∧ s.sense.tray.before = some true ∧ s.sense.tray.count < 2) ∧
      s.sense.shock.accepted = .unknown ∧ s.sense.shock.before = some true ∧ s.sense.shock.count < 2) ∧
    (∃ s : State, s.sense.tray.accepted = levelOf true ∧ s.sense.shock.accepted = levelOf true) ∧
    ∃ s : State, (s.sense.tray.accepted = levelOf (!true) ∧ s.sense.tray.count < 2) ∧
      s.sense.shock.accepted = levelOf (!true) ∧ s.sense.shock.count < 2 :=
  ⟨⟨sensing ⟨.unknown, 2, .unknown, some true⟩, ⟨rfl, rfl, rfl⟩, rfl, rfl, rfl⟩,
    ⟨State.reset, ⟨rfl, nofun⟩, rfl, nofun⟩,
    ⟨sensing ⟨.unknown, 1, .unknown, some true⟩, ⟨rfl, rfl, by decide⟩, rfl, rfl, by decide⟩,
    ⟨sensing ⟨.high, 2, .unknown, none⟩, rfl, rfl⟩,
    sensing ⟨.low, 1, .unknown, none⟩, ⟨rfl, by decide⟩, rfl, by decide⟩

/-- The Supply Watch's record. -/
def supplied (w : Supply) (s : State) : State := s.setSupply w

/-- One microvolt below the warning threshold of 1.0 V, in every play state with every feeder state and return-to state. -/
theorem test_witness_SupplyWarns :
    999999 < 1100000 - 100000 * Params.default.supplyThreshold ∧
    ∀ (x : PlayState) (f : FeederState) (back : ReturnTo), ∃ s : State, s.supply.warning = false ∧ s.supply.below = 1 ∧
      s.console.params = Params.default ∧ s.play.state = x ∧ s.feeder.state = f ∧ s.play.returnTo = back ∧
      s.feeder.block + 1 = s.play.disc.extent ∧ s.planner.stream.state ≠ .none :=
  ⟨by decide, fun x f back =>
    ⟨supplied ⟨false, 1, 0, false, .powerOn⟩ (streaming .anchored 0 (feeding f 99 0 128 (returning x back))), rfl, rfl, rfl,
      rfl, rfl, rfl, rfl, nofun⟩⟩

/-- At and below the warning threshold in NORMAL, at and below the recovery level in WARNING. -/
theorem test_witness_SupplySampled :
    (∃ (v : Nat) (s : State), s.supply.warning = false ∧ 1100000 - 100000 * s.console.params.supplyThreshold = v) ∧
    (∃ (v : Nat) (s : State), s.supply.warning = false ∧ s.supply.below = 0 ∧
      v + 1 = 1100000 - 100000 * s.console.params.supplyThreshold) ∧
    (∃ (v : Nat) (s : State), s.supply.warning = true ∧
      v + 1 = 1100000 - 100000 * s.console.params.supplyThreshold + 50000) ∧
    ∃ (v : Nat) (s : State), s.supply.warning = true ∧
      1100000 - 100000 * s.console.params.supplyThreshold + 50000 = v :=
  ⟨⟨1000000, State.reset, rfl, rfl⟩, ⟨999999, State.reset, rfl, rfl, rfl⟩,
    ⟨1049999, supplied ⟨true, 0, 0, true, .powerOn⟩ State.reset, rfl, rfl⟩,
    1050000, supplied ⟨true, 0, 0, true, .powerOn⟩ State.reset, rfl, rfl⟩

/-- A count one short of Supply Settle's value of 38, with a set of causes and Auto-Resume. -/
def recovering (causes : Causes) (autoResume : Nat) : State :=
  supplied ⟨true, 0, 37, false, .powerOn⟩
    ((State.reset.setPlay { Play.reset with state := .suspended, causes := causes, supplyWarned := true }).setConsole
      { State.reset.console with params := { Params.default with autoResume := autoResume } })

/-- No cause SUPPLY, TRAY or DRIVE beside it, and SUPPLY alone with Auto-Resume on and off. -/
theorem test_witness_SupplyRecovers :
    ∀ causes : Causes, ∀ autoResume : Nat, ∃ s : State, s.supply.warning = true ∧ s.supply.dipped = false ∧
      s.console.params.supplySettle = min 255 (s.supply.settle + 1) ∧ s.play.causes = causes ∧
      s.console.params.autoResume = autoResume :=
  fun causes autoResume => ⟨recovering causes autoResume, rfl, rfl, rfl, rfl, rfl⟩

/-- The largest position and mode in every play state, and the smallest. -/
theorem test_witness_SelectLoads :
    (∀ x : PlayState, ∃ s : State, MailboxFree s ∧ paramByte s 0 = 6 ∧ paramByte s 1 = 2 ∧ s.play.state = x) ∧
    ∃ s : State, MailboxFree s ∧ paramByte s 0 = 1 ∧ paramByte s 1 = 0 :=
  ⟨fun x => ⟨params #v[6, 2, 0, 0, 0, 0] (inState x), ⟨rfl, nofun⟩, rfl, rfl, rfl⟩,
    params #v[1, 0, 0, 0, 0, 0] State.reset, ⟨rfl, nofun⟩, rfl, rfl⟩

/-- The disc's last frame, from COASTING and from another state. -/
theorem test_witness_PlayCues :
    (∃ s : State, MailboxFree s ∧ s.play.supplyWarned = false ∧ 0 < s.console.params.primeDepth ∧
      playBn s < s.play.disc.extent ∧ playFrame s < 588 ∧ s.play.state = .coasting) ∧
    ∃ s : State, MailboxFree s ∧ s.play.supplyWarned = false ∧ 0 < s.console.params.primeDepth ∧
      playBn s < s.play.disc.extent ∧ playFrame s < 588 ∧ s.play.state = .ready :=
  ⟨⟨params #v[0, 0, 99, 2, 75, 0] (inState .coasting), ⟨rfl, nofun⟩, rfl, by decide, by decide, by decide, rfl⟩,
    params #v[0, 0, 0, 0, 0, 0] (inState .ready), ⟨rfl, nofun⟩, rfl, by decide, by decide, by decide, rfl⟩

/-- Ramp Length 0. -/
def unramped (s : State) : State :=
  s.setConsole { s.console with params := { s.console.params with rampLength := 0 } }

/-- From CUEING with the cursor in the disc, from PLAYING with it at the end; each feeder state, with a ramp and without. -/
theorem test_witness_PauseSeals :
    (∃ s : State, MailboxFree s ∧ s.play.state = .cueing ∧ s.feeder.block + 1 = s.play.disc.extent) ∧
    (∀ x : FeederState, ∃ s : State, MailboxFree s ∧ s.play.state = .playing ∧ s.feeder.state = x ∧
      s.console.params.rampLength ≠ 0 ∧ s.play.disc.extent = s.feeder.block) ∧
    ∀ x : FeederState, ∃ s : State, MailboxFree s ∧ s.play.state = .playing ∧ s.feeder.state = x ∧
      s.console.params.rampLength = 0 :=
  ⟨⟨feeding .silent 99 0 0 (inState .cueing), ⟨rfl, nofun⟩, rfl, rfl⟩,
    fun x => ⟨feeding x 100 0 128 (inState .playing), ⟨rfl, nofun⟩, rfl, rfl, nofun, rfl⟩,
    fun x => ⟨unramped (feeding x 0 0 128 (inState .playing)), ⟨rfl, nofun⟩, rfl, rfl, rfl⟩⟩

/-- PAUSED with the store primed or not. -/
def paused (primed : Bool) : State := State.reset.setPlay { Play.reset with state := .paused, storePrimed := primed }

/-- A store that is not primed; a primed one with the feeder STOPPING, with a ramp and without, and SILENT. -/
theorem test_witness_ContinuePlays :
    (∃ s : State, MailboxFree s ∧ s.play.supplyWarned = false ∧ s.play.state = .paused ∧ s.play.storePrimed = false) ∧
    (∃ s : State, MailboxFree s ∧ s.play.supplyWarned = false ∧ s.play.state = .paused ∧ s.play.storePrimed = true ∧
      s.feeder.state = .stopping ∧ s.console.params.rampLength ≠ 0) ∧
    (∃ s : State, MailboxFree s ∧ s.play.supplyWarned = false ∧ s.play.state = .paused ∧ s.play.storePrimed = true ∧
      s.feeder.state = .stopping ∧ s.console.params.rampLength = 0) ∧
    ∃ s : State, MailboxFree s ∧ s.play.supplyWarned = false ∧ s.play.state = .paused ∧ s.play.storePrimed = true ∧
      s.feeder.state = .silent :=
  ⟨⟨paused false, ⟨rfl, nofun⟩, rfl, rfl, rfl⟩,
    ⟨feeding .stopping 0 0 2 (paused true), ⟨rfl, nofun⟩, rfl, rfl, rfl, rfl, by decide⟩,
    ⟨unramped (feeding .stopping 0 0 2 (paused true)), ⟨rfl, nofun⟩, rfl, rfl, rfl, rfl, rfl⟩,
    paused true, ⟨rfl, nofun⟩, rfl, rfl, rfl, rfl⟩

/-- A CONFIRMED disc with each feeder state; an UNCONFIRMED one in every play state but EMPTY. -/
theorem test_witness_StopEnds :
    (∀ x : FeederState, ∃ s : State, MailboxFree s ∧ s.play.state = .playing ∧ s.play.disc.confirmed = true ∧
      s.feeder.state = x ∧ s.feeder.block + 1 = s.play.disc.extent) ∧
    ∀ x : PlayState, x ≠ .empty → ∃ s : State, MailboxFree s ∧ s.play.state = x ∧ s.play.state ≠ .empty ∧
      s.play.disc.confirmed = false :=
  ⟨fun x => ⟨feeding x 99 0 0 (inState .playing), ⟨rfl, nofun⟩, rfl, rfl, rfl, rfl⟩,
    fun x hx => ⟨waiting x Causes.none false, ⟨rfl, nofun⟩, rfl, hx, rfl⟩⟩

/-- A changed value for each of the 24 parameters, in READY, and the value already held. -/
theorem test_witness_SetWritesParameter :
    (∀ k : Fin 24, ∃ s : State, MailboxFree s ∧ paramByte s 0 = k.val + 1 ∧
      paramInRange (paramByte s 0) (setValue s) = true ∧ s.play.state = .ready ∧
      s.console.params.get (paramByte s 0) ≠ setValue s) ∧
    (∃ s : State, MailboxFree s ∧ paramInRange (paramByte s 0) (setValue s) = true ∧
      s.console.params.get (paramByte s 0) = setValue s) ∧
    (∃ s : State, MailboxFree s ∧ paramByte s 0 = 4 ∧ setValue s = 1 ∧ s.health.rough = true) ∧
    (∃ (s : State) (m : TxMsg), MailboxFree s ∧ paramByte s 0 = 18 ∧ s.link.tx = .sending m) ∧
    ∃ s : State, MailboxFree s ∧ paramByte s 0 = 21 ∧ s.link.tx = .held :=
  ⟨by
      have h : ∀ k : Fin 24, ∃ b : Fin 256,
          paramInRange (k.val + 1) b.val = true ∧ Params.default.get (k.val + 1) ≠ b.val := by decide +kernel
      intro k
      obtain ⟨b, hb, hc⟩ := h k
      have hk : (BitVec.ofNat 8 (k.val + 1)).toNat = k.val + 1 := by
        rw [BitVec.toNat_ofNat]; omega
      have hv : setValue (params #v[BitVec.ofNat 8 (k.val + 1), 0, BitVec.ofNat 8 b.val, 0, 0, 0] (inState .ready)) = b.val := by
        show 0 * 256 + (BitVec.ofNat 8 b.val).toNat = b.val
        rw [BitVec.toNat_ofNat]; omega
      refine ⟨params #v[BitVec.ofNat 8 (k.val + 1), 0, BitVec.ofNat 8 b.val, 0, 0, 0] (inState .ready), ⟨rfl, nofun⟩, hk, ?_, rfl,
        ?_⟩
      · rw [hv]; show paramInRange (BitVec.ofNat 8 (k.val + 1)).toNat b.val = true; rw [hk]; exact hb
      · rw [hv]; show Params.default.get (BitVec.ofNat 8 (k.val + 1)).toNat ≠ b.val; rw [hk]; exact hc,
    ⟨params #v[1, 0, 32, 0, 0, 0] State.reset, ⟨rfl, nofun⟩, by decide, by decide⟩,
    ⟨params #v[4, 0, 1, 0, 0, 0] (State.reset.setHealth { Health.reset with erasure := 128 }), ⟨rfl, nofun⟩, rfl, rfl, by decide⟩,
    ⟨params #v[18, 0, 1, 0, 0, 0] State.reset, .pace .normal, ⟨rfl, nofun⟩, rfl, rfl⟩,
    params #v[21, 0, 0, 0, 0, 0] (State.reset.setLink { Link.reset with tx := .held }), ⟨rfl, nofun⟩, rfl, rfl⟩

/-- A slot whose 588 frames are all GOOD. -/
def fullSlot : Slot := ⟨(List.range 588).map (fun i => (i, ⟨.good, Sample.zero⟩)), 1, false⟩

/-- A store with one READY block at its play position, in a play state with a feeder state, and SET of Prime Depth to ask. -/
def oneReady (x : PlayState) (f : FeederState) (pause : Bool) (old new : Nat) : State :=
  let s := feeding f 0 0 0 ((mapPlay (fun p => { p with pauseOnPrime := pause }) (inState x)).setStore ⟨0, 100, [(0, fullSlot)]⟩)
  (params #v[1, 0, BitVec.ofNat 8 new, 0, 0, 0] s).setConsole
    { (params #v[1, 0, BitVec.ofNat 8 new, 0, 0, 0] s).console with params := { Params.default with primeDepth := old } }

/-- The store of `oneReady` is primed at Prime Depth 1 and not at 2. -/
theorem test_one_ready :
    Store.primed ⟨0, 100, [(0, fullSlot)]⟩ 1 = true ∧ Store.primed ⟨0, 100, [(0, fullSlot)]⟩ 2 = false ∧
      Store.stateOf ⟨0, 100, [(0, fullSlot)]⟩ 0 = .sound := by
  decide +kernel

/-- Prime Depth lowered from 2 to 1 over one READY block: in every play state, with a pause to come and without, in every feeder
state, CUEING and STARVED among them. -/
theorem test_witness_SetWritesParameter_primed :
    ∀ (x : PlayState) (f : FeederState) (pause : Bool), ∃ s : State, MailboxFree s ∧ paramByte s 0 = 1 ∧ setValue s = 1 ∧
      s.store.primed s.console.params.primeDepth = false ∧ s.store.primed (setValue s) = true ∧ s.play.state = x ∧
      s.play.pauseOnPrime = pause ∧ s.feeder.state = f ∧ s.store.stateOf s.feeder.block ≠ .opened :=
  fun x f pause => by
    have hv : setValue (oneReady x f pause 2 1) = 1 := by
      show 0 * 256 + (BitVec.ofNat 8 1).toNat = 1
      decide
    have hb : (oneReady x f pause 2 1).store.primed (setValue (oneReady x f pause 2 1)) = true := by
      rw [hv]
      exact test_one_ready.1
    have ho : (oneReady x f pause 2 1).store.stateOf (oneReady x f pause 2 1).feeder.block ≠ .opened := by
      show Store.stateOf ⟨0, 100, [(0, fullSlot)]⟩ 0 ≠ .opened
      rw [test_one_ready.2.2]
      nofun
    exact ⟨oneReady x f pause 2 1, ⟨rfl, nofun⟩, rfl, hv, test_one_ready.2.1, hb, rfl, rfl, rfl, ho⟩

/-- Prime Depth raised from 1 to 2 over one READY block. -/
theorem test_witness_SetWritesParameter_unprimed :
    ∃ s : State, MailboxFree s ∧ paramByte s 0 = 1 ∧ setValue s = 2 ∧ s.store.primed s.console.params.primeDepth = true ∧
      s.store.primed (setValue s) = false :=
  ⟨oneReady .playing .running false 1 2, ⟨rfl, nofun⟩, rfl, rfl, test_one_ready.1, test_one_ready.2.1⟩

/-- A primed notice starts a STARVED feeder where the store is primed as it is taken, and not where it has fallen back (R124). -/
theorem test_starved :
    (feederPrimed true (oneReady .playing .starved false 2 1)).feeder.state = .starved ∧
      (feederPrimed true (oneReady .playing .starved false 1 1)).feeder.state = .starting := by
  decide +kernel

/-- A retention entry that is not valid and holds other fields reads as zeros (R173). -/
theorem test_not_valid_reads_zero :
    (ResumeEntry.mk false 7 5 3 .paused .stop).shown.bytes = List.replicate 12 0 := by decide

theorem test_witness_ReadCommandsRespond :
    (∃ s : State, MailboxFree s ∧ 1 ≤ paramByte s 0 ∧ paramByte s 0 = 24) ∧
    (∃ s : State, MailboxFree s ∧ 1 ≤ paramByte s 0 ∧ paramByte s 0 = 6) ∧
    (∃ (s : State) (b : Nat), MailboxFree s ∧ slotIndex s = 383 ∧ s.store.playBlock + 383 = b ∧ b % 384 = slotIndex s ∧
      s.store.extent ≤ b) ∧
    (∃ (s : State) (b : Nat), MailboxFree s ∧ slotIndex s = 99 ∧ s.store.playBlock ≤ b ∧ b < s.store.playBlock + 384 ∧
      b % 384 = slotIndex s ∧ b + 1 = s.store.extent) ∧
    (∃ s : State, MailboxFree s ∧ paramByte s 0 = 15 ∧ s.planner.list.length ≤ paramByte s 0) ∧
    (∃ (s : State) (e : RepairEntry), MailboxFree s ∧ paramByte s 0 = 0 ∧ s.planner.list[paramByte s 0]? = some e) ∧
    ∃ s : State, MailboxFree s ∧ paramByte s 1 < (counterGroup s (paramByte s 0)).length ∧ paramByte s 1 = 13 :=
  ⟨⟨params #v[24, 0, 0, 0, 0, 0] State.reset, ⟨rfl, nofun⟩, by decide, rfl⟩,
    ⟨params #v[6, 0, 0, 0, 0, 0] State.reset, ⟨rfl, nofun⟩, by decide, rfl⟩,
    ⟨params #v[1, 127, 0, 0, 0, 0] State.reset, 383, ⟨rfl, nofun⟩, rfl, rfl, rfl, by decide⟩,
    ⟨params #v[0, 99, 0, 0, 0, 0] (holding 5 ⟨.good, ⟨1, 2⟩⟩ State.reset), 99, ⟨rfl, nofun⟩, rfl, by decide, by decide, rfl,
      rfl⟩,
    ⟨params #v[15, 0, 0, 0, 0, 0] State.reset, ⟨rfl, nofun⟩, rfl, by decide⟩,
    ⟨params #v[0, 0, 0, 0, 0, 0] (serving .seeking .repair 0 0 [⟨1, 2, 3, 0, true⟩] State.reset), ⟨1, 2, 3, 0, true⟩,
      ⟨rfl, nofun⟩, rfl, rfl⟩,
    params #v[2, 13, 0, 0, 0, 0] State.reset, ⟨rfl, nofun⟩, by decide, rfl⟩

theorem test_witness_ClearCommandsClear :
    (∃ s : State, MailboxFree s ∧ paramByte s 0 = 0) ∧ ∃ s : State, MailboxFree s ∧ 1 ≤ paramByte s 0 ∧ paramByte s 0 ≤ 6 :=
  ⟨⟨State.reset, ⟨rfl, nofun⟩, rfl⟩, params #v[6, 0, 0, 0, 0, 0] State.reset, ⟨rfl, nofun⟩, by decide, by decide⟩

/-- One value beyond each range, and each state or warning that refuses. -/
theorem test_witness_RefusedCommandsChangeNothing :
    (∃ code : Byte, code.toNat ∉ commandCodes) ∧
    (∃ s : State, MailboxFree s ∧ paramByte s 0 < 1) ∧ (∃ s : State, MailboxFree s ∧ paramByte s 0 = 7) ∧
    (∃ s : State, MailboxFree s ∧ paramByte s 1 = 3) ∧ (∃ s : State, MailboxFree s ∧ s.play.state = .empty) ∧
    (∃ s : State, MailboxFree s ∧ s.play.state ≠ .playing ∧ s.play.state ≠ .cueing) ∧
    (∃ s : State, MailboxFree s ∧ s.play.supplyWarned = true ∧ s.play.state = .ready) ∧
    (∃ s : State, MailboxFree s ∧ s.play.supplyWarned = false ∧ s.play.state = .ready ∧ s.play.disc.extent = playBn s) ∧
    (∃ s : State, MailboxFree s ∧ s.play.supplyWarned = false ∧ s.play.state = .ready ∧ playFrame s = 588) ∧
    (∃ s : State, MailboxFree s ∧ s.play.supplyWarned = false ∧ s.play.state ≠ .paused) ∧
    (∃ s : State, MailboxFree s ∧ paramInRange (paramByte s 0) (setValue s) = true ∧ paramByte s 0 = 18 ∧
      s.play.state = .playing) ∧
    (∃ s : State, MailboxFree s ∧ paramInRange (paramByte s 0) (setValue s) = false) ∧
    (∃ s : State, MailboxFree s ∧ paramByte s 0 = 25) ∧ (∃ s : State, MailboxFree s ∧ slotIndex s = 384) ∧
    (∃ s : State, MailboxFree s ∧ paramByte s 0 = 16) ∧
    ∃ s : State, MailboxFree s ∧ (counterGroup s (paramByte s 0)).length = paramByte s 1 :=
  ⟨⟨0x06, by decide⟩, ⟨State.reset, ⟨rfl, nofun⟩, by decide⟩, ⟨params #v[7, 0, 0, 0, 0, 0] State.reset, ⟨rfl, nofun⟩, rfl⟩,
    ⟨params #v[1, 3, 0, 0, 0, 0] State.reset, ⟨rfl, nofun⟩, rfl⟩, ⟨State.reset, ⟨rfl, nofun⟩, rfl⟩,
    ⟨State.reset, ⟨rfl, nofun⟩, nofun, nofun⟩,
    ⟨State.reset.setPlay { Play.reset with supplyWarned := true, state := .ready }, ⟨rfl, nofun⟩, rfl, rfl⟩,
    ⟨params #v[0, 0, 100, 0, 0, 0] (inState .ready), ⟨rfl, nofun⟩, rfl, rfl, rfl⟩,
    ⟨params #v[0, 0, 0, 2, 76, 0] (inState .ready), ⟨rfl, nofun⟩, rfl, rfl, rfl⟩,
    ⟨inState .playing, ⟨rfl, nofun⟩, rfl, nofun⟩,
    ⟨params #v[18, 0, 2, 0, 0, 0] (inState .playing), ⟨rfl, nofun⟩, by decide, rfl, rfl⟩,
    ⟨params #v[9, 0, 33, 0, 0, 0] State.reset, ⟨rfl, nofun⟩, by decide⟩,
    ⟨params #v[25, 0, 0, 0, 0, 0] State.reset, ⟨rfl, nofun⟩, rfl⟩,
    ⟨params #v[1, 128, 0, 0, 0, 0] State.reset, ⟨rfl, nofun⟩, rfl⟩,
    ⟨params #v[16, 0, 0, 0, 0, 0] State.reset, ⟨rfl, nofun⟩, rfl⟩,
    params #v[6, 12, 0, 0, 0, 0] State.reset, ⟨rfl, nofun⟩, rfl⟩

theorem test_witness_MailboxWrites :
    ∃ s : State, s.console.bus ≠ .refused ∧ s.console.mailbox.busy = false := ⟨State.reset, nofun, rfl⟩

/-- The last pointer of the window, one beyond it, a foreign address, a read-only register. -/
theorem test_witness_RegisterPointer :
    (∃ p : Byte, p.toNat = 0x3F) ∧ (∃ p : Byte, p.toNat = 0x40) ∧
    (∃ (a : BitVec 7) (s : State), a ≠ s.console.address) ∧
    ∃ (r : BitVec 6) (s : State), r.toNat ∉ writableRegisters ∧ s.console.bus ≠ .refused :=
  ⟨⟨0x3F, rfl⟩, ⟨0x40, rfl⟩, ⟨0x3B, State.reset, by decide⟩, 0x3F, State.reset, by decide, nofun⟩

/-- The Console Port at a pointer, in a read or not, with a latch. -/
def pointed (pointer : Nat) (bus : Bus) (latch : Option Snapshot) : State :=
  State.reset.setConsole { State.reset.console with pointer := pointer, bus := bus, latch := latch }

/-- A field read to its last byte and short of it, in a new read and in one under way; the response area has its 16 bytes. -/
theorem test_witness_SnapshotRead :
    (∃ (base width n : Nat) (s : State), s.console.response.length = 16 ∧ s.console.bus ≠ .reading ∧
      fieldAt base = some (base, width) ∧ s.console.pointer = base ∧ 1 ≤ n ∧ n = width) ∧
    (∃ (base width n : Nat) (s : State), s.console.response.length = 16 ∧ s.console.bus = .reading ∧
      fieldAt base = some (base, width) ∧ s.console.pointer = base ∧ 1 ≤ n ∧ n + 1 = width) ∧
    (∃ s : State, s.console.response.length = 16 ∧ s.console.bus ≠ .reading ∧ s.console.pointer < 64 ∧
      fieldAt s.console.pointer = none) ∧
    ∃ s : State, s.console.response.length = 16 ∧ s.console.bus = .reading ∧ s.console.pointer = 0x20 ∧
      fieldAt s.console.pointer = none :=
  ⟨⟨0x30, 16, 16, pointed 0x30 .idle none, rfl, nofun, rfl, rfl, by decide, rfl⟩,
    ⟨1, 28, 27, pointed 1 .reading none, rfl, rfl, rfl, rfl, by decide, rfl⟩,
    ⟨pointed 0x2F .idle none, rfl, nofun, by decide, rfl⟩,
    pointed 0x20 .reading none, rfl, rfl, rfl, rfl⟩

/-- The rest of a latched field, to its last byte and short of it; a read that begins at the last byte of a field. -/
theorem test_witness_SnapshotRead_middle :
    (∃ (base width n i : Nat) (held : List Byte) (s : State), s.console.response.length = 16 ∧ s.console.bus = .reading ∧
      fieldAt base = some (base, width) ∧ s.console.pointer = base + i ∧ 0 < i ∧ 1 ≤ n ∧ i + n = width ∧
      s.console.latch = some ⟨base, held⟩ ∧ held.length = width) ∧
    (∃ (base width n i : Nat) (held : List Byte) (s : State), s.console.response.length = 16 ∧ s.console.bus = .reading ∧
      fieldAt base = some (base, width) ∧ s.console.pointer = base + i ∧ 0 < i ∧ 1 ≤ n ∧ i + n + 1 = width ∧
      s.console.latch = some ⟨base, held⟩ ∧ held.length = width) ∧
    ∃ (base width n i : Nat) (s : State), s.console.response.length = 16 ∧ s.console.bus ≠ .reading ∧
      fieldAt base = some (base, width) ∧ s.console.pointer = base + i ∧ 0 < i ∧ 1 ≤ n ∧ i + n = width :=
  ⟨⟨0x30, 16, 15, 1, List.replicate 16 7, pointed 0x31 .reading (some ⟨0x30, List.replicate 16 7⟩), rfl, rfl, rfl, rfl,
      by decide, by decide, rfl, rfl, rfl⟩,
    ⟨0x30, 16, 14, 1, List.replicate 16 7, pointed 0x31 .reading (some ⟨0x30, List.replicate 16 7⟩), rfl, rfl, rfl, rfl,
      by decide, by decide, rfl, rfl, rfl⟩,
    0x30, 16, 1, 15, pointed 63 .idle none, rfl, nofun, rfl, rfl, by decide, by decide, rfl⟩

theorem test_witness_SnapshotRead_parts :
    ∃ (n : Nat) (s t : State), exec (.snapshotLatch n) s = .next t := ⟨1, State.reset, _, rfl⟩

theorem test_witness_bus : ∃ s : State, s.console.bus ≠ .refused := ⟨State.reset, nofun⟩

theorem test_witness_QueueRequests :
    (∃ (m : TxMsg) (q : List TxMsg), m.cls = .seek ∧ m.cls ∉ q.map TxMsg.cls) ∧
    (∃ (m x : TxMsg) (a b q : List TxMsg), m.cls = .load ∧ q = a ++ x :: b ∧ x.cls = m.cls ∧ m.cls ∉ a.map TxMsg.cls ∧
      a = [.go]) ∧
    (∃ q : List TxMsg, (q.map TxMsg.cls).Nodup ∧ TxClass.cease ∉ q.map TxMsg.cls ∧ q = [.load 1]) ∧
    (∃ (k : Nat) (rest q : List TxMsg), (q.map TxMsg.cls).Nodup ∧ q = .cease k :: rest ∧ rest = [.hold]) ∧
    (∃ q : List TxMsg, (q.map TxMsg.cls).Nodup ∧ TxMsg.hold ∈ q) ∧
    ∃ a b q : List TxMsg, (q.map TxMsg.cls).Nodup ∧ q = a ++ TxMsg.go :: b ∧ a = [.cease 1] :=
  ⟨⟨.seek 1 0, [], rfl, by decide⟩, ⟨.load 2, .load 1, [.go], [], [.go, .load 1], rfl, rfl, rfl, by decide, rfl⟩,
    ⟨[.load 1], by decide, by decide, rfl⟩, ⟨3, [.hold], [.cease 3, .hold], by decide, rfl, rfl⟩,
    ⟨[.hold], by decide, by decide⟩, [.cease 1], [], [.cease 1, .go], by decide, rfl, rfl⟩

theorem test_witness_SeekWithdrawn :
    (∃ (n : Nat) (s : State), ∀ b, TxMsg.seek n b ∉ s.link.queue) ∧
    ∃ (n x : Nat) (front back : List TxMsg) (s : State), s.link.queue = front ++ .seek n x :: back ∧
      (∀ b, TxMsg.seek n b ∉ front) ∧ ∀ b, TxMsg.seek n b ∉ back :=
  ⟨⟨1, State.reset, fun _ => nofun⟩,
    1, 0, [.hold], [], State.reset.setLink { Link.reset with queue := [.hold, .seek 1 0] }, rfl, by simp, by simp⟩

/-- A pending, enabled event gives a summary; the record of reset gives none. -/
theorem test_witness_SummaryAndAttn :
    (∃ a : Attn, a.summary = 16 ∧ a.asserted = true) ∧ ∃ a : Attn, a.summary = 0 ∧ a.asserted = false :=
  ⟨⟨Attn.reset.setRecord 15 ⟨true, true, 1, 1, 0⟩, by decide, by decide⟩,
    Attn.reset, by decide, by decide⟩

/-- Every relation that a step keeps, with a step to take. -/
theorem test_witness_invariants :
    ∃ s t : State, step s = .next t ∧ s.link.Sound ∧ s.health.Sound ∧ s.store.wf = true ∧ s.resume.Sound ∧
      s.feeder.Sound ∧ s.play.Sound ∧ s.console.Sound ∧ s.console.params.InRange ∧ s.sense.Sound ∧ SupplySound s ∧
      FlowSound s := by
  refine ⟨State.reset, State.reset, rfl, ⟨by decide, nofun⟩, ⟨rfl, rfl, by decide, by decide, by decide⟩, rfl, ?_,
    ⟨by decide, nofun, fun _ => rfl, fun _ => ⟨rfl, rfl⟩⟩, ⟨nofun, ?_⟩, rfl, ?_, ⟨by decide, by decide⟩,
    ⟨rfl, by decide, by decide⟩, ⟨by decide, by decide⟩⟩
  · exact test_crc_blank.symm
  · rintro (h | h) <;> cases h
  · intro id hi hj
    show paramInRange id (Params.default.get id) = true
    revert hi hj
    have h : ∀ k : Fin 25, 1 ≤ k.val → paramInRange k.val (Params.default.get k.val) = true := by decide
    intro hi hj
    exact h ⟨id, by omega⟩ hi

/-- The planner's relations with a run listed, and the store's and the Intake's, in a state of play with a step to take. -/
theorem test_witness_invariants_store :
    ∃ s t : State, step s = .next t ∧ s.store.wf = true ∧ StoreSound s ∧ IntakeSound s ∧ PlannerSound s ∧
      s.planner.list ≠ [] := by
  refine ⟨planning [⟨0, 0, 0, 0, false⟩] 1 Stream.reset (opening 1), _, rfl, by decide,
    ⟨by decide, rfl, rfl, nofun, ?_, ?_⟩, ⟨by decide, nofun, nofun, by decide, by decide⟩,
    ⟨⟨by decide, by decide, by decide, by decide, by decide, fun _ => by decide, by decide⟩,
      ⟨by decide, by decide, by decide, by decide, nofun, nofun, by decide, by decide⟩,
      ⟨by decide, nofun, fun h => absurd rfl h⟩⟩, by decide⟩
  · intro k hk hu
    have h : ∀ k : Fin 384, (opening 1).used k.val = false → (opening 1).slotAt k.val = Slot.empty := by decide +kernel
    exact h ⟨k, hk⟩ hu
  · intro k
    rcases Nat.eq_zero_or_pos k with h | h
    · subst h
      decide
    · have hs : (opening 1).slotAt k = Slot.empty := by
        obtain ⟨j, rfl⟩ : ∃ j, k = j + 1 := ⟨k - 1, by omega⟩
        rfl
      show ((opening 1).slotAt k).pass ≤ 15 ∧ ((opening 1).slotAt k).meetsRow5 _ = false
      rw [hs]
      exact ⟨by decide, rfl⟩

end Sys2Proof.Tests
end

