-- ==== Sys2Proof/Proofs/BlockTick.lean ====
section
/-!
SUPPORT. The block tick (R1), owner by owner: when an owner's tick is due, said once for each owner, and what a tick that is not
due counts. Then the whole tick with nothing due (O8).
-/
namespace Sys2Proof.Machine

section
variable {s : State}

/-! ### When a tick is due -/

theorem seekTimeoutDue_iff :
    seekTimeoutDue s = true ↔
      s.planner.stream.timerRuns = true ∧ s.console.params.seekTimeout ≤ min 1023 (s.planner.stream.timer + 1) := by
  simp [seekTimeoutDue, satAdd]

theorem Play.timerRuns_iff (p : Play) : p.timerRuns = true ↔ p.state = .loading ∨ p.confirming = true := by
  simp [Play.timerRuns]

theorem loadTimeoutDue_iff :
    loadTimeoutDue s = true ↔
      (s.play.state = .loading ∨ s.play.confirming = true) ∧
        s.console.params.loadTimeout ≤ min 2047 (s.play.loadTimer + 1) := by
  simp [loadTimeoutDue, Play.timerRuns_iff, satAdd]

theorem Health.quietTick_iff (h : Health) :
    h.quietTick = true ↔ h.state = .withdrawn ∧ h.settledSeen = true ∧ h.disturbed = false := by
  simp [Health.quietTick, and_assoc]

theorem recoveryDue_iff :
    recoveryDue s = true ↔
      (s.health.state = .withdrawn ∧ s.health.settledSeen = true ∧ s.health.disturbed = false) ∧
        s.console.params.quietCount ≤ min 255 (s.health.quiet + 1) := by
  simp [recoveryDue, Health.quietTick_iff, satAdd]

theorem supplyRecoveryDue_iff :
    supplyRecoveryDue s = true ↔
      (s.supply.warning = true ∧ s.supply.dipped = false) ∧
        s.console.params.supplySettle ≤ min 255 (s.supply.settle + 1) := by
  simp [supplyRecoveryDue, satAdd]

theorem clockLossDue_iff :
    clockLossDue s = true ↔ s.feeder.seen = false ∧ s.feeder.clockLost = false ∧ s.feeder.state ≠ .silent := by
  simp [clockLossDue, and_assoc]

/-! ### What a tick that is not due counts -/

/-- The stream record after a tick short of Seek Timeout (R57). -/
def Stream.ticked (x : Stream) : Stream :=
  { x with timer := if x.timerRuns then min 1023 (x.timer + 1) else x.timer }

/-- The Play Controller after a tick short of Load Timeout (R143). -/
def Play.ticked (p : Play) : Play :=
  { p with
    loadTimer := if p.state = .loading ∨ p.confirming = true then min 2047 (p.loadTimer + 1) else p.loadTimer }

/-- The Monitor after a tick short of Quiet Count (R84). -/
def Health.ticked (h : Health) : Health :=
  { h with
    disturbed := false
    quiet := if h.state = .withdrawn ∧ h.settledSeen = true ∧ h.disturbed = false then min 255 (h.quiet + 1) else h.quiet }

/-- The Supply Watch after a tick short of Supply Settle (R168). -/
def Supply.ticked (w : Supply) : Supply :=
  if w.warning then { w with dipped := false, settle := if w.dipped then w.settle else min 255 (w.settle + 1) } else w

theorem seekTick_of_not_due (h : ¬ seekTimeoutDue s = true) : seekTick s = setStream s.planner.stream.ticked s := by
  unfold seekTick Stream.ticked
  rw [if_neg h]
  split
  · rfl -- the timer runs
  · rfl -- it does not, and the record is written back as it was

theorem loadTick_of_not_due (h : ¬ loadTimeoutDue s = true) : loadTick s = s.setPlay s.play.ticked := by
  unfold loadTick Play.ticked
  rw [if_neg h]
  simp only [Play.timerRuns_iff]
  split
  · rfl
  · rfl

theorem monitorTick_of_not_due (h : ¬ recoveryDue s = true) : monitorTick s = s.setHealth s.health.ticked := by
  unfold monitorTick Health.ticked
  rw [if_neg h]
  simp only [Health.quietTick_iff, satAdd]

theorem supplyTick_of_not_due (h : ¬ supplyRecoveryDue s = true) : supplyTick s = s.setSupply s.supply.ticked := by
  unfold supplyTick Supply.ticked
  rw [if_neg h]
  split
  · rfl
  · rfl

theorem clockTick_of_not_due (h : ¬ clockLossDue s = true) :
    clockTick s = s.setFeeder { s.feeder with seen := false } := if_neg h

/-! ### The whole tick -/

/-- No owner's tick is due. -/
structure NothingDue (s : State) : Prop where
  seek     : ¬ seekTimeoutDue s = true
  load     : ¬ loadTimeoutDue s = true
  recovery : ¬ recoveryDue s = true
  supply   : ¬ supplyRecoveryDue s = true
  clock    : ¬ clockLossDue s = true

/-- The part after a tick with nothing due: each owner has counted. -/
def State.ticked (s : State) : State :=
  { s with
    planner := { s.planner with stream := s.planner.stream.ticked }
    play := s.play.ticked
    health := s.health.ticked
    supply := s.supply.ticked
    feeder := { s.feeder with seen := false } }

/-- The five owners tick one after another; none changes what decides whether a later one is due. -/
theorem blockTick_of_nothingDue (h : NothingDue s) : blockTick s = s.ticked := by
  unfold blockTick
  rw [seekTick_of_not_due h.seek, loadTick_of_not_due, monitorTick_of_not_due, supplyTick_of_not_due, clockTick_of_not_due]
  · rfl
  · exact h.clock
  · exact h.supply
  · exact h.recovery
  · exact h.load

/-- With nothing due no notice of readiness is handed, so BLOCK_TICK is the five ticks alone. -/
theorem execBlockTick_of_nothingDue (h : NothingDue s) : execBlockTick s = .next s.ticked := by
  have due : NothingDue (s.setNotices []) := ⟨h.seek, h.load, h.recovery, h.supply, h.clock⟩
  have counts : blockTick (s.setNotices []) = (s.setNotices []).ticked := blockTick_of_nothingDue due
  have quiet : (blockTick (s.setNotices [])).notices = [] := by rw [counts]; rfl
  unfold execBlockTick
  rw [inStep_quiet quiet, counts]
  rfl

end

end Sys2Proof.Machine

namespace Sys2Proof.Claims

open Sys2Proof.Machine

/-- Settles O8: each hypothesis says that one owner's tick is not due, and then BLOCK_TICK is the five counts. -/
theorem blockTickCounts : Obligations.BlockTickCounts := by
  intro s seek load quiet settle seen
  refine execBlockTick_of_nothingDue ⟨?seek, ?load, ?recovery, ?supply, ?clock⟩
  case seek =>
    rw [seekTimeoutDue_iff]
    exact fun ⟨runs, due⟩ => absurd (seek runs) (Nat.not_lt.mpr due)
  case load =>
    rw [loadTimeoutDue_iff]
    exact fun ⟨runs, due⟩ => absurd (load runs) (Nat.not_lt.mpr due)
  case recovery =>
    rw [recoveryDue_iff]
    exact fun ⟨runs, due⟩ => absurd (quiet runs) (Nat.not_lt.mpr due)
  case supply =>
    rw [supplyRecoveryDue_iff]
    exact fun ⟨runs, due⟩ => absurd (settle runs) (Nat.not_lt.mpr due)
  case clock =>
    rw [clockLossDue_iff]
    rintro ⟨unseen, running, sounding⟩
    rcases seen with hseen | hlost | hsilent
    · simp [hseen] at unseen
    · simp [hlost] at running
    · exact sounding hsilent

end Sys2Proof.Claims
end

