-- ==== Sys2Proof/Proofs/SlotStore.lean ====
section
/-!
SUPPORT. The Slot Store (R3 to R15): what the slot of a BN and of an index reads after each event at the store, the slot states, the
ready depth and the fill head. Then the statement about the store (O29).
-/
namespace Sys2Proof.Machine

/-! ### Sparse lists -/

/-- A filtered list reads as unlisted where the entry was dropped. -/
theorem Sparse.get_filter {α : Type} [DecidableEq α] {d : α} {l : List (Nat × α)} {low : Nat}
    (w : Sparse.wfFrom d low l = true) (p : Nat × α → Bool) (i : Nat) :
    Sparse.get d (l.filter p) i = if p (i, Sparse.get d l i) then Sparse.get d l i else d := by
  induction l generalizing low with
  | nil => exact (ite_self d).symm
  | cons e rest ih =>
    obtain ⟨k, v⟩ := e
    obtain ⟨-, -, wr⟩ := Sparse.wfFrom_cons.mp w
    have below : ∀ j, j ≤ k → Sparse.get d (rest.filter p) j = d := fun j hj =>
      Sparse.get_below (Sparse.wfFrom_filter p wr) (Nat.lt_succ_of_le hj)
    have head : Sparse.get d ((k, v) :: rest) i = if i = k then v else if i < k then d else Sparse.get d rest i := rfl
    rw [List.filter_cons, head]
    rcases Nat.lt_trichotomy i k with h | h | h
    · have ne : i ≠ k := Nat.ne_of_lt h
      split <;> simp [Sparse.get, ne, h, below i (Nat.le_of_lt h)]
    · subst h
      split <;> simp_all [Sparse.get]
    · have ne : i ≠ k := Nat.ne_of_gt h
      have nlt : ¬ i < k := Nat.not_lt_of_gt h
      split <;> simp [Sparse.get, ne, nlt, ih wr]

/-- A map over the values that keeps the unlisted one reads through the map. -/
theorem Sparse.get_map {α : Type} {d : α} (g : α → α) (hg : g d = d) (l : List (Nat × α)) (i : Nat) :
    Sparse.get d (l.map (fun e => (e.1, g e.2))) i = g (Sparse.get d l i) := by
  induction l with
  | nil => exact hg.symm
  | cons e rest ih =>
    obtain ⟨k, v⟩ := e
    simp only [List.map_cons, Sparse.get, ih]
    split
    · rfl
    · split
      · exact hg.symm
      · rfl

namespace Store

variable {t : Store}

/-! ### The window (R4) -/

theorem length_of_lt (h : t.playBlock < t.extent) : t.length = min 384 (t.extent - t.playBlock) := if_pos h

theorem length_of_le (h : t.extent ≤ t.playBlock) : t.length = 0 := if_neg (Nat.not_lt.mpr h)

/-- A BN lies in the window when it is one of the 384 from the Play Block on, and below the extent. -/
theorem holds_iff {b : Nat} : t.holds b = true ↔ t.playBlock ≤ b ∧ b < t.playBlock + 384 ∧ b < t.extent := by
  unfold Store.holds Store.limit
  rw [decide_eq_true_iff]
  rcases Nat.lt_or_ge t.playBlock t.extent with h | h
  · rw [length_of_lt h]
    omega
  · rw [length_of_le h]
    omega

/-- The window depends on the Play Block and the extent alone. -/
theorem holds_congr {x : Store} (hp : x.playBlock = t.playBlock) (he : x.extent = t.extent) (b : Nat) :
    x.holds b = t.holds b := by
  rw [Bool.eq_iff_iff, holds_iff, holds_iff, hp, he]

/-- The index of a BN of the 384 from the Play Block on implies that BN. -/
theorem impliedBn_mod {b : Nat} (low : t.playBlock ≤ b) (high : b < t.playBlock + 384) :
    t.impliedBn (b % Config.slotCount) = b := by
  unfold Store.impliedBn
  simp only [Config.slotCount]
  omega

theorem used_iff {k : Nat} : t.used k = true ↔ t.impliedBn k < t.extent := decide_eq_true_iff

theorem used_mod {b : Nat} (h : t.holds b = true) : t.used (b % Config.slotCount) = true := by
  obtain ⟨low, high, below⟩ := holds_iff.mp h
  rw [used_iff, impliedBn_mod low high]
  exact below

/-- Two BNs of the window have one index only if they are one. -/
theorem mod_ne_of_holds {b c : Nat} (hb : t.holds b = true) (hc : t.holds c = true) (ne : c ≠ b) :
    c % Config.slotCount ≠ b % Config.slotCount := by
  have hb := holds_iff.mp hb
  have hc := holds_iff.mp hc
  simp only [Config.slotCount]
  omega

theorem slotOf_of_holds {b : Nat} (h : t.holds b = true) : t.slotOf b = t.slotAt (b % Config.slotCount) := if_pos h

theorem slotOf_outside {b : Nat} (h : t.holds b ≠ true) : t.slotOf b = Slot.empty := if_neg h

theorem stateOf_outside {b : Nat} (h : t.holds b ≠ true) : t.stateOf b = .free := by
  unfold Store.stateOf
  rw [slotOf_outside h]
  rfl

/-! ### A write of one slot (R8, R9) -/

@[simp] theorem setSlot_playBlock (t : Store) (b : Nat) (x : Slot) : (t.setSlot b x).playBlock = t.playBlock :=
  (setSlot_figures t b x).2

@[simp] theorem setSlot_extent (t : Store) (b : Nat) (x : Slot) : (t.setSlot b x).extent = t.extent :=
  (setSlot_figures t b x).1

theorem setSlot_outside {b : Nat} (h : t.holds b ≠ true) (x : Slot) : t.setSlot b x = t := if_neg h

theorem slotAt_setSlot (w : t.wf = true) {b : Nat} (h : t.holds b = true) (x : Slot) (k : Nat) :
    (t.setSlot b x).slotAt k = if k = b % Config.slotCount then x else t.slotAt k := by
  have ws := ((Store.wf_iff t).mp w).1
  have written : (t.setSlot b x).slots = Sparse.put Slot.empty t.slots (b % Config.slotCount) x := by
    unfold Store.setSlot
    rw [if_pos h]
  unfold Store.slotAt
  rw [written]
  split
  · rename_i e
    rw [e]
    exact Sparse.get_put_self ws
  · exact Sparse.get_put_other ws ‹_›

theorem slotOf_setSlot_self (w : t.wf = true) {b : Nat} (h : t.holds b = true) (x : Slot) : (t.setSlot b x).slotOf b = x := by
  rw [slotOf_of_holds ((holds_congr (by simp) (by simp) b).trans h), slotAt_setSlot w h, if_pos rfl]

theorem slotOf_setSlot_other (w : t.wf = true) (b : Nat) (x : Slot) {c : Nat} (ne : c ≠ b) :
    (t.setSlot b x).slotOf c = t.slotOf c := by
  by_cases hb : t.holds b = true
  · have same : (t.setSlot b x).holds c = t.holds c := holds_congr (by simp) (by simp) c
    by_cases hc : t.holds c = true
    · rw [slotOf_of_holds (same.trans hc), slotOf_of_holds hc, slotAt_setSlot w hb, if_neg (mod_ne_of_holds hb hc ne)]
    · rw [slotOf_outside (by rwa [same]), slotOf_outside hc]
  · rw [setSlot_outside hb]

/-! ### Declarations (R8, R118) -/

theorem declare_outside {b : Nat} (h : t.holds b ≠ true) : t.declare b = t := setSlot_outside h _

theorem slotOf_declare_self (w : t.wf = true) {b : Nat} (h : t.holds b = true) :
    (t.declare b).slotOf b = { t.slotOf b with declared := true } := slotOf_setSlot_self w h _

theorem slotOf_declare_other (w : t.wf = true) (b : Nat) {c : Nat} (ne : c ≠ b) : (t.declare b).slotOf c = t.slotOf c :=
  slotOf_setSlot_other w b _ ne

/-! ### Merge steps (R9) -/

theorem merge_of_ne (t : Store) (limit b : Nat) {step : List (Nat × Frame)} (h : step ≠ []) :
    t.merge limit b step = t.setSlot b ((t.slotOf b).merge limit step) := by
  unfold Store.merge
  rw [if_neg (by simpa using h)]

/-! ### Freeing (R5, R13 to R15) -/

/-- A store whose slots are filtered reads as empty where the filter drops. -/
theorem slotAt_filter (w : t.wf = true) (p : Nat × Slot → Bool) (k e : Nat) :
    ({ t with extent := e, slots := t.slots.filter p } : Store).slotAt k =
      if p (k, t.slotAt k) then t.slotAt k else Slot.empty :=
  Sparse.get_filter ((Store.wf_iff t).mp w).1 p k

theorem slotAt_trim (w : t.wf = true) (x k : Nat) :
    (t.trim x).slotAt k = if t.used k = true ∧ x ≤ t.impliedBn k then Slot.empty else t.slotAt k := by
  refine (slotAt_filter w _ k t.extent).trans ?_
  by_cases h : t.used k = true ∧ x ≤ t.impliedBn k
  · simp [h]
  · rw [if_neg h, if_pos]
    simpa [-not_and, not_and_or] using h

theorem slotAt_setExtent (w : t.wf = true) (e k : Nat) :
    (t.setExtent e).slotAt k = if e ≤ t.impliedBn k ∧ t.impliedBn k < t.extent then Slot.empty else t.slotAt k := by
  refine (slotAt_filter w _ k e).trans ?_
  by_cases h : e ≤ t.impliedBn k ∧ t.impliedBn k < t.extent
  · simp [h]
  · rw [if_neg h, if_pos]
    simpa [-not_and, not_and_or] using h

theorem slotAt_advance (w : t.wf = true) (b k : Nat) :
    (t.advance b).slotAt k = if k = b % Config.slotCount then Slot.empty else t.slotAt k := by
  have ws := ((Store.wf_iff t).mp w).1
  unfold Store.advance Store.slotAt
  split
  · rename_i e
    rw [e]
    exact Sparse.get_put_self ws
  · exact Sparse.get_put_other ws ‹_›

theorem slotOf_trim_below (w : t.wf = true) {x c : Nat} (h : c < x) : (t.trim x).slotOf c = t.slotOf c := by
  have same : (t.trim x).holds c = t.holds c := holds_congr rfl rfl c
  by_cases hc : t.holds c = true
  · obtain ⟨low, high, -⟩ := holds_iff.mp hc
    rw [slotOf_of_holds (same.trans hc), slotOf_of_holds hc, slotAt_trim w, if_neg]
    rw [impliedBn_mod low high]
    omega
  · rw [slotOf_outside (by rwa [same]), slotOf_outside hc]

theorem slotOf_trim_from (w : t.wf = true) {x c : Nat} (h : x ≤ c) : (t.trim x).slotOf c = Slot.empty := by
  have same : (t.trim x).holds c = t.holds c := holds_congr rfl rfl c
  by_cases hc : t.holds c = true
  · obtain ⟨low, high, -⟩ := holds_iff.mp hc
    rw [slotOf_of_holds (same.trans hc), slotAt_trim w, if_pos]
    rw [impliedBn_mod low high]
    exact ⟨used_mod hc, h⟩
  · exact slotOf_outside (by rwa [same])

theorem slotOf_setExtent_below (w : t.wf = true) {e c : Nat} (he : e ≤ t.extent) (h : c < e) :
    (t.setExtent e).slotOf c = t.slotOf c := by
  have same : (t.setExtent e).holds c = t.holds c := by
    rw [Bool.eq_iff_iff, holds_iff, holds_iff]
    show t.playBlock ≤ c ∧ c < t.playBlock + 384 ∧ c < e ↔ _
    omega
  by_cases hc : t.holds c = true
  · obtain ⟨low, high, -⟩ := holds_iff.mp hc
    rw [slotOf_of_holds (same.trans hc), slotOf_of_holds hc, slotAt_setExtent w, if_neg]
    rw [impliedBn_mod low high]
    omega
  · rw [slotOf_outside (by rwa [same]), slotOf_outside hc]

theorem slotOf_setExtent_from (t : Store) {e c : Nat} (h : e ≤ c) : (t.setExtent e).slotOf c = Slot.empty := by
  refine slotOf_outside fun hc => ?_
  obtain ⟨-, -, below⟩ := holds_iff.mp hc
  exact absurd below (Nat.not_lt.mpr h)

theorem slotOf_flush (t : Store) (p c : Nat) : (t.flush p).slotOf c = Slot.empty := by
  unfold Store.slotOf
  split
  · rfl
  · rfl

/-- The window advance leaves the blocks that stay in the window. -/
theorem slotOf_advance_kept (w : t.wf = true) {c : Nat} (low : t.playBlock < c) (high : c < t.playBlock + 384) :
    (t.advance t.playBlock).slotOf c = t.slotOf c := by
  have same : (t.advance t.playBlock).holds c = t.holds c := by
    rw [Bool.eq_iff_iff, holds_iff, holds_iff]
    show t.playBlock + 1 ≤ c ∧ c < t.playBlock + 1 + 384 ∧ c < t.extent ↔ _
    omega
  by_cases hc : t.holds c = true
  · rw [slotOf_of_holds (same.trans hc), slotOf_of_holds hc, slotAt_advance w, if_neg]
    simp only [Config.slotCount]
    omega
  · rw [slotOf_outside (by rwa [same]), slotOf_outside hc]

/-- The block that enters the window at its far end has the freed slot. -/
theorem slotOf_advance_entering (w : t.wf = true) (b : Nat) : (t.advance b).slotOf (b + 384) = Slot.empty := by
  have freed : (t.advance b).slotAt ((b + 384) % Config.slotCount) = Slot.empty := by
    rw [slotAt_advance w, if_pos]
    exact Nat.add_mod_right b 384
  unfold Store.slotOf
  split
  · exact freed
  · rfl

/-! ### Frames (R9, R10) -/

theorem frameAt_block (t : Store) (b : Nat) {i : Nat} (h : i < 588) :
    t.frameAt (b * 588 + i) = Sparse.get Frame.none (t.slotOf b).frames i := by
  have block : (b * 588 + i) / Config.framesPerBlock = b := by simp only [Config.framesPerBlock]; omega
  have index : (b * 588 + i) % Config.framesPerBlock = i := by simp only [Config.framesPerBlock]; omega
  unfold Store.frameAt
  rw [block, index]

end Store

namespace Slot

variable {x : Slot}

/-! ### Slot states (R6) -/

theorem state_sound (h : x.goodCount = 588) : x.state = .sound := if_pos h

theorem state_declared (h : x.goodCount ≠ 588) (d : x.declared = true) :
    x.state = if x.goodCount + x.erasedCount = 0 then .lost else .final := by
  unfold Slot.state
  rw [if_neg h, if_pos d]

theorem state_undeclared (h : x.goodCount ≠ 588) (d : x.declared = false) :
    x.state = if x.goodCount + x.erasedCount = 0 then .free else if x.absentCount = 0 then .opened else .partly := by
  unfold Slot.state
  rw [if_neg h, if_neg (by simp [d])]

theorem absentCount_eq_zero : x.absentCount = 0 ↔ 588 ≤ x.goodCount + x.erasedCount := by
  unfold Slot.absentCount
  simp only [Config.framesPerBlock]
  omega

theorem meetsRow5_iff {limit : Nat} :
    x.meetsRow5 limit = true ↔
      x.declared = false ∧ 588 ≤ x.goodCount + x.erasedCount ∧ 0 < x.erasedCount ∧ limit ≤ x.pass := by
  simp [Slot.meetsRow5, absentCount_eq_zero, and_assoc]

theorem recheck_of_row5 {limit : Nat} (h : x.meetsRow5 limit = true) : x.recheck limit = { x with declared := true } :=
  if_pos h

theorem recheck_of_not_row5 {limit : Nat} (h : ¬ x.meetsRow5 limit = true) : x.recheck limit = x := if_neg h

@[simp] theorem recheck_frames (x : Slot) (limit : Nat) : (x.recheck limit).frames = x.frames := by
  unfold Slot.recheck
  split <;> rfl

@[simp] theorem recheck_pass (x : Slot) (limit : Nat) : (x.recheck limit).pass = x.pass := by
  unfold Slot.recheck
  split <;> rfl

/-- The states of R6's table, row by row. -/
theorem state_rows (x : Slot) :
    (x.goodCount = 588 → x.state = .sound) ∧
    (x.goodCount ≠ 588 → x.declared = true → x.goodCount + x.erasedCount = 0 → x.state = .lost) ∧
    (x.goodCount ≠ 588 → x.declared = true → x.goodCount + x.erasedCount ≠ 0 → x.state = .final) ∧
    (x.goodCount ≠ 588 → x.declared = false → x.goodCount + x.erasedCount = 0 → x.state = .free) ∧
    (x.goodCount ≠ 588 → x.declared = false → x.goodCount + x.erasedCount = 588 → x.state = .opened) ∧
    (x.declared = false → 0 < x.goodCount + x.erasedCount → x.goodCount + x.erasedCount < 588 → x.state = .partly) := by
  refine ⟨state_sound, fun h d z => ?lost, fun h d z => ?final, fun h d z => ?free, fun h d z => ?opened,
    fun d low high => ?partly⟩
  case lost => rw [state_declared h d, if_pos z]
  case final => rw [state_declared h d, if_neg z]
  case free => rw [state_undeclared h d, if_pos z]
  case opened => rw [state_undeclared h d, if_neg (by omega), if_pos (absentCount_eq_zero.mpr (by omega))]
  case partly =>
    rw [state_undeclared (by omega) d, if_neg (by omega), if_neg (by rw [absentCount_eq_zero]; omega)]

/-- The recomputation declares a slot of row 5 and leaves every other (R6). -/
theorem recheck_rows (x : Slot) (limit : Nat) :
    (x.declared = false → x.goodCount + x.erasedCount = 588 → 0 < x.erasedCount → limit ≤ x.pass →
      x.recheck limit = { x with declared := true }) ∧
    (x.declared = true ∨ x.goodCount + x.erasedCount < 588 ∨ x.erasedCount = 0 ∨ x.pass < limit → x.recheck limit = x) := by
  refine ⟨fun d z e l => recheck_of_row5 (meetsRow5_iff.mpr ⟨d, by omega, e, l⟩), fun h => recheck_of_not_row5 fun row5 => ?_⟩
  obtain ⟨d, z, e, l⟩ := meetsRow5_iff.mp row5
  rcases h with declared | absent | sound | early
  · rw [d] at declared
    cases declared
  · omega
  · omega
  · omega

end Slot

namespace Store

variable {t : Store}

/-! ### Ready depth, primed, fill head (R11, R12) -/

/-- The count of ready blocks stops at the first that is not. -/
theorem readyFrom_spec (t : Store) (n b : Nat) :
    t.readyFrom n b ≤ n ∧ (∀ i, i < t.readyFrom n b → (t.stateOf (b + i)).ready = true) ∧
      (t.readyFrom n b < n → (t.stateOf (b + t.readyFrom n b)).ready = false) := by
  induction n generalizing b with
  | zero => exact ⟨Nat.le_refl _, fun i h => absurd h (Nat.not_lt_zero i), fun h => absurd h (Nat.not_lt_zero _)⟩
  | succ n ih =>
    unfold Store.readyFrom
    split
    · rename_i first
      obtain ⟨short, ready, stops⟩ := ih (b + 1)
      refine ⟨by omega, fun i h => ?_, fun h => ?_⟩
      · cases i with
        | zero => exact first
        | succ i =>
          rw [Nat.add_comm i, ← Nat.add_assoc]
          exact ready i (by omega)
      · rw [Nat.add_comm _ 1, ← Nat.add_assoc]
        exact stops (by omega)
    · rename_i first
      exact ⟨Nat.zero_le _, fun i h => absurd h (Nat.not_lt_zero i), fun _ => Bool.eq_false_iff.mpr first⟩

theorem primed_iff {depth : Nat} :
    t.primed depth = true ↔
      depth ≤ t.readyDepth ∨ (0 < t.length ∧ t.readyDepth = t.length ∧ t.playBlock + t.length = t.extent) := by
  unfold Store.primed Store.limit
  simp only [Bool.or_eq_true, Bool.and_eq_true, decide_eq_true_eq, and_assoc]

/-- The fill head of `n` blocks from `b` on: at most `n` beyond `b`, all FREE from it on, and not FREE just below it. -/
theorem fillFrom_spec (t : Store) (b n : Nat) :
    b ≤ t.fillFrom b n ∧ t.fillFrom b n ≤ b + n ∧ (∀ c, t.fillFrom b n ≤ c → c < b + n → t.stateOf c = .free) ∧
      (b < t.fillFrom b n → t.stateOf (t.fillFrom b n - 1) ≠ .free) := by
  induction n with
  | zero =>
    exact ⟨Nat.le_refl _, Nat.le_refl _, fun c low high => absurd low (Nat.not_le.mpr high), fun h => absurd h (Nat.lt_irrefl _)⟩
  | succ n ih =>
    unfold Store.fillFrom
    split
    · rename_i last
      exact ⟨by omega, by omega, fun c low high => by omega, fun _ => last⟩
    · rename_i last
      obtain ⟨low, high, free, top⟩ := ih
      refine ⟨low, by omega, fun c hl hh => ?_, top⟩
      rcases Nat.lt_succ_iff_lt_or_eq.mp hh with h | h
      · exact free c hl h
      · rw [h]
        exact Decidable.not_not.mp last

/-- From the fill head on every block is FREE, beyond the window as well. -/
theorem free_of_fillHead_le (t : Store) {b : Nat} (h : t.fillHead ≤ b) : t.stateOf b = .free := by
  obtain ⟨low, -, free, -⟩ := t.fillFrom_spec t.playBlock t.length
  by_cases hb : t.holds b = true
  · exact free b h (of_decide_eq_true hb).2
  · exact stateOf_outside hb

/-- The derived figures of the store (R4, R11, R12). -/
theorem figures (t : Store) (primeDepth : Nat) :
    (t.readyDepth ≤ t.length ∧ (∀ i, i < t.readyDepth → (t.stateOf (t.playBlock + i)).ready = true) ∧
      (t.readyDepth < t.length → (t.stateOf (t.playBlock + t.readyDepth)).ready = false)) ∧
    (t.primed primeDepth = true ↔
      primeDepth ≤ t.readyDepth ∨ (0 < t.length ∧ t.readyDepth = t.length ∧ t.playBlock + t.length = t.extent)) ∧
    t.playBlock ≤ t.fillHead ∧ t.fillHead ≤ t.playBlock + t.length ∧
    (∀ b, t.fillHead ≤ b → t.stateOf b = .free) ∧
    (t.playBlock < t.fillHead → t.stateOf (t.fillHead - 1) ≠ .free) ∧
    (t.playBlock < t.extent → t.length = min 384 (t.extent - t.playBlock)) ∧
    (t.extent ≤ t.playBlock → t.length = 0) := by
  obtain ⟨low, high, -, top⟩ := t.fillFrom_spec t.playBlock t.length
  exact ⟨t.readyFrom_spec t.length t.playBlock, primed_iff, low, high, fun _ => t.free_of_fillHead_le, top, length_of_lt,
    length_of_le⟩

/-! ### What each event changes -/

/-- A merge step of one frame writes it, raises the pass count, and leaves every other frame (R9). -/
theorem merge_frame (w : t.wf = true) (limit : Nat) {b i : Nat} (hb : t.holds b = true) (hi : i < 588) (x : Frame) :
    (t.merge limit b [(i, x)]).frameAt (b * 588 + i) = x ∧
    ((t.merge limit b [(i, x)]).slotOf b).pass = min 15 ((t.slotOf b).pass + 1) ∧
    ∀ q, q ≠ b * 588 + i → (t.merge limit b [(i, x)]).frameAt q = t.frameAt q := by
  have ws : Sparse.wf Frame.none (t.slotOf b).frames = true := by
    have := Store.slotOf_wf w b
    rw [Slot.wf, Bool.and_eq_true] at this
    exact this.1
  rw [merge_of_ne t limit b (by simp)]
  have self := slotOf_setSlot_self w hb ((t.slotOf b).merge limit [(i, x)])
  have frames : ((t.slotOf b).merge limit [(i, x)]).frames = Sparse.put Frame.none (t.slotOf b).frames i x :=
    Slot.recheck_frames _ limit
  refine ⟨?written, ?pass, fun q ne => ?other⟩
  case written =>
    rw [frameAt_block _ b hi, self, frames]
    exact Sparse.get_put_self ws
  case pass =>
    rw [self]
    exact Slot.recheck_pass _ limit
  case other =>
    by_cases hq : q / Config.framesPerBlock = b
    · have index : q % Config.framesPerBlock ≠ i := by
        simp only [Config.framesPerBlock] at hq ⊢
        omega
      unfold Store.frameAt
      rw [hq, self, frames]
      exact Sparse.get_put_other ws index
    · unfold Store.frameAt
      rw [slotOf_setSlot_other w b _ hq]

theorem declare_spec (w : t.wf = true) (b : Nat) :
    (t.holds b = true →
      (t.declare b).slotOf b = { t.slotOf b with declared := true } ∧ ∀ c, c ≠ b → (t.declare b).slotOf c = t.slotOf c) ∧
    (t.holds b = false → t.declare b = t) ∧
    (t.stateOf b = .opened → t.declareIfOpen b = t.declare b) ∧
    (t.stateOf b ≠ .opened → t.declareIfOpen b = t) :=
  ⟨fun h => ⟨slotOf_declare_self w h, fun _ => slotOf_declare_other w b⟩,
    fun h => declare_outside (by rw [h]; decide), fun h => if_pos h, fun h => if_neg h⟩

end Store

end Sys2Proof.Machine

namespace Sys2Proof.Claims

open Sys2Proof.Machine

/-- Settles O29: the table of slot states, the derived figures, and one rule for each event of the store. -/
theorem mergeStepWritesFrame : Obligations.MergeStepWritesFrame := by
  refine ⟨fun x => ?states, Store.figures, fun t limit b i x w hb hi => Store.merge_frame w limit hb hi x, fun t b w => ?events⟩
  case states =>
    obtain ⟨sound, lost, final, free, opened, partly⟩ := x.state_rows
    exact ⟨sound, lost, final, free, opened, partly, x.recheck_rows⟩
  case events =>
    obtain ⟨declared, outside, entry, notOpen⟩ := Store.declare_spec w b
    refine ⟨declared, outside, entry, notOpen, ?advance, ?trim, ?cut, Store.slotOf_flush t b, rfl, rfl⟩
    case advance =>
      rintro rfl
      exact ⟨rfl, rfl, fun c low high => Store.slotOf_advance_kept w low high, Store.slotOf_advance_entering w _⟩
    case trim => exact ⟨fun c h => Store.slotOf_trim_below w h, fun c h => Store.slotOf_trim_from w h, rfl, rfl⟩
    case cut =>
      exact fun he =>
        ⟨fun c h => Store.slotOf_setExtent_below w he h, fun c h => Store.slotOf_setExtent_from t h, rfl, rfl⟩

end Sys2Proof.Claims
end

