-- ==== Sys2Proof/Proofs/StoreKept.lean ====
section
/-!
SUPPORT. What the relations of the store and of the Intake (`StoreSound`, `IntakeSound`) ask of one state, in parts that the
operations inside a step break and mend one by one: `Kept k s` says that s has the parts that k asks. Here are the parts, what each
event at the store does to them, and that the planner's operations keep them.
-/
namespace Sys2Proof.Machine

/-! ### The slots of a store -/

namespace Store

/-- The canonical form, nothing held outside the window, no pass count above 15 (R3 to R5). -/
structure Tidy (t : Store) : Prop where
  wf      : t.wf = true
  outside : ∀ k, k < 384 → t.used k = false → t.slotAt k = Slot.empty
  pass    : ∀ k, (t.slotAt k).pass ≤ 15

/-- No undeclared slot stands in row 5 of R6 under a Retry Limit. -/
def NoRow5 (t : Store) (limit : Nat) : Prop := ∀ k, (t.slotAt k).meetsRow5 limit = false

variable {t : Store}

/-! #### Writes of one slot -/

theorem Tidy.setSlot (h : t.Tidy) (b : Nat) {x : Slot} (wf : x.wf = true) (pass : x.pass ≤ 15) : (t.setSlot b x).Tidy := by
  by_cases hb : t.holds b = true
  · have inside := used_mod hb
    refine ⟨Store.setSlot_wf h.wf b wf, fun k hk out => ?_, fun k => ?_⟩
    · have out : t.used k = false := by
        unfold Store.used Store.impliedBn at out ⊢
        rwa [setSlot_playBlock, setSlot_extent] at out
      rw [slotAt_setSlot h.wf hb, if_neg (fun e => by rw [e, inside] at out; cases out)]
      exact h.outside k hk out
    · rw [slotAt_setSlot h.wf hb]
      split
      · exact pass
      · exact h.pass k
  · rw [setSlot_outside hb]
    exact h

theorem NoRow5.setSlot {limit : Nat} (h : t.NoRow5 limit) (w : t.wf = true) (b : Nat) {x : Slot}
    (hx : x.meetsRow5 limit = false) : (t.setSlot b x).NoRow5 limit := by
  by_cases hb : t.holds b = true
  · intro k
    rw [slotAt_setSlot w hb]
    split
    · exact hx
    · exact h k
  · rw [setSlot_outside hb]
    exact h

theorem Tidy.slotOf_pass (h : t.Tidy) (b : Nat) : (t.slotOf b).pass ≤ 15 := by
  unfold Store.slotOf
  split
  · exact h.pass _
  · exact Nat.zero_le _

theorem Tidy.declare (h : t.Tidy) (b : Nat) : (t.declare b).Tidy :=
  h.setSlot b (Store.slotOf_wf h.wf b) (h.slotOf_pass b)

/-- A declared slot is not in row 5. -/
theorem NoRow5.declare {limit : Nat} (h : t.NoRow5 limit) (w : t.wf = true) (b : Nat) : (t.declare b).NoRow5 limit :=
  h.setSlot w b rfl

theorem recheck_noRow5 (x : Slot) (limit : Nat) : (x.recheck limit).meetsRow5 limit = false := by
  unfold Slot.recheck
  split
  · rfl
  · exact Bool.eq_false_iff.mpr ‹_›

theorem Tidy.merge (h : t.Tidy) (limit b : Nat) {step : List (Nat × Frame)} (hs : ∀ f ∈ step, f.1 < Config.framesPerBlock) :
    (t.merge limit b step).Tidy := by
  unfold Store.merge
  split
  · exact h
  · refine h.setSlot b (Slot.merge_wf (Store.slotOf_wf h.wf b) limit hs) ?_
    unfold Slot.merge
    rw [Slot.recheck_pass]
    exact Nat.min_le_left _ _

/-- A merge step recomputes the slot it writes (R9). -/
theorem NoRow5.merge {limit : Nat} (h : t.NoRow5 limit) (w : t.wf = true) (b : Nat) (step : List (Nat × Frame)) :
    (t.merge limit b step).NoRow5 limit := by
  unfold Store.merge
  split
  · exact h
  · exact h.setSlot w b (recheck_noRow5 _ limit)

/-! #### Freeing -/

/-- Where every slot is as it was or freed, no pass count and no row 5 is new. -/
theorem NoRow5.freed {limit : Nat} (h : t.NoRow5 limit) {x : Store}
    (freed : ∀ k, x.slotAt k = t.slotAt k ∨ x.slotAt k = Slot.empty) : x.NoRow5 limit := by
  intro k
  rcases freed k with e | e
  · rw [e]; exact h k
  · rw [e]; rfl

theorem Tidy.freed_pass (h : t.Tidy) {x : Store} (freed : ∀ k, x.slotAt k = t.slotAt k ∨ x.slotAt k = Slot.empty) (k : Nat) :
    (x.slotAt k).pass ≤ 15 := by
  rcases freed k with e | e
  · rw [e]; exact h.pass k
  · rw [e]; exact Nat.zero_le _

theorem trim_freed (w : t.wf = true) (x k : Nat) :
    (t.trim x).slotAt k = t.slotAt k ∨ (t.trim x).slotAt k = Slot.empty := by
  rw [slotAt_trim w]
  split
  · exact .inr rfl
  · exact .inl rfl

theorem setExtent_freed (w : t.wf = true) (e k : Nat) :
    (t.setExtent e).slotAt k = t.slotAt k ∨ (t.setExtent e).slotAt k = Slot.empty := by
  rw [slotAt_setExtent w]
  split
  · exact .inr rfl
  · exact .inl rfl

theorem advance_freed (w : t.wf = true) (b k : Nat) :
    (t.advance b).slotAt k = t.slotAt k ∨ (t.advance b).slotAt k = Slot.empty := by
  rw [slotAt_advance w]
  split
  · exact .inr rfl
  · exact .inl rfl

theorem Tidy.trim (h : t.Tidy) (x : Nat) : (t.trim x).Tidy := by
  refine ⟨Store.trim_wf h.wf x, fun k hk out => ?_, h.freed_pass (trim_freed h.wf x)⟩
  rcases trim_freed h.wf x k with e | e
  · rw [e]
    exact h.outside k hk out
  · exact e

/-- A change of the extent frees what a smaller window loses; a wider one gains indices that held nothing (R5). -/
theorem Tidy.setExtent (h : t.Tidy) (e : Nat) : (t.setExtent e).Tidy := by
  refine ⟨Store.setExtent_wf h.wf e, fun k hk out => ?_, h.freed_pass (setExtent_freed h.wf e)⟩
  have beyond : e ≤ t.impliedBn k := Nat.not_lt.mp (of_decide_eq_false out)
  rw [slotAt_setExtent h.wf]
  split
  · rfl
  · rename_i kept
    refine h.outside k hk (decide_eq_false fun below => kept ⟨beyond, below⟩)

/-- The advance out of the Play Block frees the one index whose implied BN it moves (R13). -/
theorem Tidy.advance (h : t.Tidy) : (t.advance t.playBlock).Tidy := by
  refine ⟨Store.advance_wf h.wf _, fun k hk out => ?_, h.freed_pass (advance_freed h.wf _)⟩
  rw [slotAt_advance h.wf]
  split
  · rfl
  · rename_i ne
    have same : (t.advance t.playBlock).impliedBn k = t.impliedBn k := by
      unfold Store.impliedBn Store.advance
      simp only [Config.slotCount] at ne ⊢
      omega
    refine h.outside k hk ?_
    unfold Store.used at out ⊢
    rwa [same] at out

theorem Tidy.flush (t : Store) (p : Nat) : (t.flush p).Tidy :=
  ⟨rfl, fun _ _ _ => rfl, fun _ => Nat.zero_le _⟩

theorem NoRow5.flush (t : Store) (p limit : Nat) : (t.flush p).NoRow5 limit := fun _ => rfl

/-! #### Recomputing every slot -/

theorem slotAt_recheckAll (t : Store) (limit k : Nat) : (t.recheckAll limit).slotAt k = (t.slotAt k).recheck limit :=
  Sparse.get_map (Slot.recheck limit) rfl t.slots k

theorem Tidy.recheckAll (h : t.Tidy) (limit : Nat) : (t.recheckAll limit).Tidy := by
  refine ⟨Store.recheckAll_wf h.wf limit, fun k hk out => ?_, fun k => ?_⟩
  · rw [slotAt_recheckAll, h.outside k hk out]
    rfl
  · rw [slotAt_recheckAll, Slot.recheck_pass]
    exact h.pass k

/-- A recomputation under a limit leaves no slot in row 5, whatever the limit was before (R7). -/
theorem noRow5_recheckAll (t : Store) (limit : Nat) : (t.recheckAll limit).NoRow5 limit := by
  intro k
  rw [slotAt_recheckAll]
  exact recheck_noRow5 _ limit

/-- An extent the store already has changes nothing. -/
theorem setExtent_self (t : Store) : t.setExtent t.extent = t := by
  have all : t.slots.filter (fun x => !(decide (t.extent ≤ t.impliedBn x.1) && decide (t.impliedBn x.1 < t.extent))) =
      t.slots := by
    rw [List.filter_eq_self]
    intro x _
    simp [Nat.lt_or_ge]
  unfold Store.setExtent
  rw [all]

end Store

/-! ### The parts of the relations -/

/-- The window begins at the cursor's block and ends with the disc record's extent, with tidy slots. -/
structure StoreLinked (s : State) : Prop where
  tidy   : s.store.Tidy
  block  : s.feeder.block = s.store.playBlock
  extent : s.store.extent = s.play.disc.extent

/-- The disc record's extent is 0 in EMPTY and LOADING (R135). -/
def Play.Unread (p : Play) : Prop := p.state = .empty ∨ p.state = .loading → p.disc.extent = 0

theorem storeSound_iff (s : State) :
    StoreSound s ↔ StoreLinked s ∧ s.store.NoRow5 (effectiveRetry s) ∧ s.play.Unread := by
  constructor
  · rintro ⟨wf, block, extent, unread, outside, slots⟩
    exact ⟨⟨⟨wf, outside, fun k => (slots k).1⟩, block, extent⟩, fun k => (slots k).2, unread⟩
  · rintro ⟨⟨tidy, block, extent⟩, row5, unread⟩
    exact ⟨tidy.wf, block, extent, unread, tidy.outside, fun k => ⟨tidy.pass k, row5 k⟩⟩

/-- Which parts are asked of a state: the window and its slots, row 5 left by every slot, the extent of a disc not read yet, and the
Intake. -/
structure Asked where
  store  : Prop
  row5   : Prop
  unread : Prop
  intake : Prop

/-- The state has the parts asked. -/
structure Kept (k : Asked) (s : State) : Prop where
  store  : k.store → StoreLinked s
  row5   : k.store → k.row5 → s.store.NoRow5 (effectiveRetry s)
  unread : k.unread → s.play.Unread
  intake : k.intake → IntakeSound s

/-- From s to t nothing changes on which a part rests; the Intake may lose entries, the offset of the stream may become 0, and a
message under way may be dropped. -/
structure Quiet (s t : State) : Prop where
  store    : t.store = s.store
  block    : t.feeder.block = s.feeder.block
  extent   : t.play.disc.extent = s.play.disc.extent
  state    : t.play.state = s.play.state
  rough    : t.health.rough = s.health.rough
  retry    : t.console.params.retryLimit = s.console.params.retryLimit
  intake   : t.asm.intake <:+ s.asm.intake
  offset   : t.asm.align.offset = s.asm.align.offset ∨ t.asm.align.offset = 0
  assembly : ∀ held, t.link.assembly = .inMessage held → s.link.assembly = .inMessage held

/-- What the store's parts rest on. -/
def State.ground (s : State) : Store × Nat × Nat × PlayState × Bool × Nat :=
  (s.store, s.feeder.block, s.play.disc.extent, s.play.state, s.health.rough, s.console.params.retryLimit)

/-- What the Intake's part rests on. -/
def State.inlet (s : State) : List IntakeEntry × Int × RxAssembly := (s.asm.intake, s.asm.align.offset, s.link.assembly)

/-- The ground stays; the Intake, the offset and the message under way change as `Quiet` lets them. -/
theorem Quiet.onGround {s t : State} (ground : t.ground = s.ground) (intake : t.asm.intake <:+ s.asm.intake)
    (offset : t.asm.align.offset = s.asm.align.offset ∨ t.asm.align.offset = 0)
    (assembly : ∀ held, t.link.assembly = .inMessage held → s.link.assembly = .inMessage held) : Quiet s t := by
  simp only [State.ground, Prod.mk.injEq] at ground
  obtain ⟨store, block, extent, state, rough, retry⟩ := ground
  exact ⟨store, block, extent, state, rough, retry, intake, offset, assembly⟩

theorem Link.kick_assembly (l : Link) : l.kick.assembly = l.assembly := by
  unfold Link.kick
  split
  · rfl
  · rfl

theorem effectiveRetry_congr {s t : State} (rough : t.health.rough = s.health.rough)
    (retry : t.console.params.retryLimit = s.console.params.retryLimit) : effectiveRetry t = effectiveRetry s := by
  unfold effectiveRetry
  rw [rough, retry]

theorem IntakeSound.quiet {s t : State} (h : IntakeSound s) (q : Quiet s t) : IntakeSound t := by
  obtain ⟨two, present, message, low, high⟩ := h
  have short := q.intake.length_le
  refine ⟨by omega, fun x hx => present x (q.intake.subset hx), fun held e => ?_, ?_, ?_⟩
  · obtain ⟨begun, room⟩ := message held (q.assembly held e)
    exact ⟨begun, fun k => Nat.lt_of_le_of_lt short (room k)⟩
  · rcases q.offset with e | e <;> rw [e]
    · exact low
    · decide
  · rcases q.offset with e | e <;> rw [e]
    · exact high
    · decide

/-- The Intake's relation rests on the Assembler and the link alone. -/
theorem IntakeSound.congr {s t : State} (ha : t.asm = s.asm) (hl : t.link = s.link) (h : IntakeSound s) : IntakeSound t := by
  unfold IntakeSound at h ⊢
  rwa [ha, hl]

theorem Play.Unread.congr {p x : Play} (h : p.Unread) (state : x.state = p.state) (extent : x.disc.extent = p.disc.extent) :
    x.Unread := by
  unfold Play.Unread at h ⊢
  rwa [state, extent]

namespace Kept

variable {k : Asked} {s : State}

/-! ### Changes of the state -/

theorem quiet {t : State} (h : Kept k s) (q : Quiet s t) : Kept k t where
  store w := by
    obtain ⟨tidy, block, extent⟩ := h.store w
    refine ⟨?_, ?_, ?_⟩
    · rw [q.store]; exact tidy
    · rw [q.store, q.block]; exact block
    · rw [q.store, q.extent]; exact extent
  row5 w r := by
    rw [q.store, effectiveRetry_congr q.rough q.retry]
    exact h.row5 w r
  unread u := (h.unread u).congr q.state q.extent
  intake i := (h.intake i).quiet q

/-- Nothing that a part rests on changes. -/
theorem same {t : State} (h : Kept k s) (ground : t.ground = s.ground) (inlet : t.inlet = s.inlet) : Kept k t := by
  simp only [State.inlet, Prod.mk.injEq] at inlet
  obtain ⟨intake, offset, assembly⟩ := inlet
  exact h.quiet (.onGround ground (intake ▸ List.suffix_rfl) (.inl offset) fun _ e => assembly ▸ e)

/-- A change of the store that leaves the window and keeps tidy slots. -/
theorem setStore (h : Kept k s) (x : Store) (tidy : s.store.Tidy → x.Tidy) (block : x.playBlock = s.store.playBlock)
    (extent : x.extent = s.store.extent)
    (row5 : ∀ limit, s.store.wf = true → s.store.NoRow5 limit → x.NoRow5 limit) : Kept k (s.setStore x) where
  store w := ⟨tidy (h.store w).tidy, (h.store w).block.trans block.symm, extent.trans (h.store w).extent⟩
  row5 w r := row5 _ (h.store w).tidy.wf (h.row5 w r)
  unread := h.unread
  intake i := (h.intake i).congr rfl rfl

/-- The Intake's part of a state of which the store's parts are not asked. -/
theorem intakeOnly (h : Kept k s) : Kept ⟨False, False, False, k.intake⟩ s := ⟨False.elim, False.elim, False.elim, h.intake⟩

/-- Where the Intake's part alone is asked, every block but the Assembler and the link may change. -/
theorem elsewhere {i : Prop} {t : State} (h : Kept ⟨False, False, False, i⟩ s) (ha : t.asm = s.asm) (hl : t.link = s.link) :
    Kept ⟨False, False, False, i⟩ t :=
  ⟨False.elim, False.elim, False.elim, fun w => (h.intake w).congr ha hl⟩

theorem txRequest (h : Kept k s) (m : TxMsg) : Kept k (txRequest m s) := by
  have same : (Machine.txRequest m s).link.assembly = s.link.assembly := Link.kick_assembly _
  exact h.quiet (.onGround rfl List.suffix_rfl (.inl rfl) fun _ e => same.symm.trans e)

theorem clearPhase (h : Kept k s) : Kept k (clearPhase s) := h.quiet (.onGround rfl List.suffix_rfl (.inr rfl) fun _ e => e)

theorem postReadiness (h : Kept k s) (before : Nat × Bool) : Kept k (postReadiness before s) := by
  obtain ⟨x, e⟩ := postReadiness_notices before s
  rw [e]
  exact h.same rfl rfl

theorem evaluateFlow (h : Kept k s) : Kept k (evaluateFlow s) := by
  have set : Kept k (s.setAsm { s.asm with holdIntake := intakeFull s, holdWindow := windowFull s }) := h.same rfl rfl
  unfold Machine.evaluateFlow
  dsimp only
  split <;> split
  · exact set
  · exact set.txRequest _
  · exact set.txRequest _
  · exact set

/-! ### The planner's operations -/

/-- One event at the store, after what it does there. -/
theorem changeStoreFrom (f : Store → Store) (h : Kept k (s.setStore (f s.store))) : Kept k (changeStore f s) :=
  h.postReadiness _

theorem absorb (h : Kept k s) (old : Store) : Kept k (absorb old s) := h.same rfl rfl

theorem plannerDeclare (h : Kept k s) (b : Nat) : Kept k (plannerDeclare s b) :=
  (changeStoreFrom (fun t => t.declare b)
    (h.setStore _ (fun w => w.declare b) (Store.setSlot_playBlock _ _ _) (Store.setSlot_extent _ _ _)
      (fun _ w r => r.declare w b))).absorb _

theorem plannerDeclares (blocks : List Nat) : ∀ {s : State}, Kept k s → Kept k (plannerDeclares blocks s) := by
  induction blocks with
  | nil => exact fun h => h
  | cons b rest ih => exact fun h => ih (h.plannerDeclare b)

theorem countPlanner (h : Kept k s) (f : PlannerCounters → PlannerCounters) : Kept k (countPlanner f s) := h.same rfl rfl

theorem exhaust (h : Kept k s) (served : Option RepairEntry) : Kept k (exhaust served s) := by
  unfold Machine.exhaust
  split
  · exact h
  · split
    · exact plannerDeclares _ (h.countPlanner _)
    · exact h

theorem closeStream (h : Kept k s) (close : Close) : Kept k (closeStream close s) := by
  have closed : Kept k (Machine.clearPhase (withdrawSeek s.planner.stream.number
      (Machine.setStream { s.planner.stream with state := .none, timerRuns := false } s))) :=
    clearPhase (h.same (by rfl) (by rfl))
  have waiting : ∀ {u : State}, Kept k u → Kept k (setList (allWaiting u.planner.list) u) := fun w => w.same rfl rfl
  unfold Machine.closeStream
  split
  · exact h
  · dsimp only
    split <;> split
    · exact (waiting (closed.txRequest _)).exhaust _
    · exact (waiting closed).exhaust _
    · exact waiting (closed.txRequest _)
    · exact waiting closed

theorem openStream (h : Kept k s) (purpose : Purpose) (target last : Nat) : Kept k (openStream purpose target last s) :=
  txRequest (h.same (by rfl) (by rfl)) _

theorem chooseStream (h : Kept k s) : Kept k (chooseStream s) := by
  unfold Machine.chooseStream
  split
  · split
    · exact openStream (h.same (by rfl) (by rfl)) _ _ _
    · split
      · exact openStream (h.countPlanner _) _ _ _
      · exact h
  · exact h

theorem preempt (h : Kept k s) : Kept k (preempt s) := by
  unfold Machine.preempt
  split
  · exact (h.closeStream _).countPlanner _
  · exact h

theorem settle (h : Kept k s) : Kept k (settle s) := by
  have once : ∀ {u : State}, Kept k u → Kept k (Machine.evaluateFlow (Machine.chooseStream (Machine.preempt u))) :=
    fun w => w.preempt.chooseStream.evaluateFlow
  unfold Machine.settle
  dsimp only
  split
  · exact once (once h)
  · exact once h

theorem overflowOnce (h : Kept k s) : Kept k (overflowOnce s) := by
  unfold Machine.overflowOnce
  split
  · exact h
  · rename_i r _
    have trimmed : Kept k (changeStore (fun t => t.trim r.first) (setList s.planner.list.dropLast s)) :=
      changeStoreFrom (fun t => t.trim r.first)
        (setStore (s := setList s.planner.list.dropLast s) (h.same (by rfl) (by rfl)) _ (fun w => w.trim _) rfl rfl
          (fun _ w q => q.freed (Store.trim_freed w _)))
    have counted : ∀ {u : State}, Kept k u → Kept k (raise .repairOverflow (min 255 (s.store.heldFrom r.first))
        (Machine.countPlanner (fun c => { c with overflow := bump c.overflow }) u)) := fun w => w.same rfl rfl
    dsimp only
    split
    · exact (counted (trimmed.closeStream _)).absorb _
    · exact (counted trimmed).absorb _

theorem overflowLoop (n : Nat) : ∀ {s : State}, Kept k s → Kept k (overflowLoop n s) := by
  induction n with
  | zero => exact fun h => h
  | succ n ih =>
    intro s h
    unfold Machine.overflowLoop
    split
    · exact ih h.overflowOnce
    · exact h

theorem judgeLateness (h : Kept k s) : Kept k (judgeLateness s) := by
  unfold Machine.judgeLateness
  dsimp only
  split
  · exact h
  · exact overflowLoop _ (plannerDeclares _ (h.countPlanner _))

theorem takeStoreNotice (h : Kept k s) (old : Store) : Kept k (takeStoreNotice old s) :=
  judgeLateness (overflowLoop _ (h.absorb old))

/-- An event at the store, after what it does there, up to the end of the planner's event. -/
theorem storeNotifiedFrom (f : Store → Store) (h : Kept k (s.setStore (f s.store))) : Kept k (storeNotified f s) := by
  have taken := changeStoreFrom f h
  unfold Machine.storeNotified
  dsimp only
  split
  · exact taken.takeStoreNotice _
  · exact taken

theorem storeEventFrom (f : Store → Store) (h : Kept k (s.setStore (f s.store))) : Kept k (storeEvent f s) := by
  have taken := storeNotifiedFrom f h
  unfold Machine.storeEvent
  dsimp only
  split
  · exact taken.settle
  · exact taken

theorem plannerNotice (h : Kept k s) (byRestart : Bool) : Kept k (plannerNotice byRestart s) := by
  have told : Kept k (s.setPlanner { s.planner with active := plannerMayRead s }) := h.same rfl rfl
  unfold Machine.plannerNotice
  dsimp only
  split
  · exact told.settle
  · exact (told.closeStream _).settle

/-- A flush, where the Intake's part alone is asked. -/
theorem flushStoreIntake {i : Prop} (h : Kept ⟨False, False, False, i⟩ s) (p : Nat) :
    Kept ⟨False, False, False, i⟩ (flushStore p s) := by
  have flushed : Kept ⟨False, False, False, i⟩ (changeStore (fun t => t.flush p) s) :=
    changeStoreFrom (fun t => t.flush p) (h.elsewhere rfl rfl)
  have emptied : Kept ⟨False, False, False, i⟩ ((changeStore (fun t => t.flush p) s).setAsm
      { (changeStore (fun t => t.flush p) s).asm with intake := [] }) := 
    flushed.quiet (.onGround rfl List.nil_suffix (.inl rfl) fun _ e => e)
  have closed : Kept ⟨False, False, False, i⟩ (Machine.absorb s.store (Machine.closeStream .flush
      ((changeStore (fun t => t.flush p) s).setAsm { (changeStore (fun t => t.flush p) s).asm with intake := [] }))) :=
    (emptied.closeStream .flush).absorb _
  exact settle (closed.same (by rfl) (by rfl))

theorem endCheck (h : Kept k s) : Kept k (endCheck s) := by
  unfold Machine.endCheck
  split
  · exact h.closeStream _
  · exact h

theorem mapTargetMislocks (h : Kept k s) (f : Nat → Nat) : Kept k (mapTargetMislocks f s) := by
  unfold Machine.mapTargetMislocks
  split
  · exact h.same rfl rfl
  · exact h.same rfl rfl

theorem takePlacement (h : Kept k s) (n e : Nat) (d : Option Int) : Kept k (takePlacement n e d s) := by
  unfold Machine.takePlacement
  refine settle ?_
  split
  · exact endCheck (h.same (by rfl) (by rfl))
  · exact h

theorem reflow (h : Kept k s) : Kept k (reflow s) := by
  unfold Machine.reflow
  dsimp only
  split
  · exact h.evaluateFlow.settle
  · exact h.evaluateFlow

/-- The effective Retry Limit may have changed: every slot is recomputed, so row 5 is left even where it was not (R7, R87). -/
theorem retryLimitChanged {r : Prop} (h : Kept { k with row5 := r } s) : Kept k (retryLimitChanged s) :=
  storeEventFrom (fun t => t.recheckAll (effectiveRetry s))
    { store := fun w => ⟨(h.store w).tidy.recheckAll _, (h.store w).block, (h.store w).extent⟩
      row5 := fun _ _ => Store.noRow5_recheckAll _ _
      unread := h.unread
      intake := fun i => (h.intake i).congr rfl rfl }

theorem declareEntry (h : Kept k s) : Kept k (declareEntry s) := by
  refine storeEventFrom (fun t => t.declareIfOpen s.feeder.block) ?_
  show Kept k (s.setStore (s.store.declareIfOpen s.feeder.block))
  unfold Store.declareIfOpen
  split
  · exact h.setStore _ (fun w => w.declare _) (Store.setSlot_playBlock _ _ _) (Store.setSlot_extent _ _ _)
      (fun _ w r => r.declare w _)
  · exact h.same rfl rfl

theorem takeStep (h : Kept k s) (m : MergeStep) (hm : ∀ f ∈ m.frames, f.1 < Config.framesPerBlock) : Kept k (takeStep s m) := by
  refine storeNotifiedFrom (fun t => t.merge (effectiveRetry s) m.bn m.frames) ?_
  have figures := Store.merge_leads s.store (effectiveRetry s) m.bn hm
  exact
    { store := fun w => ⟨(h.store w).tidy.merge _ _ hm, (h.store w).block.trans figures.playBlock.symm,
        figures.extent.trans (h.store w).extent⟩
      row5 := fun w r => (h.row5 w r).merge (h.store w).tidy.wf _ _
      unread := h.unread
      intake := fun i => (h.intake i).congr rfl rfl }

theorem takeSteps (steps : List MergeStep) (hs : ∀ m ∈ steps, ∀ f ∈ m.frames, f.1 < Config.framesPerBlock) :
    ∀ {s : State}, Kept k s → Kept k (takeSteps steps s) := by
  induction steps with
  | nil => exact fun h => h
  | cons m rest ih =>
    exact fun h => ih (fun x hx => hs x (List.mem_cons_of_mem _ hx)) (h.takeStep m (hs m List.mem_cons_self))

end Kept

end Sys2Proof.Machine
end

