-- ==== Sys2Proof/Proofs/StoreKeptPlay.lean ====
section
/-!
SUPPORT. The parts of the store's and the Intake's relations (`Kept`) through the operations of the Play Controller and the Output
Feeder. Only cues, changes of the extent, the block boundary and entries to EMPTY and LOADING move what the store's parts rest on.
-/
namespace Sys2Proof.Machine

/-! ### The cursor's block -/

namespace Feeder

variable (f : Feeder) (ramp : Nat)

theorem beginFade_block : (f.beginFade ramp).block = f.block := by
  unfold Feeder.beginFade
  split <;> rfl

theorem cue_block (bn frame : Nat) : (f.cue ramp bn frame).block = bn := rfl

theorem start_block (gain : Nat) : (f.start ramp gain).block = f.block := by
  unfold Feeder.start
  split <;> rfl

theorem stop_block : (f.stop ramp).block = f.block := by
  unfold Feeder.stop
  split
  · split <;> rfl
  · split <;> rfl
  all_goals rfl

theorem endDisc_block : f.endDisc.block = f.block := by
  unfold Feeder.endDisc
  split <;> rfl

theorem clockBack_block : (f.clockBack ramp).block = f.block := by
  unfold Feeder.clockBack
  dsimp only
  split
  · exact start_block _ ramp 0
  · exact start_block _ ramp 0
  all_goals rfl

theorem fadeFrame_block : f.fadeFrame.block = f.block := by
  unfold Feeder.fadeFrame
  dsimp only
  split <;> rfl

theorem starve_block : (f.starve ramp).block = f.block := (fadeFrame_block _).trans (beginFade_block f ramp)

theorem stopShort_block : (f.stopShort ramp).block = f.block := (fadeFrame_block _).trans (beginFade_block f ramp)

theorem finishRamp_block : f.finishRamp.block = f.block := by
  unfold Feeder.finishRamp
  split
  · split <;> rfl
  · split <;> rfl
  all_goals rfl

/-- The cursor leaves its block with the last frame of it (R116). -/
theorem advance_block : f.advance.block = if f.frame = 587 then f.block + 1 else f.block := by
  unfold Feeder.advance
  exact apply_ite Feeder.block _ _ _

end Feeder

/-- What the parts rest on in the Play Controller. -/
def Play.reading (p : Play) : PlayState × Nat := (p.state, p.disc.extent)

/-- EMPTY and LOADING, in which no extent is read yet (R135). -/
def PlayState.unread : PlayState → Bool
  | .empty | .loading => true
  | .ready | .cueing | .playing | .paused | .coasting | .suspended => false

/-- A confirmed load leads to READY or CUEING (R144). -/
theorem loadPlan_read (mode : SelectMode) (backoff : Nat) (entry : ResumeEntry) (tag : Tag) (extent : Nat) :
    (loadPlan mode backoff entry tag extent).state.unread = false := by
  unfold loadPlan
  split
  · rfl
  · rfl
  · split <;> rfl

namespace Kept

variable {k : Asked} {s : State}

/-! ### The play state and the feeder -/

theorem mapFeeder (h : Kept k s) (g : Feeder → Feeder) (block : (g s.feeder).block = s.feeder.block) :
    Kept k (mapFeeder g s) := 
  h.quiet ⟨rfl, block, rfl, rfl, rfl, rfl, List.suffix_rfl, .inl rfl, fun _ e => e⟩

theorem raise (h : Kept k s) (e : Event) (d : Nat) : Kept k (raise e d s) := h.same rfl rfl

theorem setNotices (h : Kept k s) (x : List Bool) : Kept k (s.setNotices x) := h.same rfl rfl

theorem resumeWrite (h : Kept k s) (p : Nat) (e : ResumeEntry) : Kept k (resumeWrite p e s) := h.same rfl rfl

theorem mapPlay (h : Kept k s) (g : Play → Play) (same : (g s.play).reading = s.play.reading) : Kept k (mapPlay g s) := by
  simp only [Play.reading, Prod.mk.injEq] at same
  obtain ⟨state, extent⟩ := same
  exact h.quiet ⟨rfl, rfl, extent, state, rfl, rfl, List.suffix_rfl, .inl rfl, fun _ e => e⟩

theorem countPlay (h : Kept k s) (f : PlayCounters → PlayCounters) : Kept k (countPlay f s) := h.mapPlay _ (by rfl)

/-- Every state but EMPTY and LOADING is entered with any extent (R134, R135). -/
theorem enterState {u : Prop} (h : Kept { k with unread := u } s) (x : PlayState) (byRestart : Bool)
    (read : x.unread = false) : Kept k (enterState x byRestart s) := by
  have entered : Kept k (Machine.mapPlay (fun p => p.enter x) s) :=
    { store := fun w => ⟨(h.store w).tidy, (h.store w).block, (h.store w).extent⟩
      row5 := h.row5
      unread := fun _ state => by
        replace state : x = .empty ∨ x = .loading := state
        rcases state with rfl | rfl <;> cases read
      intake := fun i => (h.intake i).congr rfl rfl }
  exact entered.plannerNotice byRestart

/-- EMPTY and LOADING are entered with a record of extent 0 (R135). -/
theorem enterUnread (h : Kept k s) (x : PlayState) (byRestart : Bool) (zero : s.play.disc.extent = 0) :
    Kept k (Machine.enterState x byRestart s) := by
  have entered : Kept k (Machine.mapPlay (fun p => p.enter x) s) :=
    { store := fun w => ⟨(h.store w).tidy, (h.store w).block, (h.store w).extent⟩
      row5 := h.row5
      unread := fun _ _ => zero
      intake := fun i => (h.intake i).congr rfl rfl }
  exact entered.plannerNotice byRestart

/-- The parts but that of a disc not read yet. -/
theorem unasked (h : Kept k s) : Kept { k with unread := False } s := ⟨h.store, h.row5, False.elim, h.intake⟩

theorem stopRequest (h : Kept k s) : Kept k (stopRequest s) := h.mapFeeder _ (Feeder.stop_block _ _)

theorem startFeeder (h : Kept k s) (ramp : Nat) : Kept k (Machine.declareEntry (Machine.mapFeeder (fun f => f.start ramp 0) s)) :=
  (h.mapFeeder _ (Feeder.start_block _ _ _)).declareEntry

theorem playRequest (h : Kept k s) : Kept k (playRequest s) := by
  unfold Machine.playRequest
  split
  · exact h.startFeeder _
  · exact h.mapFeeder _ (Feeder.start_block _ _ _)
  · split
    · exact h.startFeeder _
    · exact h
  · exact h
  · exact h

/-! ### Cues and flushes -/

/-- A flush frees every slot, so it links the store to a cursor that is not at the Play Block (R14, R136). -/
theorem requestFlush (b : Nat) (linked : k.store → s.feeder.block = b ∧ s.store.extent = s.play.disc.extent)
    (unread : k.unread → s.play.Unread) (intake : k.intake → IntakeSound s) : Kept k (requestFlush b s) where
  store w := by
    obtain ⟨block, extent⟩ := linked w
    refine ⟨?_, ?_, ?_⟩
    · rw [requestFlush_store]; exact Store.Tidy.flush _ _
    · rw [requestFlush_feeder, requestFlush_store]; exact block
    · rw [requestFlush_store, requestFlush_play]; exact extent
  row5 _ _ := by rw [requestFlush_store]; exact Store.NoRow5.flush _ _ _
  unread u := by rw [requestFlush_play]; exact unread u
  intake i := by
    have before : Kept ⟨False, False, False, k.intake⟩ (Machine.mapPlay (fun p => { p with storePrimed := false })
        (s.setNotices (s.notices.filter (fun primed => !primed)))) :=
      ⟨False.elim, False.elim, False.elim, fun w => (intake w).congr rfl rfl⟩
    exact (before.flushStoreIntake b).intake i

theorem cueAt (h : Kept k s) (bn frame : Nat) : Kept k (cueAt bn frame s) :=
  requestFlush (s := cueFeeder bn frame s) bn (fun w => ⟨Feeder.cue_block _ _ _ _, (h.store w).extent⟩) h.unread
    (fun i => (h.intake i).congr rfl rfl)

theorem flushAtCursor (h : Kept k s) : Kept k (flushAtCursor s) :=
  stopRequest (requestFlush s.feeder.block (fun w => ⟨rfl, (h.store w).extent⟩) h.unread h.intake)

/-- A change of the extent, after what it frees. -/
theorem changeExtentFrom (e : Nat) (h : Kept k (s.setStore (s.store.setExtent e))) : Kept k (changeExtent e s) := by
  unfold Machine.changeExtent
  split
  · rename_i same
    rw [← same, Store.setExtent_self] at h
    exact h
  · exact storeEventFrom (fun t => t.setExtent e) h

/-- The disc record takes a new extent, and the store with it (R5, R135). -/
theorem newExtent (h : Kept k s) (e : Nat) (g : Play → Play) (extent : (g s.play).disc.extent = e)
    (unread : k.unread → (g s.play).Unread) : Kept k (changeExtent e (Machine.mapPlay g s)) :=
  changeExtentFrom e
    { store := fun w => ⟨(h.store w).tidy.setExtent e, (h.store w).block, extent.symm⟩
      row5 := fun w r => (h.row5 w r).freed (Store.setExtent_freed (h.store w).tidy.wf e)
      unread := unread
      intake := fun i => (h.intake i).congr rfl rfl }

/-- The disc cleared leaves an empty store at block 0 and no extent, whatever was there (R136). -/
theorem clearDisc (h : Kept k s) : Kept k (clearDisc s) where
  store _ := by
    refine ⟨?_, ?_, ?_⟩
    · rw [clearDisc_store]; exact Store.Tidy.flush ⟨0, 0, []⟩ 0
    · rw [clearDisc_store, clearDisc_feeder]; rfl
    · rw [clearDisc_store, clearDisc_play]; rfl
  row5 _ _ := by rw [clearDisc_store]; exact Store.NoRow5.flush ⟨0, 0, []⟩ 0 _
  unread _ _ := by simp [DiscRecord.empty]
  intake i :=
    ((h.intakeOnly.newExtent 0 _ rfl False.elim).cueAt 0 0).intake i

/-! ### Notices of readiness -/

theorem feederPrimed (h : Kept k s) (p : Bool) : Kept k (feederPrimed p s) := by
  have told : Kept k (Machine.mapFeeder (fun f => { f with primed := p }) s) := h.mapFeeder _ rfl
  unfold Machine.feederPrimed
  dsimp only
  split
  · exact told.startFeeder _
  · exact told

theorem leaveCueing (h : Kept k s) : Kept k (leaveCueing s) := by
  unfold Machine.leaveCueing
  split
  · exact (h.mapPlay _ (by rfl)).enterState .paused false rfl
  · exact (h.enterState .playing false rfl).playRequest

theorem testCueing (h : Kept k s) : Kept k (testCueing s) := by
  unfold Machine.testCueing
  split
  · exact h.leaveCueing
  · exact h

theorem playPrimed (h : Kept k s) (p : Bool) : Kept k (playPrimed p s) := by
  have told : Kept k (Machine.mapPlay (fun x => { x with storePrimed := p, unprimed := x.unprimed && !p }) s) := h.mapPlay _ (by rfl)
  unfold Machine.playPrimed
  dsimp only
  split
  · exact told.leaveCueing
  · exact told

theorem takeAll (notices : List Bool) : ∀ {s : State}, Kept k s → Kept k (notices.foldl takeReadiness s) := by
  induction notices with
  | nil => exact fun h => h
  | cons p rest ih => exact fun h => ih ((h.feederPrimed p).playPrimed p)

theorem takeHanded (h : Kept k s) : Kept k (takeHanded s) := takeAll _ (h.setNotices [])

theorem takeNotices (h : Kept k s) : Kept k (takeNotices s) := h.takeHanded.takeHanded

/-- A step keeps what the command's own effect keeps. -/
theorem inStep {f : State → State} (hf : ∀ {u : State}, Kept k u → Kept k (f u)) {t : State} (h : Kept k s)
    (e : inStep f s = .next t) : Kept k t := by
  cases e
  exact (hf (h.setNotices [])).takeNotices.setNotices _

/-! ### Return, loading and removal -/

theorem returnToPlay (h : Kept k s) : Kept k (returnToPlay s) := by
  unfold Machine.returnToPlay
  split
  · split
    · exact ((h.countPlay _).enterState .playing false rfl).playRequest
    · split
      · exact (h.enterState .playing false rfl).playRequest
      · exact (h.enterState .cueing false rfl).stopRequest.testCueing
  · exact (h.enterState .paused false rfl).stopRequest
  · exact (h.enterState .cueing false rfl).stopRequest.testCueing

theorem queueLoad (h : Kept k s) (p : Nat) : Kept k (queueLoad p s) := ((h.txRequest _).mapPlay _ (by rfl)).countPlay _

theorem loadForConfirmation (h : Kept k s) : Kept k (loadForConfirmation s) := (h.queueLoad _).mapPlay _ (by rfl)

theorem sealAs (h : Kept k s) (m : SaveMode) (c : SealCause) : Kept k (sealAs m c s) := by
  unfold Machine.sealAs
  dsimp only
  split
  · exact h.resumeWrite _ _
  · exact h

theorem sealEntry (h : Kept k s) (c : SealCause) : Kept k (sealEntry c s) := h.sealAs _ c

theorem playBoundary (h : Kept k s) (b : Nat) : Kept k (playBoundary b s) := by
  unfold Machine.playBoundary
  dsimp only
  split
  · exact h.resumeWrite _ _
  · exact h

theorem runSelect (h : Kept k s) : Kept k (runSelect s) := by
  unfold Machine.runSelect
  dsimp only
  refine enterUnread (queueLoad (mapPlay (clearDisc ?_) _ (by rfl)) _) _ _ (by simp [DiscRecord.empty])
  split
  · exact h.sealEntry _
  · exact h.sealEntry _
  · exact h.sealEntry _
  all_goals exact h

theorem runPlay (h : Kept k s) : Kept k (runPlay s) := by
  have cued : Kept k (Machine.cueAt (playBn s) (playFrame s)
      (Machine.mapPlay (fun p => { p with pauseOnPrime := false, unprimed := false }) s)) := (h.mapPlay _ (by rfl)).cueAt _ _
  unfold Machine.runPlay
  dsimp only
  split
  · exact (cued.mapPlay _ (by rfl)).enterState .suspended false rfl
  · exact (cued.enterState .cueing false rfl).testCueing

theorem runPause (h : Kept k s) : Kept k (runPause s) := by
  have sealed : Kept k (Machine.sealAs .paused .none s) := h.sealAs _ _
  unfold Machine.runPause
  dsimp only
  split
  · exact (sealed.mapPlay _ (by rfl)).enterState .paused false rfl
  · exact sealed.stopRequest.enterState .paused false rfl

theorem runContinue (h : Kept k s) : Kept k (runContinue s) := by
  have marked : Kept k (Machine.mapPlay (fun p => { p with unprimed := false, pauseOnPrime := false }) s) := h.mapPlay _ (by rfl)
  unfold Machine.runContinue
  dsimp only
  split
  · exact (marked.enterState .playing false rfl).playRequest
  · exact (marked.enterState .cueing false rfl).testCueing

/-- STOP, once a seal is written: READY with a CONFIRMED disc, else the disc cleared and EMPTY (R142). -/
theorem endPlay (h : Kept k s) (w : Nat) :
    Kept k (if s.play.disc.confirmed = true then
        Machine.flushAtCursor (Machine.enterState .ready false (Machine.mapPlay (fun p => { p with causes := Causes.none }) s))
      else Machine.enterState .empty false (Machine.mapPlay (fun p => { p with wanted := w }) (Machine.clearDisc s))) := by
  split
  · exact flushAtCursor ((h.mapPlay _ (by rfl)).enterState .ready false rfl)
  · exact (h.clearDisc.mapPlay _ (by rfl)).enterUnread _ _ (by simp [DiscRecord.empty])

theorem runStop (h : Kept k s) : Kept k (runStop s) := by
  unfold Machine.runStop
  cases s.play.state
  case playing | paused | coasting => exact (h.sealAs _ _).endPlay _
  all_goals exact h.endPlay _

theorem endLoading (h : Kept k s) (r : ReadyReason) : Kept k (endLoading r s) :=
  ((h.clearDisc.mapPlay _ (by rfl)).enterUnread _ _ (by simp [DiscRecord.empty])).raise _ _

theorem loseDisc (h : Kept k s) (r : ReadyReason) : Kept k (loseDisc r s) :=
  (h.clearDisc.enterUnread _ _ (by simp [DiscRecord.empty])).raise _ _

theorem followPlan {u : Prop} (h : Kept { k with unread := u } s) (plan : LoadPlan)
    (read : plan.state.unread = false) : Kept k (followPlan plan s) := by
  have cued : Kept { k with unread := u } (Machine.mapPlay (fun p => { p with pauseOnPrime := p.pauseOnPrime || plan.pause })
      (Machine.cueAt plan.bn plan.frame s)) := (h.cueAt _ _).mapPlay _ (by rfl)
  unfold Machine.followPlan
  dsimp only
  split
  · exact (cued.mapPlay _ (by rfl)).enterState .suspended false rfl
  · exact testCueing (cued.enterState _ _ read)

theorem forgetOther (h : Kept k s) (tag : Tag) (p : Nat) : Kept k (forgetOther tag p s) := by
  unfold Machine.forgetOther
  dsimp only
  split
  · exact h.resumeWrite _ _
  · exact h

/-- While LOADING the record takes its extent before the state is left; the plan then enters READY, CUEING or SUSPENDED (R144). -/
theorem confirmLoad (h : Kept k s) (tag : Tag) (e p : Nat) : Kept k (confirmLoad tag e p s) := by
  have read : Kept { k with unread := False } (Machine.forgetOther tag p (changeExtent e (Machine.countPlay
      (fun c => { c with confirmation := bump c.confirmation })
      (Machine.mapPlay (fun x => { x with disc := ⟨p, tag, e, true⟩ }) s)))) :=
    (h.unasked.newExtent e (fun x => { x with
      disc := ⟨p, tag, e, true⟩
      counters := { x.counters with confirmation := bump x.counters.confirmation } }) rfl False.elim).forgetOther tag p
  exact (read.followPlan _ (loadPlan_read _ _ _ _ _)).raise _ _

theorem sameDisc (h : Kept k s) : Kept k (sameDisc s) := by
  unfold Machine.sameDisc
  dsimp only
  split
  · exact returnToPlay (countPlay (raise (mapPlay h _ (by rfl)) _ _) _)
  · exact plannerNotice (countPlay (raise (mapPlay h _ (by rfl)) _ _) _) _

/-- The cue reaches the feeder before the store takes the new extent; the flush that follows links them again (R136, R151). -/
theorem newDisc (h : Kept k s) (tag : Tag) (e p : Nat) : Kept k (newDisc tag e p s) := by
  have read : Kept ⟨False, False, False, k.intake⟩ (changeExtent e (cueFeeder 0 0 (Machine.mapPlay
      (fun x => { x with
        confirming := false, causes := Causes.none, pauseOnPrime := false, unprimed := false
        disc := ⟨p, tag, e, true⟩ }) (invalidate s.play.disc.position s)))) :=
    changeExtentFrom e (h.intakeOnly.elsewhere rfl rfl)
  have flushed : Kept { k with unread := False } (Machine.requestFlush 0 (changeExtent e (cueFeeder 0 0 (Machine.mapPlay
      (fun x => { x with
        confirming := false, causes := Causes.none, pauseOnPrime := false, unprimed := false
        disc := ⟨p, tag, e, true⟩ }) (invalidate s.play.disc.position s))))) := by
    refine requestFlush 0 (fun _ => ⟨?_, ?_⟩) False.elim read.intake
    · rw [changeExtent_feeder]; rfl
    · rw [changeExtent_extent, changeExtent_play]; rfl
  unfold Machine.newDisc
  exact countPlay (raise (flushed.enterState .ready false rfl) _ _) _

theorem takeDisc (h : Kept k s) (tag : Tag) (e p : Nat) : Kept k (takeDisc tag e p s) := by
  have away : Kept k (if matchesReturn p s.play = true then
        (if tag = s.play.disc.tag then Machine.sameDisc s else Machine.newDisc tag e p s)
      else if s.play.confirming = true ∧ p ≠ s.play.disc.position then strayAnswer s else unsolicited s) := by
    split
    · split
      · exact h.sameDisc
      · exact h.newDisc _ _ _
    · split
      · exact h.countPlay _
      · exact h.countPlay _
  unfold Machine.takeDisc
  split
  · split
    · exact h.confirmLoad _ _ _
    · exact h.countPlay _
  · exact away
  · exact away
  all_goals exact h.countPlay _

theorem coastOrSuspend (h : Kept k s) (byRestart : Bool) : Kept k (coastOrSuspend byRestart s) := by
  unfold Machine.coastOrSuspend
  split
  · exact h.enterState .suspended byRestart rfl
  · exact (h.enterState .coasting byRestart rfl).countPlay _

theorem driveAway (h : Kept k s) (byRestart reload : Bool) : Kept k (driveAway byRestart reload s) := by
  have load : ∀ {u : State}, Kept k u →
      Kept k (if (reload && (!u.play.causes.tray || u.play.confirming)) = true then Machine.loadForConfirmation u else u) := by
    intro u w
    split
    · exact w.loadForConfirmation
    · exact w
  unfold Machine.driveAway
  dsimp only
  split
  · exact enterState (stopRequest (load (mapPlay (h.sealEntry _) _ (by rfl)))) .suspended _ rfl
  · exact enterState (stopRequest (load (mapPlay (h.sealEntry _) _ (by rfl)))) .suspended _ rfl
  · exact coastOrSuspend (load (mapPlay (h.sealEntry _) _ (by rfl))) _
  · exact plannerNotice (load (mapPlay h _ (by rfl))) _
  · exact plannerNotice (load (mapPlay h _ (by rfl))) _
  all_goals exact h

theorem takeGone (h : Kept k s) (p : Nat) : Kept k (takeGone p s) := by
  have away : Kept k (if p ≠ s.play.disc.position then strayAnswer s
      else if s.play.confirming = true then Machine.loseDisc .noDisc s else Machine.driveAway false false s) := by
    split
    · exact h.countPlay _
    · split
      · exact h.loseDisc _
      · exact h.driveAway _ _
  unfold Machine.takeGone
  split
  · exact h.countPlay _
  · split
    · exact h.endLoading _
    · exact h.countPlay _
  · split
    · exact h.loseDisc _
    · exact h.countPlay _
  all_goals exact away

theorem playRestart (h : Kept k s) : Kept k (playRestart s) := by
  unfold Machine.playRestart
  split
  · exact h
  · exact h.queueLoad _
  · exact enterUnread (queueLoad (mapPlay h.clearDisc _ (by rfl)) _) _ _ (by simp [DiscRecord.empty])
  all_goals exact h.driveAway _ _

theorem playTrayOut (h : Kept k s) : Kept k (playTrayOut s) := by
  unfold Machine.playTrayOut
  dsimp only
  split
  · exact h
  · exact h.endLoading _
  · exact (h.sealEntry _).clearDisc.enterUnread _ _ (by simp [DiscRecord.empty])
  · exact enterState (stopRequest (mapPlay (h.sealEntry _) _ (by rfl))) .suspended _ rfl
  · exact enterState (stopRequest (mapPlay (h.sealEntry _) _ (by rfl))) .suspended _ rfl
  · exact coastOrSuspend (mapPlay (h.sealEntry _) _ (by rfl)) _
  · exact plannerNotice (mapPlay (h.sealEntry _) _ (by rfl)) _
  · exact plannerNotice (mapPlay (h.sealEntry _) _ (by rfl)) _

theorem playTrayIn (h : Kept k s) : Kept k (playTrayIn s) := by
  unfold Machine.playTrayIn
  split
  · exact h.loadForConfirmation
  · exact h

theorem timeOutLoad (h : Kept k s) : Kept k (timeOutLoad s) := by
  unfold Machine.timeOutLoad
  dsimp only
  split
  · exact endLoading (mapPlay (countPlay h _) _ (by rfl)) _
  · exact loseDisc (mapPlay (countPlay h _) _ (by rfl)) _

theorem loadTick (h : Kept k s) : Kept k (loadTick s) := by
  unfold Machine.loadTick
  split
  · exact h.timeOutLoad
  · split
    · exact h.mapPlay _ (by rfl)
    · exact h

/-! ### Starvation, supply, end of disc -/

theorem playStarved (h : Kept k s) : Kept k (playStarved s) := by
  unfold Machine.playStarved
  split
  · exact (h.sealAs _ _).enterState .suspended false rfl
  · exact h

theorem supplySuspends (h : Kept k s) : Kept k (supplySuspends s) := (h.stopRequest.sealEntry _).txRequest _

theorem playSupplyWarning (h : Kept k s) : Kept k (playSupplyWarning s) := by
  have warned : Kept k (Machine.mapPlay (fun p => { p with supplyWarned := true }) s) := h.mapPlay _ (by rfl)
  unfold Machine.playSupplyWarning
  dsimp only
  split
  · exact enterState (countPlay (supplySuspends (mapPlay warned _ (by rfl))) _) .suspended _ rfl
  · exact enterState (countPlay (supplySuspends (mapPlay warned _ (by rfl))) _) .suspended _ rfl
  · exact enterState (countPlay (supplySuspends (mapPlay warned _ (by rfl))) _) .suspended _ rfl
  · exact enterState (countPlay (supplySuspends (mapPlay warned _ (by rfl))) _) .suspended _ rfl
  · exact supplySuspends (mapPlay warned _ (by rfl))
  all_goals exact warned

theorem playSupplyRecovery (h : Kept k s) : Kept k (playSupplyRecovery s) := by
  have recovered : Kept k (Machine.mapPlay
      (fun p => { p with supplyWarned := false, causes := { p.causes with supply := false } }) s) := h.mapPlay _ (by rfl)
  unfold Machine.playSupplyRecovery
  dsimp only
  split
  · split
    · exact recovered.returnToPlay
    · exact (recovered.enterState .paused false rfl).stopRequest
  · exact recovered

theorem endNotice (h : Kept k s) : Kept k (endNotice s) := by
  have noticed : Kept k (Machine.mapPlay
      (fun p => { p with causes := Causes.none, confirming := false, pauseOnPrime := false, unprimed := false })
      (invalidate s.play.disc.position (Machine.countPlay (fun c => { c with endOfDisc := bump c.endOfDisc })
        (Machine.raise .endOfDisc s.play.disc.position s)))) :=
    (((h.raise _ _).countPlay _).resumeWrite _ _).mapPlay _ (by rfl)
  unfold Machine.endNotice
  dsimp only
  split
  · exact noticed.enterState .ready false rfl
  · exact noticed.clearDisc.enterUnread _ _ (by simp [DiscRecord.empty])

theorem endOfDisc (h : Kept k s) : Kept k (endOfDisc s) := by
  unfold Machine.endOfDisc
  split
  · exact h
  · exact (h.mapFeeder _ (Feeder.endDisc_block _)).endNotice

theorem feederExtent (h : Kept k s) : Kept k (feederExtent s) := by
  unfold Machine.feederExtent
  split
  · exact h.endOfDisc
  · split
    · exact h.mapFeeder _ rfl
    · exact h

/-- A cut is below the extent of the record, so it finds no EMPTY or LOADING (R157). -/
theorem cutExtent (h : Kept k s) (x : Nat) : Kept k (cutExtent x s) := by
  unfold Machine.cutExtent
  dsimp only
  split
  · rename_i below
    refine feederExtent (raise (newExtent h x (fun p => { p with disc := { p.disc with extent := x } }) rfl ?_) _ _)
    intro u state
    rw [h.unread u state] at below
    exact absurd below (Nat.not_lt_zero x)
  · exact h

/-! ### The frame demand -/

theorem clockReturn (h : Kept k s) : Kept k (clockReturn s) := by
  unfold Machine.clockReturn
  split
  · exact (h.mapFeeder _ (Feeder.clockBack_block _ _)).raise _ _
  · exact h

/-- The block boundary, after the advance of the window that begins it (R117). -/
theorem boundary (b : Nat) (h : Kept k (s.setStore (s.store.advance b))) : Kept k (boundary b s) := by
  have left := (storeEventFrom (fun t => t.advance b) h).declareEntry.playBoundary (b + 1)
  unfold Machine.boundary
  dsimp only
  split
  · exact left.endOfDisc
  · exact left

/-- The cursor and the window leave a block together (R116, R117). -/
theorem leaveBlock (h : Kept k s) (g : Feeder → Feeder) (block : (g s.feeder).block = s.feeder.block + 1) :
    Kept k (Machine.boundary s.feeder.block (Machine.mapFeeder g s)) := by
  refine boundary s.feeder.block ?_
  exact
    { store := fun w => by
        obtain ⟨tidy, at_, extent⟩ := h.store w
        exact ⟨by rw [at_]; exact tidy.advance, block, extent⟩
      row5 := fun w r => (h.row5 w r).freed (Store.advance_freed (h.store w).tidy.wf _)
      unread := h.unread
      intake := fun i => (h.intake i).congr rfl rfl }

theorem giveFrame (h : Kept k s) : Kept k (giveFrame s) := by
  have raised : Kept k (raiseConceal (formFrame s) s) ∧ (raiseConceal (formFrame s) s).feeder = s.feeder := by
    unfold raiseConceal
    split
    · exact ⟨h, rfl⟩
    · exact ⟨h, rfl⟩
    · exact ⟨h.raise _ _, rfl⟩
  obtain ⟨raised, same⟩ := raised
  have advanced := Feeder.advance_block ((raiseConceal (formFrame s) s).feeder.give (rampLength s) (formFrame s))
  have frame : ∀ x : Feeder, (x.give (rampLength s) (formFrame s)).frame = x.frame := fun _ => rfl
  unfold Machine.giveFrame
  dsimp only
  split
  · rename_i leaves
    have left := raised.leaveBlock (fun f => (f.give (rampLength s) (formFrame s)).advance)
      (advanced.trans (if_pos (by rw [frame, same]; exact of_decide_eq_true leaves)))
    rw [same] at left
    exact left.mapFeeder _ (Feeder.finishRamp_block _)
  · rename_i stays
    have given := raised.mapFeeder (fun f => (f.give (rampLength s) (formFrame s)).advance)
      (advanced.trans (if_neg (by rw [frame, same]; exact fun e => stays (decide_eq_true e))))
    exact given.mapFeeder _ (Feeder.finishRamp_block _)

theorem demandPlaying (h : Kept k s) : Kept k (demandPlaying s) := by
  unfold Machine.demandPlaying
  split
  · exact (h.mapFeeder _ rfl).endOfDisc
  · split
    · split
      · exact h.mapFeeder _ (Feeder.stopShort_block _ _)
      · exact ((h.mapFeeder _ (Feeder.starve_block _ _)).raise _ _).playStarved
    · exact h.giveFrame

theorem demand (h : Kept k s) : Kept k (demand s) := by
  have returned := (h.mapFeeder (fun f => { f with seen := true }) rfl).clockReturn
  unfold Machine.demand
  dsimp only
  split
  · exact returned.mapFeeder _ (Feeder.fadeFrame_block _)
  · exact returned.mapFeeder _ (Feeder.fadeFrame_block _)
  all_goals exact returned.demandPlaying

theorem frameDemand (h : Kept k s) (l r : Nat) : Kept k (frameDemand l r s) := h.demand.mapFeeder _ rfl

theorem loseClock (h : Kept k s) : Kept k (loseClock s) := (h.mapFeeder _ rfl).raise _ _

theorem clockTick (h : Kept k s) : Kept k (clockTick s) := by
  unfold Machine.clockTick
  split
  · exact h.loseClock
  · exact h.mapFeeder _ rfl

end Kept

end Sys2Proof.Machine
end

