-- ==== Sys2Proof/Proofs/StoreKeptStep.lean ====
section
/-!
SUPPORT. The parts of the store's and the Intake's relations (`Kept`) through the Monitor, the streams, a placement, the link, the
senses and the Console Port, and so through every command. Then the statement that every step keeps the relations (O56).
-/
namespace Sys2Proof.Machine

/-! ### The Monitor's scores -/

@[simp] theorem Health.enter_erasure (h : Health) (x : HealthState) : (h.enter x).erasure = h.erasure := by
  unfold Health.enter
  split <;> rfl

@[simp] theorem requestPace_erasure (level : Pace) (s : State) : (requestPace level s).health.erasure = s.health.erasure := by
  unfold requestPace
  split <;> rfl

/-- A change of health state leaves the erasure score, and so the rough indication (R78, R86). -/
theorem rederiveHealth_rough (s : State) : (rederiveHealth s).health.rough = s.health.rough := by
  have erasure : (rederiveHealth s).health.erasure = s.health.erasure := by
    unfold rederiveHealth
    dsimp only
    split
    · rfl
    · exact (requestPace_erasure _ _).trans (by simp)
  unfold Health.rough
  rw [erasure]

/-! ### Offsets and entries -/

/-- A chosen offset is within Slip Range (R31). -/
theorem chooseOffset_bound {s : State} {x : IntakeEntry} {d : Int} (h : chooseOffset s x = some d) :
    -(s.console.params.slipRange : Int) ≤ d ∧ d ≤ s.console.params.slipRange := by
  have mem := List.mem_of_find?_eq_some h
  simp only [candidateOffsets, List.mem_cons, List.mem_flatMap, List.mem_range] at mem
  rcases mem with rfl | ⟨i, hi, hd⟩
  · omega
  · simp only [List.not_mem_nil, or_false] at hd
    omega

theorem entryFrames_length (erasures : Option (List Nat)) (v : List Sample) (i : Nat) :
    (entryFrames erasures i v).length = v.length := by
  induction v generalizing i with
  | nil => rfl
  | cons x rest ih => exact congrArg Nat.succ (ih (i + 1))

theorem entryFrames_present (erasures : Option (List Nat)) (v : List Sample) (i : Nat) :
    ∀ f ∈ entryFrames erasures i v, f.mark ≠ .absent := by
  induction v generalizing i with
  | nil => nofun
  | cons x rest ih =>
    intro f hf
    rcases List.mem_cons.mp hf with rfl | hf
    · dsimp only
      split
      · nofun
      · nofun
    · exact ih (i + 1) f hf

/-- Every four bytes of a body give one frame (R193). -/
theorem samplesOf_length (n : Nat) (bytes : List Byte) (h : bytes.length = 4 * n) : (samplesOf bytes).length = n := by
  induction n generalizing bytes with
  | zero =>
    rw [List.length_eq_zero_iff.mp h]
    rfl
  | succ n ih =>
    match bytes, h with
    | a :: b :: c :: d :: rest, h =>
      refine congrArg Nat.succ (ih rest ?_)
      simp only [List.length_cons] at h
      omega

/-- A BLOCK whose length is known holds at least the bytes up to its erasure count (R102). -/
theorem messageLength_block {bytes : List Byte} {n : Nat} (h : messageLength .block bytes = some n) : 2362 ≤ bytes.length := by
  unfold messageLength at h
  dsimp only at h
  split at h
  · cases h
  · omega

namespace Kept

variable {k : Asked} {s : State}

/-! ### The Monitor -/

theorem setHealth (h : Kept k s) (x : Health) (rough : x.rough = s.health.rough) : Kept k (s.setHealth x) :=
  h.quiet ⟨rfl, rfl, rfl, rfl, rough, rfl, List.suffix_rfl, .inl rfl, fun _ e => e⟩

theorem rederiveHealth (h : Kept k s) : Kept k (rederiveHealth s) := by
  have paced : ∀ (level : Pace) {u : State}, Kept k u → Kept k (requestPace level u) := by
    intro level u w
    unfold requestPace
    split
    · exact w
    · exact txRequest (w.setHealth _ (by rfl)) _
  unfold Machine.rederiveHealth
  dsimp only
  split
  · exact h
  · refine (paced _ (plannerNotice (h.setHealth _ ?_) _)).raise _ _
    unfold Health.rough
    rw [Health.enter_erasure]

theorem addSkip (h : Kept k s) (amount : Nat) : Kept k (addSkip amount s) := by
  unfold Machine.addSkip
  split
  · exact h
  · exact (h.setHealth _ (by rfl)).rederiveHealth

/-- The rough indication moves the effective Retry Limit, and every slot is then recomputed (R7, R86). -/
theorem takeReport (h : Kept k s) (cls : ErasureClass) (inSequence : Bool) : Kept k (takeReport cls inSequence s) := by
  unfold Machine.takeReport rederiveRough
  dsimp only
  by_cases same : (s.health.report cls inSequence).rough = s.health.rough
  · rw [if_pos ((rederiveHealth_rough _).trans same)]
    exact (h.setHealth _ same).rederiveHealth
  · rw [if_neg fun e => same ((rederiveHealth_rough _).symm.trans e)]
    have scored : Kept { k with row5 := False } (Machine.rederiveHealth (s.setHealth (s.health.report cls inSequence))) :=
      rederiveHealth ⟨fun w => ⟨(h.store w).tidy, (h.store w).block, (h.store w).extent⟩, fun _ => False.elim, h.unread,
        fun i => (h.intake i).congr rfl rfl⟩
    split
    · exact scored.retryLimitChanged.raise _ _
    · exact raise (retryLimitChanged (r := False) (scored.setHealth _ (by rfl))) _ _

theorem monitorJump (h : Kept k s) : Kept k (monitorJump s) := by
  unfold Machine.monitorJump
  split
  · exact h.setHealth _ (by rfl)
  · exact h

theorem monitorShock (h : Kept k s) : Kept k (monitorShock s) := by
  unfold Machine.monitorShock
  split
  · exact h.setHealth _ (by rfl)
  · exact h.addSkip _

theorem recoverHealth (h : Kept k s) : Kept k (recoverHealth s) :=
  (((h.setHealth _ (by rfl)).txRequest _).plannerNotice _).raise _ _

theorem monitorTick (h : Kept k s) : Kept k (monitorTick s) := by
  unfold Machine.monitorTick
  split
  · exact h.recoverHealth
  · exact h.setHealth _ (by rfl)

/-! ### The current stream -/

theorem countPlacement (h : Kept k s) (f : PlacementCounters → PlacementCounters) : Kept k (countPlacement f s) := h.same rfl rfl

theorem setStream (h : Kept k s) (x : Stream) : Kept k (setStream x s) := h.same rfl rfl

theorem setFrontier (h : Kept k s) (x : Frontier) : Kept k (setFrontier x s) := h.same rfl rfl

theorem seekSent (h : Kept k s) (n : Nat) : Kept k (seekSent n s) := by
  unfold Machine.seekSent
  dsimp only
  split
  · exact h.setStream _
  · exact h

/-- A set-up begins at offset 0 (R25). -/
theorem setUp (h : Kept k s) (n start target landing : Nat) (blind : Bool) : Kept k (setUp n start target landing blind s) := by
  have begun : Kept k ((s.setAsm { s.asm with align := ⟨n, (setUpKindOf start target blind s).phase, start, target, landing, 0⟩
      }).setLink { s.link with lost := false }) := 
    h.quiet (.onGround rfl List.suffix_rfl (.inr rfl) fun _ e => e)
  unfold Machine.setUp SetUpKind.report
  dsimp only
  split
  · exact begun
  · exact begun
  · exact (begun.countPlacement _).raise _ _
  · exact (begun.countPlacement _).raise _ _

theorem beginLanding (h : Kept k s) (l : Nat) : Kept k (beginLanding l s) := by
  unfold Machine.beginLanding
  dsimp only
  split
  · exact mapTargetMislocks (setStream (h.countPlanner _) _) _
  · exact setStream (h.countPlanner _) _

theorem takeLanded (h : Kept k s) (n landing : Nat) : Kept k (takeLanded n landing s) := by
  unfold Machine.takeLanded
  split
  · exact (((h.beginLanding _).setUp _ _ _ _ _).evaluateFlow.setStream _).endCheck.settle
  · exact h.countPlanner _

theorem refuseFrontier (h : Kept k s) : Kept k (refuseFrontier s) := by
  unfold Machine.refuseFrontier
  dsimp only
  split
  · exact ((h.setFrontier _).countPlanner _).cutExtent _
  · exact h.setFrontier _

theorem refuseBusy (h : Kept k s) : Kept k (refuseBusy s) := by
  have closed := (h.countPlanner (fun c => { c with refusedBusy := bump c.refusedBusy })).closeStream .busy
  unfold Machine.refuseBusy
  dsimp only
  refine addSkip (settle ?_) _
  split
  · exact closed.refuseFrontier
  · exact closed

theorem takeRefused (h : Kept k s) (n reason : Nat) : Kept k (takeRefused n reason s) := by
  unfold Machine.takeRefused
  split
  · split
    · exact h.refuseBusy
    · exact settle (((h.countPlanner _).closeStream _).cutExtent _)
  · exact h.countPlanner _

theorem breakStream (h : Kept k s) : Kept k (breakStream s) := (h.closeStream _).settle.addSkip _

theorem takeJump (h : Kept k s) (n : Nat) : Kept k (takeJump n s) := by
  unfold Machine.takeJump
  split
  · exact (h.countPlanner _).breakStream
  · exact h.countPlanner _

theorem takeDiscontinuity (h : Kept k s) (n : Nat) : Kept k (takeDiscontinuity n s) := by
  unfold Machine.takeDiscontinuity
  split
  · exact h.breakStream
  · exact h.settle

theorem takeMislock (h : Kept k s) (n : Nat) : Kept k (takeMislock n s) := by
  unfold Machine.takeMislock
  split
  · exact (((h.mapTargetMislocks _).countPlanner _).closeStream _).settle.addSkip _
  · exact h.settle

theorem timeOutSeek (h : Kept k s) : Kept k (timeOutSeek s) :=
  (((h.setStream _).countPlanner _).closeStream _).settle.addSkip _

theorem seekTick (h : Kept k s) : Kept k (seekTick s) := by
  unfold Machine.seekTick
  split
  · exact h.timeOutSeek
  · split
    · exact h.setStream _
    · exact h

/-! ### Placement -/

theorem setAlign (h : Kept k s) (x : Align) (offset : k.intake → -128 ≤ x.offset ∧ x.offset ≤ 128) :
    Kept k (setAlign x s) where
  store w := ⟨(h.store w).tidy, (h.store w).block, (h.store w).extent⟩
  row5 := h.row5
  unread := h.unread
  intake i := by
    obtain ⟨two, present, message, -, -⟩ := h.intake i
    exact ⟨two, present, message, offset i⟩

theorem reportPlacement (h : Kept k s) (n : Nat) (x : IntakeEntry) (d : Option Int) (b : Bool) :
    Kept k (reportPlacement n x d b s) := (h.takePlacement _ _ _).takeReport _ _

theorem placeAt (h : Kept k s) (x : IntakeEntry) (d : Int) (a : Option Int) (b : Bool)
    (offset : k.intake → -128 ≤ d ∧ d ≤ 128) : Kept k (placeAt x d a b s) :=
  (takeSteps _ (mergeSteps_index _ _ _) ((h.countPlacement _).setAlign _ offset).evaluateFlow).reportPlacement _ _ _ _

theorem heldOffset (h : Kept k s) (i : k.intake) : -128 ≤ s.asm.align.offset ∧ s.asm.align.offset ≤ 128 := by
  obtain ⟨-, -, -, low, high⟩ := h.intake i
  exact ⟨low, high⟩

theorem mislock (h : Kept k s) : Kept k (mislock s) := h.clearPhase.evaluateFlow.takeMislock _

theorem compareOnly (h : Kept k s) (x : IntakeEntry) : Kept k (compareOnly x s) :=
  ((h.countPlacement _).setAlign { s.asm.align with expected := x.bn + 1 } h.heldOffset).evaluateFlow.reportPlacement _ _ _ _

/-- The search chooses an offset within Slip Range, which is at most 128 (R31, R183). -/
theorem placeInSequence (h : Kept k s) (slip : k.intake → s.console.params.slipRange ≤ 128) (x : IntakeEntry) :
    Kept k (placeInSequence x s) := by
  unfold Machine.placeInSequence
  dsimp only
  split
  · split
    · exact h.mislock
    · split
      · exact h.compareOnly _
      · rename_i d chosen
        have bound := chooseOffset_bound chosen
        refine h.placeAt _ _ _ _ fun i => ?_
        have within := slip i
        omega
  · exact h.placeAt _ _ _ _ h.heldOffset

theorem placeAccepted (h : Kept k s) (slip : k.intake → s.console.params.slipRange ≤ 128) (x : IntakeEntry) :
    Kept k (placeAccepted x s) := by
  unfold Machine.placeAccepted
  split
  · exact h.placeInSequence slip _
  · split
    · exact placeAt (s := s.setLink { s.link with lost := false }) (h.same (by rfl) (by rfl)) _ _ _ _ h.heldOffset
    · exact (h.countPlacement _).clearPhase.evaluateFlow.takeDiscontinuity _

theorem judgeEntry (h : Kept k s) (slip : k.intake → s.console.params.slipRange ≤ 128) (x : IntakeEntry) :
    Kept k (judgeEntry x s) := by
  unfold Machine.judgeEntry
  split
  · exact (h.countPlacement _).reflow
  · split
    · exact (h.countPlacement _).reflow
    · split
      · exact (h.countPlacement _).reflow
      · exact h.placeAccepted slip _

theorem placement (h : Kept k s) (slip : k.intake → s.console.params.slipRange ≤ 128) : Kept k (placement s) := by
  unfold Machine.placement
  split
  · exact h
  · rename_i x rest taken
    refine judgeEntry (s := s.setAsm { s.asm with intake := rest }) (h.quiet (.onGround rfl ?_ (.inl rfl) fun _ e => e)) slip x
    rw [taken]
    exact List.suffix_cons x rest

/-! ### The link -/

/-- A change of the link that leaves or drops the message under way. -/
theorem mapLink (h : Kept k s) (g : Link → Link)
    (assembly : ∀ held, (g s.link).assembly = .inMessage held → s.link.assembly = .inMessage held) :
    Kept k (mapLink g s) := h.quiet (.onGround rfl List.suffix_rfl (.inl rfl) assembly)

/-- A change of the link that leaves the message under way. -/
theorem relink (h : Kept k s) (g : Link → Link) (same : (g s.link).assembly = s.link.assembly) : Kept k (Machine.mapLink g s) :=
  h.mapLink g fun _ e => same.symm.trans e

theorem countLink (h : Kept k s) (f : LinkCounters → LinkCounters) : Kept k (countLink f s) := h.relink _ (by rfl)

/-- No message is under way once it is dropped. -/
theorem dropMessage (h : Kept k s) (x : RxAssembly) (dropped : ∀ held, x ≠ .inMessage held) :
    Kept k (setAssembly x s) := h.mapLink _ (fun held e => absurd e (dropped held))

theorem loseMessage (h : Kept k s) (x : Loss) : Kept k (loseMessage x s) := (h.relink _ (by rfl)).raise _ _

theorem overrun (h : Kept k s) : Kept k (overrun s) := ((h.countPlacement _).loseMessage _).dropMessage _ nofun

theorem truncate (h : Kept k s) : Kept k (truncate s) := by
  unfold Machine.truncate
  split
  · exact h.loseMessage _
  all_goals exact h

theorem lineHigh (h : Kept k s) : Kept k (lineHigh s) := by
  have same : s.link.lineHigh.assembly = s.link.assembly := by
    unfold Link.lineHigh
    dsimp only
    split
    · exact Link.kick_assembly _
    all_goals rfl
  unfold Machine.lineHigh
  split
  · exact h.mapLink _ (fun _ e => same.symm.trans e)
  · exact h

theorem beginMessage (h : Kept k s) (noise : Nat) : Kept k (beginMessage noise s) :=
  (h.lineHigh.relink _ (by rfl)).truncate.dropMessage _ nofun

theorem dispatchJump (h : Kept k s) (n : Nat) (monitorFirst : Bool) : Kept k (dispatchJump n monitorFirst s) := by
  unfold Machine.dispatchJump
  split
  · exact h.monitorJump.takeJump _
  · exact (h.takeJump _).monitorJump

/-- A BLOCK has an entry to go to, no other message is under way, and it forms 588 frames (R20, R22). -/
def RoomFor (s : State) : RxMsg → Prop
  | .block _ _ _ v _ => s.asm.intake.length < 2 ∧ v.length = 588 ∧ ∀ held, s.link.assembly ≠ .inMessage held
  | .disc _ _ _ _ | .jump _ _ _ | .landed _ _ | .refused _ _ | .settled _ | .gone _ _ => True

theorem acceptEntry (h : Kept k s) {n bn : Nat} {tag : Tag} {v : List Sample} {e : Option (List Nat)}
    (room : k.intake → RoomFor s (.block n bn tag v e)) : Kept k (acceptEntry (entryOf n bn tag v e) s) := by
  have added : Kept k (s.setAsm { s.asm with intake := s.asm.intake ++ [entryOf n bn tag v e] }) :=
    { store := fun w => ⟨(h.store w).tidy, (h.store w).block, (h.store w).extent⟩
      row5 := h.row5
      unread := h.unread
      intake := fun i => by
        obtain ⟨two, frames, idle⟩ := room i
        obtain ⟨-, present, -, offset⟩ := h.intake i
        refine ⟨?_, fun x hx => ?_, fun held w => absurd w (idle held), offset⟩
        · rw [State.asm_setAsm, List.length_append]
          exact two
        · rcases List.mem_append.mp hx with hx | hx
          · exact present x hx
          · rw [List.mem_singleton.mp hx]
            exact ⟨(entryFrames_length e v 0).trans frames, entryFrames_present e v 0⟩ }
  exact added.reflow

theorem dispatch (h : Kept k s) (monitorFirst : Bool) (m : RxMsg) (room : k.intake → RoomFor s m) :
    Kept k (dispatch monitorFirst m s) := by
  unfold Machine.dispatch
  split
  · exact h.takeDisc _ _ _
  · exact h.acceptEntry room
  · exact h.dispatchJump _ _
  · exact h.takeLanded _ _
  · exact h.takeRefused _ _
  · exact h.setHealth _ (by rfl)
  · exact h.takeGone _

theorem deliver (h : Kept k s) (monitorFirst : Bool) (m : RxMsg) (room : k.intake → RoomFor s m) :
    Kept k (deliver monitorFirst m s) := by
  unfold Machine.deliver
  split
  · exact h.loseMessage _
  · refine (h.countLink _).dispatch _ _ fun i => ?_
    cases m
    case block => exact room i
    all_goals trivial

theorem receive (h : Kept k s) (noise : Nat) (monitorFirst : Bool) (m : RxMsg) (room : ∀ u, RoomFor u m) :
    Kept k (receive noise monitorFirst m s) := by
  unfold Machine.receive
  split
  · exact (h.beginMessage _).deliver _ _ fun _ => room _
  · exact h

theorem intake_room {u : State} (h : ¬ intakeFull u = true) : u.asm.intake.length < 2 :=
  Nat.not_le.mp fun full => h (decide_eq_true full)

theorem receiveBlock (h : Kept k s) (noise n bn : Nat) (tag : Tag) (v : List Sample) (e : Option (List Nat))
    (frames : v.length = 588) : Kept k (receiveBlock noise n bn tag v e s) := by
  have begun := h.beginMessage noise
  unfold Machine.receiveBlock
  dsimp only
  split
  · split
    · exact begun.overrun
    · rename_i free
      split
      · exact (begun.loseMessage _).dropMessage _ nofun
      · exact begun.deliver _ _ fun _ => ⟨intake_room free, frames, nofun⟩
  · exact h

theorem ownerRestart (h : Kept k s) (x : RestartOwner) : Kept k (ownerRestart s x) := by
  unfold Machine.ownerRestart
  split
  · have emptied : Kept k (s.setAsm { s.asm with intake := [], holdIntake := false, holdWindow := false }) :=
      h.quiet (.onGround rfl List.nil_suffix (.inl rfl) fun _ e => e)
    exact emptied.clearPhase.relink _ (by rfl)
  · exact (h.closeStream _).settle
  · exact h.txRequest _
  · exact h.playRestart

theorem ownerRestarts (order : List RestartOwner) : ∀ {s : State}, Kept k s → Kept k (order.foldl Machine.ownerRestart s) := by
  induction order with
  | nil => exact fun h => h
  | cons x rest ih => exact fun h => ih (h.ownerRestart x)

theorem restartDrive (h : Kept k s) (order : List RestartOwner) : Kept k (restartDrive order s) :=
  ownerRestarts _ ((h.mapLink Link.restart nofun).raise _ _)

theorem transmitted (h : Kept k s) : Kept k (transmitted s) := by
  have finished : ∀ m, Kept k (Machine.mapLink (fun l => l.finish m (linkFormat s)) s) := fun m => h.relink _ (by rfl)
  unfold Machine.transmitted
  dsimp only
  split
  · split
    · exact (finished _).seekSent _
    all_goals exact finished _
  all_goals exact h

theorem gapOver (h : Kept k s) : Kept k (gapOver s) := by
  unfold Machine.gapOver
  split
  · exact h.mapLink _ (fun _ e => (Link.kick_assembly { s.link with tx := .idle }).symm.trans e)
  all_goals exact h

/-! ### Characters one by one -/

theorem setConsole (h : Kept k s) (x : Console) (retry : x.params.retryLimit = s.console.params.retryLimit) :
    Kept k (s.setConsole x) := h.quiet ⟨rfl, rfl, rfl, rfl, rfl, retry, List.suffix_rfl, .inl rfl, fun _ e => e⟩

theorem takeRateMark (h : Kept k s) (span : Option Nat) : Kept k (takeRateMark span s) := by
  have fails : Kept k (failRate s) := (h.countLink _).raise _ _
  unfold Machine.takeRateMark
  split
  · exact fails
  · split
    · exact (h.setConsole _ (by rfl)).countLink _
    · exact fails

theorem takeFaulted (h : Kept k s) (x : CharFault) : Kept k (takeFaulted x s) := by
  unfold Machine.takeFaulted
  split
  · exact h.countLink _
  all_goals exact (h.loseMessage _).dropMessage _ nofun

/-- A message under way that began with the header of a BLOCK finds an entry free (R22, R101). -/
theorem holdMessage (h : Kept k s) (held : List Byte)
    (begun : k.intake → held ≠ [] ∧ (headerKind (held.getLastD 0) = .message .block → s.asm.intake.length < 2)) :
    Kept k (setAssembly (.inMessage held) s) where
  store w := ⟨(h.store w).tidy, (h.store w).block, (h.store w).extent⟩
  row5 := h.row5
  unread := h.unread
  intake i := by
    obtain ⟨two, present, -, offset⟩ := h.intake i
    refine ⟨two, present, fun x e => ?_, offset⟩
    cases e
    exact begun i

theorem takeHeader (h : Kept k s) (header : Byte) (span : Option Nat) : Kept k (takeHeader header span s) := by
  unfold Machine.takeHeader
  split
  · exact (h.dropMessage _ (by exact nofun)).takeRateMark _
  · exact (h.loseMessage _).dropMessage _ nofun
  · rename_i kind isKind
    split
    · exact h.overrun
    · rename_i free
      refine h.holdMessage _ fun _ => ⟨nofun, fun block => intake_room fun full => free ?_⟩
      have same : kind = .block := by
        rw [show [header].getLastD 0 = header from rfl, isKind] at block
        exact HeaderKind.message.inj block
      rw [same, full]
      rfl

/-- A whole message is read from bytes that hold all its fields; a BLOCK among them has an entry to go to. -/
theorem complete (h : Kept k s) (kind : RxKind) (bytes : List Byte)
    (room : k.intake → kind = .block → 2362 ≤ bytes.length ∧ s.asm.intake.length < 2) : Kept k (complete kind bytes s) := by
  have dropped := h.dropMessage .idle nofun
  unfold Machine.complete
  dsimp only
  split
  · refine dropped.deliver _ _ fun i => ?_
    cases kind
    case block =>
      obtain ⟨long, free⟩ := room i rfl
      refine ⟨free, samplesOf_length 588 _ ?_, nofun⟩
      simp only [List.length_take, List.length_drop]
      omega
    all_goals trivial
  · exact dropped.loseMessage _

theorem takeHeld (h : Kept k s) (held : List Byte)
    (begun : k.intake → held ≠ [] ∧ (headerKind (held.getLastD 0) = .message .block → s.asm.intake.length < 2)) :
    Kept k (takeHeld held s) := by
  have header : held.reverse.headD 0 = held.getLastD 0 := by
    rw [List.headD_eq_head?_getD, List.head?_reverse, List.getLastD_eq_getLast?]
  unfold Machine.takeHeld
  dsimp only
  split
  · exact h.dropMessage _ nofun
  · exact h.dropMessage _ nofun
  · rename_i kind isKind
    split
    · exact (h.loseMessage _).dropMessage _ nofun
    · split
      · exact h.holdMessage _ begun
      · rename_i n known
        split
        · rename_i whole
          refine h.complete _ _ fun i block => ?_
          subst block
          exact ⟨messageLength_block known, (begun i).2 (header ▸ isKind)⟩
        · exact h.holdMessage _ begun

theorem takeBody (h : Kept k s) (b : Byte) : Kept k (takeBody b s) := by
  unfold Machine.takeBody
  split
  · exact (h.loseMessage _).dropMessage _ nofun
  · exact h
  · rename_i held under
    refine h.takeHeld _ fun i => ⟨nofun, ?_⟩
    obtain ⟨-, -, message, -⟩ := h.intake i
    obtain ⟨some, room⟩ := message held under
    obtain ⟨x, rest, rfl⟩ := List.exists_cons_of_ne_nil some
    exact room

theorem assemble (h : Kept k s) (j : Judged) (span : Option Nat) : Kept k (assemble j span s) := by
  unfold Machine.assemble
  split
  · exact h.takeFaulted _
  · split
    · exact h.truncate.takeHeader _ _
    · exact h.takeBody _

theorem receiveChar (h : Kept k s) (c : RxChar) : Kept k (receiveChar c s) := by
  unfold Machine.receiveChar
  split
  · dsimp only
    split
    · exact h.lineHigh
    · exact (h.lineHigh.relink _ (by rfl)).assemble _ _
  · exact h

theorem receiveChars (chars : List RxChar) : ∀ {s : State}, Kept k s → Kept k (receiveChars chars s) := by
  induction chars with
  | nil => exact fun h => h
  | cons c rest ih => exact fun h => ih (h.receiveChar c).takeNotices

/-! ### Senses and ticks -/

theorem setSense (h : Kept k s) (x : Sense) : Kept k (s.setSense x) := h.same rfl rfl

theorem setSupply (h : Kept k s) (x : Supply) : Kept k (s.setSupply x) := h.same rfl rfl

theorem sampleTray (h : Kept k s) (level : Bool) : Kept k (sampleTray level s) := by
  unfold Machine.sampleTray
  dsimp only
  split
  · split
    · exact ((h.setSense _).raise _ _).playTrayIn
    · exact ((h.setSense _).raise _ _).playTrayOut
  · exact h.setSense _

theorem samplePin (h : Kept k s) (pin : SensePin) (level : Bool) : Kept k (samplePin pin level s) := by
  unfold Machine.samplePin
  split
  · exact h.sampleTray _
  · unfold sampleShock
    dsimp only
    split
    · exact ((h.setSense _).raise _ _).monitorShock
    · exact h.setSense _

theorem sampleSupply (h : Kept k s) (vsense : Nat) : Kept k (sampleSupply vsense s) := by
  unfold Machine.sampleSupply
  dsimp only
  split
  · exact (h.setSupply _).playSupplyWarning.raise _ _
  · exact h.setSupply _

theorem recoverSupply (h : Kept k s) : Kept k (recoverSupply s) := (h.setSupply _).playSupplyRecovery.raise _ _

theorem supplyTick (h : Kept k s) : Kept k (supplyTick s) := by
  unfold Machine.supplyTick
  split
  · exact h.recoverSupply
  · split
    · exact h.setSupply _
    · exact h

theorem blockTick (h : Kept k s) : Kept k (blockTick s) := h.seekTick.loadTick.monitorTick.supplyTick.clockTick

/-! ### The mailbox and the window -/

theorem mapConsole (h : Kept k s) (g : Console → Console)
    (retry : (g s.console).params.retryLimit = s.console.params.retryLimit) : Kept k (mapConsole g s) :=
  h.setConsole _ retry

theorem busWrite (h : Kept k s) (r : Nat) (effect : Nat → State → State)
    (he : ∀ r {u : State}, Kept k u → Kept k (effect r u)) : Kept k (busWrite r effect s) := by
  have same := (Console.addressed_same s.console r).2
  unfold Machine.busWrite
  split
  · exact h
  all_goals exact he _ ((h.mapConsole (fun c => c.addressed r) (congrArg Params.retryLimit same)).mapConsole _ (by rfl))

theorem noteFormat (h : Kept k s) (id : Nat) : Kept k (noteFormat id s) := by
  unfold Machine.noteFormat
  split
  · refine h.mapLink _ fun held e => ?_
    unfold Link.formatChanging at e
    split at e
    all_goals exact e
  · exact h

theorem switchReceiver (h : Kept k s) : Kept k (Machine.mapLink Link.switched s) := by
  refine h.mapLink _ fun held e => ?_
  unfold Link.switched at e
  dsimp only at e
  split at e
  · rw [Link.kick_assembly] at e
    cases e
  all_goals cases e

/-- A changed Retry Limit has every slot recomputed, but on a rough disc, where the effective limit stays 1 (R7, R86, R183). -/
theorem setParam (h : Kept k s) (id v : Nat) : Kept k (setParam id v s) := by
  have noted := h.noteFormat id
  have others : id ≠ 4 →
      Kept k (Machine.mapConsole (fun c => { c with params := c.params.put id v }) (Machine.noteFormat id s)) := by
    intro ne
    refine noted.mapConsole _ ?_
    show (Params.put _ id v).retryLimit = _
    unfold Params.put
    split
    case h_4 => exact absurd rfl ne
    all_goals rfl
  unfold Machine.setParam
  split
  · exact h
  · unfold paramChanged
    split
    · exact (others nofun).postReadiness _
    · exact (others nofun).judgeLateness.settle
    · exact (others nofun).settle
    · have scored : Kept { k with row5 := False }
          (Machine.mapConsole (fun c => { c with params := c.params.put 4 v }) (Machine.noteFormat 4 s)) :=
        ⟨fun w => ⟨(noted.store w).tidy, (noted.store w).block, (noted.store w).extent⟩, fun _ => False.elim, noted.unread,
          fun i => (noted.intake i).congr rfl rfl⟩
      split
      · rename_i rough
        refine { scored with row5 := fun w r => ?_ }
        have same : effectiveRetry (Machine.mapConsole (fun c => { c with params := c.params.put 4 v })
            (Machine.noteFormat 4 s)) = effectiveRetry (Machine.noteFormat 4 s) := (if_pos rough).trans (if_pos rough).symm
        rw [same]
        exact noted.row5 w r
      · exact scored.retryLimitChanged
    · exact (others nofun).judgeLateness.settle
    · exact (others nofun).switchReceiver
    · exact (others nofun).setSense _
    · exact (others nofun).setSense _
    · exact others ‹_›

theorem clearCounters (h : Kept k s) : Kept k (clearCounters s) := h.same rfl rfl

theorem commandWrite (h : Kept k s) (code : Byte) (owner : State → Answer) (ho : ∀ {u : State}, Kept k u → Kept k (owner u).2) :
    Kept k (commandWrite code owner s) := by
  unfold Machine.commandWrite
  split
  · exact h.mapConsole _ (by rfl)
  · exact ((ho (h.mapConsole _ (by rfl))).mapConsole _ (by rfl)).raise _ _

theorem testedAnswer (h : Kept k s) (result : State → Result) (run : State → State) (hr : Kept k (run s)) :
    Kept k (tested result run s).2 := by
  unfold tested
  split
  · exact hr
  · exact h

theorem paramWrite (h : Kept k s) (i : Fin 6) (v : Byte) : Kept k (paramWrite i v s) := by
  unfold Machine.paramWrite
  split
  · exact h.mapConsole _ (by rfl)
  · exact h.mapConsole _ (by rfl)

/-! ### Resets -/

/-- A reset leaves an empty store at block 0 and no extent, an empty Intake and no message (R19, R45, R113). -/
theorem reset (store : s.store = Store.reset) (feeder : s.feeder = Feeder.reset) (play : s.play = Play.reset)
    (asm : s.asm = Assembler.reset) (assembly : s.link.assembly = .idle) : Kept k s where
  store _ := by
    refine ⟨?_, ?_, ?_⟩
    · rw [store]; exact Store.Tidy.flush Store.reset 0
    · rw [store, feeder]; rfl
    · rw [store, play]; rfl
  row5 _ _ := by rw [store]; exact Store.NoRow5.flush Store.reset 0 _
  unread _ := by rw [play]; exact fun _ => rfl
  intake _ := by
    unfold IntakeSound
    rw [asm, assembly]
    exact ⟨by decide, nofun, nofun, by decide, by decide⟩

theorem setResume (h : Kept k s) (x : Resume) : Kept k (s.setResume x) := h.same rfl rfl

theorem hardReset (cause : ResetCause) (addr : Bool) (x : Stored) (s : State) : Kept k (hardReset cause addr x s) := by
  have blocks : Kept k (resetBlocks cause addr s) := reset rfl rfl rfl rfl rfl
  unfold Machine.hardReset judgeResume
  split
  · split
    · exact blocks.setResume _
    · exact (blocks.setResume _).raise _ _
  · exact (blocks.setResume _).raise _ _

theorem cmdWrite (h : Kept k s) (code : Byte) : Kept k (cmdWrite code s) := by
  have respond : ∀ (bytes : List Byte) {u : State}, Kept k u → Kept k (respond bytes u) := fun _ _ w => w.mapConsole _ (by rfl)
  unfold Machine.cmdWrite
  split
  · exact h.commandWrite _ _ fun w => w.testedAnswer _ _ w.runSelect
  · exact h.commandWrite _ _ fun w => w.testedAnswer _ _ w.runPlay
  · exact h.commandWrite _ _ fun w => w.testedAnswer _ _ w.runPause
  · exact h.commandWrite _ _ fun w => w.testedAnswer _ _ w.runContinue
  · exact h.commandWrite _ _ fun w => w.testedAnswer _ _ w.runStop
  · exact h.commandWrite _ _ fun w => w.testedAnswer _ _ (w.setParam _ _)
  · exact h.commandWrite _ _ fun w => w.testedAnswer _ _ (respond _ w)
  · exact h.commandWrite _ _ fun w => w.testedAnswer _ _ (respond _ w)
  · refine h.commandWrite _ _ fun w => w.testedAnswer _ _ ?_
    split
    · exact w.same rfl rfl
    · exact w.resumeWrite _ _
  · exact h.commandWrite _ _ fun w => w.testedAnswer _ _ (respond _ w)
  · exact h.commandWrite _ _ fun w => w.testedAnswer _ _ (respond _ w)
  · exact h.commandWrite _ _ fun w => w.testedAnswer _ _ (respond _ w)
  · exact h.commandWrite _ _ fun w => w.clearCounters
  · unfold softResetWrite
    split
    · exact h.mapConsole _ (by rfl)
    · exact reset rfl rfl rfl rfl rfl
  · exact h.commandWrite _ _ fun w => w

theorem registerWrite (h : Kept k s) (register : Nat) (v : Byte) : Kept k (registerWrite register v s) := by
  unfold Machine.registerWrite
  split
  iterate 5 exact h.same rfl rfl
  iterate 6 exact h.paramWrite _ _
  · exact h.cmdWrite _
  · exact h

theorem writeByte (h : Kept k s) (register : Nat) (v : Byte) : Kept k (writeByte register v s) :=
  h.busWrite _ _ fun _ _ w => w.registerWrite _ _

theorem sendBytes (n : Nat) : ∀ {s : State}, Kept k s → Kept k (sendBytes n s) := by
  induction n with
  | zero => exact fun h => h
  | succ n ih =>
    intro s h
    have sent : Kept k (sendByte s) := h.same rfl rfl
    exact ih sent

/-! ### Every command -/

/-- A guard of a command keeps what both branches keep. -/
theorem ite {p : Prop} [Decidable p] {a b : State} (ha : Kept k a) (hb : Kept k b) : Kept k (if p then a else b) := by
  split
  · exact ha
  · exact hb

/-- Every command keeps the parts, the placement with a Slip Range of at most 128. -/
theorem exec (h : Kept k s) (slip : k.intake → s.console.params.slipRange ≤ 128) (c : Instr) {t : State}
    (e : exec c s = .next t) : Kept k t := by
  have written : ∀ (r : Nat) (v : Byte) {u : State}, Kept k u → Kept k (Machine.writeByte r v u) := fun _ _ _ w => w.writeByte _ _
  unfold Machine.exec at e
  cases c <;> dsimp only at e
  case powerOnReset => cases e; exact hardReset _ _ _ _
  case systemReset => cases e; exact hardReset _ _ _ _
  case softReset => cases e; exact written _ _ h
  case blockTick => exact h.inStep blockTick e
  case recovery => exact h.inStep (fun w => .ite w.recoverHealth w) e
  case seekTimeout => exact h.inStep (fun w => .ite w.timeOutSeek w) e
  case loadTimeout => exact h.inStep (fun w => .ite w.timeOutLoad w) e
  case clockLoss => exact h.inStep (fun w => .ite w.loseClock w) e
  case frameDemand => exact h.inStep (fun w => w.frameDemand _ _) e
  case block => exact h.inStep (fun w => w.receiveBlock _ _ _ _ _ _ (Vector.length_toList)) e
  case placement =>
    cases e
    exact (placement (h.setNotices []) slip).takeNotices.setNotices _
  case landed => exact h.inStep (fun w => w.receive _ _ _ (by exact fun _ => trivial)) e
  case refused => exact h.inStep (fun w => w.receive _ _ _ (by exact fun _ => trivial)) e
  case jump => exact h.inStep (fun w => w.receive _ _ _ (by exact fun _ => trivial)) e
  case settled => exact h.inStep (fun w => w.receive _ _ _ (by exact fun _ => trivial)) e
  case disc => exact h.inStep (fun w => w.receive _ _ _ (by exact fun _ => trivial)) e
  case gone => exact h.inStep (fun w => w.receive _ _ _ (by exact fun _ => trivial)) e
  case rateMark => exact h.inStep (fun w => .ite ((w.beginMessage _).takeRateMark _) w) e
  case lostMessage => exact h.inStep (receiveChars _) e
  case driveRestart => exact h.inStep (fun w => .ite (w.restartDrive _) w) e
  case transmitterRelease => exact h.inStep lineHigh e
  case transmissionComplete => exact h.inStep transmitted e
  case trayIn => exact h.inStep (fun w => w.sampleTray _) e
  case trayOut => exact h.inStep (fun w => w.sampleTray _) e
  case shockChange => exact h.inStep (fun w => w.samplePin .shock _) e
  case levelLatch => exact h.inStep (fun w => w.samplePin _ _) e
  case supplyWarning => exact h.inStep (fun w => w.sampleSupply _) e
  case supplyRecovery => exact h.inStep (fun w => .ite w.recoverSupply w) e
  case registerPointer =>
    exact h.inStep (fun w => w.mapConsole _ (congrArg Params.retryLimit (Console.beginWrite_same _ _ _).2)) e
  case mailboxCollision => exact h.inStep (fun w => w.busWrite _ _ fun _ _ x => x.mapConsole _ (by rfl)) e
  case snapshotLatch =>
    have same : ∀ c : Console, c.beginRead.params = c.params := by
      intro c
      unfold Console.beginRead
      split <;> rfl
    exact h.inStep (fun w => sendBytes _ (w.mapConsole _ (congrArg Params.retryLimit (same _)))) e
  case overrunAtHeader => exact h.inStep (fun w => .ite ((w.beginMessage _).takeHeader _ _) w) e
  case transmitterIdle => exact h.inStep gapOver e
  case lineIdle => exact h.inStep lineHigh e
  case discardingCharacter => exact h.inStep (fun w => w.receiveChar _) e
  case supplySample => exact h.inStep (fun w => w.sampleSupply _) e
  case cancellerSample => exact h.inStep (fun w => w.samplePin _ _) e
  case transactionEnd => exact h.inStep (fun w => w.mapConsole _ (by rfl)) e
  all_goals exact h.inStep (written _ _) e

/-- A step keeps the parts, the command taken from the queue. -/
theorem step (h : Kept k s) (slip : k.intake → s.console.params.slipRange ≤ 128) {t : State} (e : step s = .next t) :
    Kept k t := by
  unfold Machine.step at e
  split at e
  · cases e
    exact h
  · rename_i c rest _
    exact exec (s := s.setPending rest) (h.same (by rfl) (by rfl)) slip c e

end Kept

/-! ### The canonical form and the table check -/

/-- The store is canonical and the table check the CRC of the entries, each where it is asked. -/
def CanonicalAndChecked (p q : Prop) (s : State) : Prop := (p → s.store.wf = true) ∧ (q → s.resume.Sound)

namespace CanonicalAndChecked

variable (p q : Prop)

/-- Each change of the store keeps the canonical form, and each write of the table recomputes the check (R171). -/
theorem playMoves : PlayMoves (CanonicalAndChecked p q) where
  setAsm _ _ h := h
  setPlanner _ _ h := h
  setLink _ _ h := h
  setStore _ w h := ⟨fun i => w.wf (h.1 i), h.2⟩
  setNotices _ h := h
  dropIntake h := h
  overflow _ h := h
  changeStore _ w h := ⟨fun i => w (h.1 i), h.2⟩
  setFeeder _ _ h := h
  setPlay _ _ h := h
  write _ _ h := ⟨h.1, fun i => Resume.write_sound (h.2 i) _ _⟩
  raised _ _ _ h := h
  loadRequested _ h := h

theorem moves : AllMoves (CanonicalAndChecked p q) where
  toPlayMoves := playMoves p q
  setAny _ h := h
  changePlanner _ h := h
  requested _ h := h
  changeLink _ _ h := h
  raisedAny _ _ h := h
  setHealth _ _ h := h
  rederived _ _ h := rederived_of (playMoves p q) (fun _ w => w) (fun _ _ w => w) (fun _ w => w) _ h
  setSense _ _ h := h
  setConsole _ _ h := h
  setAttn _ h := h
  clearResume h := ⟨h.1, fun _ => Resume.clearAll_sound⟩
  commanded _ _ ho h := commanded_of (fun _ _ w => w) (fun _ w => w) _ _ ho h
  sampled _ h := sampled_of (playMoves p q) (fun _ _ w => w) (fun _ w => w) (fun _ w => w) _ h
  settled h := settled_of (playMoves p q) (fun _ _ w => w) (fun _ w => w) (fun _ w => w) h
  recovered _ h := recovered_of (playMoves p q) (fun _ _ w => w) (fun _ w => w) (fun _ w => w) h

/-- A hard reset leaves an empty store, and a table with its check, repaired or cleared (R175, R188). -/
theorem hardReset (cause : ResetCause) (addr : Bool) (x : Stored) (s : State) :
    CanonicalAndChecked p q (hardReset cause addr x s) := by
  unfold Machine.hardReset judgeResume
  split
  · split
    · exact ⟨fun _ => rfl, fun _ => Resume.withEntries_sound _⟩
    · exact ⟨fun _ => rfl, fun _ => Resume.withEntries_sound _⟩
  · exact ⟨fun _ => rfl, fun _ => Resume.clearAll_sound⟩

theorem step {s t : State} (h : CanonicalAndChecked p q s) (e : step s = .next t) : CanonicalAndChecked p q t := by
  unfold Machine.step at e
  split at e
  · cases e
    exact h
  · rename_i c rest _
    exact exec_keeps (s := s.setPending rest) (moves p q) c (fun _ _ _ => hardReset p q _ _ _ _)
      (fun w => ⟨fun _ => rfl, w.2⟩) h e

end CanonicalAndChecked

end Sys2Proof.Machine

namespace Sys2Proof.Claims

open Sys2Proof.Machine

/-- Settles O56: the canonical form and the table check by the moves of every command; the window, the slots and the Intake by the
parts (`Kept`), of which a step keeps all. -/
theorem storeAndResumeKept : Obligations.StoreAndResumeKept := by
  intro s t e
  obtain ⟨wf, checked⟩ :=
    CanonicalAndChecked.step (s.store.wf = true) s.resume.Sound (s := s) ⟨fun w => w, fun w => w⟩ e
  refine ⟨wf, checked, fun sound => ?store, fun range sound => ?intake⟩
  case store =>
    obtain ⟨linked, row5, unread⟩ := (storeSound_iff s).mp sound
    have kept : Kept ⟨True, True, True, False⟩ s := ⟨fun _ => linked, fun _ _ => row5, fun _ => unread, False.elim⟩
    have after := kept.step False.elim e
    exact (storeSound_iff t).mpr ⟨after.store trivial, after.row5 trivial trivial, after.unread trivial⟩
  case intake =>
    have kept : Kept ⟨False, False, False, True⟩ s := ⟨False.elim, False.elim, False.elim, fun _ => sound⟩
    have slip : s.console.params.slipRange ≤ 128 := by
      have inRange := range 7 (by decide) (by decide)
      simp only [paramInRange, paramRange, Params.get, Bool.and_eq_true, decide_eq_true_eq] at inRange
      omega
    exact (kept.step (fun _ => slip) e).intake trivial

end Sys2Proof.Claims
end

