-- ==== Sys2Proof/Proofs/ResetState.lean ====
section
/-!
SUPPORT. The state after a power-on reset: the value of every field (O3), and that it satisfies every relation that the other claims
show the steps to keep (O4).
-/
namespace Sys2Proof.Machine

/-! ### The records after a reset -/

/-- Only the record of RESTARTED is written by a restart (R188, R192). -/
theorem Attn.restarted_record {kind : Byte} {i : Fin 16} (h : i ≠ 0) : (Attn.restarted kind).record i = EventRecord.reset := by
  have other : 0 ≠ i.val := fun e => h (Fin.ext e.symm)
  exact (Vector.getElem_set_ne (by decide) i.isLt other).trans (Vector.getElem_replicate _)

theorem Event.index_ne_zero {e : Event} (h : e ≠ .restarted) : e.index ≠ 0 := by
  cases e
  case restarted => exact absurd rfl h
  all_goals decide

/-! ### The relations after a reset -/

namespace State

/-- Every default is in its range (R183). -/
theorem reset_inRange : Params.default.InRange := by
  have all : ∀ k : Fin 25, 1 ≤ k.val → paramInRange k.val (Params.default.get k.val) = true := by decide
  exact fun id low high => all ⟨id, by omega⟩ low

/-- The check of the blank table is the CRC over it (R174). -/
theorem reset_resume : State.reset.resume.Sound := by
  have check : Resume.crc Resume.blank.entries = Resume.blank.check := by decide +kernel
  exact check.symm

theorem reset_health : State.reset.health.Sound := ⟨rfl, rfl, by decide, by decide, by decide⟩

theorem reset_feeder : State.reset.feeder.Sound := ⟨by decide, nofun, fun _ => rfl, fun _ => ⟨rfl, rfl⟩⟩

/-- EMPTY has no suspend cause (R133). -/
theorem reset_play : State.reset.play.Sound := by
  refine ⟨nofun, fun h => ?_⟩
  rcases h with h | h <;> cases h

theorem reset_kept (k : Asked) : Kept k State.reset := Kept.reset rfl rfl rfl rfl rfl

theorem reset_store : StoreSound State.reset := by
  obtain ⟨store, row5, unread, -⟩ := reset_kept ⟨True, True, True, False⟩
  exact (storeSound_iff _).mpr ⟨store trivial, row5 trivial trivial, unread trivial⟩

/-- The planner after a reset: no run and no entry, nothing read, no stream (R45 to R51). -/
theorem reset_planner : PlannerSound State.reset := by
  refine ⟨⟨rfl, by decide, List.Pairwise.nil, nofun, by decide, nofun, nofun⟩,
    ⟨rfl, by decide, by decide, rfl, fun _ => rfl, nofun, by decide, by decide⟩, ⟨?_, nofun, ?_⟩⟩
  · exact ⟨fun _ => .inl rfl, fun _ => rfl⟩
  · exact fun h => absurd rfl h

end State

end Sys2Proof.Machine

namespace Sys2Proof.Claims

open Sys2Proof.Machine

/-- Settles O3: every field by its definition, and the records of the Attention Controller by whether the event is RESTARTED. -/
theorem resetValues : Obligations.ResetValues := by
  unfold Obligations.ResetValues
  have others : ∀ e : Event, e ≠ .restarted → State.reset.attn.record e.index = ⟨false, false, 1, 0, 0⟩ :=
    fun _ h => Attn.restarted_record (Event.index_ne_zero h)
  iterate 62 refine ⟨rfl, ?_⟩
  exact ⟨others, rfl, rfl, rfl⟩

/-- Settles O4: the relations of the blocks one by one, those of the store and the Intake by their parts (`Kept`). -/
theorem resetSound : Obligations.ResetSound :=
  ⟨Link.afterReset_sound, State.reset_health, rfl, State.reset_resume, State.reset_feeder, State.reset_play,
    ⟨by decide, by decide⟩, ⟨rfl, by decide, by decide⟩, rfl, State.reset_inRange, State.reset_store,
    (State.reset_kept ⟨False, False, False, True⟩).intake trivial, State.reset_planner,
    (flowSound_iff _).mpr ⟨rfl, rfl⟩⟩

end Sys2Proof.Claims
end

