-- ==== Sys2Proof/Proofs/PlannerOps.lean ====
section
/-!
SUPPORT. The planner's operations one by one (R46 to R49, R53 to R56, R65, R66): what each writes and what it leaves.
-/
namespace Sys2Proof.Machine

/-! ### Declarations -/

namespace Store

variable {t : Store}

/-- Declaring blocks in a row sets the flag of those in the window and leaves every other slot (R8). -/
theorem slotOf_declares (blocks : List Nat) (b : Nat) : ∀ {t : Store}, t.wf = true →
    (blocks.foldl Store.declare t).slotOf b =
      if b ∈ blocks ∧ t.holds b = true then { t.slotOf b with declared := true } else t.slotOf b := by
  induction blocks with
  | nil => exact fun _ => (if_neg fun h => List.not_mem_nil h.1).symm
  | cons c rest ih =>
    intro t w
    have window : (t.declare c).holds b = t.holds b := holds_congr (setSlot_playBlock _ _ _) (setSlot_extent _ _ _) b
    rw [List.foldl_cons, ih (declare_wf w c), window]
    by_cases same : b = c
    · subst same
      by_cases hb : t.holds b = true
      · simp [hb, slotOf_declare_self w hb]
      · simp [hb, declare_outside hb]
    · simp [same, slotOf_declare_other w c same]

theorem frames_declares (blocks : List Nat) (w : t.wf = true) (b : Nat) :
    ((blocks.foldl Store.declare t).slotOf b).frames = (t.slotOf b).frames := by
  rw [slotOf_declares blocks b w]
  split
  · rfl
  · rfl

end Store

/-! ### Taking a store notice (R47, R50) -/

section
variable (old : Store) (s : State)

@[simp] theorem absorb_store : (absorb old s).store = s.store := rfl
@[simp] theorem absorb_link : (absorb old s).link = s.link := rfl
@[simp] theorem absorb_asm : (absorb old s).asm = s.asm := rfl
@[simp] theorem absorb_attn : (absorb old s).attn = s.attn := rfl
@[simp] theorem absorb_state : (absorb old s).planner.stream.state = s.planner.stream.state := rfl
@[simp] theorem absorb_number : (absorb old s).planner.stream.number = s.planner.stream.number := rfl
@[simp] theorem absorb_counters : (absorb old s).planner.counters = s.planner.counters := rfl

/-- After maintenance the list is the runs of the store (R46, R47). -/
theorem absorb_runs : (absorb old s).planner.list.map (fun e => (e.first, e.last)) = s.store.runs :=
  List.map_map.trans (List.map_id _)

end

/-- From `a` to `t` the planner wrote declared flags: nothing changed at the link, the Assembler and the Attention Controller, nor in the
stream's state, its number, and the counters of overflows and of late blocks. -/
structure DeclaredOnly (a t : State) : Prop where
  link     : t.link = a.link
  asm      : t.asm = a.asm
  attn     : t.attn = a.attn
  state    : t.planner.stream.state = a.planner.stream.state
  number   : t.planner.stream.number = a.planner.stream.number
  overflow : t.planner.counters.overflow = a.planner.counters.overflow
  late     : t.planner.counters.lateDeclaration = a.planner.counters.lateDeclaration
  store    : ∃ blocks : List Nat, t.store = blocks.foldl Store.declare a.store

namespace DeclaredOnly

theorem refl (a : State) : DeclaredOnly a a := ⟨rfl, rfl, rfl, rfl, rfl, rfl, rfl, [], rfl⟩

/-- The frames of every block stay. -/
theorem frames {a t : State} (h : DeclaredOnly a t) (w : a.store.wf = true) (b : Nat) :
    (t.store.slotOf b).frames = (a.store.slotOf b).frames := by
  obtain ⟨blocks, e⟩ := h.store
  rw [e]
  exact Store.frames_declares blocks w b

end DeclaredOnly

theorem plannerDeclares_store (blocks : List Nat) : ∀ s : State,
    (plannerDeclares blocks s).store = blocks.foldl Store.declare s.store := by
  induction blocks with
  | nil => exact fun _ => rfl
  | cons b rest ih => exact fun s => (ih (plannerDeclare s b)).trans (by simp [plannerDeclare])

theorem plannerDeclares_declaredOnly (blocks : List Nat) : ∀ s : State, DeclaredOnly s (plannerDeclares blocks s) := by
  induction blocks with
  | nil => exact DeclaredOnly.refl
  | cons b rest ih =>
    intro s
    have after := ih (plannerDeclare s b)
    exact {
      link := after.link.trans (by simp [plannerDeclare])
      asm := after.asm.trans (by simp [plannerDeclare])
      attn := after.attn.trans (by simp [plannerDeclare])
      state := after.state.trans (by simp [plannerDeclare])
      number := after.number.trans (by simp [plannerDeclare])
      overflow := after.overflow.trans (by simp [plannerDeclare])
      late := after.late.trans (by simp [plannerDeclare])
      store := ⟨b :: rest, plannerDeclares_store (b :: rest) s⟩ }

theorem exhaust_declaredOnly (served : Option RepairEntry) (s : State) : DeclaredOnly s (exhaust served s) := by
  unfold exhaust
  split
  · exact .refl s
  · split
    · have declared := plannerDeclares_declaredOnly (RepairEntry.blocks ‹_›)
        (countPlanner (fun c => { c with exhaustion := bump c.exhaustion }) s)
      exact ⟨declared.link, declared.asm, declared.attn, declared.state, declared.number, declared.overflow, declared.late,
        declared.store⟩
    · exact .refl s

/-- An entry below the effective Retry Limit is not exhausted (R66). -/
theorem exhaust_below {s : State} {served : Option RepairEntry} (h : ∀ e, served = some e → e.attempts < effectiveRetry s) :
    exhaust served s = s := by
  unfold exhaust
  split
  · rfl
  · exact if_neg (Nat.not_le.mpr (h _ rfl))

/-! ### Closing a stream with CEASE (R65, R110) -/

theorem Link.mem_kick {l : Link} {m : TxMsg} (h : m ∈ l.kick.queue) : m ∈ l.queue := by
  unfold Link.kick at h
  split at h
  · rename_i queue
    rw [queue]
    exact List.mem_cons_of_mem _ h
  · exact h

/-- The close of a stream that queues CEASE, up to the exhaustion check. -/
def ceased (s : State) : State :=
  setList (allWaiting s.planner.list) (txRequest (.cease s.planner.stream.number) (clearPhase
    (withdrawSeek s.planner.stream.number (setStream { s.planner.stream with state := .none, timerRuns := false } s))))

theorem closeStream_none {s : State} (h : s.planner.stream.state = .none) (close : Close) : closeStream close s = s := if_pos h

theorem closeStream_ceasing {s : State} (h : s.planner.stream.state ≠ .none) {close : Close} (ceases : close.ceases = true) :
    closeStream close s =
      if close.checksExhaustion then exhaust (s.planner.list.find? RepairEntry.active) (ceased s) else ceased s := by
  unfold closeStream
  rw [if_neg h, ceases]
  rfl

theorem ceased_carries (s : State) : (ceased s).link.Carries (.cease s.planner.stream.number) :=
  Link.request_carries _ nofun

/-- No SEEK of the closed stream is left in the queue. -/
theorem ceased_withdraws (s : State) (b : Nat) : TxMsg.seek s.planner.stream.number b ∉ (ceased s).link.queue := by
  intro h
  rcases List.mem_cons.mp (Link.mem_kick h) with e | kept
  · cases e
  · have waiting := (List.mem_filter.mp kept).1
    have other := (List.mem_filter.mp waiting).2
    simp [TxMsg.isSeekOf] at other

/-! ### Opening and choosing (R54, R56) -/

theorem openStream_carries (purpose : Purpose) (target last : Nat) (s : State) :
    (openStream purpose target last s).link.Carries
      (.seek (nextNumber s.planner.stream.number) (max s.store.playBlock (target - effectiveOverlap s))) :=
  Link.request_carries _ nofun

/-- A choice is made by an active planner without a stream. -/
theorem chooseStream_idle {s : State} (h : ¬ (s.planner.active = true ∧ s.planner.stream.state = .none)) : chooseStream s = s := by
  unfold chooseStream
  rw [if_neg]
  simpa using h

theorem find_due_none {s : State} (h : ∀ e ∈ s.planner.list, due s e = false) : s.planner.list.find? (due s) = none :=
  List.find?_eq_none.mpr fun e he d => absurd (h e he) (by simp [d])

/-- Of a rising list the first entry that is due is the one of lowest first BN. -/
theorem find_due_lowest {s : State} {e : RepairEntry} (he : e ∈ s.planner.list) (d : due s e = true)
    (lowest : ∀ x ∈ s.planner.list, due s x = true → x = e ∨ e.first < x.first)
    (rising : s.planner.list.Pairwise (fun a b => a.first < b.first)) : s.planner.list.find? (due s) = some e := by
  obtain ⟨x, found⟩ := Option.isSome_iff_exists.mp (List.find?_isSome.mpr ⟨e, he, d⟩)
  obtain ⟨hx, before, after, split, early⟩ := List.find?_eq_some_iff_append.mp found
  have mem : x ∈ s.planner.list := split ▸ List.mem_append_right _ List.mem_cons_self
  rcases lowest x mem hx with same | above
  · rw [found, same]
  · rw [split] at he rising
    rcases List.mem_append.mp he with h | h
    · have no := early e h
      simp [d] at no
    · rcases List.mem_cons.mp h with same | h
      · rw [found, same]
      · have below := (List.pairwise_cons.mp (List.pairwise_append.mp rising).2.1).1 e h
        omega

theorem chooseStream_repair {s : State} {e : RepairEntry} (active : s.planner.active = true)
    (idle : s.planner.stream.state = .none) (found : s.planner.list.find? (due s) = some e) : chooseStream s = openRepair e s := by
  simp [chooseStream, active, idle, found]

theorem chooseStream_frontier {s : State} (active : s.planner.active = true) (idle : s.planner.stream.state = .none)
    (none : ∀ e ∈ s.planner.list, due s e = false) (below : s.planner.frontier.fillHead < s.store.limit) :
    chooseStream s = openFrontier s := by
  simp [chooseStream, active, idle, find_due_none none, below]

theorem chooseStream_nothing {s : State} (none : ∀ e ∈ s.planner.list, due s e = false)
    (full : s.store.limit ≤ s.planner.frontier.fillHead) : chooseStream s = s := by
  by_cases h : s.planner.active = true ∧ s.planner.stream.state = .none
  · simp [chooseStream, h, find_due_none none, Nat.not_lt.mpr full]
  · exact chooseStream_idle h

/-! ### Pre-emption (R55) -/

theorem due_iff (s : State) (e : RepairEntry) :
    due s e = true ↔ e.first - s.store.playBlock ≤ s.console.params.repairLead ∨ s.asm.holdWindow = true := by
  simp [due]

/-- A FRONTIER stream with an entry due. -/
def Preempts (s : State) : Prop :=
  s.planner.stream.state ≠ .none ∧ s.planner.stream.purpose = .frontier ∧ ∃ e ∈ s.planner.list, due s e = true

theorem preempt_of {s : State} (h : Preempts s) :
    preempt s = countPlanner (fun c => { c with preemption := bump c.preemption }) (ceased s) := by
  obtain ⟨opened, frontier, some⟩ := h
  unfold preempt
  rw [if_pos (by simpa [opened, frontier] using some), closeStream_ceasing opened rfl]
  rfl

theorem preempt_of_not {s : State} (h : ¬ Preempts s) : preempt s = s := by
  unfold preempt
  rw [if_neg]
  simpa [Preempts, and_assoc] using h

end Sys2Proof.Machine
end

