-- ==== Sys2Proof/Proofs/PlannerActs.lean ====
section
/-!
SUPPORT. What the planner does at the end of an event, with an overflow and with late blocks (R49, R53 to R55, R68). Then the
statement about the planner (O30).
-/
namespace Sys2Proof.Machine

/-! ### The end of an event (R41, R53 to R55) -/

/-- Nothing is left to choose: an active planner without a stream has no entry due and no window to fill, and with a FRONTIER stream
it has no entry due. -/
def Settled (s : State) : Prop :=
  (s.planner.active = true → s.planner.stream.state = .none →
    (∀ e ∈ s.planner.list, due s e = false) ∧ s.store.limit ≤ s.planner.frontier.fillHead) ∧
  (s.planner.active = true → s.planner.stream.state ≠ .none → s.planner.stream.purpose = .frontier →
    ∀ e ∈ s.planner.list, due s e = false)

/-- What an evaluation of the flow leaves. -/
theorem evaluateFlow_keeps (s : State) :
    (evaluateFlow s).planner = s.planner ∧ (evaluateFlow s).store = s.store ∧ (evaluateFlow s).console = s.console ∧
      (evaluateFlow s).asm.align = s.asm.align := by
  unfold evaluateFlow
  dsimp only
  split <;> split <;> exact ⟨rfl, rfl, rfl, rfl⟩

theorem evaluateFlow_window (s : State) : (evaluateFlow s).asm.holdWindow = windowFull s := by
  unfold evaluateFlow
  dsimp only
  split <;> split <;> rfl

theorem windowFull_congr {s t : State} (align : t.asm.align = s.asm.align) (store : t.store = s.store) :
    windowFull t = windowFull s := by
  unfold windowFull
  rw [align, store]

theorem due_congr {s t : State} (store : t.store = s.store) (console : t.console = s.console)
    (window : t.asm.holdWindow = s.asm.holdWindow) : due t = due s := by
  funext e
  unfold due
  rw [store, console, window]

theorem Settled.congr {s t : State} (h : Settled s) (planner : t.planner = s.planner) (store : t.store = s.store)
    (console : t.console = s.console) (window : t.asm.holdWindow = s.asm.holdWindow) : Settled t := by
  unfold Settled at h ⊢
  rwa [planner, store, due_congr store console window]

/-- An evaluation that leaves the window's hold cause leaves nothing to choose where nothing was. -/
theorem Settled.evaluateFlow {s : State} (h : Settled s) (window : windowFull s = s.asm.holdWindow) :
    Settled (evaluateFlow s) := by
  obtain ⟨planner, store, console, -⟩ := evaluateFlow_keeps s
  exact h.congr planner store console ((evaluateFlow_window s).trans window)

/-- A choice leaves the store, the Assembler and the console. -/
theorem chooseStream_keeps (s : State) :
    (chooseStream s).store = s.store ∧ (chooseStream s).asm = s.asm ∧ (chooseStream s).console = s.console := by
  unfold chooseStream
  split
  · split
    · exact ⟨rfl, rfl, rfl⟩
    · split
      · exact ⟨rfl, rfl, rfl⟩
      · exact ⟨rfl, rfl, rfl⟩
  · exact ⟨rfl, rfl, rfl⟩

theorem preempt_keeps (s : State) : (preempt s).store = s.store ∧ (preempt s).console = s.console ∧
    (preempt s).asm.holdWindow = s.asm.holdWindow := by
  by_cases h : Preempts s
  · rw [preempt_of h]
    exact ⟨rfl, rfl, rfl⟩
  · rw [preempt_of_not h]
    exact ⟨rfl, rfl, rfl⟩

/-- A choice without a pre-emption left to make leaves nothing to choose. -/
theorem settled_chooseStream {s : State} (h : ¬ Preempts s) : Settled (chooseStream s) := by
  have keeps (opened : s.planner.stream.state ≠ .none) (frontier : s.planner.stream.purpose = .frontier) :
      ∀ e ∈ s.planner.list, due s e = false :=
    fun e he => Bool.eq_false_iff.mpr fun d => h ⟨opened, frontier, e, he, d⟩
  by_cases choice : s.planner.active = true ∧ s.planner.stream.state = .none
  · obtain ⟨active, idle⟩ := choice
    cases found : s.planner.list.find? (due s) with
    | some e =>
      rw [chooseStream_repair active idle found]
      exact ⟨nofun, nofun⟩
    | none =>
      have none : ∀ e ∈ s.planner.list, due s e = false :=
        fun e he => Bool.eq_false_iff.mpr (List.find?_eq_none.mp found e he)
      rcases Nat.lt_or_ge s.planner.frontier.fillHead s.store.limit with below | full
      · rw [chooseStream_frontier active idle none below]
        exact ⟨nofun, fun _ _ _ => none⟩
      · rw [chooseStream_nothing none full]
        exact ⟨fun _ _ => ⟨none, full⟩, fun _ opened => absurd idle opened⟩
  · rw [chooseStream_idle choice]
    exact ⟨fun active idle => absurd ⟨active, idle⟩ choice, fun _ => keeps⟩

/-- After a pre-emption there is no stream left to pre-empt. -/
theorem not_preempts_preempt (s : State) : ¬ Preempts (preempt s) := by
  by_cases h : Preempts s
  · rw [preempt_of h]
    exact fun again => again.1 rfl
  · rwa [preempt_of_not h]

theorem settled_choice (s : State) : Settled (chooseStream (preempt s)) := settled_chooseStream (not_preempts_preempt s)

/-- A REPAIR stream, or an inactive planner, leaves nothing to choose. -/
theorem settled_of_repair {s : State}
    (h : s.planner.active = true → s.planner.stream.state ≠ .none ∧ s.planner.stream.purpose = .repair) : Settled s := by
  refine ⟨fun active idle => absurd idle (h active).1, fun active _ frontier => ?_⟩
  rw [(h active).2] at frontier
  cases frontier

/-- While the window holds every entry is due, so a pre-emption leads an active planner to a REPAIR stream. -/
theorem repair_of_held {s : State} (h : Preempts s) (held : s.asm.holdWindow = true)
    (active : (chooseStream (preempt s)).planner.active = true) :
    (chooseStream (preempt s)).planner.stream.state ≠ .none ∧
      (chooseStream (preempt s)).planner.stream.purpose = .repair := by
  have pre := preempt_of h
  obtain ⟨-, -, hold⟩ := preempt_keeps s
  obtain ⟨-, -, e, he, -⟩ := h
  have mem : { e with active := false } ∈ (preempt s).planner.list := by
    rw [pre]
    exact List.mem_map_of_mem he
  have all : ∀ x, due (preempt s) x = true := fun x => (due_iff _ x).mpr (.inr (hold.trans held))
  obtain ⟨x, found⟩ := Option.isSome_iff_exists.mp (List.find?_isSome.mpr ⟨_, mem, all _⟩)
  have idle : (preempt s).planner.stream.state = .none := by rw [pre]; rfl
  by_cases choice : (preempt s).planner.active = true
  · rw [chooseStream_repair choice idle found]
    exact ⟨nofun, rfl⟩
  · rw [chooseStream_idle fun both => choice both.1] at active
    exact absurd active choice

/-- The end of an event after an evaluation of the flow: a choice can undo the hold of the window only by a pre-emption. -/
theorem settled_again {s : State} (window : s.asm.holdWindow = windowFull s) :
    Settled (evaluateFlow (chooseStream (preempt s))) := by
  obtain ⟨store, asm, -⟩ := chooseStream_keeps (preempt s)
  by_cases h : Preempts s
  · cases held : s.asm.holdWindow with
    | true =>
      refine settled_of_repair fun active => ?_
      rw [(evaluateFlow_keeps _).1] at active ⊢
      exact repair_of_held h held active
    | false =>
      refine (settled_choice s).evaluateFlow ?_
      rw [asm, (preempt_keeps s).2.2, held]
      have phase : (chooseStream (preempt s)).asm.align.phase = .none := by rw [asm, preempt_of h]; rfl
      simp [windowFull, phase]
  · have same := preempt_of_not h
    refine (settled_choice s).evaluateFlow ?_
    rw [same] at store asm ⊢
    rw [windowFull_congr (congrArg _ asm) store, asm, window]

/-- The end of an event leaves nothing to choose. -/
theorem settled_settle (s : State) : Settled (settle s) := by
  obtain ⟨planner, store, -, align⟩ := evaluateFlow_keeps (chooseStream (preempt s))
  have window := evaluateFlow_window (chooseStream (preempt s))
  unfold settle
  dsimp only
  split
  · refine settled_again ?_
    rw [window, windowFull_congr align store]
  · rename_i same
    refine (settled_choice s).evaluateFlow ?_
    simp only [flowDiffers, Bool.or_eq_true, bne_iff_ne, ne_eq, not_or, not_not] at same
    rw [← window, ← same.2, (chooseStream_keeps _).2.1, (preempt_keeps s).2.2]

/-! ### One overflow (R15, R49) -/

/-- The state in which an overflow from an entry decides about the stream: the entry is gone, the store trimmed. -/
def overflowTrimmed (r : RepairEntry) (s : State) : State :=
  changeStore (fun t => t.trim r.first) (setList s.planner.list.dropLast s)

/-- An overflow, once the stream is judged and closed or kept. -/
def overflowCounted (r : RepairEntry) (s u : State) : State :=
  absorb s.store (raise .repairOverflow (min 255 (s.store.heldFrom r.first))
    (countPlanner (fun c => { c with overflow := bump c.overflow }) u))

@[simp] theorem overflowTrimmed_planner (r : RepairEntry) (s : State) :
    (overflowTrimmed r s).planner = { s.planner with list := s.planner.list.dropLast } := changeStore_planner _ _

@[simp] theorem overflowTrimmed_store (r : RepairEntry) (s : State) : (overflowTrimmed r s).store = s.store.trim r.first :=
  changeStore_store _ _

@[simp] theorem overflowTrimmed_link (r : RepairEntry) (s : State) : (overflowTrimmed r s).link = s.link := changeStore_link _ _

@[simp] theorem overflowTrimmed_attn (r : RepairEntry) (s : State) : (overflowTrimmed r s).attn = s.attn := changeStore_attn _ _

section
variable (r : RepairEntry) (s u : State)

@[simp] theorem overflowCounted_store : (overflowCounted r s u).store = u.store := rfl
@[simp] theorem overflowCounted_link : (overflowCounted r s u).link = u.link := rfl
@[simp] theorem overflowCounted_asm : (overflowCounted r s u).asm = u.asm := rfl
@[simp] theorem overflowCounted_attn : (overflowCounted r s u).attn =
    u.attn.raise .repairOverflow (BitVec.ofNat 8 (min 255 (s.store.heldFrom r.first))) := rfl
@[simp] theorem overflowCounted_state : (overflowCounted r s u).planner.stream.state = u.planner.stream.state := rfl
@[simp] theorem overflowCounted_number : (overflowCounted r s u).planner.stream.number = u.planner.stream.number := rfl
@[simp] theorem overflowCounted_overflow :
    (overflowCounted r s u).planner.counters.overflow = bump u.planner.counters.overflow := rfl

end

theorem overflowOnce_last {s : State} {r : RepairEntry} (last : s.planner.list.getLast? = some r) :
    overflowOnce s = overflowCounted r s
      (if overflowCloses r.first s then closeStream .overflow (overflowTrimmed r s) else overflowTrimmed r s) := by
  have same : overflowCloses r.first (overflowTrimmed r s) = overflowCloses r.first s := by
    unfold overflowCloses expectedNext overflowTrimmed
    rw [changeStore_asm, changeStore_planner]
    rfl
  unfold overflowOnce
  rw [last]
  show overflowCounted r s (if overflowCloses r.first (overflowTrimmed r s) then _ else _) = _
  rw [same]
  rfl

/-- Where the stream goes on, the store is trimmed and the stream and the link stay. -/
theorem overflow_kept {s : State} {r : RepairEntry} (last : s.planner.list.getLast? = some r)
    (h : ¬ (s.planner.stream.state ≠ .none ∧ r.first ≤ expectedNext s)) :
    overflowOnce s = overflowCounted r s (overflowTrimmed r s) := by
  rw [overflowOnce_last last]
  split
  · rename_i closes
    rw [closeStream_none]
    rw [overflowTrimmed_planner]
    exact Decidable.not_not.mp fun opened => h ⟨opened, (overflowCloses_iff _ _).mp closes⟩
  · rfl

/-- Where the stream is closed, the exhaustion check follows the trim. -/
theorem overflow_closed {s : State} {r : RepairEntry} (last : s.planner.list.getLast? = some r)
    (opened : s.planner.stream.state ≠ .none) (beyond : r.first ≤ expectedNext s) :
    overflowOnce s = overflowCounted r s
      (exhaust (s.planner.list.dropLast.find? RepairEntry.active) (ceased (overflowTrimmed r s))) := by
  rw [overflowOnce_last last, if_pos ((overflowCloses_iff _ _).mpr beyond),
    closeStream_ceasing (by rwa [overflowTrimmed_planner]) rfl, overflowTrimmed_planner]
  rfl

/-- An overflow trims the store, closes the stream or keeps it, writes declared flags where the close exhausts an entry, and counts. -/
theorem overflowOnce_parts {s : State} {r : RepairEntry} (last : s.planner.list.getLast? = some r) :
    ∃ u base, overflowOnce s = overflowCounted r s u ∧ DeclaredOnly base u ∧ base.store = s.store.trim r.first ∧
      base.attn = s.attn ∧ base.planner.counters = s.planner.counters := by
  have counters : (overflowTrimmed r s).planner.counters = s.planner.counters := by
    rw [overflowTrimmed_planner]
  by_cases h : s.planner.stream.state ≠ .none ∧ r.first ≤ expectedNext s
  · exact ⟨_, _, overflow_closed last h.1 h.2, exhaust_declaredOnly _ _, overflowTrimmed_store r s,
      overflowTrimmed_attn r s, counters⟩
  · exact ⟨_, _, overflow_kept last h, .refl _, overflowTrimmed_store r s, overflowTrimmed_attn r s, counters⟩

/-- What every overflow does: the counter, the event, the frames, the list. -/
theorem overflowOnce_spec {s : State} {r : RepairEntry} (last : s.planner.list.getLast? = some r) (w : s.store.wf = true) :
    (overflowOnce s).planner.counters.overflow = bump s.planner.counters.overflow ∧
    (overflowOnce s).attn = s.attn.raise .repairOverflow (BitVec.ofNat 8 (min 255 (s.store.heldFrom r.first))) ∧
    (∀ c, r.first ≤ c → ((overflowOnce s).store.slotOf c).frames = []) ∧
    (∀ c, c < r.first → ((overflowOnce s).store.slotOf c).frames = (s.store.slotOf c).frames) ∧
    (overflowOnce s).planner.list.map (fun e => (e.first, e.last)) = (overflowOnce s).store.runs := by
  obtain ⟨u, base, parts, declared, store, attn, counters⟩ := overflowOnce_parts last
  have frames : ∀ c, ((overflowOnce s).store.slotOf c).frames = ((s.store.trim r.first).slotOf c).frames := by
    intro c
    rw [parts, ← store]
    exact declared.frames (store ▸ Store.trim_wf w _) c
  refine ⟨?overflow, ?raised, fun c h => ?freed, fun c h => ?stays, ?list⟩
  case overflow =>
    rw [parts, overflowCounted_overflow, declared.overflow, counters]
  case raised => rw [parts, overflowCounted_attn, declared.attn, attn]
  case freed =>
    rw [frames, Store.slotOf_trim_from w h]
    rfl
  case stays => rw [frames, Store.slotOf_trim_below w h]
  case list =>
    rw [parts]
    exact absorb_runs _ _

theorem overflowOnce_kept {s : State} {r : RepairEntry} (last : s.planner.list.getLast? = some r)
    (h : ¬ (s.planner.stream.state ≠ .none ∧ r.first ≤ expectedNext s)) :
    (overflowOnce s).store = s.store.trim r.first ∧ (overflowOnce s).planner.stream.state = s.planner.stream.state ∧
      (overflowOnce s).planner.stream.number = s.planner.stream.number ∧ (overflowOnce s).link = s.link := by
  rw [overflow_kept last h]
  rw [overflowCounted_store, overflowCounted_link, overflowCounted_state, overflowCounted_number, overflowTrimmed_planner]
  exact ⟨overflowTrimmed_store r s, rfl, rfl, overflowTrimmed_link r s⟩

theorem overflowOnce_closed {s : State} {r : RepairEntry} (last : s.planner.list.getLast? = some r)
    (opened : s.planner.stream.state ≠ .none) (beyond : r.first ≤ expectedNext s) :
    (overflowOnce s).planner.stream.state = .none ∧ (overflowOnce s).asm.align.phase = .none ∧
      (overflowOnce s).link.Carries (.cease s.planner.stream.number) ∧
      (∀ b, TxMsg.seek s.planner.stream.number b ∉ (overflowOnce s).link.queue) ∧
      ((∀ e ∈ s.planner.list, e.active = true → e.attempts < effectiveRetry s) →
        (overflowOnce s).store = s.store.trim r.first) := by
  have number : s.planner.stream.number = (overflowTrimmed r s).planner.stream.number := by rw [overflowTrimmed_planner]
  have declared :=
    exhaust_declaredOnly (s.planner.list.dropLast.find? RepairEntry.active) (ceased (overflowTrimmed r s))
  rw [overflow_closed last opened beyond, overflowCounted_state, overflowCounted_asm, overflowCounted_link,
    overflowCounted_store, declared.state, declared.asm, declared.link, number]
  refine ⟨rfl, rfl, ceased_carries _, ceased_withdraws _, fun below => ?_⟩
  have limit : effectiveRetry (ceased (overflowTrimmed r s)) = effectiveRetry s :=
    effectiveRetry_congr (congrArg Health.rough (changeStore_health _ _))
      (congrArg (fun c => c.params.retryLimit) (changeStore_console _ _))
  rw [exhaust_below]
  · exact overflowTrimmed_store r s
  · intro e found
    rw [limit]
    exact below e (List.dropLast_subset _ (List.mem_of_find?_eq_some found)) (List.find?_some found)

/-! ### Overflows in a row -/

theorem handleOverflow_short {s : State} (h : s.planner.list.length ≤ 16) : handleOverflow s = s := by
  unfold handleOverflow overflowLoop
  split
  · rfl
  · exact if_neg (Nat.not_lt.mpr h)

theorem bump_le (n : Nat) : bump n ≤ 4294967295 := Nat.min_le_left _ _

theorem le_bump {n : Nat} (h : n ≤ 4294967295) : n ≤ bump n := Nat.le_min.mpr ⟨h, Nat.le_succ n⟩

theorem lt_bump {n : Nat} (h : n < 4294967295) : n < bump n := Nat.lt_min.mpr ⟨h, Nat.lt_succ_self n⟩

/-- An overflow of a list that is not empty counts. -/
theorem overflowOnce_counts {s : State} (h : s.planner.list ≠ []) :
    (overflowOnce s).planner.counters.overflow = bump s.planner.counters.overflow := by
  obtain ⟨u, base, parts, declared, -, -, counters⟩ := overflowOnce_parts (List.getLast?_eq_some_getLast h)
  rw [parts, overflowCounted_overflow, declared.overflow, counters]

/-- Overflows in a row never lower the counter. -/
theorem overflowLoop_counts (n : Nat) : ∀ {s : State}, s.planner.counters.overflow ≤ 4294967295 →
    s.planner.counters.overflow ≤ (overflowLoop n s).planner.counters.overflow := by
  induction n with
  | zero => exact fun _ => Nat.le_refl _
  | succ n ih =>
    intro s bound
    unfold overflowLoop
    split
    · rename_i long
      have counts := overflowOnce_counts (s := s) (fun e => by simp [e] at long)
      have rest := ih (s := overflowOnce s) (counts ▸ bump_le _)
      rw [counts] at rest
      exact Nat.le_trans (le_bump bound) rest
    · exact Nat.le_refl _

/-- Where the counter of overflows stays, and is not at its bound, there was none. -/
theorem handleOverflow_uncounted {s : State} (bound : s.planner.counters.overflow < 4294967295)
    (same : (handleOverflow s).planner.counters.overflow = s.planner.counters.overflow) : handleOverflow s = s := by
  rcases Nat.lt_or_ge 16 s.planner.list.length with long | short
  · have counts := overflowOnce_counts (s := s) (fun e => by simp [e] at long)
    obtain ⟨n, length⟩ := Nat.exists_eq_succ_of_ne_zero (Nat.ne_of_gt (Nat.lt_trans (by decide) long))
    have first : handleOverflow s = overflowLoop n (overflowOnce s) := by
      unfold handleOverflow
      rw [length]
      exact if_pos long
    have rest := overflowLoop_counts n (s := overflowOnce s) (counts ▸ bump_le _)
    rw [← first, same, counts] at rest
    exact absurd (lt_bump bound) (Nat.not_lt.mpr rest)
  · exact handleOverflow_short short

/-! ### Lateness (R68) -/

theorem isLate_iff (s : State) (b : Nat) :
    isLate s b = true ↔
      (∃ e ∈ s.planner.list, e.first ≤ b ∧ b ≤ e.last) ∧
        (s.store.stateOf b = .opened ∨
          (s.console.params.latePolicy = 1 ∧ (s.store.stateOf b = .partly ∨ s.store.stateOf b = .free))) := by
  unfold isLate
  rw [Bool.and_eq_true]
  refine and_congr (by simp) ?_
  cases s.store.stateOf b <;> simp

theorem mem_lateBlocks (s : State) (b : Nat) :
    b ∈ lateBlocks s ↔
      s.store.playBlock ≤ b ∧ b < s.store.playBlock + s.console.params.deadlineMargin ∧
        (∃ e ∈ s.planner.list, e.first ≤ b ∧ b ≤ e.last) ∧
        (s.store.stateOf b = .opened ∨
          (s.console.params.latePolicy = 1 ∧ (s.store.stateOf b = .partly ∨ s.store.stateOf b = .free))) := by
  have range : b ∈ (List.range s.console.params.deadlineMargin).map (fun i => s.store.playBlock + i) ↔
      s.store.playBlock ≤ b ∧ b < s.store.playBlock + s.console.params.deadlineMargin := by
    rw [List.mem_map]
    constructor
    · rintro ⟨i, hi, rfl⟩
      have := List.mem_range.mp hi
      omega
    · rintro ⟨low, high⟩
      exact ⟨b - s.store.playBlock, List.mem_range.mpr (by omega), by omega⟩
  unfold lateBlocks
  rw [List.mem_filter, range, isLate_iff, and_assoc]

/-- The late blocks counted and declared, before overflow is judged. -/
def lateDeclared (s : State) : State :=
  plannerDeclares (lateBlocks s)
    (countPlanner (fun c => { c with lateDeclaration := bumpBy c.lateDeclaration (lateBlocks s).length }) s)

theorem judgeLateness_none {s : State} (h : lateBlocks s = []) : judgeLateness s = s := by
  unfold judgeLateness
  rw [h]
  rfl

theorem judgeLateness_some {s : State} (h : lateBlocks s ≠ []) : judgeLateness s = handleOverflow (lateDeclared s) := by
  unfold judgeLateness
  exact if_neg (by simpa using h)

/-- Where lateness leads to no overflow, it declares the late blocks of the window and no other. -/
theorem judgeLateness_spec {s : State} (h : lateBlocks s ≠ []) (w : s.store.wf = true)
    (bound : s.planner.counters.overflow < 4294967295)
    (same : (judgeLateness s).planner.counters.overflow = s.planner.counters.overflow) :
    (judgeLateness s).planner.counters.lateDeclaration =
        bumpBy s.planner.counters.lateDeclaration (lateBlocks s).length ∧
      ∀ b,
        (b ∈ lateBlocks s → s.store.holds b = true →
          (judgeLateness s).store.slotOf b = { s.store.slotOf b with declared := true }) ∧
        (b ∉ lateBlocks s → (judgeLateness s).store.slotOf b = s.store.slotOf b) := by
  have declared := plannerDeclares_declaredOnly (lateBlocks s)
    (countPlanner (fun c => { c with lateDeclaration := bumpBy c.lateDeclaration (lateBlocks s).length }) s)
  have overflow : (lateDeclared s).planner.counters.overflow = s.planner.counters.overflow := declared.overflow
  have only : judgeLateness s = lateDeclared s := by
    rw [judgeLateness_some h] at same ⊢
    exact handleOverflow_uncounted (overflow ▸ bound) (same.trans overflow.symm)
  have store : (lateDeclared s).store = (lateBlocks s).foldl Store.declare s.store := plannerDeclares_store _ _
  rw [only, store]
  refine ⟨declared.late, fun b => ⟨fun late held => ?_, fun early => ?_⟩⟩
  · rw [Store.slotOf_declares _ b w, if_pos ⟨late, held⟩]
  · rw [Store.slotOf_declares _ b w, if_neg fun both => early both.1]

end Sys2Proof.Machine

namespace Sys2Proof.Claims

open Sys2Proof.Machine

/-- Settles O30: one rule for each of the planner's operations, and for the end of an event that nothing is left to choose. -/
theorem plannerActs : Obligations.PlannerActs := by
  refine ⟨fun s e n start active idle he d lowest rising hn hs => ?repair,
    fun s n start active idle none below hn hs => ?frontier, fun s => ⟨?nothing, due_iff s, ?preempts, ?stays, ?ends, ?keeps⟩,
    fun s r x closes last w hx hc => ?overflow, fun s => handleOverflow_short,
    fun s => ⟨mem_lateBlocks s, judgeLateness_none, judgeLateness_spec⟩⟩
  case repair =>
    subst hn hs
    rw [chooseStream_repair active idle (find_due_lowest he d lowest rising)]
    exact ⟨rfl, rfl, rfl, openStream_carries .repair e.first e.last _, rfl⟩
  case frontier =>
    subst hn hs
    rw [chooseStream_frontier active idle none below]
    exact ⟨rfl, rfl, rfl, openStream_carries .frontier s.planner.frontier.fillHead s.planner.stream.servedLast _, rfl⟩
  case nothing =>
    rintro (inactive | opened | ⟨none, full⟩)
    · exact chooseStream_idle fun h => by simp [inactive] at h
    · exact chooseStream_idle fun h => opened h.2
    · exact chooseStream_nothing none full
  case preempts =>
    intro opened frontier some
    rw [preempt_of ⟨opened, frontier, some⟩]
    exact ⟨rfl, rfl, rfl, ceased_carries s, ceased_withdraws s, rfl⟩
  case stays =>
    intro h
    refine preempt_of_not fun ⟨opened, frontier, e, he, d⟩ => ?_
    rcases h with idle | repair | none
    · exact opened idle
    · rw [repair] at frontier
      cases frontier
    · simp [none e he] at d
  case ends => exact (settled_settle s).1
  case keeps => exact (settled_settle s).2
  case overflow =>
    subst hx
    obtain ⟨overflow, raised, freed, stays, list⟩ := overflowOnce_spec last w
    have once : RaisedOnce s (overflowOnce s) .repairOverflow (min 255 (s.store.heldFrom r.first)) := by
      unfold RaisedOnce
      rw [raised, Attn.record_raise]
      rfl
    exact ⟨overflow, once, freed, stays, list, fun open_ => overflowOnce_kept last fun h => open_ (hc.mpr h), fun closed =>
      overflowOnce_closed last (hc.mp closed).1 (hc.mp closed).2⟩

end Sys2Proof.Claims
end

