-- ==== Sys2Proof/Proofs/Runs.lean ====
section
/-!
SUPPORT. The runs of a store (R46): which blocks a run spans, that runs rise and do not touch, and what a trim and the declaration of a
whole run do to them.
-/
namespace Sys2Proof.Machine

/-! ### Maximal runs -/

/-- A maximal run of wanted blocks among those from `low` up to `high`. -/
structure MaximalRun (wanted : Nat → Bool) (low high : Nat) (run : Nat × Nat) : Prop where
  above  : low ≤ run.1
  order  : run.1 ≤ run.2
  below  : run.2 < high
  filled : ∀ c, run.1 ≤ c → c ≤ run.2 → wanted c = true
  first  : low < run.1 → wanted (run.1 - 1) = false
  last   : run.2 + 1 < high → wanted (run.2 + 1) = false

namespace MaximalRun

variable {wanted : Nat → Bool} {low high stop : Nat} {run : Nat × Nat}

/-- A run begins with the stretch of wanted blocks at the low end, if it begins inside it. -/
theorem first_eq (h : MaximalRun wanted low high run) (all : ∀ c, low ≤ c → c < stop → wanted c = true) (inside : run.1 < stop) :
    run.1 = low := by
  have above := h.above
  by_contra ne
  have no := h.first (by omega)
  rw [all _ (by omega) (by omega)] at no
  cases no

/-- A run that begins before a block that is not wanted ends before it, and does so just before it where all between are wanted. -/
theorem last_eq (h : MaximalRun wanted low high run) (all : ∀ c, low ≤ c → c < stop → wanted c = true) (below : run.1 < stop)
    (ends : stop = high ∨ (stop < high ∧ wanted stop = false)) : run.2 = stop - 1 := by
  have above := h.above
  have order := h.order
  have bound := h.below
  have short : run.2 < stop := by
    rcases ends with rfl | ⟨-, no⟩
    · exact bound
    · by_contra long
      rw [h.filled stop (by omega) (by omega)] at no
      cases no
  by_contra ne
  have no := h.last (by omega)
  rw [all _ (by omega) (by omega)] at no
  cases no

/-- A stretch of wanted blocks that ends at the high end, or before a block not wanted, is a run. -/
theorem stretch (below : low < stop) (all : ∀ c, low ≤ c → c < stop → wanted c = true)
    (ends : stop = high ∨ (stop < high ∧ wanted stop = false)) : MaximalRun wanted low high (low, stop - 1) := by
  refine ⟨Nat.le_refl _, by dsimp only; omega, by dsimp only; omega, fun c l u => ?_, fun k => ?_, fun k => ?_⟩ <;> dsimp only at *
  · exact all c l (by omega)
  · omega
  · rw [show stop - 1 + 1 = stop by omega] at k ⊢
    rcases ends with same | ⟨-, no⟩
    · omega
    · exact no

/-- The blocks beyond one that is not wanted have their runs for themselves. -/
theorem beyond (le : low ≤ stop) (no : wanted stop = false) :
    MaximalRun wanted (stop + 1) high run ↔ MaximalRun wanted low high run ∧ stop < run.1 := by
  constructor
  · rintro ⟨l, o, u, w, f, e⟩
    refine ⟨⟨by omega, o, u, w, fun _ => ?_, e⟩, by omega⟩
    rcases Nat.lt_or_eq_of_le l with lt | same
    · exact f lt
    · rwa [← same, Nat.add_sub_cancel]
  · rintro ⟨⟨l, o, u, w, f, e⟩, above⟩
    exact ⟨above, o, u, w, fun _ => f (by omega), e⟩

/-- A run does not begin at a block that is not wanted. -/
theorem first_ne (h : MaximalRun wanted low high run) (no : wanted stop = false) : run.1 ≠ stop := by
  rintro rfl
  rw [h.filled run.1 (Nat.le_refl _) h.order] at no
  cases no

end MaximalRun

/-- The scan for runs finds the maximal runs; a run under way has begun below the blocks still to scan (R46). -/
theorem mem_runsFrom (wanted : Nat → Bool) (n : Nat) : ∀ (b : Nat) (since : Option Nat) (run : Nat × Nat),
    (∀ f, since = some f → f < b ∧ ∀ c, f ≤ c → c < b → wanted c = true) →
    (run ∈ runsFrom wanted n b since ↔ MaximalRun wanted (since.getD b) (b + n) run) := by
  induction n with
  | zero =>
    intro b since run under
    cases since with
    | none =>
      refine ⟨nofun, fun h => ?_⟩
      obtain ⟨low, order, high, -, -, -⟩ := h
      dsimp only [Option.getD] at low
      omega
    | some f =>
      obtain ⟨below, all⟩ := under f rfl
      unfold runsFrom
      rw [List.mem_singleton]
      constructor
      · rintro rfl
        exact .stretch below all (.inl rfl)
      · intro h
        have start : run.1 < b := Nat.lt_of_le_of_lt h.order h.below
        exact Prod.ext (h.first_eq all start) (h.last_eq all start (.inl rfl))
  | succ n ih =>
    intro b since run under
    have size : b + (n + 1) = b + 1 + n := by omega
    cases since with
    | none =>
      unfold runsFrom
      split
      · rename_i yes
        rw [ih (b + 1) (some b) run fun f e => by
          cases e
          exact ⟨Nat.lt_succ_self _, fun c l u => by rwa [show c = b by omega]⟩, size]
        rfl
      · rename_i no
        have no := Bool.eq_false_iff.mpr no
        rw [ih (b + 1) none run nofun, size]
        dsimp only [Option.getD]
        rw [MaximalRun.beyond (Nat.le_refl b) no]
        refine ⟨fun h => h.1, fun h => ⟨h, ?_⟩⟩
        have above := h.above
        have ne := h.first_ne no
        omega
    | some f =>
      obtain ⟨below, all⟩ := under f rfl
      unfold runsFrom
      split
      · rename_i yes
        rw [ih (b + 1) (some f) run fun g e => by
          cases e
          refine ⟨by omega, fun c l u => ?_⟩
          rcases Nat.lt_succ_iff_lt_or_eq.mp u with lt | rfl
          · exact all c l lt
          · exact yes, size]
        rfl
      · rename_i no
        have no := Bool.eq_false_iff.mpr no
        have ends : b = b + 1 + n ∨ (b < b + 1 + n ∧ wanted b = false) := .inr ⟨by omega, no⟩
        rw [List.mem_cons, ih (b + 1) none run nofun, size]
        dsimp only [Option.getD]
        rw [MaximalRun.beyond (Nat.le_of_lt below) no]
        constructor
        · rintro (rfl | h)
          · exact .stretch below all ends
          · exact h.1
        · intro h
          rcases Nat.lt_or_gt_of_ne (h.first_ne no) with lt | gt
          · exact .inl (Prod.ext (h.first_eq all lt) (h.last_eq all lt ends))
          · exact .inr ⟨h, gt⟩

/-- The runs come in rising order with a block between each and the next. -/
theorem runsFrom_rising (wanted : Nat → Bool) (n : Nat) : ∀ (b : Nat) (since : Option Nat),
    (∀ f, since = some f → f < b ∧ ∀ c, f ≤ c → c < b → wanted c = true) →
    (runsFrom wanted n b since).Pairwise (fun x y => x.2 + 1 < y.1) := by
  induction n with
  | zero =>
    intro b since _
    cases since with
    | none => exact List.Pairwise.nil
    | some f => exact List.pairwise_singleton _ _
  | succ n ih =>
    intro b since under
    cases since with
    | none =>
      unfold runsFrom
      split
      · rename_i yes
        refine ih _ _ fun f e => ?_
        cases e
        exact ⟨Nat.lt_succ_self _, fun c l u => by rwa [show c = b by omega]⟩
      · exact ih _ _ nofun
    | some f =>
      obtain ⟨below, all⟩ := under f rfl
      unfold runsFrom
      split
      · rename_i yes
        refine ih _ _ fun g e => ?_
        cases e
        refine ⟨by omega, fun c l u => ?_⟩
        rcases Nat.lt_succ_iff_lt_or_eq.mp u with lt | rfl
        · exact all c l lt
        · exact yes
      · refine List.pairwise_cons.mpr ⟨fun y hy => ?_, ih _ _ nofun⟩
        have low := ((mem_runsFrom wanted n (b + 1) none y nofun).mp hy).above
        dsimp only [Option.getD] at low ⊢
        omega

/-! ### The runs of a store (R46) -/

namespace Store

variable {t : Store}

/-- A FREE, PARTIAL or OPEN block (R46). -/
def wants (t : Store) (b : Nat) : Bool := (t.stateOf b).wanted

theorem playBlock_le_fillHead (t : Store) : t.playBlock ≤ t.fillHead := (t.fillFrom_spec t.playBlock t.length).1

theorem fillHead_le_limit (t : Store) : t.fillHead ≤ t.limit := (t.fillFrom_spec t.playBlock t.length).2.1

theorem below_fillHead_ne_free (t : Store) (h : t.playBlock < t.fillHead) : t.stateOf (t.fillHead - 1) ≠ .free :=
  (t.fillFrom_spec t.playBlock t.length).2.2.2 h

/-- A block of the window that is not FREE is below the fill head (R12). -/
theorem lt_fillHead {b : Nat} (h : t.stateOf b ≠ .free) : b < t.fillHead := by
  by_contra le
  exact h (t.free_of_fillHead_le (Nat.not_lt.mp le))

/-- The fill head is where FREE blocks begin and never end (R12). -/
theorem fillHead_eq {x : Nat} (low : t.playBlock ≤ x) (free : ∀ b, x ≤ b → t.stateOf b = .free)
    (top : t.playBlock < x → t.stateOf (x - 1) ≠ .free) : t.fillHead = x := by
  rcases Nat.lt_trichotomy t.fillHead x with lt | same | gt
  · have p := t.playBlock_le_fillHead
    exact absurd (t.free_of_fillHead_le (by omega)) (top (by omega))
  · exact same
  · exact absurd (free _ (by omega)) (t.below_fillHead_ne_free (by omega))

/-- The runs of a store are its maximal runs of wanted blocks below the fill head. -/
theorem mem_runs (run : Nat × Nat) : run ∈ t.runs ↔ MaximalRun t.wants t.playBlock t.fillHead run := by
  unfold Store.runs
  rw [mem_runsFrom _ _ _ none _ nofun]
  dsimp only [Option.getD]
  rw [show t.playBlock + (t.fillHead - t.playBlock) = t.fillHead by have := t.playBlock_le_fillHead; omega]
  rfl

theorem runs_rising (t : Store) : t.runs.Pairwise (fun x y => x.2 + 1 < y.1) := runsFrom_rising _ _ _ none nofun

/-- The first blocks of the runs rise strictly. -/
theorem runs_firsts (t : Store) : t.runs.Pairwise (fun x y => x.1 < y.1) := by
  refine List.Pairwise.imp_of_mem ?_ t.runs_rising
  intro x y hx _ h
  have := ((t.mem_runs x).mp hx).order
  omega

theorem runs_nodup (t : Store) : t.runs.Nodup :=
  t.runs_firsts.imp fun {x y} h e => by
    subst e
    exact Nat.lt_irrefl _ h

/-- Lists with the same members, both with rising first blocks, are the same. -/
theorem eq_of_rising {l k : List (Nat × Nat)} (hl : l.Pairwise (fun x y => x.1 < y.1)) (hk : k.Pairwise (fun x y => x.1 < y.1))
    (same : ∀ x, x ∈ l ↔ x ∈ k) : l = k := by
  have nodup : ∀ {m : List (Nat × Nat)}, m.Pairwise (fun x y => x.1 < y.1) → m.Nodup := fun h =>
    h.imp fun {x y} h e => by
      subst e
      exact Nat.lt_irrefl _ h
  exact ((List.perm_ext_iff_of_nodup (nodup hl) (nodup hk)).mpr same).eq_of_pairwise
    (fun _ _ _ _ a b => absurd a (Nat.lt_asymm b)) hl hk

theorem stateOf_congr {x y : Store} {b : Nat} (h : x.slotOf b = y.slotOf b) : x.stateOf b = y.stateOf b := congrArg Slot.state h

/-- Stores of one Play Block whose blocks have the same states have the same fill head and runs. -/
theorem same_states {x : Store} (p : x.playBlock = t.playBlock) (h : ∀ b, x.stateOf b = t.stateOf b) :
    x.fillHead = t.fillHead ∧ x.runs = t.runs := by
  have head : x.fillHead = t.fillHead := by
    refine fillHead_eq (p ▸ t.playBlock_le_fillHead) (fun b hb => (h b).trans (t.free_of_fillHead_le hb)) fun lt => ?_
    rw [h]
    exact t.below_fillHead_ne_free (p ▸ lt)
  refine ⟨head, ?_⟩
  unfold Store.runs
  rw [head, p]
  simp only [h]

/-- An event that calls for no notice leaves the window, the fill head and the runs (R16). -/
theorem same_of_not_noticeDue {x : Store} (h : ¬ t.noticeDue x = true) :
    x.playBlock = t.playBlock ∧ x.extent = t.extent ∧ x.fillHead = t.fillHead ∧ x.runs = t.runs := by
  unfold Store.noticeDue at h
  simp only [Bool.or_eq_true, decide_eq_true_eq, List.any_eq_true, List.mem_range, not_or, not_exists, not_and, not_not, ne_eq] at h
  obtain ⟨⟨⟨p, e⟩, -⟩, states⟩ := h
  have same : ∀ b, x.stateOf b = t.stateOf b := by
    intro b
    by_cases hb : x.holds b = true
    · obtain ⟨low, high⟩ := of_decide_eq_true hb
      have := states (b - x.playBlock) (by unfold Store.limit at high; omega)
      rw [show x.playBlock + (b - x.playBlock) = b by omega] at this
      exact this.symm
    · rw [stateOf_outside hb, stateOf_outside (by rwa [holds_congr p.symm e.symm b] at hb)]
  obtain ⟨head, runs⟩ := same_states p.symm same
  exact ⟨p.symm, e.symm, head, runs⟩

/-! #### A trim from the last run (R15, R49) -/

theorem stateOf_trim_below (w : t.wf = true) {x b : Nat} (h : b < x) : (t.trim x).stateOf b = t.stateOf b :=
  stateOf_congr (slotOf_trim_below w h)

theorem stateOf_trim_from (w : t.wf = true) {x b : Nat} (h : x ≤ b) : (t.trim x).stateOf b = .free := by
  unfold Store.stateOf
  rw [slotOf_trim_from w h]
  rfl

/-- A trim from a run takes the fill head to it. -/
theorem fillHead_trim (w : t.wf = true) {run : Nat × Nat} (h : run ∈ t.runs) : (t.trim run.1).fillHead = run.1 := by
  have m := (t.mem_runs run).mp h
  refine fillHead_eq m.above (fun b hb => stateOf_trim_from w hb) fun lt free => ?_
  have lt : t.playBlock < run.1 := lt
  rw [stateOf_trim_below w (by omega)] at free
  have no := m.first lt
  unfold wants at no
  rw [free] at no
  cases no

/-- A trim from the last run leaves the others (R49). -/
theorem runs_trim (w : t.wf = true) {before : List (Nat × Nat)} {run : Nat × Nat} (split : t.runs = before ++ [run]) :
    (t.trim run.1).runs = before := by
  have mem : run ∈ t.runs := split ▸ List.mem_append_right _ List.mem_cons_self
  have m := (t.mem_runs run).mp mem
  have rising := t.runs_firsts
  have apart := t.runs_rising
  rw [split] at rising apart
  have below : ∀ x ∈ before, x.2 + 1 < run.1 := fun x hx =>
    (List.pairwise_append.mp apart).2.2 x hx run (List.mem_singleton.mpr rfl)
  refine eq_of_rising (runs_firsts _) (List.pairwise_append.mp rising).1 fun x => ?_
  have state : ∀ c, c < run.1 → (t.trim run.1).wants c = t.wants c := fun c hc =>
    congrArg SlotState.wanted (stateOf_trim_below w hc)
  have head : run.1 < t.fillHead := Nat.lt_of_le_of_lt m.order m.below
  have whole : x ∈ before ↔ MaximalRun t.wants t.playBlock t.fillHead x ∧ x.2 + 1 < run.1 := by
    rw [← mem_runs, split, List.mem_append, List.mem_singleton]
    constructor
    · exact fun hx => ⟨.inl hx, below x hx⟩
    · rintro ⟨hx | rfl, lt⟩
      · exact hx
      · have := m.order
        omega
  rw [whole, mem_runs, fillHead_trim w mem]
  constructor
  · rintro ⟨l, o, u, want, f, e⟩
    have l : t.playBlock ≤ x.1 := l
    have gap : x.2 + 1 ≠ run.1 := fun same => by
      have no := m.first (by omega)
      rw [show run.1 - 1 = x.2 by omega, ← state x.2 u, want x.2 o (Nat.le_refl _)] at no
      cases no
    have lt : x.2 + 1 < run.1 := by omega
    refine ⟨⟨l, o, by omega, fun c a b => ?_, fun k => ?_, fun k => ?_⟩, lt⟩
    · rw [← state c (by omega)]; exact want c a b
    · rw [← state _ (by omega)]; exact f k
    · rw [← state _ lt]; exact e lt
  · rintro ⟨⟨l, o, u, want, f, e⟩, lt⟩
    refine ⟨l, o, by omega, fun c a b => ?_, fun k => ?_, fun k => ?_⟩
    · rw [state c (by omega)]; exact want c a b
    · rw [state _ (by omega)]; exact f k
    · rw [state _ lt]; exact e (by omega)

/-! #### The declaration of a whole run (R8, R66) -/

/-- A declared block is not wanted (R6). -/
theorem declared_not_wanted {x : Slot} (h : x.declared = true) : x.state.wanted = false ∧ x.state ≠ .free := by
  unfold Slot.state
  rw [if_pos h]
  split
  · exact ⟨rfl, nofun⟩
  · split
    · exact ⟨rfl, nofun⟩
    · exact ⟨rfl, nofun⟩

/-- The blocks of a run lie in the window. -/
theorem holds_of_run {run : Nat × Nat} (h : run ∈ t.runs) {b : Nat} (low : run.1 ≤ b) (high : b ≤ run.2) : t.holds b = true := by
  have m := (t.mem_runs run).mp h
  have := m.above
  have := m.below
  have := t.fillHead_le_limit
  exact decide_eq_true ⟨by omega, by omega⟩

theorem declares_playBlock (blocks : List Nat) : ∀ t : Store, (blocks.foldl Store.declare t).playBlock = t.playBlock := by
  induction blocks with
  | nil => exact fun _ => rfl
  | cons b rest ih => exact fun t => (ih (t.declare b)).trans (setSlot_playBlock _ _ _)

/-- Where a whole run is declared, every run that is left was one before. -/
theorem runs_declared (w : t.wf = true) {run : Nat × Nat} (h : run ∈ t.runs) {blocks : List Nat}
    (whole : ∀ b, b ∈ blocks ↔ run.1 ≤ b ∧ b ≤ run.2) : (blocks.foldl Store.declare t).runs ⊆ t.runs := by
  have m := (t.mem_runs run).mp h
  have block := declares_playBlock blocks t
  have inside : ∀ c, run.1 ≤ c → c ≤ run.2 → ((blocks.foldl Store.declare t).slotOf c).declared = true := by
    intro c l u
    rw [slotOf_declares blocks c w, if_pos ⟨(whole c).mpr ⟨l, u⟩, holds_of_run h l u⟩]
  have outside : ∀ c, ¬ (run.1 ≤ c ∧ c ≤ run.2) → (blocks.foldl Store.declare t).stateOf c = t.stateOf c := by
    intro c out
    refine stateOf_congr ?_
    rw [slotOf_declares blocks c w, if_neg fun k => out ((whole c).mp k.1)]
  have wants : ∀ c, (blocks.foldl Store.declare t).wants c = true ↔ t.wants c = true ∧ ¬ (run.1 ≤ c ∧ c ≤ run.2) := by
    intro c
    unfold Store.wants
    by_cases hc : run.1 ≤ c ∧ c ≤ run.2
    · rw [show (blocks.foldl Store.declare t).stateOf c = ((blocks.foldl Store.declare t).slotOf c).state from rfl,
        (declared_not_wanted (inside c hc.1 hc.2)).1]
      simp [hc]
    · rw [outside c hc]
      simp [hc]
  have head : (blocks.foldl Store.declare t).fillHead = t.fillHead := by
    refine fillHead_eq (block ▸ t.playBlock_le_fillHead) (fun b hb => ?_) fun lt => ?_
    · have := m.below
      rw [outside b (by omega)]
      exact t.free_of_fillHead_le hb
    · by_cases hc : run.1 ≤ t.fillHead - 1 ∧ t.fillHead - 1 ≤ run.2
      · exact (declared_not_wanted (inside _ hc.1 hc.2)).2
      · rw [outside _ hc]
        exact t.below_fillHead_ne_free (block ▸ lt)
  intro x hx
  rw [mem_runs, head, block] at hx
  obtain ⟨l, o, u, want, f, e⟩ := hx
  have apart : ∀ c, x.1 ≤ c → c ≤ x.2 → ¬ (run.1 ≤ c ∧ c ≤ run.2) := fun c a b => ((wants c).mp (want c a b)).2
  have no : ∀ c, (blocks.foldl Store.declare t).wants c = false → t.wants c = false ∨ (run.1 ≤ c ∧ c ≤ run.2) := by
    intro c hc
    by_contra k
    rw [not_or] at k
    rw [(wants c).mpr ⟨eq_true_of_ne_false k.1, k.2⟩] at hc
    cases hc
  refine (t.mem_runs x).mpr ⟨l, o, u, fun c a b => ((wants c).mp (want c a b)).1, fun k => ?_, fun k => ?_⟩
  · refine (no _ (f k)).resolve_right fun inRun => ?_
    have out := apart x.1 (Nat.le_refl _) o
    have stop := m.last (by omega)
    rw [show run.2 + 1 = x.1 by omega, ((wants x.1).mp (want _ (Nat.le_refl _) o)).1] at stop
    cases stop
  · refine (no _ (e k)).resolve_right fun inRun => ?_
    have out := apart x.2 o (Nat.le_refl _)
    have start := m.first (by omega)
    rw [show run.1 - 1 = x.2 by omega, ((wants x.2).mp (want _ o (Nat.le_refl _))).1] at start
    cases start

end Store

end Sys2Proof.Machine
end

