-- ==== Sys2Proof/Proofs/PlannerParts.lean ====
section
/-!
SUPPORT. What `PlannerSound` asks of the planner, in parts: the record alone (`Planner.Proper`), the list against a store
(`Planner.Lists`), and what an operation leaves of the stream and of the alignment (`Stays`). Then what the planner's operations on a
store notice do to the parts.
-/
namespace Sys2Proof.Machine

/-- What the planner's record satisfies by itself: counts in range, no ACTIVE entry without a REPAIR stream, no stream while inactive,
and the seek timer in SEEKING only. -/
structure Planner.Proper (p : Planner) : Prop where
  counts    : ∀ e ∈ p.list, e.attempts ≤ 15 ∧ e.mislocks ≤ 3
  idle      : p.stream.state = .none ∨ p.stream.purpose = .frontier → ∀ e ∈ p.list, e.active = false
  mislocks  : p.frontier.mislocks ≤ 3
  refusals  : p.frontier.refusals ≤ 15
  inactive  : p.active = false → p.stream.state = .none
  timerRuns : p.stream.timerRuns = true → p.stream.state = .seeking
  timer     : p.stream.timer ≤ 1023
  number    : p.stream.number ≤ 15

/-- The list is the runs of a store, with at most one ACTIVE entry, whose last BN is the served one. -/
structure Planner.Lists (p : Planner) (t : Store) : Prop where
  runs : p.list.map (fun e => (e.first, e.last)) = t.runs
  one  : (p.list.filter RepairEntry.active).length ≤ 1
  last : ∀ e ∈ p.list, e.active = true → p.stream.servedLast = e.last

/-- The frontier record stands at the fill head (R50). -/
def HeadMirrored (s : State) : Prop := s.planner.frontier.fillHead = s.store.fillHead

/-- The parts of the planner that rest on the store and on its own record. -/
structure Planned (s : State) : Prop where
  wf     : s.store.wf = true
  proper : s.planner.Proper
  lists  : s.planner.Lists s.store
  head   : HeadMirrored s
  short  : s.planner.list.length ≤ 16

/-- The counters are no part of the record. -/
theorem Planner.Proper.count {p : Planner} (h : p.Proper) (c : PlannerCounters) : ({ p with counters := c } : Planner).Proper :=
  ⟨h.counts, h.idle, h.mislocks, h.refusals, h.inactive, h.timerRuns, h.timer, h.number⟩

theorem Planner.Lists.count {p : Planner} {t : Store} (h : p.Lists t) (c : PlannerCounters) :
    ({ p with counters := c } : Planner).Lists t := ⟨h.runs, h.one, h.last⟩

theorem Planner.Lists.length {p : Planner} {t : Store} (h : p.Lists t) : p.list.length = t.runs.length := by
  rw [← h.runs, List.length_map]

theorem Planner.Lists.mem {p : Planner} {t : Store} (h : p.Lists t) {e : RepairEntry} (he : e ∈ p.list) :
    (e.first, e.last) ∈ t.runs := h.runs ▸ List.mem_map_of_mem he

/-- The relation of the planner is its parts, with the activity of R52 and the alignment. -/
theorem plannerSound_iff {s : State} (w : s.store.wf = true) :
    PlannerSound s ↔ Planned s ∧ s.planner.active = plannerMayRead s ∧ AlignSound s := by
  constructor
  · rintro ⟨⟨runs, short, -, bounds, one, idle, last⟩, ⟨head, mislocks, refusals, active, inactive, timerRuns, timer, number⟩, align⟩
    refine ⟨⟨w, ⟨fun e he => ?_, idle, mislocks, refusals, inactive, timerRuns, timer, number⟩, ⟨runs, one, last⟩, head, short⟩,
      active, align⟩
    obtain ⟨-, -, -, attempts, counted⟩ := bounds e he
    exact ⟨attempts, counted⟩
  · rintro ⟨⟨-, proper, lists, head, short⟩, active, align⟩
    refine ⟨⟨lists.runs, short, ?_, fun e he => ?_, lists.one, proper.idle, lists.last⟩,
      ⟨head, proper.mislocks, proper.refusals, active, proper.inactive, proper.timerRuns, proper.timer, proper.number⟩, align⟩
    · have rising := s.store.runs_rising
      rw [← lists.runs, List.pairwise_map] at rising
      exact rising
    · have run := (s.store.mem_runs _).mp (lists.mem he)
      exact ⟨run.above, run.order, run.below, proper.counts e he⟩

/-! ### What stays of the stream and the alignment -/

/-- What R52 reads, and the planner's own activity. -/
def State.reading (s : State) : Bool × PlayState × Bool × HealthState :=
  (s.planner.active, s.play.state, s.play.disc.confirmed, s.health.state)

/-- The stream record as the alignment state repeats it (R51). -/
def Stream.course (x : Stream) : Nat × StreamState × Nat × Int := (x.number, x.state, x.expected, x.offset)

/-- From a to t the activity and its conditions stay, and the stream and the alignment stay or the stream is closed. -/
structure Stays (a t : State) : Prop where
  reading : t.reading = a.reading
  stream  : (t.asm.align = a.asm.align ∧ t.planner.stream.course = a.planner.stream.course) ∨
    (t.planner.stream.state = .none ∧ t.asm.align.phase = .none)

namespace Stays

variable {a b c : State}

theorem refl (a : State) : Stays a a := ⟨rfl, .inl ⟨rfl, rfl⟩⟩

theorem course_state {x y : Stream} (h : x.course = y.course) : x.state = y.state := congrArg (fun c => c.2.1) h

theorem trans (h : Stays a b) (k : Stays b c) : Stays a c := by
  refine ⟨k.reading.trans h.reading, ?_⟩
  rcases k.stream with ⟨align, course⟩ | closed
  · rcases h.stream with ⟨align', course'⟩ | ⟨none, phase⟩
    · exact .inl ⟨align.trans align', course.trans course'⟩
    · exact .inr ⟨(course_state course).trans none, (congrArg Align.phase align).trans phase⟩
  · exact .inr closed

/-- Nothing of the stream, the alignment and the activity changes. -/
theorem same (reading : b.reading = a.reading) (align : b.asm.align = a.asm.align)
    (course : b.planner.stream.course = a.planner.stream.course) : Stays a b := ⟨reading, .inl ⟨align, course⟩⟩

theorem mayRead (h : Stays a b) (k : a.planner.active = plannerMayRead a) : b.planner.active = plannerMayRead b := by
  have reading := h.reading
  simp only [State.reading, Prod.mk.injEq] at reading
  obtain ⟨active, play, confirmed, health⟩ := reading
  unfold plannerMayRead at k ⊢
  rw [active, play, confirmed, health]
  exact k

theorem cleared (h : Stays a b) (k : a.asm.align.phase = .none) : b.asm.align.phase = .none := by
  rcases h.stream with ⟨align, -⟩ | ⟨-, phase⟩
  · rw [align]; exact k
  · exact phase

end Stays

/-- A closed stream agrees with a cleared alignment. -/
theorem alignSound_closed {s : State} (state : s.planner.stream.state = .none) (phase : s.asm.align.phase = .none) :
    AlignSound s := by
  refine ⟨⟨fun _ => .inl state, fun _ => phase⟩, ?_, fun landed => absurd phase landed⟩
  rw [state]
  nofun

theorem AlignSound.congr {s t : State} (h : AlignSound s) (align : t.asm.align = s.asm.align)
    (course : t.planner.stream.course = s.planner.stream.course) : AlignSound t := by
  simp only [Stream.course, Prod.mk.injEq] at course
  obtain ⟨number, state, expected, offset⟩ := course
  unfold AlignSound at h ⊢
  rw [align, number, state, expected, offset]
  exact h

theorem Stays.align {a b : State} (h : Stays a b) (k : AlignSound a) : AlignSound b := by
  rcases h.stream with ⟨align, course⟩ | ⟨state, phase⟩
  · exact k.congr align course
  · exact alignSound_closed state phase

/-! ### Maintenance (R47, R48, R50) -/

/-- The largest of a field among some entries is in the field's range. -/
theorem largest_le {field : RepairEntry → Nat} {old : List RepairEntry} {bound : Nat} (h : ∀ e ∈ old, field e ≤ bound)
    (run : Nat × Nat) : largest field old run ≤ bound := by
  have fold : ∀ (l : List RepairEntry) (m : Nat), m ≤ bound → (∀ e ∈ l, field e ≤ bound) →
      l.foldl (fun m e => max m (field e)) m ≤ bound := by
    intro l
    induction l with
    | nil => exact fun _ hm _ => hm
    | cons e rest ih =>
      exact fun m hm hl => ih _ (Nat.max_le.mpr ⟨hm, hl e List.mem_cons_self⟩) fun x hx => hl x (List.mem_cons_of_mem _ hx)
  exact fold _ 0 (Nat.zero_le _) fun e he => h e (List.mem_filter.mp he).1

theorem activeRun_idle {old : List RepairEntry} (h : ∀ e ∈ old, e.active = false) (runs : List (Nat × Nat)) (expected : Nat) :
    activeRun old runs expected = none := by
  unfold activeRun
  rw [List.find?_eq_none.mpr fun e he => by simp [h e he]]

/-- An entry of the list after maintenance is that of a run, ACTIVE where the run takes the state. -/
theorem mem_maintained {old : List RepairEntry} {runs : List (Nat × Nat)} {expected : Nat} {e : RepairEntry}
    (h : e ∈ maintained old runs expected) : ∃ run ∈ runs, e = newEntry old (activeRun old runs expected) run := by
  obtain ⟨run, mem, rfl⟩ := List.mem_map.mp h
  exact ⟨run, mem, rfl⟩

/-- At most one run takes the ACTIVE state. -/
theorem maintained_one {runs : List (Nat × Nat)} (nodup : runs.Nodup) (old : List RepairEntry) (expected : Nat) :
    ((maintained old runs expected).filter RepairEntry.active).length ≤ 1 := by
  unfold maintained
  rw [List.filter_map, List.length_map]
  cases chosen : activeRun old runs expected with
  | none =>
    have none : ∀ run ∈ runs, ¬ (RepairEntry.active ∘ newEntry old none) run = true := fun run _ h => by cases h
    rw [List.filter_eq_nil_iff.mpr none]
    exact Nat.zero_le _
  | some r =>
    have same : (RepairEntry.active ∘ newEntry old (some r)) = fun run => run == r := by
      funext run
      simp [newEntry, eq_comm]
    rw [same, ← List.countP_eq_length_filter]
    exact List.nodup_iff_count_le_one.mp nodup r

section
variable (old : Store) (s : State)

/-- After a notice the list is that of the store, whatever it was before (R47). -/
theorem absorb_lists : (absorb old s).planner.Lists s.store where
  runs := absorb_runs old s
  one := maintained_one s.store.runs_nodup s.planner.list s.planner.stream.expected
  last := by
    intro e he act
    obtain ⟨x, found⟩ := Option.isSome_iff_exists.mp (List.find?_isSome.mpr ⟨e, he, act⟩)
    have served : (absorb old s).planner.stream.servedLast = x.last := by
      show (match (absorb old s).planner.list.find? RepairEntry.active with
        | some y => y.last
        | none => s.planner.stream.servedLast) = x.last
      rw [found]
    have xmem := List.mem_of_find?_eq_some found
    have xact : x.active = true := List.find?_some found
    obtain ⟨run, -, rfl⟩ := mem_maintained he
    obtain ⟨run', -, rfl⟩ := mem_maintained xmem
    have a : activeRun s.planner.list s.store.runs s.planner.stream.expected = some run := beq_iff_eq.mp act
    have b : activeRun s.planner.list s.store.runs s.planner.stream.expected = some run' := beq_iff_eq.mp xact
    rw [served, Option.some.inj (a.symm.trans b)]

theorem absorb_head : HeadMirrored (absorb old s) := rfl

variable {s} in
/-- A notice keeps the record's own part. -/
theorem Planner.Proper.absorb (h : s.planner.Proper) : (absorb old s).planner.Proper where
  counts := by
    intro e he
    obtain ⟨run, -, rfl⟩ := mem_maintained he
    exact ⟨largest_le (fun x hx => (h.counts x hx).1) run, largest_le (fun x hx => (h.counts x hx).2) run⟩
  idle := by
    intro closed e he
    obtain ⟨run, -, rfl⟩ := mem_maintained he
    have none : activeRun s.planner.list s.store.runs s.planner.stream.expected = none := activeRun_idle (h.idle closed) _ _
    show (activeRun s.planner.list s.store.runs s.planner.stream.expected == some run) = false
    rw [none]
    rfl
  mislocks := by
    show (if _ then _ else _) ≤ 3
    split
    · exact h.mislocks
    · exact Nat.zero_le _
  refusals := by
    show (if _ then _ else _) ≤ 15
    split
    · exact Nat.zero_le _
    · exact h.refusals
  inactive := h.inactive
  timerRuns := h.timerRuns
  timer := h.timer
  number := h.number

theorem absorb_stays : Stays s (absorb old s) := .same rfl rfl rfl

end

/-! ### Declarations on the planner's request (R8, R66) -/

theorem changeStore_stays (f : Store → Store) (s : State) : Stays s (changeStore f s) := by
  obtain ⟨x, e⟩ := changeStore_notices f s
  rw [e]
  exact .same rfl rfl rfl

theorem countPlanner_stays (f : PlannerCounters → PlannerCounters) (s : State) : Stays s (countPlanner f s) := .same rfl rfl rfl

theorem plannerDeclare_stays (s : State) (b : Nat) : Stays s (plannerDeclare s b) := (changeStore_stays _ _).trans (absorb_stays _ _)

theorem plannerDeclares_stays (blocks : List Nat) : ∀ s : State, Stays s (plannerDeclares blocks s) := by
  induction blocks with
  | nil => exact .refl
  | cons b rest ih => exact fun s => (plannerDeclare_stays s b).trans (ih _)

theorem plannerDeclares_proper (blocks : List Nat) : ∀ {s : State}, s.planner.Proper → (plannerDeclares blocks s).planner.Proper := by
  induction blocks with
  | nil => exact fun h => h
  | cons b rest ih =>
    intro s h
    have changed : (changeStore (fun t => t.declare b) s).planner.Proper := by
      rw [changeStore_planner]
      exact h
    exact ih (changed.absorb _)

theorem plannerDeclares_wf (blocks : List Nat) {s : State} (w : s.store.wf = true) : (plannerDeclares blocks s).store.wf = true := by
  rw [plannerDeclares_store]
  induction blocks generalizing s with
  | nil => exact w
  | cons b rest ih => exact ih (s := s.setStore (s.store.declare b)) (Store.declare_wf w b)

/-- Each declaration leaves the list that of the store and the frontier record at the fill head. -/
theorem plannerDeclares_lists (blocks : List Nat) : ∀ {s : State},
    (s.planner.Lists s.store → (plannerDeclares blocks s).planner.Lists (plannerDeclares blocks s).store) ∧
      (HeadMirrored s → HeadMirrored (plannerDeclares blocks s)) := by
  induction blocks with
  | nil => exact ⟨fun h => h, fun h => h⟩
  | cons b rest ih => exact ⟨fun _ => ih.1 (absorb_lists _ _), fun _ => ih.2 (absorb_head _ _)⟩

/-! ### The exhaustion check (R66) -/

theorem exhaust_stays (served : Option RepairEntry) (s : State) : Stays s (exhaust served s) := by
  unfold exhaust
  split
  · exact .refl s
  · split
    · exact (countPlanner_stays _ s).trans (plannerDeclares_stays _ _)
    · exact .refl s

theorem RepairEntry.mem_blocks (e : RepairEntry) (b : Nat) : b ∈ e.blocks ↔ e.first ≤ b ∧ b ≤ e.last := by
  unfold RepairEntry.blocks
  rw [List.mem_map]
  constructor
  · rintro ⟨i, hi, rfl⟩
    have := List.mem_range.mp hi
    omega
  · rintro ⟨low, high⟩
    exact ⟨b - e.first, List.mem_range.mpr (by omega), by omega⟩

/-- From a to t the planner's list and record stay sound, the list no longer than it was. -/
structure Tended (a t : State) : Prop where
  wf     : t.store.wf = true
  proper : t.planner.Proper
  lists  : t.planner.Lists t.store
  head   : HeadMirrored a → HeadMirrored t
  length : t.planner.list.length ≤ a.planner.list.length

/-- The check declares a whole run, so no run is new (R66). -/
theorem exhaust_tended {served : Option RepairEntry} {s : State} (w : s.store.wf = true) (proper : s.planner.Proper)
    (lists : s.planner.Lists s.store) (run : ∀ e, served = some e → (e.first, e.last) ∈ s.store.runs) : Tended s (exhaust served s) := by
  unfold exhaust
  split
  · exact ⟨w, proper, lists, fun h => h, Nat.le_refl _⟩
  · rename_i e
    split
    · have declared := plannerDeclares_lists e.blocks
        (s := countPlanner (fun c => { c with exhaustion := bump c.exhaustion }) s)
      have after := declared.1 (lists.count _)
      refine ⟨plannerDeclares_wf _ w, plannerDeclares_proper _ (proper.count _), after, declared.2, ?_⟩
      rw [after.length, lists.length, plannerDeclares_store]
      exact ((Store.runs_nodup _).subperm (Store.runs_declared w (run e rfl) e.mem_blocks)).length_le
    · exact ⟨w, proper, lists, fun h => h, Nat.le_refl _⟩

/-! ### Closing a stream (R65) -/

/-- A close up to the exhaustion check: the record, the alignment, the messages and the list. -/
def closeRecord (close : Close) (s : State) : State :=
  let closed := clearPhase (withdrawSeek s.planner.stream.number
    (setStream { s.planner.stream with state := .none, timerRuns := false } s))
  setList (allWaiting s.planner.list) (if close.ceases then txRequest (.cease s.planner.stream.number) closed else closed)

section
variable (close : Close) (s : State)

/-- What the close of the record writes and leaves. -/
theorem closeRecord_fields :
    (closeRecord close s).store = s.store ∧ (closeRecord close s).asm = { s.asm with align := s.asm.align.clear } ∧
      (closeRecord close s).planner =
        { s.planner with list := allWaiting s.planner.list, stream := { s.planner.stream with state := .none, timerRuns := false } } ∧
      (closeRecord close s).reading = s.reading := by
  unfold closeRecord
  dsimp only
  split <;> exact ⟨rfl, rfl, rfl, rfl⟩

variable {s} in
theorem closeStream_open (h : s.planner.stream.state ≠ .none) :
    closeStream close s =
      if close.checksExhaustion then exhaust (s.planner.list.find? RepairEntry.active) (closeRecord close s)
      else closeRecord close s := by
  unfold closeStream closeRecord
  rw [if_neg h]
  dsimp only
  cases close.ceases <;> rfl

theorem closeRecord_stays : Stays s (closeRecord close s) := by
  obtain ⟨-, asm, planner, reading⟩ := closeRecord_fields close s
  refine ⟨reading, .inr ⟨?_, ?_⟩⟩
  · rw [planner]
  · rw [asm]; rfl

theorem closeStream_stays : Stays s (closeStream close s) := by
  by_cases h : s.planner.stream.state = .none
  · rw [closeStream_none h]
    exact .refl s
  · rw [closeStream_open close h]
    split
    · exact (closeRecord_stays close s).trans (exhaust_stays _ _)
    · exact closeRecord_stays close s

/-- A close leaves no stream (R65). -/
theorem closeStream_state : (closeStream close s).planner.stream.state = .none := by
  by_cases h : s.planner.stream.state = .none
  · rw [closeStream_none h]
    exact h
  · have closed : (closeRecord close s).planner.stream.state = .none := by
      rw [(closeRecord_fields close s).2.2.1]
    rw [closeStream_open close h]
    split
    · rw [(exhaust_declaredOnly _ _).state]
      exact closed
    · exact closed

/-- A close of a stream clears the alignment (R24, R65). -/
theorem closeStream_cleared (h : s.planner.stream.state = .none → s.asm.align.phase = .none) :
    (closeStream close s).asm.align.phase = .none := by
  by_cases none : s.planner.stream.state = .none
  · rw [closeStream_none none]
    exact h none
  · have closed : (closeRecord close s).asm.align.phase = .none := by
      rw [(closeRecord_fields close s).2.1]
      rfl
    rw [closeStream_open close none]
    split
    · rw [(exhaust_declaredOnly _ _).asm]
      exact closed
    · exact closed

end

theorem allWaiting_waiting {list : List RepairEntry} {e : RepairEntry} (h : e ∈ allWaiting list) : e.active = false := by
  obtain ⟨x, -, rfl⟩ := List.mem_map.mp h
  rfl

/-- With every entry WAITING the list is still that of the store. -/
theorem allWaiting_lists {p x : Planner} {t : Store} (h : p.Lists t) (list : x.list = allWaiting p.list) : x.Lists t where
  runs := by
    rw [list, ← h.runs]
    exact List.map_map
  one := by
    rw [list, List.filter_eq_nil_iff.mpr fun e he => by simp [allWaiting_waiting he]]
    exact Nat.zero_le _
  last := by
    rw [list]
    intro e he act
    rw [allWaiting_waiting he] at act
    cases act

/-- The record without a stream is proper, with every entry WAITING. -/
theorem Planner.Proper.close {p : Planner} (h : p.Proper) :
    ({ p with list := allWaiting p.list, stream := { p.stream with state := .none, timerRuns := false } } : Planner).Proper where
  counts e he := by
    obtain ⟨x, hx, rfl⟩ := List.mem_map.mp he
    exact h.counts x hx
  idle _ _ he := allWaiting_waiting he
  mislocks := h.mislocks
  refusals := h.refusals
  inactive _ := rfl
  timerRuns := nofun
  timer := h.timer
  number := h.number

theorem closeStream_tended (close : Close) {s : State} (w : s.store.wf = true) (proper : s.planner.Proper)
    (lists : s.planner.Lists s.store) : Tended s (closeStream close s) := by
  by_cases h : s.planner.stream.state = .none
  · rw [closeStream_none h]
    exact ⟨w, proper, lists, fun k => k, Nat.le_refl _⟩
  · obtain ⟨store, -, planner, -⟩ := closeRecord_fields close s
    have closed : Tended s (closeRecord close s) := by
      refine ⟨store ▸ w, planner ▸ proper.close, ?_, fun k => ?_, ?_⟩
      · rw [store]
        exact allWaiting_lists lists (by rw [planner])
      · unfold HeadMirrored
        rw [planner, store]
        exact k
      · rw [planner]
        exact Nat.le_of_eq (List.length_map _)
    rw [closeStream_open close h]
    split
    · have checked := exhaust_tended (served := s.planner.list.find? RepairEntry.active) closed.wf closed.proper closed.lists
        fun e found => store ▸ lists.mem (List.mem_of_find?_eq_some found)
      exact ⟨checked.wf, checked.proper, checked.lists, fun k => checked.head (closed.head k),
        Nat.le_trans checked.length closed.length⟩
    · exact closed

/-! ### Overflow (R49) -/

theorem overflowTrimmed_stays (r : RepairEntry) (s : State) : Stays s (overflowTrimmed r s) :=
  (Stays.same (by rfl) (by rfl) (by rfl) : Stays s (setList s.planner.list.dropLast s)).trans (changeStore_stays _ _)

theorem overflowCounted_stays (r : RepairEntry) (s u : State) : Stays u (overflowCounted r s u) := .same rfl rfl rfl

theorem overflowOnce_stays (s : State) : Stays s (overflowOnce s) := by
  cases last : s.planner.list.getLast? with
  | none =>
    unfold overflowOnce
    rw [last]
    exact .refl s
  | some r =>
    rw [overflowOnce_last last]
    split
    · exact ((overflowTrimmed_stays r s).trans (closeStream_stays _ _)).trans (overflowCounted_stays _ _ _)
    · exact (overflowTrimmed_stays r s).trans (overflowCounted_stays _ _ _)

theorem overflowLoop_stays (n : Nat) : ∀ s : State, Stays s (overflowLoop n s) := by
  induction n with
  | zero => exact .refl
  | succ n ih =>
    intro s
    unfold overflowLoop
    split
    · exact (overflowOnce_stays s).trans (ih _)
    · exact .refl s

/-- The list without its last entry is that of the store trimmed from that entry. -/
theorem overflowTrimmed_tended {r : RepairEntry} {s : State} (last : s.planner.list.getLast? = some r) (w : s.store.wf = true)
    (proper : s.planner.Proper) (lists : s.planner.Lists s.store) :
    (overflowTrimmed r s).store.wf = true ∧ (overflowTrimmed r s).planner.Proper ∧
      (overflowTrimmed r s).planner.Lists (overflowTrimmed r s).store := by
  have split : s.planner.list = s.planner.list.dropLast ++ [r] := (List.dropLast_append_getLast? r last).symm
  have sub : s.planner.list.dropLast ⊆ s.planner.list := List.dropLast_subset _
  rw [overflowTrimmed_planner, overflowTrimmed_store]
  refine ⟨Store.trim_wf w _, ⟨fun e he => proper.counts e (sub he), fun k e he => proper.idle k e (sub he), proper.mislocks,
    proper.refusals, proper.inactive, proper.timerRuns, proper.timer, proper.number⟩, ⟨?_, ?_, fun e he => lists.last e (sub he)⟩⟩
  · refine (Store.runs_trim w (run := (r.first, r.last)) ?_).symm
    rw [← lists.runs]
    exact (congrArg (List.map _) split).trans List.map_append
  · exact Nat.le_trans (((List.dropLast_sublist _).filter _).length_le) lists.one

/-- An overflow leaves the list that of the store and shorter (R49). -/
theorem overflowOnce_tended {s : State} (w : s.store.wf = true) (proper : s.planner.Proper) (lists : s.planner.Lists s.store)
    (some : s.planner.list ≠ []) :
    Tended s (overflowOnce s) ∧ HeadMirrored (overflowOnce s) ∧ (overflowOnce s).planner.list.length < s.planner.list.length := by
  have last := List.getLast?_eq_some_getLast some
  obtain ⟨w', proper', lists'⟩ := overflowTrimmed_tended last w proper lists
  have shorter : (overflowTrimmed (s.planner.list.getLast some) s).planner.list.length < s.planner.list.length := by
    have := List.length_pos_iff.mpr some
    rw [overflowTrimmed_planner]
    dsimp only
    rw [List.length_dropLast]
    omega
  have judged : ∀ u : State, Tended (overflowTrimmed (s.planner.list.getLast some) s) u →
      Tended s (overflowCounted (s.planner.list.getLast some) s u) ∧
        (overflowCounted (s.planner.list.getLast some) s u).planner.list.length < s.planner.list.length := by
    intro u h
    have listed : (overflowCounted (s.planner.list.getLast some) s u).planner.Lists u.store := absorb_lists _ _
    have short : (overflowCounted (s.planner.list.getLast some) s u).planner.list.length < s.planner.list.length := by
      rw [listed.length, ← h.lists.length]
      exact Nat.lt_of_le_of_lt h.length shorter
    refine ⟨⟨h.wf, Planner.Proper.absorb _ ?_, listed, fun _ => absorb_head _ _, Nat.le_of_lt short⟩, short⟩
    exact h.proper.count _
  rw [overflowOnce_last last]
  split
  · obtain ⟨tended, short⟩ := judged _ (closeStream_tended .overflow w' proper' lists')
    exact ⟨tended, absorb_head _ _, short⟩
  · obtain ⟨tended, short⟩ := judged _ ⟨w', proper', lists', fun h => h, Nat.le_refl _⟩
    exact ⟨tended, absorb_head _ _, short⟩

/-- Overflows in a row leave at most 16 runs (R49). -/
theorem overflowLoop_planned (n : Nat) : ∀ {s : State}, s.store.wf = true → s.planner.Proper → s.planner.Lists s.store →
    HeadMirrored s → s.planner.list.length ≤ 16 + n → Planned (overflowLoop n s) := by
  induction n with
  | zero => exact fun w proper lists head short => ⟨w, proper, lists, head, short⟩
  | succ n ih =>
    intro s w proper lists head length
    unfold overflowLoop
    split
    · rename_i long
      obtain ⟨tended, mirrored, shorter⟩ := overflowOnce_tended w proper lists fun e => by simp [e] at long
      exact ih tended.wf tended.proper tended.lists mirrored (by omega)
    · rename_i short
      exact ⟨w, proper, lists, head, Nat.not_lt.mp short⟩

theorem handleOverflow_planned {s : State} (w : s.store.wf = true) (proper : s.planner.Proper) (lists : s.planner.Lists s.store)
    (head : HeadMirrored s) : Planned (handleOverflow s) :=
  overflowLoop_planned _ w proper lists head (Nat.le_add_left _ _)

/-! ### Store notices (R47, R68) -/

theorem judgeLateness_stays (s : State) : Stays s (judgeLateness s) := by
  unfold judgeLateness
  dsimp only
  split
  · exact .refl s
  · exact ((countPlanner_stays _ s).trans (plannerDeclares_stays _ _)).trans (overflowLoop_stays _ _)

theorem judgeLateness_planned {s : State} (h : Planned s) : Planned (judgeLateness s) := by
  by_cases late : lateBlocks s = []
  · rw [judgeLateness_none late]
    exact h
  · rw [judgeLateness_some late]
    have declared := plannerDeclares_lists (lateBlocks s)
      (s := countPlanner (fun c => { c with lateDeclaration := bumpBy c.lateDeclaration (lateBlocks s).length }) s)
    exact handleOverflow_planned (plannerDeclares_wf _ h.wf) (plannerDeclares_proper _ (h.proper.count _))
      (declared.1 (h.lists.count _)) (declared.2 h.head)

theorem takeStoreNotice_stays (old : Store) (s : State) : Stays s (takeStoreNotice old s) :=
  ((absorb_stays old s).trans (overflowLoop_stays _ _)).trans (judgeLateness_stays _)

/-- A notice mends the list, whatever it was before (R47, R49, R68). -/
theorem takeStoreNotice_planned (old : Store) {s : State} (w : s.store.wf = true) (proper : s.planner.Proper) :
    Planned (takeStoreNotice old s) :=
  judgeLateness_planned (handleOverflow_planned w (proper.absorb old) (absorb_lists old s) (absorb_head old s))

theorem storeNotified_stays (f : Store → Store) (s : State) : Stays s (storeNotified f s) := by
  unfold storeNotified
  dsimp only
  split
  · exact (changeStore_stays f s).trans (takeStoreNotice_stays _ _)
  · exact changeStore_stays f s

/-- An event at the store: where it calls for no notice, the runs and the fill head are as they were (R16). -/
theorem storeNotified_planned {f : Store → Store} {s : State} (h : Planned s) (w : (f s.store).wf = true) :
    Planned (storeNotified f s) := by
  unfold storeNotified
  dsimp only
  split
  · refine takeStoreNotice_planned _ ?_ ?_
    · rw [changeStore_store]; exact w
    · rw [changeStore_planner]; exact h.proper
  · rename_i quiet
    obtain ⟨-, -, head, runs⟩ := Store.same_of_not_noticeDue quiet
    refine ⟨?_, ?_, ?_, ?_, ?_⟩
    · rw [changeStore_store]; exact w
    · rw [changeStore_planner]; exact h.proper
    · rw [changeStore_planner, changeStore_store]
      exact ⟨h.lists.runs.trans runs.symm, h.lists.one, h.lists.last⟩
    · unfold HeadMirrored
      rw [changeStore_planner, changeStore_store]
      exact h.head.trans head.symm
    · rw [changeStore_planner]; exact h.short

end Sys2Proof.Machine
end

