-- ==== Sys2Proof/Proofs/PlannerHolds.lean ====
section
/-!
SUPPORT. The relations of the planner and of the flow (`PlannerSound`, `FlowSound`) in parts that the operations inside a step break and
mend one by one: `Holds k s` says that s has the parts that k asks. Here are the parts through the planner's operations.
-/
namespace Sys2Proof.Machine

/-- Which parts are asked of a state: the hold causes, the planner's list and record, its activity, the alignment of the Assembler with
the stream record, and an alignment that is cleared. -/
structure Parts where
  flow    : Prop
  planned : Prop
  active  : Prop
  align   : Prop
  cleared : Prop

/-- The state has the parts asked. -/
structure Holds (k : Parts) (s : State) : Prop where
  flow    : k.flow → FlowSound s
  planned : k.planned → Planned s
  active  : k.active → s.planner.active = plannerMayRead s
  align   : k.align → AlignSound s
  cleared : k.cleared → s.asm.align.phase = .none

/-- What the parts rest on. -/
def State.basis (s : State) : Store × (List IntakeEntry × Align × Bool × Bool) × (List RepairEntry × Frontier × Stream × Bool) ×
    (PlayState × Bool × HealthState) :=
  (s.store, (s.asm.intake, s.asm.align, s.asm.holdIntake, s.asm.holdWindow),
    (s.planner.list, s.planner.frontier, s.planner.stream, s.planner.active), (s.play.state, s.play.disc.confirmed, s.health.state))

theorem Planned.congr {s t : State} (h : Planned s) (store : t.store = s.store) (list : t.planner.list = s.planner.list)
    (frontier : t.planner.frontier = s.planner.frontier) (stream : t.planner.stream = s.planner.stream)
    (active : t.planner.active = s.planner.active) : Planned t := by
  have planner : t.planner = { s.planner with counters := t.planner.counters } := by
    show t.planner = ⟨s.planner.list, s.planner.frontier, s.planner.stream, s.planner.active, t.planner.counters⟩
    rw [← list, ← frontier, ← stream, ← active]
  refine ⟨store ▸ h.wf, ?_, ?_, ?_, ?_⟩
  · rw [planner]; exact h.proper.count _
  · rw [planner, store]; exact h.lists.count _
  · unfold HeadMirrored
    rw [frontier, store]
    exact h.head
  · rw [list]; exact h.short

/-! ### Opening a stream (R54, R56) -/

theorem evaluateFlow_stays (s : State) : Stays s (evaluateFlow s) := by
  obtain ⟨planner, -, -, align⟩ := evaluateFlow_keeps s
  have keeps : KeepsChoice s (evaluateFlow s) := (KeepsChoice.moves s).evaluateFlow (.refl s)
  refine .same ?_ align (by rw [planner])
  unfold State.reading
  rw [planner, keeps.play, keeps.health]

theorem nextNumber_le {n : Nat} (h : n ≤ 15) : nextNumber n ≤ 15 := by
  unfold nextNumber
  split
  · decide
  · omega

/-- The entry that a choice serves is the only ACTIVE one (R48, R56). -/
theorem serve_lists {list : List RepairEntry} {p : Planner} {t : Store} (h : p.Lists t) {e : RepairEntry}
    (he : e ∈ p.list) (idle : ∀ x ∈ p.list, x.active = false)
    (served : list = p.list.map (fun x => if x.first = e.first then x.served else x)) :
    list.map (fun x => (x.first, x.last)) = t.runs ∧ (list.filter RepairEntry.active).length ≤ 1 ∧
      ∀ x ∈ list, x.active = true → e.last = x.last := by
  have firsts := t.runs_firsts
  rw [← h.runs, List.pairwise_map] at firsts
  have unique : ∀ x ∈ p.list, x.first = e.first → x = e := by
    intro x hx first
    by_contra ne
    rcases List.Pairwise.forall_of_forall_of_flip (R := fun a b => a.first ≠ b.first ∨ a = b) (fun _ _ => .inr rfl)
      (firsts.imp fun lt => .inl (Nat.ne_of_lt lt)) (firsts.imp fun lt => .inl (Nat.ne_of_gt lt)) hx he with other | same
    · exact other first
    · exact ne same
  subst served
  refine ⟨?_, ?_, fun x hx act => ?_⟩
  · rw [← h.runs, List.map_map]
    refine List.map_congr_left fun x _ => ?_
    dsimp only [Function.comp]
    split <;> rfl
  · rw [List.filter_map, List.length_map]
    have chosen : ∀ x ∈ p.list, (RepairEntry.active ∘ fun x => if x.first = e.first then x.served else x) x = decide (x = e) := by
      intro x hx
      dsimp only [Function.comp]
      split
      · rename_i first
        rw [unique x hx first]
        simp [RepairEntry.served]
      · rename_i other
        rw [idle x hx]
        exact (decide_eq_false fun same => other (by rw [same])).symm
    rw [List.filter_congr chosen]
    have nodup : p.list.Nodup := firsts.imp fun {a b} lt same => by
      subst same
      exact Nat.lt_irrefl _ lt
    have one := List.nodup_iff_count_le_one.mp nodup e
    rw [List.count, List.countP_eq_length_filter] at one
    exact one
  · obtain ⟨y, hy, rfl⟩ := List.mem_map.mp hx
    split at act
    · rename_i first
      rw [if_pos first, unique y hy first]
      rfl
    · rw [idle y hy] at act
      cases act

theorem planned_openFrontier {s : State} (h : Planned s) (reads : s.planner.active = true)
    (none : s.planner.stream.state = .none) : Planned (openFrontier s) := by
  obtain ⟨wf, proper, lists, head, short⟩ := h
  have idle := proper.idle (.inl none)
  refine ⟨wf, ⟨proper.counts, fun _ => idle, proper.mislocks, proper.refusals, fun no => absurd (reads.symm.trans no) nofun, nofun,
    Nat.zero_le _, nextNumber_le proper.number⟩, ⟨lists.runs, lists.one, fun e he act => ?_⟩, head, short⟩
  rw [idle e he] at act
  cases act

theorem planned_openRepair {s : State} (h : Planned s) (reads : s.planner.active = true) (none : s.planner.stream.state = .none)
    {e : RepairEntry} (he : e ∈ s.planner.list) : Planned (openRepair e s) := by
  obtain ⟨wf, proper, lists, head, short⟩ := h
  obtain ⟨runs, one, last⟩ := serve_lists lists he (proper.idle (.inl none)) rfl
  refine ⟨wf, ⟨fun x hx => ?_, fun closed => ?_, proper.mislocks, proper.refusals, fun no => absurd (reads.symm.trans no) nofun, nofun,
    Nat.zero_le _, nextNumber_le proper.number⟩, ⟨runs, one, last⟩, head, ?_⟩
  · obtain ⟨y, hy, rfl⟩ := List.mem_map.mp hx
    obtain ⟨attempts, counted⟩ := proper.counts y hy
    split
    · exact ⟨satAdd_le _ _ _, counted⟩
    · exact ⟨attempts, counted⟩
  · rcases closed with state | purpose
    · cases state
    · cases purpose
  · exact Nat.le_trans (Nat.le_of_eq (List.length_map _)) short

/-! ### Deactivation and flush (R52, R70) -/

theorem exhaust_proper (served : Option RepairEntry) {s : State} (h : s.planner.Proper) : (exhaust served s).planner.Proper := by
  unfold exhaust
  split
  · exact h
  · split
    · exact plannerDeclares_proper _ (h.count _)
    · exact h

theorem closeStream_proper (close : Close) {s : State} (h : s.planner.Proper) : (closeStream close s).planner.Proper := by
  by_cases none : s.planner.stream.state = .none
  · rw [closeStream_none none]
    exact h
  · have closed : (closeRecord close s).planner.Proper := (closeRecord_fields close s).2.2.1 ▸ h.close
    rw [closeStream_open close none]
    split
    · exact exhaust_proper _ closed
    · exact closed

/-- A close without the exhaustion check leaves the store. -/
theorem closeStream_store (close : Close) (quiet : close.checksExhaustion = false) (s : State) :
    (closeStream close s).store = s.store := by
  by_cases none : s.planner.stream.state = .none
  · rw [closeStream_none none]
  · rw [closeStream_open close none, quiet]
    exact (closeRecord_fields close s).1

/-- An inactive planner closes its stream and keeps its list (R52, R65). -/
theorem Planned.deactivate {s u : State} (h : Planned s) (inactive : u.planner = { s.planner with active := false })
    (store : u.store = s.store) (byRestart : Bool) : Planned (closeStream (.deactivation byRestart) u) := by
  obtain ⟨wf, proper, lists, head, short⟩ := h
  have lists : u.planner.Lists u.store := by
    rw [inactive, store]
    exact ⟨lists.runs, lists.one, lists.last⟩
  have head : HeadMirrored u := by
    unfold HeadMirrored
    rw [inactive, store]
    exact head
  have short : u.planner.list.length ≤ 16 := by rwa [inactive]
  rw [← store] at wf
  by_cases none : u.planner.stream.state = .none
  · rw [closeStream_none none]
    refine ⟨wf, ?_, lists, head, short⟩
    rw [inactive] at none ⊢
    exact { proper with inactive := fun _ => none }
  · rw [closeStream_open _ none]
    obtain ⟨store, -, planner, -⟩ := closeRecord_fields (.deactivation byRestart) u
    show Planned (closeRecord _ _)
    refine ⟨store ▸ wf, ?_, ?_, ?_, ?_⟩
    · rw [planner, inactive]
      exact { proper.close with inactive := fun _ => rfl }
    · rw [store]
      exact allWaiting_lists lists (by rw [planner])
    · unfold HeadMirrored
      rw [planner, store]
      exact head
    · rw [planner]
      exact Nat.le_trans (Nat.le_of_eq (List.length_map _)) short

/-- The counts of the frontier record may be set to any value in their ranges (R50). -/
theorem Planned.setFrontier {s : State} (h : Planned s) {x : Frontier} (head : x.fillHead = s.planner.frontier.fillHead)
    (mislocks : x.mislocks ≤ 3) (refusals : x.refusals ≤ 15) : Planned (setFrontier x s) :=
  ⟨h.wf, { h.proper with mislocks := mislocks, refusals := refusals }, ⟨h.lists.runs, h.lists.one, h.lists.last⟩,
    head.trans h.head, h.short⟩

/-- A flushed store has no run (R14, R46). -/
theorem Store.runs_flush (t : Store) (p : Nat) : (t.flush p).runs = [] := by
  refine List.eq_nil_iff_forall_not_mem.mpr fun run mem => ?_
  obtain ⟨above, order, below, -, -, -⟩ := (mem_runs run).mp mem
  have head : (t.flush p).fillHead = (t.flush p).playBlock := by
    refine fillHead_eq (Nat.le_refl _) (fun b _ => ?_) fun no => absurd no (Nat.lt_irrefl _)
    unfold Store.stateOf
    rw [slotOf_flush]
    rfl
  omega

/-- The part of a flush before the choice: the store freed, the Intake emptied, the stream closed, the list with the store. -/
def flushedOut (p : Nat) (s : State) : State :=
  let freed := changeStore (fun t => t.flush p) s
  let closed := absorb s.store (closeStream .flush (freed.setAsm { freed.asm with intake := [] }))
  setFrontier { closed.planner.frontier with mislocks := 0, refusals := 0 } closed

theorem flushStore_eq (p : Nat) (s : State) : flushStore p s = settle (flushedOut p s) := rfl

theorem flushedOut_stays (p : Nat) (s : State) : Stays s (flushedOut p s) := by
  have emptied : Stays (changeStore (fun t => t.flush p) s)
      ((changeStore (fun t => t.flush p) s).setAsm { (changeStore (fun t => t.flush p) s).asm with intake := [] }) :=
    .same rfl rfl rfl
  have cleared : ∀ u : State, Stays u (setFrontier { u.planner.frontier with mislocks := 0, refusals := 0 } u) :=
    fun _ => .same rfl rfl rfl
  exact ((((changeStore_stays _ s).trans emptied).trans (closeStream_stays _ _)).trans (absorb_stays _ _)).trans (cleared _)

/-- A notice of a store without runs empties the list (R47). -/
theorem planned_absorb_empty (old : Store) {s : State} (wf : s.store.wf = true) (proper : s.planner.Proper)
    (empty : s.store.runs = []) : Planned (absorb old s) := by
  have lists := absorb_lists old s
  refine ⟨wf, proper.absorb old, lists, absorb_head old s, ?_⟩
  rw [lists.length, empty]
  exact Nat.zero_le _

/-- The list goes with the store, whatever both were (R14, R70). -/
theorem flushedOut_planned (p : Nat) {s : State} (h : s.planner.Proper) : Planned (flushedOut p s) := by
  have closed : ∀ u : State, u.planner = s.planner → u.store = s.store.flush p →
      Planned (absorb s.store (closeStream .flush u)) := by
    intro u planner store
    have same : (closeStream .flush u).store = s.store.flush p := (closeStream_store .flush rfl u).trans store
    refine planned_absorb_empty _ ?_ (closeStream_proper _ (planner ▸ h)) ?_
    · rw [same]; exact Store.flush_wf _ _
    · rw [same]; exact Store.runs_flush _ _
  unfold flushedOut
  dsimp only
  have emptied := closed ((changeStore (fun t => t.flush p) s).setAsm { (changeStore (fun t => t.flush p) s).asm with intake := [] })
    (changeStore_planner (fun t => t.flush p) s) (changeStore_store _ s)
  revert emptied
  generalize absorb s.store _ = u
  exact fun emptied => emptied.setFrontier rfl (Nat.zero_le _) (Nat.zero_le _)

namespace Holds

variable {k : Parts} {s : State}

/-! ### Changes of the state -/

/-- Nothing that a part rests on changes. -/
theorem same {t : State} (h : Holds k s) (basis : t.basis = s.basis) : Holds k t := by
  simp only [State.basis, Prod.mk.injEq] at basis
  obtain ⟨store, ⟨intake, align, holdIntake, holdWindow⟩, ⟨list, frontier, stream, active⟩, ⟨state, confirmed, health⟩⟩ := basis
  refine ⟨fun w => ?_, fun w => (h.planned w).congr store list frontier stream active, fun w => ?_, fun w => ?_, fun w => ?_⟩
  · have sound := h.flow w
    unfold FlowSound at sound ⊢
    rw [intake, align, holdIntake, holdWindow, store]
    exact sound
  · have may := h.active w
    unfold plannerMayRead at may ⊢
    rw [active, state, confirmed, health]
    exact may
  · exact (h.align w).congr align (by rw [stream])
  · rw [align]; exact h.cleared w

/-- The parts but the hold causes, after an operation that leaves the stream and the alignment or closes the stream. -/
theorem stays {t : State} (h : Holds k s) (stays : Stays s t) (planned : Planned s → Planned t) :
    Holds { k with flow := False } t :=
  ⟨False.elim, fun w => planned (h.planned w), fun w => stays.mayRead (h.active w), fun w => stays.align (h.align w),
    fun w => stays.cleared (h.cleared w)⟩

/-- The hold causes need not be asked. -/
theorem unheld (h : Holds k s) : Holds { k with flow := False } s := ⟨False.elim, h.planned, h.active, h.align, h.cleared⟩

/-- The activity need not be asked. -/
theorem unread (h : Holds k s) : Holds { k with active := False } s := ⟨h.flow, h.planned, False.elim, h.align, h.cleared⟩

theorem txRequest (h : Holds k s) (m : TxMsg) : Holds k (txRequest m s) := h.same rfl

theorem countPlanner (h : Holds k s) (f : PlannerCounters → PlannerCounters) : Holds k (countPlanner f s) := h.same rfl

theorem raise (h : Holds k s) (e : Event) (d : Nat) : Holds k (raise e d s) := h.same rfl

theorem postReadiness (h : Holds k s) (before : Nat × Bool) : Holds k (postReadiness before s) := by
  obtain ⟨x, e⟩ := postReadiness_notices before s
  rw [e]
  exact h.same rfl

/-! ### The flow and the choice (R41, R53 to R56) -/

/-- An evaluation of the flow makes the hold causes the conditions, whatever they were. -/
theorem evaluateFlow {f : Prop} (h : Holds { k with flow := f } s) : Holds k (evaluateFlow s) := by
  obtain ⟨planner, store, -, -⟩ := evaluateFlow_keeps s
  have kept := h.stays (evaluateFlow_stays s) fun w =>
    w.congr store (by rw [planner]) (by rw [planner]) (by rw [planner]) (by rw [planner])
  exact ⟨fun _ => evaluateFlow_flowSound s, kept.planned, kept.active, kept.align, kept.cleared⟩

theorem closeStream (h : Holds k s) (close : Close) : Holds { k with flow := False } (closeStream close s) :=
  h.stays (closeStream_stays close s) fun w =>
    have tended := closeStream_tended close w.wf w.proper w.lists
    ⟨tended.wf, tended.proper, tended.lists, tended.head w.head, Nat.le_trans tended.length w.short⟩

/-- A close with the alignment cleared before it makes the two agree (R24, R65). -/
theorem closeCleared {l : Prop} (h : Holds { k with align := l } s) (none : k.align → s.asm.align.phase = .none) (close : Close) :
    Holds { k with flow := False } (Machine.closeStream close s) :=
  have closed := h.closeStream close
  ⟨False.elim, closed.planned, closed.active, fun w => alignSound_closed (closeStream_state close s)
    ((closeStream_stays close s).cleared (none w)), closed.cleared⟩

/-- A stream that is opened where there was none (R56). -/
theorem openStream {purpose : Purpose} {target last : Nat} (h : Holds { k with planned := False } s)
    (planned : k.planned → Planned (Machine.openStream purpose target last s)) (phase : k.align → s.asm.align.phase = .none) :
    Holds { k with flow := False } (Machine.openStream purpose target last s) :=
  ⟨False.elim, planned, h.active, fun w => ⟨⟨fun _ => .inr rfl, fun _ => phase w⟩, fun _ => rfl, fun landed => absurd (phase w) landed⟩,
    h.cleared⟩

theorem chooseStream (h : Holds k s) : Holds { k with flow := False } (chooseStream s) := by
  by_cases choice : s.planner.active = true ∧ s.planner.stream.state = .none
  · obtain ⟨reads, idle⟩ := choice
    have phase : k.align → s.asm.align.phase = .none := fun w => (h.align w).1.mpr (.inl idle)
    cases found : s.planner.list.find? (due s) with
    | some e =>
      rw [chooseStream_repair reads idle found]
      have counted : Holds { k with planned := False } (Machine.countPlanner (fun c => { c with repairStream := bump c.repairStream })
          (setList (s.planner.list.map (fun x => if x.first = e.first then x.served else x)) s)) :=
        ⟨fun w => (h.flow w).congr rfl rfl rfl, False.elim, h.active, h.align, h.cleared⟩
      exact counted.openStream (fun w => planned_openRepair (h.planned w) reads idle (List.mem_of_find?_eq_some found)) phase
    | none =>
      have nothing : ∀ e ∈ s.planner.list, due s e = false := fun e he => Bool.eq_false_iff.mpr (List.find?_eq_none.mp found e he)
      by_cases below : s.planner.frontier.fillHead < s.store.limit
      · rw [chooseStream_frontier reads idle nothing below]
        have counted : Holds { k with planned := False } (Machine.countPlanner (fun c => { c with frontierStream := bump c.frontierStream }) s) :=
          ⟨h.flow, False.elim, h.active, h.align, h.cleared⟩
        exact counted.openStream (fun w => planned_openFrontier (h.planned w) reads idle) phase
      · rw [chooseStream_nothing nothing (Nat.not_lt.mp below)]
        exact h.unheld
  · rw [chooseStream_idle choice]
    exact h.unheld

theorem preempt (h : Holds k s) : Holds { k with flow := False } (preempt s) := by
  unfold Machine.preempt
  split
  · exact (h.closeStream _).countPlanner _
  · exact h.unheld

/-- The end of a planner's event, with the evaluation of the flow (R41, R53 to R55). -/
theorem settle {f : Prop} (h : Holds { k with flow := f } s) : Holds k (settle s) := by
  have once : ∀ {g : Prop} {u : State}, Holds { k with flow := g } u →
      Holds k (Machine.evaluateFlow (Machine.chooseStream (Machine.preempt u))) := fun w =>
    evaluateFlow (k := k) (f := False) w.preempt.chooseStream
  unfold Machine.settle
  dsimp only
  split
  · exact once (once h)
  · exact once h

theorem reflow {f : Prop} (h : Holds { k with flow := f } s) : Holds k (reflow s) := by
  unfold Machine.reflow
  dsimp only
  split
  · exact h.evaluateFlow.settle
  · exact h.evaluateFlow

/-! ### Events at the store (R16, R47) -/

theorem judgeLateness (h : Holds k s) : Holds { k with flow := False } (judgeLateness s) :=
  h.stays (judgeLateness_stays s) judgeLateness_planned

theorem storeNotified (h : Holds k s) (f : Store → Store) (wf : s.store.wf = true → (f s.store).wf = true) :
    Holds { k with flow := False } (storeNotified f s) :=
  h.stays (storeNotified_stays f s) fun w => storeNotified_planned w (wf w.wf)

/-- An event at the store, up to the end of the planner's event. -/
theorem storeEvent (h : Holds k s) (f : Store → Store) (wf : s.store.wf = true → (f s.store).wf = true) : Holds k (storeEvent f s) := by
  have notified := h.storeNotified f wf
  unfold Machine.storeEvent
  dsimp only
  split
  · exact notified.settle
  · rename_i quiet
    refine ⟨fun w => ?_, notified.planned, notified.active, notified.align, notified.cleared⟩
    obtain ⟨block, extent, -, -⟩ := Store.same_of_not_noticeDue quiet
    have same : Machine.storeNotified f s = changeStore f s := if_neg quiet
    rw [same]
    exact (h.flow w).congr (changeStore_asm f s) ((congrArg _ (changeStore_store f s)).trans block)
      ((congrArg _ (changeStore_store f s)).trans extent)

theorem retryLimitChanged (h : Holds k s) : Holds k (retryLimitChanged s) := h.storeEvent _ fun w => Store.recheckAll_wf w _

theorem declareEntry (h : Holds k s) : Holds k (declareEntry s) := h.storeEvent _ fun w => Store.declareIfOpen_wf w _

theorem changeExtent (h : Holds k s) (e : Nat) : Holds k (changeExtent e s) := by
  unfold Machine.changeExtent
  split
  · exact h
  · exact h.storeEvent _ fun w => Store.setExtent_wf w _

/-! ### Activity and flush (R52, R70) -/

/-- The planner takes a notice: its activity follows R52, and it reads nothing where it is inactive. -/
theorem plannerNotice {f a : Prop} (h : Holds { k with flow := f, active := a } s) (byRestart : Bool) :
    Holds k (plannerNotice byRestart s) := by
  unfold Machine.plannerNotice
  dsimp only
  split
  · rename_i may
    have told : Holds { k with flow := False } (s.setPlanner { s.planner with active := plannerMayRead s }) :=
      { h.stays (.refl s) (fun w => w) with
        planned := fun w =>
          have ⟨wf, proper, lists, head, short⟩ := h.planned w
          ⟨wf, { proper with inactive := fun no => absurd (may.symm.trans no) nofun }, ⟨lists.runs, lists.one, lists.last⟩, head, short⟩
        active := fun _ => rfl }
    exact told.settle
  · rename_i may
    have idle := Bool.eq_false_iff.mpr may
    have told : Holds { k with flow := False, planned := False } (s.setPlanner { s.planner with active := plannerMayRead s }) :=
      ⟨False.elim, False.elim, fun _ => rfl, h.align, h.cleared⟩
    have deactivated : ∀ u : State, k.planned → u.planner = { s.planner with active := plannerMayRead s } → u.store = s.store →
        Planned (Machine.closeStream (.deactivation byRestart) u) := fun u w planner store =>
      (h.planned w).deactivate (by rw [planner, idle]) store byRestart
    exact settle { told.closeStream _ with planned := fun w => deactivated _ w rfl rfl }

/-- A flush empties the store, the Intake and the list, whatever the store was (R14, R44, R70). -/
theorem flushStore {f : Prop} (h : Holds { k with flow := f } s) (p : Nat) : Holds k (flushStore p s) := by
  rw [flushStore_eq]
  exact settle (h.stays (flushedOut_stays p s) fun w => flushedOut_planned p w.proper)

end Holds
end Sys2Proof.Machine
end

