-- ==== Sys2Proof/Proofs/PlannerHoldsPlay.lean ====
section
/-!
SUPPORT. The parts of the planner's and the flow's relations (`Holds`) through the operations of the Play Controller and the Output
Feeder. They break one part alone, the activity of R52, and each entry to a play state mends it.
-/
namespace Sys2Proof.Machine

namespace Holds

variable {k : Parts} {s : State}

/-! ### The play state and the feeder -/

theorem mapFeeder (h : Holds k s) (g : Feeder → Feeder) : Holds k (mapFeeder g s) := h.same rfl

theorem setNotices (h : Holds k s) (x : List Bool) : Holds k (s.setNotices x) := h.same rfl

theorem resumeWrite (h : Holds k s) (p : Nat) (e : ResumeEntry) : Holds k (resumeWrite p e s) := h.same rfl

/-- A change of the Play Controller breaks the activity at most. -/
theorem mapPlay (h : Holds k s) (g : Play → Play) : Holds { k with active := False } (mapPlay g s) :=
  ⟨fun w => (h.flow w).congr rfl rfl rfl, fun w => (h.planned w).congr rfl rfl rfl rfl rfl, False.elim, h.align, h.cleared⟩

/-- What R52 reads of the Play Controller. -/
def readable (p : Play) : PlayState × Bool := (p.state, p.disc.confirmed)

/-- A change that leaves the play state and the confirmation keeps every part. -/
theorem adjustPlay (h : Holds k s) (g : Play → Play) (same : readable (g s.play) = readable s.play) : Holds k (Machine.mapPlay g s) := by
  refine { h.mapPlay g with active := fun w => ?_ }
  simp only [readable, Prod.mk.injEq] at same
  obtain ⟨state, confirmed⟩ := same
  have may := h.active w
  unfold plannerMayRead at may ⊢
  show s.planner.active = ((match (g s.play).state with
    | .cueing | .playing | .paused => true
    | .empty | .loading | .ready | .coasting | .suspended => false) && (g s.play).disc.confirmed && decide (s.health.state ≠ .withdrawn))
  rw [state, confirmed]
  exact may

theorem countPlay (h : Holds k s) (f : PlayCounters → PlayCounters) : Holds k (countPlay f s) := h.adjustPlay _ (by rfl)

/-- A play state is entered with a notice to the planner, which takes its activity from it (R52, R134). -/
theorem enterState {f a : Prop} (h : Holds { k with flow := f, active := a } s) (x : PlayState) (byRestart : Bool) :
    Holds k (enterState x byRestart s) :=
  plannerNotice (k := k) (f := f) (a := False) (h.mapPlay _) byRestart

theorem stopRequest (h : Holds k s) : Holds k (stopRequest s) := h.mapFeeder _

theorem startFeeder (h : Holds k s) (ramp gain : Nat) :
    Holds k (Machine.declareEntry (Machine.mapFeeder (fun f => f.start ramp gain) s)) := (h.mapFeeder _).declareEntry

theorem playRequest (h : Holds k s) : Holds k (playRequest s) := by
  unfold Machine.playRequest
  split
  · exact h.startFeeder _ _
  · exact h.mapFeeder _
  · split
    · exact h.startFeeder _ _
    · exact h
  · exact h
  · exact h

/-! ### Cues and flushes (R136) -/

theorem requestFlush {f : Prop} (h : Holds { k with flow := f } s) (b : Nat) : Holds k (requestFlush b s) :=
  flushStore (f := f) ((h.setNotices _).adjustPlay _ (by rfl)) b

theorem cueAt {f : Prop} (h : Holds { k with flow := f } s) (bn frame : Nat) : Holds k (cueAt bn frame s) :=
  requestFlush (f := f) (h.mapFeeder _) bn

theorem flushAtCursor {f : Prop} (h : Holds { k with flow := f } s) : Holds k (flushAtCursor s) :=
  stopRequest (h.requestFlush _)

theorem clearDisc {f a : Prop} (h : Holds { k with flow := f, active := a } s) : Holds { k with active := False } (clearDisc s) :=
  cueAt (f := f) ((h.mapPlay _).changeExtent 0) 0 0

/-! ### Notices of readiness (R16, R124, R146) -/

theorem feederPrimed (h : Holds k s) (p : Bool) : Holds k (feederPrimed p s) := by
  unfold Machine.feederPrimed
  dsimp only
  split
  · exact (h.mapFeeder _).startFeeder _ _
  · exact h.mapFeeder _

theorem leaveCueing (h : Holds k s) : Holds k (leaveCueing s) := by
  unfold Machine.leaveCueing
  split
  · exact enterState (f := k.flow) (h.mapPlay _) .paused false
  · exact (h.enterState .playing false).playRequest

theorem testCueing (h : Holds k s) : Holds k (testCueing s) := by
  unfold Machine.testCueing
  split
  · exact h.leaveCueing
  · exact h

theorem playPrimed (h : Holds k s) (p : Bool) : Holds k (playPrimed p s) := by
  have told : Holds k (Machine.mapPlay (fun x => { x with storePrimed := p, unprimed := x.unprimed && !p }) s) :=
    h.adjustPlay _ (by rfl)
  unfold Machine.playPrimed
  dsimp only
  split
  · exact told.leaveCueing
  · exact told

theorem takeAll (notices : List Bool) : ∀ {s : State}, Holds k s → Holds k (notices.foldl takeReadiness s) := by
  induction notices with
  | nil => exact fun h => h
  | cons p rest ih => exact fun h => ih ((h.feederPrimed p).playPrimed p)

theorem takeHanded (h : Holds k s) : Holds k (takeHanded s) := takeAll _ (h.setNotices [])

theorem takeNotices (h : Holds k s) : Holds k (takeNotices s) := h.takeHanded.takeHanded

/-- A step keeps what the command's own effect keeps. -/
theorem inStep {f : State → State} (hf : ∀ {u : State}, Holds k u → Holds k (f u)) {t : State} (h : Holds k s)
    (e : inStep f s = .next t) : Holds k t := by
  cases e
  exact (hf (h.setNotices [])).takeNotices.setNotices _

/-! ### Return, loading and removal -/

theorem returnToPlay {a : Prop} (h : Holds { k with active := a } s) : Holds k (returnToPlay s) := by
  have entered : ∀ x : PlayState, Holds k (Machine.enterState x false s) := fun x => enterState (f := k.flow) h x false
  unfold Machine.returnToPlay
  split
  · split
    · exact (enterState (f := k.flow) (h.countPlay _) .playing false).playRequest
    · split
      · exact (entered .playing).playRequest
      · exact (entered .cueing).stopRequest.testCueing
  · exact (entered .paused).stopRequest
  · exact (entered .cueing).stopRequest.testCueing

theorem queueLoad (h : Holds k s) (p : Nat) : Holds k (queueLoad p s) := ((h.txRequest _).adjustPlay _ (by rfl)).countPlay _

theorem loadForConfirmation (h : Holds k s) : Holds k (loadForConfirmation s) := (h.queueLoad _).adjustPlay _ (by rfl)

theorem sealAs (h : Holds k s) (m : SaveMode) (c : SealCause) : Holds k (sealAs m c s) := by
  unfold Machine.sealAs
  dsimp only
  split
  · exact h.resumeWrite _ _
  · exact h

theorem sealEntry (h : Holds k s) (c : SealCause) : Holds k (sealEntry c s) := h.sealAs _ c

theorem playBoundary (h : Holds k s) (b : Nat) : Holds k (playBoundary b s) := by
  unfold Machine.playBoundary
  dsimp only
  split
  · exact h.resumeWrite _ _
  · exact h

theorem runSelect (h : Holds k s) : Holds k (runSelect s) := by
  have cleared : ∀ {u : State} (x : PlayState) (p : Nat) (g : Play → Play), Holds k u →
      Holds k (Machine.enterState x false (Machine.queueLoad p (Machine.mapPlay g (Machine.clearDisc u)))) :=
    fun x p g w => enterState (k := k) (f := k.flow) (a := False) ((w.clearDisc.mapPlay g).queueLoad p) x false
  unfold Machine.runSelect
  dsimp only
  refine cleared _ _ _ ?_
  split
  · exact h.sealEntry _
  · exact h.sealEntry _
  · exact h.sealEntry _
  all_goals exact h

theorem runPlay (h : Holds k s) : Holds k (runPlay s) := by
  have cued : Holds k (Machine.cueAt (playBn s) (playFrame s)
      (Machine.mapPlay (fun p => { p with pauseOnPrime := false, unprimed := false }) s)) := (h.adjustPlay _ (by rfl)).cueAt _ _
  unfold Machine.runPlay
  dsimp only
  split
  · exact enterState (f := k.flow) (cued.mapPlay _) .suspended false
  · exact (cued.enterState .cueing false).testCueing

theorem runPause (h : Holds k s) : Holds k (runPause s) := by
  unfold Machine.runPause
  dsimp only
  split
  · exact enterState (f := k.flow) ((h.sealAs _ _).mapPlay _) .paused false
  · exact (h.sealAs _ _).stopRequest.enterState .paused false

theorem runContinue (h : Holds k s) : Holds k (runContinue s) := by
  have marked : Holds k (Machine.mapPlay (fun p => { p with unprimed := false, pauseOnPrime := false }) s) := h.adjustPlay _ (by rfl)
  unfold Machine.runContinue
  dsimp only
  split
  · exact (marked.enterState .playing false).playRequest
  · exact (marked.enterState .cueing false).testCueing

/-- STOP, once a seal is written: READY with a CONFIRMED disc, else the disc cleared and EMPTY (R142). -/
theorem endPlay (h : Holds k s) (w : Nat) :
    Holds k (if s.play.disc.confirmed = true then
        Machine.flushAtCursor (Machine.enterState .ready false (Machine.mapPlay (fun p => { p with causes := Causes.none }) s))
      else Machine.enterState .empty false (Machine.mapPlay (fun p => { p with wanted := w }) (Machine.clearDisc s))) := by
  split
  · exact flushAtCursor (f := k.flow) (enterState (f := k.flow) (h.mapPlay _) .ready false)
  · exact enterState (k := k) (f := k.flow) (a := False) (h.clearDisc.mapPlay _) .empty false

theorem runStop (h : Holds k s) : Holds k (runStop s) := by
  unfold Machine.runStop
  cases s.play.state
  case playing | paused | coasting => exact (h.sealAs _ _).endPlay _
  all_goals exact h.endPlay _

theorem endLoading (h : Holds k s) (r : ReadyReason) : Holds k (endLoading r s) :=
  (enterState (k := k) (f := k.flow) (a := False) (h.clearDisc.mapPlay _) .empty false).raise _ _

theorem loseDisc (h : Holds k s) (r : ReadyReason) : Holds k (loseDisc r s) :=
  (enterState (k := k) (f := k.flow) (a := False) h.clearDisc .empty false).raise _ _

theorem followPlan {a : Prop} (h : Holds { k with active := a } s) (plan : LoadPlan) : Holds k (followPlan plan s) := by
  have cued : Holds { k with active := False } (Machine.mapPlay (fun p => { p with pauseOnPrime := p.pauseOnPrime || plan.pause })
      (Machine.cueAt plan.bn plan.frame s)) := (cueAt (k := { k with active := a }) (f := k.flow) h _ _).mapPlay _
  unfold Machine.followPlan
  dsimp only
  split
  · exact enterState (k := k) (f := k.flow) (a := False) (cued.mapPlay _) .suspended false
  · exact testCueing (enterState (f := k.flow) cued _ false)

theorem forgetOther (h : Holds k s) (tag : Tag) (p : Nat) : Holds k (forgetOther tag p s) := by
  unfold Machine.forgetOther
  dsimp only
  split
  · exact h.resumeWrite _ _
  · exact h

theorem confirmLoad (h : Holds k s) (tag : Tag) (e p : Nat) : Holds k (confirmLoad tag e p s) := by
  have read : Holds { k with active := False } (Machine.forgetOther tag p (Machine.changeExtent e (Machine.countPlay
      (fun c => { c with confirmation := bump c.confirmation })
      (Machine.mapPlay (fun x => { x with disc := ⟨p, tag, e, true⟩ }) s)))) :=
    (((h.mapPlay _).countPlay _).changeExtent e).forgetOther tag p
  exact (read.followPlan _).raise _ _

theorem sameDisc (h : Holds k s) : Holds k (sameDisc s) := by
  have returned : ∀ (g : Play → Play) (p : Nat), Holds { k with active := False }
      (Machine.countPlay (fun c => { c with sameDisc := bump c.sameDisc }) (raiseReady .returned p (Machine.mapPlay g s))) :=
    fun g p => ((h.mapPlay g).raise _ _).countPlay _
  unfold Machine.sameDisc
  dsimp only
  split
  · exact returnToPlay (returned _ _)
  · exact plannerNotice (f := k.flow) (returned _ _) false

theorem newDisc (h : Holds k s) (tag : Tag) (e p : Nat) : Holds k (newDisc tag e p s) := by
  have read : ∀ g : Play → Play, Holds { k with active := False } (Machine.requestFlush 0 (Machine.changeExtent e (cueFeeder 0 0
      (Machine.mapPlay g (invalidate s.play.disc.position s))))) := fun g =>
    requestFlush (f := k.flow) ((((h.resumeWrite _ _).mapPlay g).mapFeeder _).changeExtent e) 0
  unfold Machine.newDisc
  exact countPlay (raise (enterState (f := k.flow) (read _) .ready false) _ _) _

theorem takeDisc (h : Holds k s) (tag : Tag) (e p : Nat) : Holds k (takeDisc tag e p s) := by
  have away : Holds k (if matchesReturn p s.play = true then
        (if tag = s.play.disc.tag then Machine.sameDisc s else Machine.newDisc tag e p s)
      else if s.play.confirming = true ∧ p ≠ s.play.disc.position then strayAnswer s else unsolicited s) := by
    split
    · split
      · exact h.sameDisc
      · exact h.newDisc _ _ _
    · split
      · exact h.countPlay _
      · exact h.countPlay _
  unfold Machine.takeDisc
  split
  · split
    · exact h.confirmLoad _ _ _
    · exact h.countPlay _
  · exact away
  · exact away
  all_goals exact h.countPlay _

theorem coastOrSuspend {a : Prop} (h : Holds { k with active := a } s) (byRestart : Bool) : Holds k (coastOrSuspend byRestart s) := by
  unfold Machine.coastOrSuspend
  split
  · exact enterState (f := k.flow) h .suspended byRestart
  · exact (enterState (f := k.flow) h .coasting byRestart).countPlay _

theorem driveAway (h : Holds k s) (byRestart reload : Bool) : Holds k (driveAway byRestart reload s) := by
  have load : ∀ {u : State}, Holds { k with active := False } u → Holds { k with active := False }
      (if (reload && (!u.play.causes.tray || u.play.confirming)) = true then Machine.loadForConfirmation u else u) := by
    intro u w
    split
    · exact w.loadForConfirmation
    · exact w
  have away : ∀ g : Play → Play, Holds { k with active := False } (Machine.mapPlay g (Machine.sealEntry .drive s)) :=
    fun g => (h.sealEntry _).mapPlay g
  unfold Machine.driveAway
  dsimp only
  split
  · exact enterState (f := k.flow) (stopRequest (load (away _))) .suspended byRestart
  · exact enterState (f := k.flow) (stopRequest (load (away _))) .suspended byRestart
  · exact coastOrSuspend (load (away _)) byRestart
  · exact plannerNotice (f := k.flow) (load (h.mapPlay _)) byRestart
  · exact plannerNotice (f := k.flow) (load (h.mapPlay _)) byRestart
  all_goals exact h

theorem takeGone (h : Holds k s) (p : Nat) : Holds k (takeGone p s) := by
  have away : Holds k (if p ≠ s.play.disc.position then strayAnswer s
      else if s.play.confirming = true then Machine.loseDisc .noDisc s else Machine.driveAway false false s) := by
    split
    · exact h.countPlay _
    · split
      · exact h.loseDisc _
      · exact h.driveAway _ _
  unfold Machine.takeGone
  split
  · exact h.countPlay _
  · split
    · exact h.endLoading _
    · exact h.countPlay _
  · split
    · exact h.loseDisc _
    · exact h.countPlay _
  all_goals exact away

theorem playRestart (h : Holds k s) : Holds k (playRestart s) := by
  unfold Machine.playRestart
  split
  · exact h
  · exact h.queueLoad _
  · exact enterState (k := k) (f := k.flow) (a := False) ((h.clearDisc.mapPlay _).queueLoad _) .loading true
  all_goals exact h.driveAway _ _

theorem playTrayOut (h : Holds k s) : Holds k (playTrayOut s) := by
  have away : ∀ g : Play → Play, Holds { k with active := False } (Machine.mapPlay g (Machine.sealEntry .tray s)) :=
    fun g => (h.sealEntry _).mapPlay g
  unfold Machine.playTrayOut
  dsimp only
  split
  · exact h
  · exact h.endLoading _
  · exact enterState (f := k.flow) (h.sealEntry _).clearDisc .empty false
  · exact enterState (f := k.flow) (stopRequest (away _)) .suspended false
  · exact enterState (f := k.flow) (stopRequest (away _)) .suspended false
  · exact coastOrSuspend (away _) false
  · exact plannerNotice (f := k.flow) (away _) false
  · exact plannerNotice (f := k.flow) (away _) false

theorem playTrayIn (h : Holds k s) : Holds k (playTrayIn s) := by
  unfold Machine.playTrayIn
  split
  · exact h.loadForConfirmation
  · exact h

theorem timeOutLoad (h : Holds k s) : Holds k (timeOutLoad s) := by
  unfold Machine.timeOutLoad
  dsimp only
  split
  · exact endLoading (adjustPlay (h.countPlay _) _ (by rfl)) _
  · exact loseDisc (adjustPlay (h.countPlay _) _ (by rfl)) _

theorem loadTick (h : Holds k s) : Holds k (loadTick s) := by
  unfold Machine.loadTick
  split
  · exact h.timeOutLoad
  · split
    · exact h.adjustPlay _ (by rfl)
    · exact h

/-! ### Starvation, supply, end of disc -/

theorem playStarved (h : Holds k s) : Holds k (playStarved s) := by
  unfold Machine.playStarved
  split
  · exact (h.sealAs _ _).enterState .suspended false
  · exact h

theorem supplySuspends (h : Holds k s) : Holds k (supplySuspends s) := (h.stopRequest.sealEntry _).txRequest _

theorem playSupplyWarning (h : Holds k s) : Holds k (playSupplyWarning s) := by
  have warned : Holds k (Machine.mapPlay (fun p => { p with supplyWarned := true }) s) := h.adjustPlay _ (by rfl)
  unfold Machine.playSupplyWarning
  dsimp only
  split
  · exact enterState (f := k.flow) (countPlay (supplySuspends (warned.mapPlay _)) _) .suspended false
  · exact enterState (f := k.flow) (countPlay (supplySuspends (warned.mapPlay _)) _) .suspended false
  · exact enterState (f := k.flow) (countPlay (supplySuspends (warned.mapPlay _)) _) .suspended false
  · exact enterState (f := k.flow) (countPlay (supplySuspends (warned.mapPlay _)) _) .suspended false
  · exact supplySuspends (warned.adjustPlay _ (by rfl))
  all_goals exact warned

theorem playSupplyRecovery (h : Holds k s) : Holds k (playSupplyRecovery s) := by
  have recovered : Holds k (Machine.mapPlay
      (fun p => { p with supplyWarned := false, causes := { p.causes with supply := false } }) s) := h.adjustPlay _ (by rfl)
  unfold Machine.playSupplyRecovery
  dsimp only
  split
  · split
    · exact recovered.returnToPlay
    · exact (recovered.enterState .paused false).stopRequest
  · exact recovered

theorem endNotice (h : Holds k s) : Holds k (endNotice s) := by
  have noticed : Holds k (Machine.mapPlay
      (fun p => { p with causes := Causes.none, confirming := false, pauseOnPrime := false, unprimed := false })
      (invalidate s.play.disc.position (Machine.countPlay (fun c => { c with endOfDisc := bump c.endOfDisc })
        (Machine.raise .endOfDisc s.play.disc.position s)))) :=
    (((h.raise _ _).countPlay _).resumeWrite _ _).adjustPlay _ (by rfl)
  unfold Machine.endNotice
  dsimp only
  split
  · exact noticed.enterState .ready false
  · exact enterState (f := k.flow) noticed.clearDisc .empty false

theorem endOfDisc (h : Holds k s) : Holds k (endOfDisc s) := by
  unfold Machine.endOfDisc
  split
  · exact h
  · exact (h.mapFeeder _).endNotice

theorem feederExtent (h : Holds k s) : Holds k (feederExtent s) := by
  unfold Machine.feederExtent
  split
  · exact h.endOfDisc
  · split
    · exact h.mapFeeder _
    · exact h

theorem cutExtent (h : Holds k s) (x : Nat) : Holds k (cutExtent x s) := by
  unfold Machine.cutExtent
  dsimp only
  split
  · exact feederExtent (raise ((h.adjustPlay _ (by rfl)).changeExtent x) _ _)
  · exact h

/-! ### The frame demand -/

theorem clockReturn (h : Holds k s) : Holds k (clockReturn s) := by
  unfold Machine.clockReturn
  split
  · exact (h.mapFeeder _).raise _ _
  · exact h

theorem boundary (h : Holds k s) (b : Nat) : Holds k (boundary b s) := by
  have left := ((h.storeEvent (fun t => t.advance b) fun w => Store.advance_wf w b).declareEntry).playBoundary (b + 1)
  unfold Machine.boundary
  dsimp only
  split
  · exact left.endOfDisc
  · exact left

theorem giveFrame (h : Holds k s) : Holds k (giveFrame s) := by
  have raised : Holds k (raiseConceal (formFrame s) s) := by
    unfold raiseConceal
    split
    · exact h
    · exact h
    · exact h.raise _ _
  unfold Machine.giveFrame
  dsimp only
  split
  · exact ((raised.mapFeeder _).boundary _).mapFeeder _
  · exact (raised.mapFeeder _).mapFeeder _

theorem demandPlaying (h : Holds k s) : Holds k (demandPlaying s) := by
  unfold Machine.demandPlaying
  split
  · exact (h.mapFeeder _).endOfDisc
  · split
    · split
      · exact h.mapFeeder _
      · exact ((h.mapFeeder _).raise _ _).playStarved
    · exact h.giveFrame

theorem demand (h : Holds k s) : Holds k (demand s) := by
  have returned := (h.mapFeeder (fun f => { f with seen := true })).clockReturn
  unfold Machine.demand
  dsimp only
  split
  · exact returned.mapFeeder _
  · exact returned.mapFeeder _
  all_goals exact returned.demandPlaying

theorem frameDemand (h : Holds k s) (l r : Nat) : Holds k (frameDemand l r s) := h.demand.mapFeeder _

theorem loseClock (h : Holds k s) : Holds k (loseClock s) := (h.mapFeeder _).raise _ _

theorem clockTick (h : Holds k s) : Holds k (clockTick s) := by
  unfold Machine.clockTick
  split
  · exact h.loseClock
  · exact h.mapFeeder _

end Holds

end Sys2Proof.Machine
end

