-- ==== Sys2Proof/Proofs/PlannerHoldsStream.lean ====
section
/-!
SUPPORT. The parts of the planner's and the flow's relations (`Holds`) through the Monitor, the answers of the drive and a placement.
Between the Assembler's own change of its alignment and the report to the planner the two do not agree, and `Ahead` says what does hold.
-/
namespace Sys2Proof.Machine

/-- The counts of the entries may be set to any value in their ranges (R46). -/
theorem Planned.relist {s : State} (h : Planned s) {g : RepairEntry → RepairEntry}
    (same : ∀ e, (g e).first = e.first ∧ (g e).last = e.last ∧ (g e).active = e.active)
    (counts : ∀ e ∈ s.planner.list, e.attempts ≤ 15 ∧ e.mislocks ≤ 3 → (g e).attempts ≤ 15 ∧ (g e).mislocks ≤ 3) :
    Planned (setList (s.planner.list.map g) s) := by
  obtain ⟨wf, proper, lists, head, short⟩ := h
  have first : ∀ e, (g e).first = e.first := fun e => (same e).1
  have last : ∀ e, (g e).last = e.last := fun e => (same e).2.1
  have active : ∀ e, (g e).active = e.active := fun e => (same e).2.2
  refine ⟨wf, { proper with counts := ?_, idle := fun closed => ?_ }, ⟨?_, ?_, ?_⟩, head, ?_⟩
  · exact List.forall_mem_map.mpr fun e he => counts e he (proper.counts e he)
  · exact List.forall_mem_map.mpr fun e he => (active e).trans (proper.idle closed e he)
  · refine Eq.trans ?_ lists.runs
    show (s.planner.list.map g).map _ = _
    rw [List.map_map]
    exact List.map_congr_left fun e _ => Prod.ext (first e) (last e)
  · show ((s.planner.list.map g).filter _).length ≤ 1
    rw [List.filter_map, List.length_map, show RepairEntry.active ∘ g = RepairEntry.active from funext active]
    exact lists.one
  · exact List.forall_mem_map.mpr fun e he act => (lists.last e he ((active e).symm.trans act)).trans (last e).symm
  · exact Nat.le_trans (Nat.le_of_eq (List.length_map _)) short

namespace Holds

variable {k : Parts} {s : State}

/-! ### The Monitor -/

/-- A change of the Monitor that leaves the health state keeps every part. -/
theorem setHealth (h : Holds k s) (x : Health) (state : x.state = s.health.state) : Holds k (s.setHealth x) := by
  refine h.same ?_
  unfold State.basis
  rw [State.health_setHealth, state]
  rfl

/-- A change of the health state breaks the activity at most (R52). -/
theorem changeHealth (h : Holds k s) (x : Health) : Holds { k with active := False } (s.setHealth x) :=
  ⟨fun w => (h.flow w).congr rfl rfl rfl, fun w => (h.planned w).congr rfl rfl rfl rfl rfl, False.elim, h.align, h.cleared⟩

theorem requestPace (h : Holds k s) (level : Pace) : Holds k (requestPace level s) := by
  unfold Machine.requestPace
  split
  · exact h
  · exact (h.setHealth _ (by rfl)).txRequest _

theorem rederiveHealth (h : Holds k s) : Holds k (rederiveHealth s) := by
  unfold Machine.rederiveHealth
  dsimp only
  split
  · exact h
  · exact ((plannerNotice (k := k) (f := k.flow) (a := False) (h.changeHealth _) false).requestPace _).raise _ _

theorem addSkip (h : Holds k s) (amount : Nat) : Holds k (addSkip amount s) := by
  unfold Machine.addSkip
  split
  · exact h
  · exact (h.setHealth _ (by rfl)).rederiveHealth

theorem takeReport (h : Holds k s) (cls : ErasureClass) (inSequence : Bool) : Holds k (takeReport cls inSequence s) := by
  have scored : Holds k (Machine.rederiveHealth (s.setHealth (s.health.report cls inSequence))) :=
    (h.setHealth _ (s.health.scored_report cls inSequence).state).rederiveHealth
  unfold Machine.takeReport rederiveRough
  dsimp only
  split
  · exact scored
  · split
    · exact scored.retryLimitChanged.raise _ _
    · exact (scored.setHealth _ (by rfl)).retryLimitChanged.raise _ _

theorem monitorJump (h : Holds k s) : Holds k (monitorJump s) := by
  unfold Machine.monitorJump
  split
  · exact h.setHealth _ (by rfl)
  · exact h

theorem monitorShock (h : Holds k s) : Holds k (monitorShock s) := by
  unfold Machine.monitorShock
  split
  · exact h.setHealth _ (by rfl)
  · exact h.addSkip _

theorem recoverHealth (h : Holds k s) : Holds k (recoverHealth s) :=
  (plannerNotice (k := k) (f := k.flow) (a := False) ((h.changeHealth _).txRequest _) false).raise _ _

theorem monitorTick (h : Holds k s) : Holds k (monitorTick s) := by
  unfold Machine.monitorTick
  split
  · exact h.recoverHealth
  · exact h.setHealth _ (by rfl)

/-! ### Refusals and broken streams (R57, R59, R60, R63) -/

theorem countPlacement (h : Holds k s) (f : PlacementCounters → PlacementCounters) : Holds k (countPlacement f s) := h.same rfl

/-- A stream record that differs in the timer alone (R57). -/
theorem setTimer (h : Holds k s) (n : Nat) (runs : Bool) (bound : n ≤ 1023)
    (seeking : runs = true → s.planner.stream.timerRuns = true ∨ s.planner.stream.state = .seeking) :
    Holds k (setStream { s.planner.stream with timer := n, timerRuns := runs } s) where
  flow w := (h.flow w).congr rfl rfl rfl
  planned w :=
    have ⟨wf, proper, lists, head, short⟩ := h.planned w
    ⟨wf, { proper with timer := bound, timerRuns := fun on => (seeking on).elim proper.timerRuns id },
      ⟨lists.runs, lists.one, lists.last⟩, head, short⟩
  active := h.active
  align w := (h.align w).congr rfl rfl
  cleared := h.cleared

theorem seekSent (h : Holds k s) (n : Nat) : Holds k (seekSent n s) := by
  unfold Machine.seekSent
  dsimp only
  split
  · rename_i current
    exact h.setTimer 0 true (by decide) fun _ => .inr current.2
  · exact h

theorem advanceSeekTimer (h : Holds k s) : Holds k (advanceSeekTimer s) := h.setTimer _ _ (satAdd_le _ _ _) .inl

theorem timeOutSeek (h : Holds k s) : Holds k (timeOutSeek s) :=
  ((h.advanceSeekTimer.countPlanner _).closeStream _).settle.addSkip _

theorem seekTick (h : Holds k s) : Holds k (seekTick s) := by
  unfold Machine.seekTick
  split
  · exact h.timeOutSeek
  · split
    · exact h.advanceSeekTimer
    · exact h

theorem breakStream (h : Holds k s) : Holds k (breakStream s) := (h.closeStream _).settle.addSkip _

theorem takeJump (h : Holds k s) (n : Nat) : Holds k (takeJump n s) := by
  unfold Machine.takeJump
  split
  · exact (h.countPlanner _).breakStream
  · exact h.countPlanner _

theorem setRefusals (h : Holds k s) (n : Nat) (bound : n ≤ 15) :
    Holds k (setFrontier { s.planner.frontier with refusals := n } s) where
  flow w := (h.flow w).congr rfl rfl rfl
  planned w := (h.planned w).setFrontier rfl (h.planned w).proper.mislocks bound
  active := h.active
  align w := (h.align w).congr rfl rfl
  cleared := h.cleared

theorem refuseFrontier (h : Holds k s) : Holds k (refuseFrontier s) := by
  unfold Machine.refuseFrontier
  dsimp only
  split
  · exact ((h.setRefusals 0 (by decide)).countPlanner _).cutExtent _
  · exact h.setRefusals _ (satAdd_le _ _ _)

theorem refuseBusy (h : Holds k s) : Holds k (refuseBusy s) := by
  have closed := (h.countPlanner (fun c => { c with refusedBusy := bump c.refusedBusy })).closeStream .busy
  unfold Machine.refuseBusy
  dsimp only
  refine addSkip (settle (f := False) ?_) _
  split
  · exact closed.refuseFrontier
  · exact closed

theorem refuseRange (h : Holds k s) : Holds k (refuseRange s) :=
  settle (f := False) (((h.countPlanner _).closeStream _).cutExtent _)

theorem takeRefused (h : Holds k s) (n reason : Nat) : Holds k (takeRefused n reason s) := by
  unfold Machine.takeRefused
  split
  · split
    · exact h.refuseBusy
    · exact h.refuseRange
  · exact h.countPlanner _

theorem endCheck (h : Holds k s) : Holds { k with flow := False } (endCheck s) := by
  unfold Machine.endCheck
  split
  · exact h.closeStream _
  · exact h.unheld

/-- The target's count of mislocks changes, within its range (R58, R64). -/
theorem mapTargetMislocks (h : Holds k s) (f : Nat → Nat) (bound : ∀ n, f n ≤ 3) : Holds k (mapTargetMislocks f s) := by
  unfold Machine.mapTargetMislocks
  split
  · exact ⟨fun w => (h.flow w).congr rfl rfl rfl, fun w => (h.planned w).setFrontier rfl (bound _) (h.planned w).proper.refusals,
      h.active, fun w => (h.align w).congr rfl rfl, h.cleared⟩
  · refine ⟨fun w => (h.flow w).congr rfl rfl rfl, fun w => (h.planned w).relist (fun e => ?_) fun e _ counts => ?_,
      h.active, fun w => (h.align w).congr rfl rfl, h.cleared⟩
    · split <;> exact ⟨rfl, rfl, rfl⟩
    · split
      · exact ⟨counts.1, bound _⟩
      · exact counts

/-- Fewer parts may be asked. -/
theorem mono {j : Parts} (h : Holds k s) (flow : j.flow → k.flow) (planned : j.planned → k.planned) (active : j.active → k.active)
    (align : j.align → k.align) (cleared : j.cleared → k.cleared) : Holds j s :=
  ⟨fun w => h.flow (flow w), fun w => h.planned (planned w), fun w => h.active (active w), fun w => h.align (align w),
    fun w => h.cleared (cleared w)⟩

/-! ### A landing (R25, R58) -/

/-- The record of a SEEKING stream takes the landing; its alignment is not asked yet. -/
theorem beginLanding (h : Holds k s) (seeking : s.planner.stream.state = .seeking) (landing : Nat) :
    Holds k (beginLanding landing s) := by
  have begun : Holds k (setStream { s.planner.stream with timerRuns := false, expected := landing }
      (Machine.countPlanner (fun c => { c with landed := bump c.landed }) s)) :=
    { flow := fun w => (h.flow w).congr rfl rfl rfl
      planned := fun w =>
        have ⟨wf, proper, lists, head, short⟩ := h.planned w
        ⟨wf, ⟨proper.counts, proper.idle, proper.mislocks, proper.refusals, proper.inactive, nofun, proper.timer, proper.number⟩,
          ⟨lists.runs, lists.one, lists.last⟩, head, short⟩
      active := h.active
      align := fun w =>
        have ⟨landless, offset, _⟩ := h.align w
        ⟨landless, offset, fun landed => absurd (landless.mpr (.inr seeking)) landed⟩
      cleared := h.cleared }
  unfold Machine.beginLanding
  dsimp only
  split
  · exact begun.mapTargetMislocks _ fun _ => Nat.zero_le _
  · exact begun

end Holds

theorem beginLanding_stream (landing : Nat) (s : State) :
    (beginLanding landing s).planner.stream = { s.planner.stream with timerRuns := false, expected := landing } := by
  unfold beginLanding
  dsimp only
  split
  · unfold mapTargetMislocks
    split <;> rfl
  · rfl

/-- What R25's table says does not rest on the planner's record. -/
theorem beginLanding_kind (landing : Nat) (s : State) (start target : Nat) (blind : Bool) :
    setUpKindOf start target blind (beginLanding landing s) = setUpKindOf start target blind s := by
  unfold beginLanding
  dsimp only
  split
  · unfold mapTargetMislocks
    split <;> rfl
  · rfl

/-- A set-up leaves everything of the basis but the alignment. -/
theorem setUp_fields (n start target landing : Nat) (blind : Bool) (s : State) :
    (setUp n start target landing blind s).basis =
      (s.setAsm { s.asm with align := ⟨n, (setUpKindOf start target blind s).phase, start, target, landing, 0⟩ }).basis := by
  unfold setUp SetUpKind.report
  dsimp only
  split <;> rfl

theorem SetUpKind.phase_ne_none (kind : SetUpKind) : kind.phase ≠ .none := by
  cases kind <;> nofun

theorem Phase.streamState_landed {x : Phase} (h : x ≠ .none) : x.streamState ≠ .none ∧ x.streamState ≠ .seeking := by
  cases x
  case none => exact absurd rfl h
  all_goals exact ⟨nofun, nofun⟩

/-- The alignment of a landed stream agrees with a record of the same number, state, expected BN and offset. -/
theorem alignSound_landed {s : State} (landed : s.asm.align.phase ≠ .none) (number : s.asm.align.stream = s.planner.stream.number)
    (state : s.asm.align.phase.streamState = s.planner.stream.state) (expected : s.asm.align.expected = s.planner.stream.expected)
    (offset : s.asm.align.offset = s.planner.stream.offset) : AlignSound s := by
  obtain ⟨open_, unsought⟩ := Phase.streamState_landed landed
  rw [state] at open_ unsought
  exact ⟨⟨fun none => absurd none landed, fun none => absurd none (not_or.mpr ⟨open_, unsought⟩)⟩, fun seeking => absurd seeking unsought,
    fun _ => ⟨number, state, expected, offset⟩⟩

namespace Holds

variable {k : Parts} {s : State}

/-- A change of the alignment alone leaves the planner's own parts. -/
theorem realign {t : State} (h : Holds k s) (x : Align) (basis : t.basis = (s.setAsm { s.asm with align := x }).basis) :
    Holds ⟨False, k.planned, k.active, False, False⟩ t :=
  have moved : Holds ⟨False, k.planned, k.active, False, False⟩ (s.setAsm { s.asm with align := x }) :=
    ⟨False.elim, fun w => (h.planned w).congr rfl rfl rfl rfl rfl, h.active, False.elim, False.elim⟩
  moved.same basis

/-- The landed stream takes the state that mirrors the phase, and with it agrees with the alignment (R51, R58). -/
theorem mirror {x : Align} (h : Holds ⟨k.flow, k.planned, k.active, False, False⟩ s) (uncleared : ¬ k.cleared)
    (align : s.asm.align = x) (phase : x.phase ≠ .none) (open_ : s.planner.stream.state = .seeking)
    (idle : s.planner.stream.timerRuns = false)
    (agrees : k.align → x.stream = s.planner.stream.number ∧ x.expected = s.planner.stream.expected ∧
      x.offset = s.planner.stream.offset) :
    Holds k (setStream { s.planner.stream with state := x.phase.streamState } s) := by
  subst align
  obtain ⟨landed, -⟩ := Phase.streamState_landed phase
  refine ⟨fun w => (h.flow w).congr rfl rfl rfl, fun w => ?_, h.active, fun w => ?_, fun w => absurd w uncleared⟩
  · obtain ⟨wf, proper, lists, head, short⟩ := h.planned w
    refine ⟨wf, { proper with idle := ?_, inactive := ?_, timerRuns := ?_ }, ⟨lists.runs, lists.one, lists.last⟩, head, short⟩
    · exact fun closed => proper.idle (.inr (closed.resolve_left landed))
    · exact fun no => absurd (open_.symm.trans (proper.inactive no)) nofun
    · exact fun on => absurd (idle.symm.trans on) nofun
  · obtain ⟨number, expected, offset⟩ := agrees w
    exact alignSound_landed phase number rfl expected offset

/-- A landing: the Assembler's alignment first, then the stream record, and the two agree (R25, R51, R58). -/
theorem land (h : Holds k s) (uncleared : ¬ k.cleared) (seeking : s.planner.stream.state = .seeking) (landing : Nat) :
    Holds k (land landing s) := by
  have begun := h.beginLanding seeking landing
  have stream := beginLanding_stream landing s
  have kind := beginLanding_kind landing s s.planner.stream.start s.planner.stream.target (forcesBlind s)
  unfold Machine.land
  dsimp only
  generalize Machine.beginLanding landing s = b at begun stream kind
  have fields := setUp_fields s.planner.stream.number s.planner.stream.start s.planner.stream.target landing (forcesBlind s) b
  rw [kind] at fields
  have up := evaluateFlow (k := ⟨k.flow, k.planned, k.active, False, False⟩) (f := False) (begun.realign _ fields)
  generalize setUp _ _ _ _ _ b = u at fields up
  simp only [State.basis, State.asm_setAsm, State.planner_setAsm, Prod.mk.injEq] at fields
  obtain ⟨-, ⟨-, align, -⟩, ⟨-, -, same, -⟩, -⟩ := fields
  obtain ⟨planner, -, -, kept⟩ := evaluateFlow_keeps u
  have stream' := (congrArg Planner.stream planner).trans (same.trans stream)
  refine settle (f := False) (endCheck (up.mirror uncleared (kept.trans align) (SetUpKind.phase_ne_none _) ?_ ?_ fun w => ?_))
  · rw [stream']; exact seeking
  · rw [stream']
  · rw [stream']
    exact ⟨rfl, rfl, ((h.align w).2.1 seeking).symm⟩

theorem takeLanded (h : Holds k s) (uncleared : ¬ k.cleared) (n landing : Nat) : Holds k (takeLanded n landing s) := by
  unfold Machine.takeLanded
  split
  · rename_i answers
    simp only [answersSeek, Bool.and_eq_true, decide_eq_true_eq] at answers
    exact h.land uncleared answers.2 landing
  · exact h.countPlanner _

end Holds

end Sys2Proof.Machine
end

