-- ==== Sys2Proof/Proofs/PlannerHoldsPlacing.lean ====
section
/-!
SUPPORT. The parts of the planner's and the flow's relations (`Holds`) through a placement. From the Assembler's own change of its
alignment to the report, the stream record is behind the alignment by what the report bears (`Ahead`).
-/
namespace Sys2Proof.Machine

/-- Either the stream was closed and the alignment with it, or the record agrees with the alignment once it has the report, which names
it (R24, R62). -/
def Ahead (n expected : Nat) (anchored : Option Int) (s : State) : Prop :=
  (s.planner.stream.state = .none ∧ s.asm.align.phase = .none) ∨
    (s.planner.stream.state ≠ .seeking ∧ n = s.planner.stream.number ∧
      AlignSound (setStream (s.planner.stream.report expected anchored) s))

section
variable {n expected : Nat} {anchored : Option Int} {s t : State}

theorem Stream.report_course {x y : Stream} (h : x.course = y.course) (expected : Nat) (anchored : Option Int) :
    (x.report expected anchored).course = (y.report expected anchored).course := by
  simp only [Stream.course, Prod.mk.injEq] at h
  obtain ⟨number, state, before, offset⟩ := h
  cases anchored <;> simp only [Stream.report, Stream.course, number, state, offset]

/-- A report leaves no stream where there was none, and begins none that seeks. -/
theorem Stream.report_state {x : Stream} : ((x.report expected anchored).state = .none ↔ x.state = .none) ∧
    ((x.report expected anchored).state = .seeking → x.state = .seeking) := by
  cases anchored
  · exact ⟨Iff.rfl, id⟩
  · unfold Stream.report
    dsimp only
    split <;> simp [*]

theorem Ahead.stays (h : Ahead n expected anchored s) (stays : Stays s t) : Ahead n expected anchored t := by
  rcases stays.stream with ⟨align, course⟩ | closed
  · have same := course
    simp only [Stream.course, Prod.mk.injEq] at same
    obtain ⟨number, state, -, -⟩ := same
    rcases h with ⟨none, phase⟩ | ⟨unsought, current, sound⟩
    · exact .inl ⟨state.trans none, (congrArg Align.phase align).trans phase⟩
    · exact .inr ⟨state ▸ unsought, number ▸ current, sound.congr align (Stream.report_course course expected anchored)⟩
  · exact .inl closed

end

namespace Holds

variable {k : Parts} {s : State}

/-- The stream record takes the report (R62). -/
theorem report {f : Prop} {expected : Nat} {anchored : Option Int} (h : Holds ⟨f, k.planned, k.active, False, k.cleared⟩ s)
    (unsought : k.planned → s.planner.stream.state ≠ .seeking)
    (sound : k.align → AlignSound (setStream (s.planner.stream.report expected anchored) s)) :
    Holds ⟨f, k.planned, k.active, k.align, k.cleared⟩ (setStream (s.planner.stream.report expected anchored) s) := by
  refine ⟨fun w => (h.flow w).congr rfl rfl rfl, fun w => ?_, h.active, sound, h.cleared⟩
  obtain ⟨wf, proper, lists, head, short⟩ := h.planned w
  obtain ⟨closed, -⟩ := Stream.report_state (x := s.planner.stream) (expected := expected) (anchored := anchored)
  have still : (s.planner.stream.report expected anchored).timerRuns = s.planner.stream.timerRuns := by cases anchored <;> rfl
  have purpose : (s.planner.stream.report expected anchored).purpose = s.planner.stream.purpose := by cases anchored <;> rfl
  have served : (s.planner.stream.report expected anchored).servedLast = s.planner.stream.servedLast := by cases anchored <;> rfl
  have timer : (s.planner.stream.report expected anchored).timer = s.planner.stream.timer := by cases anchored <;> rfl
  have number : (s.planner.stream.report expected anchored).number = s.planner.stream.number := by cases anchored <;> rfl
  refine ⟨wf, ⟨proper.counts, fun done => ?_, proper.mislocks, proper.refusals, fun no => closed.mpr (proper.inactive no),
    fun on => ?_, timer ▸ proper.timer, number ▸ proper.number⟩, ⟨lists.runs, lists.one, fun e he act => ?_⟩, head, short⟩
  · exact proper.idle (done.imp closed.mp fun x => purpose.symm.trans x)
  · exact absurd (proper.timerRuns (still ▸ on)) (unsought w)
  · exact served.trans (lists.last e he act)

/-- The planner takes the report of a placement, and its record agrees with the alignment again (R62). -/
theorem takePlacement {f : Prop} {n expected : Nat} {anchored : Option Int} (h : Holds ⟨f, k.planned, k.active, False, k.cleared⟩ s)
    (whole : k.planned → k.align) (ahead : k.align → Ahead n expected anchored s) :
    Holds k (takePlacement n expected anchored s) := by
  have closed : ∀ w : k.align, s.planner.stream.state = .none →
      AlignSound (setStream (s.planner.stream.report expected anchored) s) := fun w none => by
    rcases ahead w with ⟨-, phase⟩ | ⟨-, -, sound⟩
    · exact alignSound_closed (Stream.report_state.1.mpr none) phase
    · exact sound
  unfold Machine.takePlacement
  split
  · refine settle (f := False) (endCheck (k := ⟨f, k.planned, k.active, k.align, k.cleared⟩) (h.report (fun w seeking => ?_) fun w => ?_))
    · rcases ahead (whole w) with ⟨none, -⟩ | ⟨unsought, -, -⟩
      · exact absurd (none.symm.trans seeking) nofun
      · exact unsought seeking
    · rcases ahead w with ⟨none, -⟩ | ⟨-, -, sound⟩
      · exact closed w none
      · exact sound
  · rename_i other
    refine settle (f := f) ⟨h.flow, h.planned, h.active, fun w => ?_, h.cleared⟩
    rcases ahead w with ⟨none, phase⟩ | ⟨-, current, -⟩
    · exact alignSound_closed none phase
    · exact absurd current other

theorem reportPlacement {f : Prop} {n : Nat} {x : IntakeEntry} {anchored : Option Int} {inSequence : Bool}
    (h : Holds ⟨f, k.planned, k.active, False, k.cleared⟩ s) (whole : k.planned → k.align)
    (ahead : k.align → Ahead n (x.bn + 1) anchored s) : Holds k (reportPlacement n x anchored inSequence s) :=
  (h.takePlacement whole ahead).takeReport _ _

/-! ### Store steps of a placement (R9) -/

theorem takeSteps {steps : List MergeStep} (index : ∀ m ∈ steps, ∀ x ∈ m.frames, x.1 < Config.framesPerBlock) :
    ∀ {k : Parts} {s : State}, Holds k s → Holds { k with flow := False } (takeSteps steps s) := by
  induction steps with
  | nil => exact fun h => h.unheld
  | cons m rest ih =>
    intro k s h
    exact ih (k := { k with flow := False }) (fun x hx => index x (List.mem_cons_of_mem _ hx)) (h.storeNotified (fun t => t.merge (effectiveRetry s) m.bn m.frames)
      fun w => Store.merge_wf w _ _ (index m List.mem_cons_self))

end Holds

theorem takeSteps_stays (steps : List MergeStep) : ∀ s : State, Stays s (takeSteps steps s) := by
  induction steps with
  | nil => exact .refl
  | cons m rest ih => exact fun s => (storeNotified_stays _ s).trans (ih _)

namespace Holds

variable {k : Parts} {s : State}

/-- The Assembler moves its alignment on and evaluates its flow; the record is behind it by the report to come (R24, R27, R41). -/
theorem moveAlign (h : Holds { k with flow := False } s) (f : PlacementCounters → PlacementCounters) (x : Align) :
    Holds ⟨k.flow, k.planned, k.active, False, False⟩ (Machine.evaluateFlow (setAlign x (Machine.countPlacement f s))) :=
  evaluateFlow (k := ⟨k.flow, k.planned, k.active, False, False⟩) (f := False) ((h.countPlacement f).realign x rfl)

end Holds

/-- A placement moves the alignment of the current stream on to the next BN, and the anchoring names the offset (R27, R31, R62). -/
theorem ahead_moved {s : State} (sound : AlignSound s) (landed : s.asm.align.phase ≠ .none) (f : PlacementCounters → PlacementCounters)
    {x : Align} (expected : Nat) (anchored : Option Int) (stream : x.stream = s.asm.align.stream) (next : x.expected = expected)
    (phase : x.phase ≠ .none) (named : match anchored with
      | none => x.phase = s.asm.align.phase ∧ x.offset = s.asm.align.offset
      | some d => x.phase = .anchored ∧ x.offset = d) :
    Ahead s.asm.align.stream expected anchored (evaluateFlow (setAlign x (countPlacement f s))) := by
  obtain ⟨planner, -, -, align⟩ := evaluateFlow_keeps (setAlign x (countPlacement f s))
  have same : (evaluateFlow (setAlign x (countPlacement f s))).planner.stream = s.planner.stream := congrArg Planner.stream planner
  obtain ⟨landless, -, agrees⟩ := sound
  obtain ⟨number, state, -, offset⟩ := agrees landed
  obtain ⟨open_, unsought⟩ := Phase.streamState_landed landed
  rw [state] at open_ unsought
  refine .inr ⟨same ▸ unsought, same ▸ number, ?_⟩
  rw [same]
  have moved : ∀ y : Stream, y.number = s.planner.stream.number → y.expected = expected → x.phase.streamState = y.state →
      x.offset = y.offset → AlignSound (setStream y (evaluateFlow (setAlign x (countPlacement f s)))) := by
    intro y number' expected' state' offset'
    refine alignSound_landed ?_ ?_ ?_ ?_ ?_
    all_goals rw [show (setStream y _).asm.align = x from align]
    · exact phase
    · exact stream.trans (number.trans number'.symm)
    · exact state'
    · exact next.trans expected'.symm
    · exact offset'
  cases anchored with
  | none =>
    obtain ⟨still, held⟩ := named
    exact moved _ rfl rfl ((congrArg Phase.streamState still).trans state) (held.trans offset)
  | some d =>
    obtain ⟨anchors, named⟩ := named
    refine moved _ rfl rfl ?_ named
    rw [anchors]
    show StreamState.anchored = match s.planner.stream.state with
      | .none => .none
      | .seeking | .searching | .anchored => .anchored
    split
    · rename_i none
      exact absurd none open_
    all_goals rfl

namespace Holds

variable {k : Parts} {s : State}

theorem compareOnly (h : Holds { k with flow := False } s) (uncleared : ¬ k.cleared) (whole : k.planned → k.align) (landed : s.asm.align.phase ≠ .none)
    (x : IntakeEntry) : Holds k (compareOnly x s) :=
  reportPlacement (f := k.flow) ((h.moveAlign _ _).mono id id id id uncleared) whole fun w =>
    ahead_moved (h.align w) landed _ _ none rfl rfl landed ⟨rfl, rfl⟩

/-- A placement that names the offset, or one of an ANCHORED stream at its own offset (R27, R28, R31). -/
theorem placeAt (h : Holds { k with flow := False } s) (uncleared : ¬ k.cleared) (whole : k.planned → k.align) (landed : s.asm.align.phase ≠ .none)
    (x : IntakeEntry) (d : Int) (anchored : Option Int) (inSequence : Bool) (named : match anchored with
      | none => s.asm.align.phase = .anchored ∧ d = s.asm.align.offset
      | some e => d = e) : Holds k (placeAt x d anchored inSequence s) := by
  have moved := (h.moveAlign (fun c => c.afterPlacing (mergeSteps s.store x.bn (placedFrames s x d)).length
    (disagreements s.store (placedFrames s x d)) anchored.isSome)
    { s.asm.align with phase := .anchored, offset := d, expected := x.bn + 1 }).takeSteps (mergeSteps_index s.store x.bn (placedFrames s x d))
  refine reportPlacement (f := False) (moved.mono id id id id uncleared) whole fun w => Ahead.stays
    (ahead_moved (x := { s.asm.align with phase := .anchored, offset := d, expected := x.bn + 1 }) (h.align w) landed _ _ anchored
      rfl rfl (by exact nofun) ?_) (takeSteps_stays _ _)
  cases anchored with
  | none => exact ⟨named.1.symm, named.2⟩
  | some e => exact ⟨rfl, named⟩

/-! ### Reports of the Assembler that close the stream (R29, R33, R63, R64) -/

/-- The Assembler clears its phase and evaluates its flow (R24, R41). -/
theorem clearAlign (h : Holds { k with flow := False } s) : Holds ⟨k.flow, k.planned, k.active, False, True⟩ (Machine.evaluateFlow (clearPhase s)) := by
  have cleared : Holds ⟨False, k.planned, k.active, False, True⟩ (clearPhase s) :=
    { h.realign s.asm.align.clear (t := clearPhase s) rfl with cleared := fun _ => rfl }
  exact evaluateFlow (k := ⟨k.flow, k.planned, k.active, False, True⟩) (f := False) cleared

/-- The phase was that of the current stream. -/
theorem reported {u : State} (sound : AlignSound s) (landed : s.asm.align.phase ≠ .none) (same : u.planner.stream = s.planner.stream) :
    reportIsCurrent s.asm.align.stream u = true := by
  obtain ⟨landless, -, agrees⟩ := sound
  unfold reportIsCurrent
  rw [same, Bool.and_eq_true]
  exact ⟨decide_eq_true (agrees landed).1, decide_eq_true fun none => landed (landless.mpr (.inl none))⟩

/-- A stream that is closed where the Assembler has cleared its phase (R24, R65). -/
theorem closeReported {f : Prop} (h : Holds ⟨f, k.planned, k.active, False, True⟩ s) (uncleared : ¬ k.cleared) (close : Close) :
    Holds { k with flow := False } (Machine.closeStream close s) :=
  (closeCleared (k := ⟨f, k.planned, k.active, k.align, True⟩) (l := False) h (fun _ => h.cleared trivial) close).mono
    id id id id fun w => absurd w uncleared

/-- A report that is not the current stream's, where the alignment was sound before it: there is none. -/
theorem unreported {n : Nat} (h : Holds ⟨k.flow, k.planned, k.active, False, True⟩ s) (uncleared : ¬ k.cleared)
    (current : k.align → reportIsCurrent n s = true) (other : ¬ reportIsCurrent n s = true) : Holds k s :=
  ⟨h.flow, h.planned, h.active, fun w => absurd (current w) other, fun w => absurd w uncleared⟩

theorem takeDiscontinuity {n : Nat} (h : Holds ⟨k.flow, k.planned, k.active, False, True⟩ s) (uncleared : ¬ k.cleared)
    (current : k.align → reportIsCurrent n s = true) : Holds k (takeDiscontinuity n s) := by
  unfold Machine.takeDiscontinuity
  split
  · exact addSkip (settle (f := False) (h.closeReported uncleared _)) _
  · rename_i other
    exact settle (f := k.flow) (h.unreported uncleared current other)

theorem takeMislock {n : Nat} (h : Holds ⟨k.flow, k.planned, k.active, False, True⟩ s) (uncleared : ¬ k.cleared)
    (current : k.align → reportIsCurrent n s = true) : Holds k (takeMislock n s) := by
  unfold Machine.takeMislock
  split
  · have counted := h.mapTargetMislocks (fun m => satAdd 3 m 1) fun _ => satAdd_le _ _ _
    exact addSkip (settle (f := False) (closeReported (counted.countPlanner _) uncleared _)) _
  · rename_i other
    exact settle (f := k.flow) (h.unreported uncleared current other)

theorem discontinuity (h : Holds { k with flow := False } s) (uncleared : ¬ k.cleared) (landed : s.asm.align.phase ≠ .none) :
    Holds k (discontinuity s) :=
  (h.countPlacement _).clearAlign.takeDiscontinuity uncleared fun w =>
    reported (h.align w) landed (congrArg Planner.stream (evaluateFlow_keeps _).1)

theorem mislock (h : Holds { k with flow := False } s) (uncleared : ¬ k.cleared) (landed : s.asm.align.phase ≠ .none) : Holds k (mislock s) :=
  h.clearAlign.takeMislock uncleared fun w => reported (h.align w) landed (congrArg Planner.stream (evaluateFlow_keeps _).1)

/-! ### A placement (R26 to R33) -/

theorem placeInSequence (h : Holds { k with flow := False } s) (uncleared : ¬ k.cleared) (whole : k.planned → k.align) (landed : s.asm.align.phase ≠ .none)
    (x : IntakeEntry) : Holds k (placeInSequence x s) := by
  unfold Machine.placeInSequence
  dsimp only
  split
  · split
    · exact h.mislock uncleared landed
    · split
      · exact h.compareOnly uncleared whole landed x
      · exact h.placeAt uncleared whole landed x _ _ _ rfl
  · rename_i unsearching
    refine h.placeAt uncleared whole landed x _ _ _ ⟨?_, rfl⟩
    cases phase : s.asm.align.phase
    case none => exact absurd phase landed
    case searching => exact absurd phase unsearching
    case anchored => rfl

theorem placeAccepted (h : Holds { k with flow := False } s) (uncleared : ¬ k.cleared) (whole : k.planned → k.align) (landed : s.asm.align.phase ≠ .none)
    (x : IntakeEntry) : Holds k (placeAccepted x s) := by
  unfold Machine.placeAccepted
  split
  · exact h.placeInSequence uncleared whole landed x
  · split
    · rename_i tolerates
      simp only [toleratesGap, Bool.and_eq_true, decide_eq_true_eq] at tolerates
      obtain ⟨⟨⟨anchored, -⟩, -⟩, -⟩ := tolerates
      have relinked : Holds { k with flow := False } (s.setLink { s.link with lost := false }) := h.same rfl
      exact relinked.placeAt uncleared whole landed x _ _ _ ⟨anchored, rfl⟩
    · exact h.discontinuity uncleared landed

theorem dropEntry (h : Holds { k with flow := False } s) (f : PlacementCounters → PlacementCounters) : Holds k (dropEntry f s) :=
  reflow (f := False) (h.countPlacement f)

/-- The entry is judged once it has left the Intake, which frees the flow (R23, R26). -/
theorem judgeEntry (h : Holds { k with flow := False } s) (uncleared : ¬ k.cleared) (whole : k.planned → k.align) (x : IntakeEntry) :
    Holds k (judgeEntry x s) := by
  unfold Machine.judgeEntry
  split
  · exact h.dropEntry _
  · rename_i current
    split
    · exact h.dropEntry _
    · split
      · exact h.dropEntry _
      · exact h.placeAccepted uncleared whole (fun none => current (.inr none)) x

theorem placement (h : Holds k s) (uncleared : ¬ k.cleared) (whole : k.planned → k.align) : Holds k (placement s) := by
  unfold Machine.placement
  split
  · exact h
  · rename_i x rest _
    have taken : Holds { k with flow := False } (s.setAsm { s.asm with intake := rest }) :=
      ⟨False.elim, fun w => (h.planned w).congr rfl rfl rfl rfl rfl, h.active, fun w => (h.align w).congr rfl rfl, h.cleared⟩
    exact taken.judgeEntry uncleared whole x

end Holds

end Sys2Proof.Machine
end

