-- ==== Sys2Proof/Proofs/PlannerHoldsStep.lean ====
section
/-!
SUPPORT. The parts of the planner's and the flow's relations (`Holds`) through the link, Drive Restart, the senses and the Console Port,
and so through every command. Then the statement that every step keeps the relations (O57).
-/
namespace Sys2Proof.Machine

/-! ### The order of a Drive Restart (R98) -/

/-- An order with its repetitions dropped. -/
def firstNamed (order : List RestartOwner) : List RestartOwner :=
  order.foldl (fun seen x => if seen.contains x then seen else seen ++ [x]) []

theorem restartOrder_eq (order : List RestartOwner) :
    restartOrder order = firstNamed order ++
      [RestartOwner.assembler, .planner, .monitor, .playController].filter (fun x => !order.contains x) := rfl

theorem firstNamed_spec (order : List RestartOwner) : (firstNamed order).Nodup ∧ ∀ x, x ∈ firstNamed order ↔ x ∈ order := by
  have fold : ∀ (rest seen : List RestartOwner), seen.Nodup →
      (rest.foldl (fun seen x => if seen.contains x then seen else seen ++ [x]) seen).Nodup ∧
        ∀ x, x ∈ rest.foldl (fun seen x => if seen.contains x then seen else seen ++ [x]) seen ↔ x ∈ seen ∨ x ∈ rest := by
    intro rest
    induction rest with
    | nil => exact fun seen h => ⟨h, fun x => by simp⟩
    | cons y rest ih =>
      intro seen h
      rw [List.foldl_cons]
      split
      · rename_i known
        obtain ⟨nodup, mem⟩ := ih seen h
        refine ⟨nodup, fun x => (mem x).trans ?_⟩
        rw [List.mem_cons]
        have : y ∈ seen := List.contains_iff_mem.mp known
        constructor
        · exact fun k => k.imp_right .inr
        · rintro (k | rfl | k)
          · exact .inl k
          · exact .inl this
          · exact .inr k
      · rename_i fresh
        have new : y ∉ seen := fun k => fresh (List.contains_iff_mem.mpr k)
        obtain ⟨nodup, mem⟩ := ih (seen ++ [y]) (List.nodup_append.mpr ⟨h, List.nodup_singleton y, fun a ha b hb e => by
          rw [List.mem_singleton] at hb
          exact new (hb ▸ e ▸ ha)⟩)
        refine ⟨nodup, fun x => (mem x).trans ?_⟩
        rw [List.mem_append, List.mem_singleton, List.mem_cons, or_assoc]
  obtain ⟨nodup, mem⟩ := fold order [] List.nodup_nil
  exact ⟨nodup, fun x => (mem x).trans (by simp)⟩

/-- Each of the four owners takes a Drive Restart once (R98). -/
theorem restartOrder_spec (order : List RestartOwner) : (restartOrder order).Nodup ∧ ∀ x, x ∈ restartOrder order := by
  obtain ⟨nodup, mem⟩ := firstNamed_spec order
  have missing : ∀ x, x ∈ [RestartOwner.assembler, .planner, .monitor, .playController].filter (fun x => !order.contains x) ↔ x ∉ order := by
    intro x
    rw [List.mem_filter, Bool.not_eq_true', ← Bool.not_eq_true, List.contains_iff_mem]
    exact and_iff_right (by cases x <;> decide)
  rw [restartOrder_eq]
  refine ⟨List.nodup_append.mpr ⟨nodup, List.Nodup.filter _ (by decide), fun a ha b hb e => ?_⟩, fun x => List.mem_append.mpr ?_⟩
  · exact (missing b).mp hb (e ▸ (mem a).mp ha)
  · rw [mem, missing]
    exact Classical.em _

/-- Which parts stand while a Drive Restart runs. The Assembler's part clears the phase and the planner's closes the stream; between the
two, the alignment is cleared with the stream still open, or the stream is closed with the alignment still sound (R98). -/
def Parts.restarting (k : Parts) (assembler planner : Bool) : Parts :=
  match assembler, planner with
  | true, false => { k with align := False, cleared := True }
  | false, true => { k with cleared := k.align }
  | _, _ => k

namespace Holds

variable {k : Parts} {s : State}

/-! ### Drive Restart (R69, R98) -/

/-- The Assembler's part: nothing held, nothing outstanding, no phase (R44). -/
theorem assemblerRestart (h : Holds k s) : Holds { k with align := False, cleared := True } (assemblerRestart s) :=
  ⟨fun _ => (flowSound_iff _).mpr ⟨rfl, rfl⟩, fun w => (h.planned w).congr rfl rfl rfl rfl rfl, h.active, False.elim, fun _ => rfl⟩

/-- The Assembler's part after the planner's: the alignment was cleared and sound, and stays so. -/
theorem assemblerRestart_last (h : Holds { k with cleared := k.align } s) (uncleared : ¬ k.cleared) :
    Holds k (Machine.assemblerRestart s) := by
  have emptied := h.assemblerRestart
  refine ⟨emptied.flow, emptied.planned, emptied.active, fun w => ?_, fun w => absurd w uncleared⟩
  obtain ⟨landless, offset, -⟩ := h.align w
  exact ⟨⟨fun _ => landless.mp (h.cleared w), fun _ => rfl⟩, offset, fun landed => absurd rfl landed⟩

/-- The planner's part before the Assembler's: a sound alignment without a stream is cleared (R65). -/
theorem plannerRestart_first (h : Holds k s) : Holds { k with cleared := k.align } (plannerRestart s) :=
  have closed := h.closeStream .driveRestart
  settle (k := { k with cleared := k.align }) (f := False) ⟨False.elim, closed.planned, closed.active, closed.align,
    fun w => (closed.align w).1.mpr (.inl (closeStream_state _ s))⟩

/-- The planner's part after the Assembler's: the stream is closed where the phase is cleared. -/
theorem plannerRestart_last (h : Holds { k with align := False, cleared := True } s) (uncleared : ¬ k.cleared) :
    Holds k (plannerRestart s) := settle (f := False) (h.closeReported uncleared _)

/-- One owner's part of a Drive Restart, which it has not taken yet. -/
theorem ownerRestart {assembler planner : Bool} (h : Holds (k.restarting assembler planner) s) (uncleared : ¬ k.cleared)
    (x : RestartOwner) (notAssembler : x = .assembler → assembler = false) (notPlanner : x = .planner → planner = false) :
    Holds (k.restarting (assembler || decide (x = .assembler)) (planner || decide (x = .planner))) (ownerRestart s x) := by
  cases x
  case assembler =>
    cases notAssembler rfl
    cases planner
    · exact h.assemblerRestart
    · exact h.assemblerRestart_last uncleared
  case planner =>
    cases notPlanner rfl
    cases assembler
    · exact h.plannerRestart_first
    · exact h.plannerRestart_last uncleared
  case monitor =>
    simp only [reduceCtorEq, decide_false, Bool.or_false]
    exact h.txRequest _
  case playController =>
    simp only [reduceCtorEq, decide_false, Bool.or_false]
    exact h.playRestart

/-- The owners one after another, each once and the last two of them the Assembler and the planner. -/
theorem ownerRestarts (uncleared : ¬ k.cleared) (order : List RestartOwner) : ∀ {s : State} (assembler planner : Bool), order.Nodup →
    (.assembler ∈ order ↔ assembler = false) → (.planner ∈ order ↔ planner = false) → Holds (k.restarting assembler planner) s →
    Holds k (order.foldl Machine.ownerRestart s) := by
  induction order with
  | nil =>
    intro s assembler planner _ noAssembler noPlanner h
    have a : assembler = true := Bool.not_eq_false _ ▸ fun e => absurd (noAssembler.mpr e) List.not_mem_nil
    have p : planner = true := Bool.not_eq_false _ ▸ fun e => absurd (noPlanner.mpr e) List.not_mem_nil
    rw [a, p] at h
    exact h
  | cons x rest ih =>
    intro s assembler planner nodup isAssembler isPlanner h
    obtain ⟨fresh, nodup⟩ := List.nodup_cons.mp nodup
    have after : ∀ {y : RestartOwner} {done : Bool}, (y ∈ x :: rest ↔ done = false) →
        (y ∈ rest ↔ (done || decide (x = y)) = false) := by
      intro y done known
      rw [Bool.or_eq_false_iff, decide_eq_false_iff_not, ← known, List.mem_cons]
      constructor
      · exact fun mem => ⟨.inr mem, fun same => fresh (same ▸ mem)⟩
      · exact fun ⟨mem, other⟩ => mem.resolve_left fun same => other same.symm
    refine ih _ _ nodup (after isAssembler) (after isPlanner) (h.ownerRestart uncleared x ?_ ?_)
    · exact fun same => isAssembler.mp (same ▸ List.mem_cons_self)
    · exact fun same => isPlanner.mp (same ▸ List.mem_cons_self)

/-- A change of the link leaves every part. -/
theorem mapLink (h : Holds k s) (g : Link → Link) : Holds k (mapLink g s) := h.same rfl

theorem restartDrive (h : Holds k s) (uncleared : ¬ k.cleared) (order : List RestartOwner) : Holds k (restartDrive order s) := by
  obtain ⟨nodup, all⟩ := restartOrder_spec order
  have begun : Holds k (Machine.raise .driveRestart 0 (Machine.mapLink Link.restart s)) := (h.mapLink _).raise _ _
  exact ownerRestarts uncleared _ false false nodup (iff_of_true (all _) rfl) (iff_of_true (all _) rfl) begun

/-! ### The link -/

theorem countLink (h : Holds k s) (f : LinkCounters → LinkCounters) : Holds k (countLink f s) := h.same rfl

theorem setAssembly (h : Holds k s) (x : RxAssembly) : Holds k (setAssembly x s) := h.same rfl

theorem loseMessage (h : Holds k s) (x : Loss) : Holds k (loseMessage x s) := h.same rfl

theorem overrun (h : Holds k s) : Holds k (overrun s) := ((h.countPlacement _).loseMessage _).setAssembly _

theorem truncate (h : Holds k s) : Holds k (truncate s) := by
  unfold Machine.truncate
  split
  · exact h.loseMessage _
  all_goals exact h

theorem lineHigh (h : Holds k s) : Holds k (lineHigh s) := by
  unfold Machine.lineHigh
  split
  · exact h.mapLink _
  · exact h

theorem beginMessage (h : Holds k s) (noise : Nat) : Holds k (beginMessage noise s) :=
  (h.lineHigh.mapLink _).truncate.setAssembly _

theorem dispatchJump (h : Holds k s) (n : Nat) (monitorFirst : Bool) : Holds k (dispatchJump n monitorFirst s) := by
  unfold Machine.dispatchJump
  split
  · exact h.monitorJump.takeJump _
  · exact (h.takeJump _).monitorJump

theorem acceptEntry (h : Holds k s) (x : IntakeEntry) : Holds k (acceptEntry x s) :=
  reflow (f := False)
    ⟨False.elim, fun w => (h.planned w).congr rfl rfl rfl rfl rfl, h.active, fun w => (h.align w).congr rfl rfl, h.cleared⟩

theorem dispatch (h : Holds k s) (uncleared : ¬ k.cleared) (monitorFirst : Bool) (m : RxMsg) : Holds k (dispatch monitorFirst m s) := by
  unfold Machine.dispatch
  split
  · exact h.takeDisc _ _ _
  · exact h.acceptEntry _
  · exact h.dispatchJump _ _
  · exact h.takeLanded uncleared _ _
  · exact h.takeRefused _ _
  · exact h.setHealth _ (by rfl)
  · exact h.takeGone _

theorem deliver (h : Holds k s) (uncleared : ¬ k.cleared) (monitorFirst : Bool) (m : RxMsg) : Holds k (deliver monitorFirst m s) := by
  unfold Machine.deliver
  split
  · exact h.loseMessage _
  · exact (h.countLink _).dispatch uncleared _ _

theorem receive (h : Holds k s) (uncleared : ¬ k.cleared) (noise : Nat) (monitorFirst : Bool) (m : RxMsg) :
    Holds k (receive noise monitorFirst m s) := by
  unfold Machine.receive
  split
  · exact (h.beginMessage _).deliver uncleared _ _
  · exact h

theorem receiveBlock (h : Holds k s) (uncleared : ¬ k.cleared) (noise n bn : Nat) (tag : Tag) (v : List Sample) (e : Option (List Nat)) :
    Holds k (receiveBlock noise n bn tag v e s) := by
  have begun := h.beginMessage noise
  unfold Machine.receiveBlock
  dsimp only
  split
  · split
    · exact begun.overrun
    · split
      · exact (begun.loseMessage _).setAssembly _
      · exact begun.deliver uncleared _ _
  · exact h

theorem transmitted (h : Holds k s) : Holds k (transmitted s) := by
  have finished : ∀ m, Holds k (Machine.mapLink (fun l => l.finish m (linkFormat s)) s) := fun m => h.mapLink _
  unfold Machine.transmitted
  dsimp only
  split
  · split
    · exact (finished _).seekSent _
    all_goals exact finished _
  all_goals exact h

theorem gapOver (h : Holds k s) : Holds k (gapOver s) := by
  unfold Machine.gapOver
  split
  · exact h.mapLink _
  all_goals exact h

/-! ### Characters one by one -/

/-- A change of the Console Port leaves every part. -/
theorem mapConsole (h : Holds k s) (g : Console → Console) : Holds k (mapConsole g s) := h.same rfl

theorem takeRateMark (h : Holds k s) (span : Option Nat) : Holds k (takeRateMark span s) := by
  have fails : Holds k (failRate s) := h.same rfl
  have locks : ∀ m, Holds k (lockRate m s) := fun m => h.same rfl
  unfold Machine.takeRateMark
  split
  · exact fails
  · split
    · exact locks _
    · exact fails

theorem takeFaulted (h : Holds k s) (x : CharFault) : Holds k (takeFaulted x s) := by
  unfold Machine.takeFaulted
  split
  · exact h.countLink _
  all_goals exact (h.loseMessage _).setAssembly _

theorem takeHeader (h : Holds k s) (header : Byte) (span : Option Nat) : Holds k (takeHeader header span s) := by
  unfold Machine.takeHeader
  split
  · exact (h.setAssembly _).takeRateMark _
  · exact (h.loseMessage _).setAssembly _
  · split
    · exact h.overrun
    · exact h.setAssembly _

theorem complete (h : Holds k s) (uncleared : ¬ k.cleared) (kind : RxKind) (bytes : List Byte) : Holds k (complete kind bytes s) := by
  unfold Machine.complete
  dsimp only
  split
  · exact (h.setAssembly _).deliver uncleared _ _
  · exact (h.setAssembly _).loseMessage _

theorem takeHeld (h : Holds k s) (uncleared : ¬ k.cleared) (held : List Byte) : Holds k (takeHeld held s) := by
  unfold Machine.takeHeld
  dsimp only
  split
  · exact h.setAssembly _
  · exact h.setAssembly _
  · split
    · exact (h.loseMessage _).setAssembly _
    · split
      · exact h.setAssembly _
      · split
        · exact h.complete uncleared _ _
        · exact h.setAssembly _

theorem takeBody (h : Holds k s) (uncleared : ¬ k.cleared) (b : Byte) : Holds k (takeBody b s) := by
  unfold Machine.takeBody
  split
  · exact (h.loseMessage _).setAssembly _
  · exact h
  · exact h.takeHeld uncleared _

theorem assemble (h : Holds k s) (uncleared : ¬ k.cleared) (j : Judged) (span : Option Nat) : Holds k (assemble j span s) := by
  unfold Machine.assemble
  split
  · exact h.takeFaulted _
  · split
    · exact h.truncate.takeHeader _ _
    · exact h.takeBody uncleared _

theorem receiveChar (h : Holds k s) (uncleared : ¬ k.cleared) (c : RxChar) : Holds k (receiveChar c s) := by
  unfold Machine.receiveChar
  split
  · dsimp only
    split
    · exact h.lineHigh
    · exact (h.lineHigh.mapLink _).assemble uncleared _ _
  · exact h

theorem receiveChars (uncleared : ¬ k.cleared) (chars : List RxChar) : ∀ {s : State}, Holds k s → Holds k (receiveChars chars s) := by
  induction chars with
  | nil => exact fun h => h
  | cons c rest ih => exact fun h => ih (h.receiveChar uncleared c).takeNotices

/-! ### Senses and ticks -/

theorem setSense (h : Holds k s) (x : Sense) : Holds k (s.setSense x) := h.same rfl

theorem setSupply (h : Holds k s) (x : Supply) : Holds k (s.setSupply x) := h.same rfl

theorem sampleTray (h : Holds k s) (level : Bool) : Holds k (sampleTray level s) := by
  unfold Machine.sampleTray
  dsimp only
  split
  · split
    · exact ((h.setSense _).raise _ _).playTrayIn
    · exact ((h.setSense _).raise _ _).playTrayOut
  · exact h.setSense _

theorem samplePin (h : Holds k s) (pin : SensePin) (level : Bool) : Holds k (samplePin pin level s) := by
  unfold Machine.samplePin
  split
  · exact h.sampleTray _
  · unfold sampleShock
    dsimp only
    split
    · exact ((h.setSense _).raise _ _).monitorShock
    · exact h.setSense _

theorem sampleSupply (h : Holds k s) (vsense : Nat) : Holds k (sampleSupply vsense s) := by
  unfold Machine.sampleSupply
  dsimp only
  split
  · exact (h.setSupply _).playSupplyWarning.raise _ _
  · exact h.setSupply _

theorem recoverSupply (h : Holds k s) : Holds k (recoverSupply s) := (h.setSupply _).playSupplyRecovery.raise _ _

theorem supplyTick (h : Holds k s) : Holds k (supplyTick s) := by
  unfold Machine.supplyTick
  split
  · exact h.recoverSupply
  · split
    · exact h.setSupply _
    · exact h

theorem blockTick (h : Holds k s) : Holds k (blockTick s) := h.seekTick.loadTick.monitorTick.supplyTick.clockTick

/-! ### The mailbox and the window -/

theorem busWrite (h : Holds k s) (r : Nat) (effect : Nat → State → State)
    (he : ∀ r {u : State}, Holds k u → Holds k (effect r u)) : Holds k (busWrite r effect s) := by
  unfold Machine.busWrite
  split
  · exact h
  all_goals exact he _ ((h.mapConsole (fun c => c.addressed r)).mapConsole _)

theorem noteFormat (h : Holds k s) (id : Nat) : Holds k (noteFormat id s) := by
  unfold Machine.noteFormat
  split
  · exact h.mapLink _
  · exact h

theorem setParam (h : Holds k s) (id v : Nat) : Holds k (setParam id v s) := by
  have put : Holds k (Machine.mapConsole (fun c => { c with params := c.params.put id v }) (Machine.noteFormat id s)) :=
    (h.noteFormat id).mapConsole _
  unfold Machine.setParam
  split
  · exact h
  · unfold paramChanged
    split
    · exact put.postReadiness _
    · exact put.judgeLateness.settle
    · exact put.settle
    · split
      · exact put
      · exact put.retryLimitChanged
    · exact put.judgeLateness.settle
    · exact put.mapLink _
    · exact put.setSense _
    · exact put.setSense _
    · exact put

theorem commandWrite (h : Holds k s) (code : Byte) (owner : State → Answer) (ho : ∀ {u : State}, Holds k u → Holds k (owner u).2) :
    Holds k (commandWrite code owner s) := by
  unfold Machine.commandWrite
  split
  · exact h.mapConsole _
  · exact ((ho (h.mapConsole _)).mapConsole _).raise _ _

theorem testedAnswer (h : Holds k s) (result : State → Result) (run : State → State) (hr : Holds k (run s)) :
    Holds k (tested result run s).2 := by
  unfold tested
  split
  · exact hr
  · exact h

theorem paramWrite (h : Holds k s) (i : Fin 6) (v : Byte) : Holds k (paramWrite i v s) := by
  unfold Machine.paramWrite
  split
  · exact h.mapConsole _
  · exact h.mapConsole _

/-! ### Resets -/

/-- A reset leaves every part: no stream, no phase, nothing stored (R19, R45). -/
theorem reset (basis : s.basis = State.reset.basis) : Holds k s := by
  obtain ⟨planned, active, align⟩ := (plannerSound_iff rfl).mp State.reset_planner
  have fresh : Holds k State.reset := ⟨fun _ => (flowSound_iff _).mpr ⟨rfl, rfl⟩, fun _ => planned, fun _ => active, fun _ => align, fun _ => rfl⟩
  exact fresh.same basis

theorem setResume (h : Holds k s) (x : Resume) : Holds k (s.setResume x) := h.same rfl

theorem hardReset (cause : ResetCause) (addr : Bool) (x : Stored) (s : State) : Holds k (hardReset cause addr x s) := by
  have blocks : Holds k (resetBlocks cause addr s) := reset rfl
  unfold Machine.hardReset judgeResume
  split
  · split
    · exact blocks.setResume _
    · exact (blocks.setResume _).raise _ _
  · exact (blocks.setResume _).raise _ _

theorem cmdWrite (h : Holds k s) (code : Byte) : Holds k (cmdWrite code s) := by
  have respond : ∀ (bytes : List Byte) {u : State}, Holds k u → Holds k (respond bytes u) := fun _ _ w => w.mapConsole _
  unfold Machine.cmdWrite
  split
  · exact h.commandWrite _ _ fun w => w.testedAnswer _ _ w.runSelect
  · exact h.commandWrite _ _ fun w => w.testedAnswer _ _ w.runPlay
  · exact h.commandWrite _ _ fun w => w.testedAnswer _ _ w.runPause
  · exact h.commandWrite _ _ fun w => w.testedAnswer _ _ w.runContinue
  · exact h.commandWrite _ _ fun w => w.testedAnswer _ _ w.runStop
  · exact h.commandWrite _ _ fun w => w.testedAnswer _ _ (w.setParam _ _)
  · exact h.commandWrite _ _ fun w => w.testedAnswer _ _ (respond _ w)
  · exact h.commandWrite _ _ fun w => w.testedAnswer _ _ (respond _ w)
  · refine h.commandWrite _ _ fun w => w.testedAnswer _ _ ?_
    split
    · exact w.same rfl
    · exact w.resumeWrite _ _
  · exact h.commandWrite _ _ fun w => w.testedAnswer _ _ (respond _ w)
  · exact h.commandWrite _ _ fun w => w.testedAnswer _ _ (respond _ w)
  · exact h.commandWrite _ _ fun w => w.testedAnswer _ _ (respond _ w)
  · exact h.commandWrite _ _ fun w => w.same rfl
  · unfold softResetWrite
    split
    · exact h.mapConsole _
    · exact reset rfl
  · exact h.commandWrite _ _ fun w => w

theorem registerWrite (h : Holds k s) (register : Nat) (v : Byte) : Holds k (registerWrite register v s) := by
  unfold Machine.registerWrite
  split
  iterate 5 exact h.same rfl
  iterate 6 exact h.paramWrite _ _
  · exact h.cmdWrite _
  · exact h

theorem writeByte (h : Holds k s) (register : Nat) (v : Byte) : Holds k (writeByte register v s) :=
  h.busWrite _ _ fun _ _ w => w.registerWrite _ _

theorem sendBytes (n : Nat) : ∀ {s : State}, Holds k s → Holds k (sendBytes n s) := by
  induction n with
  | zero => exact fun h => h
  | succ n ih =>
    intro s h
    have sent : Holds k (sendByte s) := h.same rfl
    exact ih sent

/-! ### Every command -/

/-- A guard of a command keeps what both branches keep. -/
theorem ite {p : Prop} [Decidable p] {a b : State} (ha : Holds k a) (hb : Holds k b) : Holds k (if p then a else b) := by
  split
  · exact ha
  · exact hb

/-- Every command keeps the parts. -/
theorem exec (h : Holds k s) (uncleared : ¬ k.cleared) (whole : k.planned → k.align) (c : Instr) {t : State}
    (e : exec c s = .next t) : Holds k t := by
  have written : ∀ (r : Nat) (v : Byte) {u : State}, Holds k u → Holds k (Machine.writeByte r v u) := fun _ _ _ w => w.writeByte _ _
  unfold Machine.exec at e
  cases c <;> dsimp only at e
  case powerOnReset => cases e; exact hardReset _ _ _ _
  case systemReset => cases e; exact hardReset _ _ _ _
  case softReset => cases e; exact written _ _ h
  case blockTick => exact h.inStep blockTick e
  case recovery => exact h.inStep (fun w => .ite w.recoverHealth w) e
  case seekTimeout => exact h.inStep (fun w => .ite w.timeOutSeek w) e
  case loadTimeout => exact h.inStep (fun w => .ite w.timeOutLoad w) e
  case clockLoss => exact h.inStep (fun w => .ite w.loseClock w) e
  case frameDemand => exact h.inStep (fun w => w.frameDemand _ _) e
  case block => exact h.inStep (fun w => w.receiveBlock uncleared _ _ _ _ _ _) e
  case placement => exact h.inStep (fun w => w.placement uncleared whole) e
  case landed => exact h.inStep (fun w => w.receive uncleared _ _ _) e
  case refused => exact h.inStep (fun w => w.receive uncleared _ _ _) e
  case jump => exact h.inStep (fun w => w.receive uncleared _ _ _) e
  case settled => exact h.inStep (fun w => w.receive uncleared _ _ _) e
  case disc => exact h.inStep (fun w => w.receive uncleared _ _ _) e
  case gone => exact h.inStep (fun w => w.receive uncleared _ _ _) e
  case rateMark => exact h.inStep (fun w => .ite ((w.beginMessage _).takeRateMark _) w) e
  case lostMessage => exact h.inStep (receiveChars uncleared _) e
  case driveRestart => exact h.inStep (fun w => .ite (w.restartDrive uncleared _) w) e
  case transmitterRelease => exact h.inStep lineHigh e
  case transmissionComplete => exact h.inStep transmitted e
  case trayIn => exact h.inStep (fun w => w.sampleTray _) e
  case trayOut => exact h.inStep (fun w => w.sampleTray _) e
  case shockChange => exact h.inStep (fun w => w.samplePin .shock _) e
  case levelLatch => exact h.inStep (fun w => w.samplePin _ _) e
  case supplyWarning => exact h.inStep (fun w => w.sampleSupply _) e
  case supplyRecovery => exact h.inStep (fun w => .ite w.recoverSupply w) e
  case registerPointer => exact h.inStep (fun w => w.mapConsole _) e
  case mailboxCollision => exact h.inStep (fun w => w.busWrite _ _ fun _ _ x => x.mapConsole _) e
  case snapshotLatch => exact h.inStep (fun w => sendBytes _ (w.mapConsole _)) e
  case overrunAtHeader => exact h.inStep (fun w => .ite ((w.beginMessage _).takeHeader _ _) w) e
  case transmitterIdle => exact h.inStep gapOver e
  case lineIdle => exact h.inStep lineHigh e
  case discardingCharacter => exact h.inStep (fun w => w.receiveChar uncleared _) e
  case supplySample => exact h.inStep (fun w => w.sampleSupply _) e
  case cancellerSample => exact h.inStep (fun w => w.samplePin _ _) e
  case transactionEnd => exact h.inStep (fun w => w.mapConsole _) e
  all_goals exact h.inStep (written _ _) e

/-- A step keeps the parts, the command taken from the queue. -/
theorem step (h : Holds k s) (uncleared : ¬ k.cleared) (whole : k.planned → k.align) {t : State} (e : step s = .next t) : Holds k t := by
  unfold Machine.step at e
  split at e
  · cases e
    exact h
  · rename_i c rest _
    exact exec (s := s.setPending rest) (h.same rfl) uncleared whole c e

end Holds

end Sys2Proof.Machine

namespace Sys2Proof.Claims

open Sys2Proof.Machine

/-- Settles O57: the planner's relation by its parts, and the hold causes, of which a step keeps all (`Holds.step`). -/
theorem plannerKept : Obligations.PlannerKept := by
  intro s t e
  refine ⟨fun wf sound => ?planner, fun sound => ?flow⟩
  case planner =>
    obtain ⟨planned, active, align⟩ := (plannerSound_iff wf).mp sound
    have holds : Holds ⟨False, True, True, True, False⟩ s := ⟨False.elim, fun _ => planned, fun _ => active, fun _ => align, False.elim⟩
    have after := holds.step id id e
    have planned' := after.planned trivial
    exact (plannerSound_iff planned'.wf).mpr ⟨planned', after.active trivial, after.align trivial⟩
  case flow =>
    have holds : Holds ⟨True, False, False, False, False⟩ s := ⟨fun _ => sound, False.elim, False.elim, False.elim, False.elim⟩
    exact (holds.step id id e).flow trivial

end Sys2Proof.Claims
end

