-- ==== Sys2Proof/Proofs/MergeRule.lean ====
section
/-!
SUPPORT. The merge rule and the count of disagreements by the marks of the two frames (R37, R38). Then the statement of the merge table
(O28).
-/
namespace Sys2Proof.Machine

section
variable {held incoming : Frame}

theorem mergeFrame_absent (h : held.mark = .absent) : mergeFrame held incoming = incoming := by
  unfold mergeFrame
  rw [h]

/-- An ERASED frame gives way to a GOOD one only. -/
theorem mergeFrame_erased (h : held.mark = .erased) :
    mergeFrame held incoming = if incoming.mark = .good then incoming else held := by
  unfold mergeFrame
  rw [h]
  cases incoming.mark <;> rfl

/-- A GOOD frame stays but for a GOOD one of another value. -/
theorem mergeFrame_good (h : held.mark = .good) :
    mergeFrame held incoming = if disagrees held incoming then ⟨.erased, incoming.value⟩ else held := by
  unfold mergeFrame disagrees
  rw [h]
  cases incoming.mark
  case good => by_cases same : held.value = incoming.value <;> simp [same]
  all_goals rfl

theorem disagrees_good (h : held.mark = .good) (i : incoming.mark = .good) :
    disagrees held incoming = decide (held.value ≠ incoming.value) := by
  unfold disagrees
  rw [h, i]
  rfl

end

end Sys2Proof.Machine

namespace Sys2Proof.Claims

open Sys2Proof.Machine

/-- Settles O28: a row of the table for each mark of the held frame. -/
theorem mergeTable : Obligations.MergeTable := by
  intro held incoming _
  refine ⟨mergeFrame_absent, fun h i => ?_, fun h i => ?_, fun h i => ?_, fun h i same => ?_, fun h i other => ?_⟩
  · rw [mergeFrame_erased h, if_pos i]
  · rw [mergeFrame_erased h, if_neg (by rw [i]; decide)]
  · have agree : disagrees held incoming = false := by
      unfold disagrees
      rw [i]
      simp
    rw [mergeFrame_good h, agree]
    rfl
  · have agree : disagrees held incoming = false := by
      rw [disagrees_good h i]
      exact decide_eq_false (not_not.mpr same)
    refine ⟨?_, agree⟩
    rw [mergeFrame_good h, agree]
    rfl
  · have differ : disagrees held incoming = true := by
      rw [disagrees_good h i]
      exact decide_eq_true other
    refine ⟨?_, differ⟩
    rw [mergeFrame_good h, differ]
    rfl

end Sys2Proof.Claims
end

