-- ==== Sys2Proof/Proofs/FlowRequests.lean ====
section
/-!
SUPPORT. HOLD and GO in the Transmit Queue (R42, R109): what a request of another class, a withdrawal and a change of the flow do to them.
Then what an evaluation of the flow after a change of the Intake brings about (R41, R53).
-/
namespace Sys2Proof.Machine

/-! ### The queue -/

theorem Link.kick_carries_iff (l : Link) (m : TxMsg) : l.kick.Carries m ↔ l.Carries m := by
  refine ⟨fun h => ?_, Link.kick_carries⟩
  rcases h with waits | sent
  · exact .inl (Link.mem_kick waits)
  · unfold Link.kick at sent
    split at sent
    · rename_i queue
      cases sent
      exact .inl (queue ▸ List.mem_cons_self)
    · exact .inr sent

theorem mem_replaceOrAdd_cases {x m : TxMsg} {q : List TxMsg} (h : x ∈ replaceOrAdd m q) : x = m ∨ x ∈ q := by
  induction q with
  | nil => exact .inl (List.mem_singleton.mp h)
  | cons y rest ih =>
    unfold replaceOrAdd at h
    split at h
    · exact (List.mem_cons.mp h).imp_right (List.mem_cons_of_mem _)
    · rcases List.mem_cons.mp h with rfl | k
      · exact .inr List.mem_cons_self
      · exact (ih k).imp_right (List.mem_cons_of_mem _)

/-- A request of another class adds no message of a class (R109). -/
theorem mem_requestQueue_iff {x m : TxMsg} (flow : x.cls = .flow) (other : m.cls ≠ .flow) (q : List TxMsg) :
    x ∈ requestQueue m q ↔ x ∈ q := by
  have ne : x ≠ m := fun e => other (e ▸ flow)
  refine ⟨fun h => ?_, mem_requestQueue (flow ▸ Ne.symm other)⟩
  cases m with
  | seek n b => exact (mem_replaceOrAdd_cases h).resolve_left ne
  | pace l => exact (mem_replaceOrAdd_cases h).resolve_left ne
  | load p => exact (mem_replaceOrAdd_cases h).resolve_left ne
  | cease n => exact (List.mem_filter.mp ((List.mem_cons.mp h).resolve_left ne)).1
  | hold => exact absurd rfl other
  | go => exact absurd rfl other

/-- From l to x the flow requests that wait or are being sent stay those they were, and none joins the queue. -/
structure Link.FlowKept (l x : Link) : Prop where
  carries : ∀ m, m.cls = .flow → (x.Carries m ↔ l.Carries m)
  queued  : ∀ m, m.cls = .flow → m ∈ x.queue → m ∈ l.queue

/-- From l to x the flow was requested to turn: the request reached the queue, or it cancelled the opposite one (R42, R109). -/
structure Link.Turned (l x : Link) (m opposite : TxMsg) : Prop where
  requested : opposite ∉ l.queue → x.Carries m
  cancelled : opposite ∈ l.queue → m ∉ x.queue ∧ opposite ∉ x.queue

namespace Link

theorem FlowKept.refl (l : Link) : l.FlowKept l := ⟨fun _ _ => Iff.rfl, fun _ _ h => h⟩

theorem FlowKept.trans {a b c : Link} (h : a.FlowKept b) (k : b.FlowKept c) : a.FlowKept c :=
  ⟨fun m f => (k.carries m f).trans (h.carries m f), fun m f w => h.queued m f (k.queued m f w)⟩

/-- Nothing changes at the queue and the transmitter. -/
theorem FlowKept.same {l x : Link} (queue : x.queue = l.queue) (tx : x.tx = l.tx) : l.FlowKept x := by
  refine ⟨fun m _ => ?_, fun m _ h => queue ▸ h⟩
  unfold Link.Carries
  rw [queue, tx]

/-- An IDLE transmitter takes the head. -/
theorem FlowKept.kick (l : Link) : l.FlowKept l.kick := ⟨fun m _ => l.kick_carries_iff m, fun _ _ => Link.mem_kick⟩

theorem FlowKept.request (l : Link) {m : TxMsg} (other : m.cls ≠ .flow) :
    l.FlowKept ({ l with queue := requestQueue m l.queue } : Link).kick := by
  have added : l.FlowKept { l with queue := requestQueue m l.queue } :=
    ⟨fun x f => or_congr (mem_requestQueue_iff f other _) Iff.rfl, fun x f => (mem_requestQueue_iff f other _).mp⟩
  exact added.trans (.kick _)

theorem mem_withdrawn {l : Link} (n : Nat) {m : TxMsg} (f : m.cls = .flow) :
    m ∈ l.queue.filter (fun m => !m.isSeekOf n) ↔ m ∈ l.queue := by
  rw [List.mem_filter]
  refine and_iff_left ?_
  cases m
  case hold | go => rfl
  all_goals cases f

theorem FlowKept.withdraw (l : Link) (n : Nat) : l.FlowKept { l with queue := l.queue.filter (fun m => !m.isSeekOf n) } :=
  ⟨fun _ f => or_congr (mem_withdrawn n f) Iff.rfl, fun _ f => (mem_withdrawn n f).mp⟩

theorem not_mem_dropFlow {m : TxMsg} (f : m.cls = .flow) (q : List TxMsg) : m ∉ dropClass .flow q :=
  fun h => of_decide_eq_true (List.mem_filter.mp h).2 f

/-- A flow request (R42, R109). -/
theorem Turned.request (l : Link) {m o : TxMsg} (f : m.cls = .flow) (g : o.cls = .flow) :
    l.Turned ({ l with queue := flowRequest m o l.queue } : Link).kick m o where
  requested absent := by
    refine Link.kick_carries (.inl ?_)
    show m ∈ flowRequest m o l.queue
    unfold flowRequest
    rw [if_neg fun h => absent (List.contains_iff_mem.mp h)]
    split
    · rename_i waits
      exact List.contains_iff_mem.mp waits
    · exact List.mem_append_right _ List.mem_cons_self
  cancelled waits := by
    have dropped : flowRequest m o l.queue = dropClass .flow l.queue := if_pos (List.contains_iff_mem.mpr waits)
    exact ⟨fun h => not_mem_dropFlow f _ (dropped ▸ Link.mem_kick h), fun h => not_mem_dropFlow g _ (dropped ▸ Link.mem_kick h)⟩

theorem Turned.kept {l x y : Link} {m o : TxMsg} (h : l.Turned x m o) (k : x.FlowKept y) (f : m.cls = .flow) (g : o.cls = .flow) :
    l.Turned y m o :=
  ⟨fun absent => (k.carries m f).mpr (h.requested absent),
    fun waits => ⟨fun w => (h.cancelled waits).1 (k.queued m f w), fun w => (h.cancelled waits).2 (k.queued o g w)⟩⟩

/-- A turn after which the flow requests in the queue are still those before. -/
theorem Turned.after {l x y : Link} {m o : TxMsg} (h : x.Turned y m o) (same : o ∈ x.queue ↔ o ∈ l.queue) : l.Turned y m o :=
  ⟨fun absent => h.requested fun w => absent (same.mp w), fun waits => h.cancelled (same.mpr waits)⟩

end Link

/-! ### Pre-emption and choice (R54, R55) -/

/-- A close with CEASE leaves the flow requests, and a transmitter that is not IDLE. -/
theorem ceased_flow (s : State) : s.link.FlowKept (ceased s).link ∧ (ceased s).link.tx ≠ .idle ∧
    ∀ m, m.cls = .flow → (m ∈ (ceased s).link.queue ↔ m ∈ s.link.queue) := by
  have kept : s.link.FlowKept (ceased s).link :=
    (Link.FlowKept.withdraw s.link s.planner.stream.number).trans (.request _ nofun)
  have link : (ceased s).link = ({ s.link with
      queue := .cease s.planner.stream.number :: dropClass .cease (s.link.queue.filter (fun m => !m.isSeekOf s.planner.stream.number)) }
        : Link).kick := rfl
  have standing : ∀ m, m.cls = .flow → m ∈ s.link.queue →
      m ∈ dropClass .cease (s.link.queue.filter (fun m => !m.isSeekOf s.planner.stream.number)) := fun m f h =>
    mem_dropClass (by rw [f]; nofun) ((Link.mem_withdrawn _ f).mpr h)
  by_cases idle : s.link.tx = .idle
  · have taken : (ceased s).link = { s.link with
        tx := .sending (.cease s.planner.stream.number)
        queue := dropClass .cease (s.link.queue.filter (fun m => !m.isSeekOf s.planner.stream.number)) } := by
      rw [link]
      unfold Link.kick
      rw [idle]
    refine ⟨kept, by rw [taken]; nofun, fun m f => ⟨kept.queued m f, fun h => ?_⟩⟩
    rw [taken]
    exact standing m f h
  · have waits := link.trans (Link.kick_busy idle)
    refine ⟨kept, by rw [waits]; exact idle, fun m f => ⟨kept.queued m f, fun h => ?_⟩⟩
    rw [waits]
    exact List.mem_cons_of_mem _ (standing m f h)

/-- A choice leaves the flow requests, and the queue where the transmitter takes nothing. -/
theorem chooseStream_flow (s : State) : s.link.FlowKept (chooseStream s).link ∧
    (s.link.tx ≠ .idle → ∀ m, m.cls = .flow → (m ∈ (chooseStream s).link.queue ↔ m ∈ s.link.queue)) := by
  have opens : ∀ n b, s.link.FlowKept ({ s.link with queue := requestQueue (.seek n b) s.link.queue } : Link).kick ∧
      (s.link.tx ≠ .idle → ∀ m, m.cls = .flow →
        (m ∈ ({ s.link with queue := requestQueue (.seek n b) s.link.queue } : Link).kick.queue ↔ m ∈ s.link.queue)) := by
    intro n b
    refine ⟨.request _ nofun, fun busy m f => ?_⟩
    rw [Link.kick_busy (l := { s.link with queue := requestQueue (.seek n b) s.link.queue }) busy]
    exact mem_requestQueue_iff (m := .seek n b) f (by exact nofun) s.link.queue
  unfold chooseStream
  split
  · split
    · exact opens _ _
    · split
      · exact opens _ _
      · exact ⟨.refl _, fun _ _ _ => Iff.rfl⟩
  · exact ⟨.refl _, fun _ _ _ => Iff.rfl⟩

/-- The window's condition is gone once the phase is cleared. -/
theorem windowFull_cleared {s : State} (h : s.asm.align.phase = .none) : windowFull s = false := by
  unfold windowFull
  dsimp only
  rw [h]
  rfl

/-- What a pre-emption and a choice leave of the flow: the causes, and the requests; the window's condition stays, or it is gone and
the requests in the queue are those before. -/
structure Chosen (s t : State) : Prop where
  held   : flowHeld t = flowHeld s
  intake : intakeFull t = intakeFull s
  kept   : s.link.FlowKept t.link
  window : windowFull t = windowFull s ∨
    (windowFull t = false ∧ ∀ m, m.cls = .flow → (m ∈ t.link.queue ↔ m ∈ s.link.queue))

theorem chosen (s : State) : Chosen s (chooseStream (preempt s)) := by
  obtain ⟨store, asm, -⟩ := chooseStream_keeps (preempt s)
  obtain ⟨chose, still⟩ := chooseStream_flow (preempt s)
  have sameWindow : windowFull (chooseStream (preempt s)) = windowFull (preempt s) := windowFull_congr (by rw [asm]) store
  by_cases h : Preempts s
  · obtain ⟨kept, busy, queue⟩ := ceased_flow s
    have ended := preempt_of h
    have held : (preempt s).asm.holdIntake = s.asm.holdIntake ∧ (preempt s).asm.holdWindow = s.asm.holdWindow ∧
        (preempt s).asm.intake = s.asm.intake := by
      rw [ended]
      exact ⟨rfl, rfl, rfl⟩
    have link : (preempt s).link = (ceased s).link := by rw [ended]; rfl
    refine ⟨?_, ?_, ?_, .inr ⟨?_, fun m f => ?_⟩⟩
    · unfold flowHeld
      rw [asm, held.1, held.2.1]
    · unfold intakeFull
      rw [asm, held.2.2]
    · exact Link.FlowKept.trans (link ▸ kept) chose
    · rw [sameWindow]
      refine windowFull_cleared ?_
      rw [ended]
      rfl
    · rw [still (link ▸ busy) m f, link]
      exact queue m f
  · rw [preempt_of_not h] at asm chose sameWindow ⊢
    refine ⟨?_, ?_, chose, .inl sameWindow⟩
    · unfold flowHeld
      rw [asm]
    · unfold intakeFull
      rw [asm]

/-! ### An evaluation of the flow (R41, R42) -/

theorem evaluateFlow_held (s : State) : flowHeld (evaluateFlow s) = (intakeFull s || windowFull s) := by
  unfold evaluateFlow
  dsimp only
  split <;> split <;> rfl

theorem evaluateFlow_link (s : State) :
    (evaluateFlow s).link =
      if flowHeld (evaluateFlow s) = flowHeld s then s.link
      else ({ s.link with
        queue := requestQueue (if flowHeld s then .go else .hold) s.link.queue } : Link).kick := by
  rw [evaluateFlow_held]
  unfold evaluateFlow
  dsimp only
  cases flowHeld s <;> cases intakeFull s || windowFull s <;> rfl

/-- What the evaluations of the flow from s to t requested. -/
structure FlowTurns (s t : State) : Prop where
  same  : flowHeld t = flowHeld s → s.link.FlowKept t.link
  holds : flowHeld s = false → flowHeld t = true → s.link.Turned t.link .hold .go
  goes  : flowHeld s = true → flowHeld t = false → s.link.Turned t.link .go .hold

theorem evaluateFlow_turns (s : State) : FlowTurns s (evaluateFlow s) := by
  have link := evaluateFlow_link s
  refine ⟨fun same => ?_, fun before after => ?_, fun before after => ?_⟩
  · rw [link, if_pos same]
    exact .refl _
  · rw [link, if_neg (by rw [before, after]; nofun), before]
    exact .request _ rfl rfl
  · rw [link, if_neg (by rw [before, after]; nofun), before]
    exact .request _ rfl rfl

/-- Nothing is requested after the turn. -/
theorem FlowTurns.kept {s t v : State} (h : FlowTurns s t) (held : flowHeld v = flowHeld t) (kept : t.link.FlowKept v.link) :
    FlowTurns s v :=
  ⟨fun same => (h.same (held.symm.trans same)).trans kept, fun before after => (h.holds before (held.symm.trans after)).kept kept rfl rfl,
    fun before after => (h.goes before (held.symm.trans after)).kept kept rfl rfl⟩

/-! ### The end of an event (R41, R53) -/

theorem FlowSound.held {s : State} (h : FlowSound s) : flowHeld s = (intakeFull s || windowFull s) := by
  obtain ⟨intake, window⟩ := (flowSound_iff s).mp h
  unfold flowHeld
  rw [intake, window]

/-- What the end of an event leaves of the flow where the hold causes were the conditions: they are again, the Intake is as it was, and the
window's condition stays or is gone. -/
structure FlowEnds (s t : State) : Prop where
  turns  : FlowTurns s t
  sound  : FlowSound t
  intake : intakeFull t = intakeFull s
  window : windowFull t = windowFull s ∨ windowFull t = false

namespace FlowEnds

variable {s t : State}

/-- The flow is not stopped, and goes on where the window's condition is gone. -/
theorem held (h : FlowEnds s t) (sound : FlowSound s) : flowHeld t = flowHeld s ∨
    (intakeFull s = false ∧ flowHeld s = true ∧ flowHeld t = false) := by
  rw [h.sound.held, sound.held, h.intake]
  rcases h.window with same | gone
  · exact .inl (by rw [same])
  · rw [gone]
    cases intakeFull s <;> cases windowFull s <;> simp

theorem once (s : State) (sound : FlowSound s) : FlowEnds s (evaluateFlow (chooseStream (preempt s))) := by
  obtain ⟨held, intake, kept, window⟩ := chosen s
  generalize chooseStream (preempt s) = v at held intake kept window
  obtain ⟨-, store, -, align⟩ := evaluateFlow_keeps v
  have sameWindow : windowFull (evaluateFlow v) = windowFull v := windowFull_congr align store
  have sameIntake : intakeFull (evaluateFlow v) = intakeFull v := by
    unfold intakeFull
    rw [((KeepsChoice.moves v).evaluateFlow (.refl v)).asm.intake]
  have turns := evaluateFlow_turns v
  refine ⟨⟨fun same => kept.trans (turns.same (same.trans held.symm)), fun before after => ?_, fun before after => ?_⟩,
    evaluateFlow_flowSound v, sameIntake.trans intake, ?_⟩
  · have flows := before
    rw [evaluateFlow_held, intake] at after
    rw [sound.held, Bool.or_eq_false_iff] at flows
    rw [flows.1, Bool.false_or] at after
    rcases window with same | ⟨gone, -⟩
    · exact absurd (after.symm.trans (same.trans flows.2)) nofun
    · exact absurd (after.symm.trans gone) nofun
  · have flows := after
    have holds := before
    rw [evaluateFlow_held, intake, Bool.or_eq_false_iff] at flows
    rw [sound.held, flows.1, Bool.false_or] at holds
    rcases window with same | ⟨-, queue⟩
    · exact absurd (holds.symm.trans (same.symm.trans flows.2)) nofun
    · exact (turns.goes (held.trans before) after).after (queue .hold rfl)
  · rw [sameWindow]
    exact window.imp_right And.left

/-- Where the window's condition changed, it is gone, and a second choice leaves the flow. -/
theorem again (h : FlowEnds s t) (gone : windowFull t = false) :
    FlowEnds s (evaluateFlow (chooseStream (preempt t))) := by
  have next := once t h.sound
  have window : windowFull (evaluateFlow (chooseStream (preempt t))) = false := next.window.elim (fun same => same.trans gone) id
  have held : flowHeld (evaluateFlow (chooseStream (preempt t))) = flowHeld t := by
    rw [next.sound.held, h.sound.held, next.intake, window, gone]
  exact ⟨h.turns.kept held (next.turns.same held), next.sound, next.intake.trans h.intake, .inr window⟩

theorem settle (s : State) (sound : FlowSound s) : FlowEnds s (settle s) := by
  have first := once s sound
  unfold Machine.settle
  dsimp only
  generalize evaluateFlow (chooseStream (preempt s)) = t at first
  split
  · rename_i differs
    refine first.again ?_
    obtain ⟨intake, window⟩ := (flowSound_iff s).mp sound
    obtain ⟨intake', window'⟩ := (flowSound_iff t).mp first.sound
    rcases first.window with same | gone
    · unfold flowDiffers at differs
      rw [intake, window, intake', window', first.intake, same] at differs
      simp at differs
    · exact gone
  · exact first

end FlowEnds

theorem reflow_flowSound (s : State) : FlowSound (reflow s) := by
  unfold reflow
  dsimp only
  split
  · exact (FlowEnds.settle _ (evaluateFlow_flowSound s)).sound
  · exact evaluateFlow_flowSound s

/-- The flow after a change of the Intake alone that is evaluated (R41). -/
theorem reflow_turns {s : State} (window : s.asm.holdWindow = windowFull s) : FlowTurns s (reflow s) := by
  have turns := evaluateFlow_turns s
  have sound := evaluateFlow_flowSound s
  have held := evaluateFlow_held s
  have link := evaluateFlow_link s
  have intake : intakeFull (evaluateFlow s) = intakeFull s := by
    unfold intakeFull
    rw [((KeepsChoice.moves s).evaluateFlow (.refl s)).asm.intake]
  unfold reflow
  dsimp only
  split
  · generalize evaluateFlow s = e at turns sound held link intake
    have ends := FlowEnds.settle e sound
    rcases ends.held sound with still | ⟨free, before, after⟩
    · exact turns.kept still (ends.turns.same still)
    · have was : flowHeld s = true := by
        rw [intake] at free
        rw [free, Bool.false_or] at held
        unfold flowHeld
        rw [window, ← held, before, Bool.or_true]
      have gone := ends.turns.goes before after
      rw [link, if_pos (before.trans was.symm)] at gone
      exact ⟨fun same => absurd (after.symm.trans (same.trans was)) nofun, fun flows => absurd (flows.symm.trans was) nofun,
        fun _ _ => gone⟩
  · exact turns

end Sys2Proof.Machine

namespace Sys2Proof.Claims

open Sys2Proof.Machine

/-- The flow after a change of the Intake, where nothing before it touched the flow requests but a transmitter that was released. -/
theorem flowFollows_reflow {s u : State} (kept : s.link.FlowKept u.link)
    (queue : s.link.tx ≠ .held → u.link.queue = s.link.queue) (intake : u.asm.holdIntake = s.asm.holdIntake)
    (window : u.asm.holdWindow = s.asm.holdWindow) (align : u.asm.align = s.asm.align) (store : u.store = s.store) :
    FlowFollows s (reflow u) := by
  have held : flowHeld u = flowHeld s := by
    unfold flowHeld
    rw [intake, window]
  have ends : FlowSound s → FlowTurns u (reflow u) := fun sound =>
    reflow_turns (window.trans (((flowSound_iff s).mp sound).2.trans (windowFull_congr align store).symm))
  have requested : ∀ {m o : TxMsg}, m.cls = .flow → o.cls = .flow → u.link.Turned (reflow u).link m o → FlowRequested s (reflow u) m o :=
    fun f g turned => ⟨fun absent => turned.requested fun w => absent (kept.queued _ g w),
      fun waits free => turned.cancelled (queue free ▸ waits)⟩
  refine ⟨reflow_flowSound u, fun sound => ⟨fun before after => ?_, fun before after => ?_, fun same => ?_⟩⟩
  · exact requested rfl rfl ((ends sound).holds (held.trans before) after)
  · exact requested rfl rfl ((ends sound).goes (held.trans before) after)
  · have all := kept.trans ((ends sound).same (same.symm.trans held.symm))
    exact ⟨(all.carries .hold rfl).mp, (all.carries .go rfl).mp⟩

/-- The flow's statement reads the Assembler, the store and the link of the later state. -/
theorem FlowFollows.congr {s t v : State} (h : FlowFollows s t) (asm : v.asm = t.asm) (store : v.store = t.store)
    (link : v.link = t.link) : FlowFollows s v := by
  obtain ⟨sound, turns⟩ := h
  refine ⟨sound.congr asm (by rw [store]) (by rw [store]), ?_⟩
  unfold FlowRequested flowHeld at turns ⊢
  rw [asm, link]
  exact turns

end Sys2Proof.Claims
end

