-- ==== Sys2Proof/Proofs/PlacementDrops.lean ====
section
/-!
SUPPORT. An entry that R26 does not accept. Then the statement about it (O25).
-/
namespace Sys2Proof.Machine

/-- The placement of the entry at the front of the Intake judges it once it has left (R23). -/
theorem placement_front {s : State} {x : IntakeEntry} {rest : List IntakeEntry} (h : s.asm.intake = x :: rest) :
    placement s = judgeEntry x (s.setAsm { s.asm with intake := rest }) := by
  unfold placement
  rw [h]

section
variable {s : State} {x : IntakeEntry}

theorem judgeEntry_stale (h : x.stream ≠ s.asm.align.stream ∨ s.asm.align.phase = .none) :
    judgeEntry x s = dropEntry (fun c => { c with stale := bump c.stale }) s := if_pos h

theorem judgeEntry_stray (stream : x.stream = s.asm.align.stream) (landed : s.asm.align.phase ≠ .none)
    (other : x.tag ≠ s.play.disc.tag) : judgeEntry x s = dropEntry (fun c => { c with stray := bump c.stray }) s :=
  (if_neg (not_or.mpr ⟨not_not.mpr stream, landed⟩)).trans (if_pos other)

theorem judgeEntry_withheld (stream : x.stream = s.asm.align.stream) (landed : s.asm.align.phase ≠ .none)
    (tag : x.tag = s.play.disc.tag) (withdrawn : s.health.state = .withdrawn) :
    judgeEntry x s = dropEntry (fun c => { c with withheld := bump c.withheld }) s :=
  (if_neg (not_or.mpr ⟨not_not.mpr stream, landed⟩)).trans ((if_neg (not_not.mpr tag)).trans (if_pos withdrawn))

theorem judgeEntry_accepted (stream : x.stream = s.asm.align.stream) (landed : s.asm.align.phase ≠ .none)
    (tag : x.tag = s.play.disc.tag) (steady : s.health.state ≠ .withdrawn) : judgeEntry x s = placeAccepted x s :=
  (if_neg (not_or.mpr ⟨not_not.mpr stream, landed⟩)).trans ((if_neg (not_not.mpr tag)).trans (if_neg steady))

end

end Sys2Proof.Machine

namespace Sys2Proof.Claims

open Sys2Proof.Machine

/-- What every entry that is dropped leaves: it is gone from the Intake and counted, and the flow follows. -/
theorem placement_drops {s : State} {x : IntakeEntry} {rest : List IntakeEntry} (front : s.asm.intake = x :: rest)
    {f : PlacementCounters → PlacementCounters}
    (judged : ∀ u : State, u.asm = { s.asm with intake := rest } → u.play = s.play → u.health = s.health →
      judgeEntry x u = dropEntry f u) :
    Completes .placement s (fun t => t.asm.intake = rest ∧ t.asm.counters = f s.asm.counters ∧ FlowFollows s t ∧ t.attn = s.attn ∧
      AudioStays s t) := by
  have dropped : placement (s.setNotices []) =
      reflow (countPlacement f ((s.setNotices []).setAsm { s.asm with intake := rest })) :=
    (placement_front (s := s.setNotices []) front).trans (judged _ rfl rfl rfl)
  have kept := KeepsChoice.reflow (countPlacement f ((s.setNotices []).setAsm { s.asm with intake := rest }))
  have quiet : (placement (s.setNotices [])).notices = [] := by
    rw [dropped]
    exact kept.notices
  have follows : FlowFollows s (reflow (countPlacement f ((s.setNotices []).setAsm { s.asm with intake := rest }))) :=
    flowFollows_reflow (.refl _) (fun _ => rfl) rfl rfl rfl rfl
  refine ⟨_, inStep_quiet quiet, ?_⟩
  rw [dropped]
  refine ⟨kept.asm.intake, kept.asm.counters, ?_, kept.attn, ⟨kept.sense, kept.supply, kept.console, kept.pending⟩, kept.store, kept.health,
    kept.feeder, kept.play, kept.resume⟩
  exact follows.congr rfl rfl rfl

/-- Settles O25: R26 takes its tests in order, and what a dropped entry leaves is the same for each. -/
theorem placementDropsEntry : Obligations.PlacementDropsEntry := by
  intro x rest s front
  refine ⟨fun stale => ?_, fun stream landed other => ?_, fun stream landed tag withdrawn => ?_⟩
  · exact placement_drops front fun u asm _ _ => judgeEntry_stale (by rw [asm]; exact stale)
  · exact placement_drops front fun u asm play _ =>
      judgeEntry_stray (by rw [asm]; exact stream) (by rw [asm]; exact landed) (by rw [play]; exact other)
  · exact placement_drops front fun u asm play health =>
      judgeEntry_withheld (by rw [asm]; exact stream) (by rw [asm]; exact landed) (by rw [play]; exact tag)
        (by rw [health]; exact withdrawn)

end Sys2Proof.Claims
end

