-- ==== Sys2Proof/Proofs/BlockEnters.lean ====
section
/-!
SUPPORT. A sound message at the link up to its dispatch (R95, R100, R106), and a BLOCK that meets a free intake entry. Then the statement
about it (O15).
-/
namespace Sys2Proof.Machine

/-! ### The beginning of a message -/

/-- A line that goes high leaves assembly and counters; it releases a held transmitter and no other (R95, R111). -/
theorem Link.lineHigh_fields (l : Link) : l.lineHigh.assembly = l.assembly ∧ l.lineHigh.counters = l.counters ∧
    l.FlowKept l.lineHigh ∧ (l.tx ≠ .held → l.lineHigh.queue = l.queue) := by
  unfold Link.lineHigh
  dsimp only
  split
  · rename_i held
    have released : l.FlowKept { l with sampling := .hunting, breakCount := 0, tx := .idle } :=
      ⟨fun m _ => or_congr Iff.rfl (by rw [held]; exact ⟨nofun, nofun⟩), fun _ _ h => h⟩
    rw [Link.kick_rest]
    refine ⟨rfl, rfl, released.trans ?_, fun free => absurd held free⟩
    exact (Link.FlowKept.kick _).trans (.same rfl rfl)
  all_goals exact ⟨rfl, rfl, .same rfl rfl, fun _ => rfl⟩

/-- The characters of a message while none is under way change the link alone: the noise is counted, and a held transmitter released. -/
theorem beginMessage_idle {s : State} (idle : s.link.assembly = .idle) (noise : Nat) :
    ∃ l, beginMessage noise s = s.setLink l ∧ l.assembly = .idle ∧
      l.counters = { s.link.counters with noise := bumpBy s.link.counters.noise noise } ∧
      s.link.FlowKept l ∧ (s.link.tx ≠ .held → l.queue = s.link.queue) := by
  have high : ∃ l, lineHigh s = s.setLink l ∧ l.assembly = .idle ∧ l.counters = s.link.counters ∧ s.link.FlowKept l ∧
      (s.link.tx ≠ .held → l.queue = s.link.queue) := by
    obtain ⟨assembly, counters, kept, queue⟩ := s.link.lineHigh_fields
    unfold lineHigh
    split
    · exact ⟨s.link.lineHigh, rfl, assembly.trans idle, counters, kept, queue⟩
    · exact ⟨s.link, rfl, idle, rfl, .refl _, fun _ => rfl⟩
  obtain ⟨l, line, assembly, counters, kept, queue⟩ := high
  unfold beginMessage
  rw [line]
  refine ⟨{ l with breakCount := 0, counters := { l.counters with noise := bumpBy l.counters.noise noise }, assembly := .idle },
    ?_, rfl, by rw [counters], kept.trans (.same rfl rfl), queue⟩
  unfold truncate mapLink
  rw [State.link_setLink, State.link_setLink]
  dsimp only
  rw [assembly]
  rfl

/-! ### A BLOCK -/

/-- A well-formed erasure list is not malformed (R102, R104). -/
theorem block_wellformed {e : Option (List (BitVec 16))} (wf : erasuresWf e = true) (n bn : Nat) (tag : Tag) (v : List Sample) :
    (RxMsg.block n bn tag v (e.map (fun l => l.map BitVec.toNat))).malformed = false ∧
      ((e.map (fun l => l.map BitVec.toNat)).getD []).length ≤ 64 := by
  cases e with
  | none => exact ⟨rfl, Nat.zero_le _⟩
  | some indices =>
    simp only [erasuresWf, Bool.and_eq_true, decide_eq_true_eq, List.all_eq_true] at wf
    obtain ⟨⟨short, below⟩, distinct⟩ := wf
    have nodup : (indices.map BitVec.toNat).Nodup := distinct.map fun a b same => BitVec.eq_of_toNat_eq same
    have length : (indices.map BitVec.toNat).length ≤ 64 := by rwa [List.length_map]
    refine ⟨?_, length⟩
    have inside : (indices.map BitVec.toNat).any (fun i => decide (Config.framesPerBlock ≤ i)) = false :=
      List.any_eq_false.mpr fun i hi beyond => by
        obtain ⟨x, hx, rfl⟩ := List.mem_map.mp hi
        exact absurd (of_decide_eq_true beyond) (Nat.not_le.mpr (below x hx))
    show (decide (64 < (indices.map BitVec.toNat).length) || _ || !decide _) = false
    rw [inside, decide_eq_false (Nat.not_lt.mpr length), decide_eq_true nodup]
    rfl

/-- A BLOCK of a well-formed list is counted and accepted where an intake entry is free; before that, only the link changes (R21, R22). -/
theorem receiveBlock_accepted {s : State} (on : s.console.params.receiverEnable = 1) (idle : s.link.assembly = .idle)
    (free : s.asm.intake.length < 2) (noise n bn : Nat) (tag : Tag) (v : List Sample) {e : Option (List (BitVec 16))}
    (wf : erasuresWf e = true) :
    ∃ l, receiveBlock noise n bn tag v (e.map (fun l => l.map BitVec.toNat)) s =
        acceptEntry (entryOf n bn tag v (e.map (fun l => l.map BitVec.toNat))) (s.setLink l) ∧
      l.assembly = .idle ∧ l.counters.received = bump s.link.counters.received ∧
      l.counters.noise = bumpBy s.link.counters.noise noise ∧ s.link.FlowKept l ∧ (s.link.tx ≠ .held → l.queue = s.link.queue) := by
  obtain ⟨sound, short⟩ := block_wellformed wf n bn tag v
  obtain ⟨l, begun, assembly, counters, kept, queue⟩ := beginMessage_idle idle noise
  refine ⟨{ l with counters := { l.counters with received := bump l.counters.received } }, ?_, assembly, by rw [counters],
    by rw [counters], kept.trans (.same rfl rfl), queue⟩
  have enabled : receiverOn s = true := decide_eq_true on
  have room : intakeFull (s.setLink l) = false := decide_eq_false (Nat.not_le.mpr free)
  unfold receiveBlock
  dsimp only
  rw [if_pos enabled, begun, room, if_neg nofun, if_neg fun long => absurd (of_decide_eq_true long) (Nat.not_lt.mpr short)]
  unfold deliver
  rw [sound]
  rfl

end Sys2Proof.Machine

namespace Sys2Proof.Claims

open Sys2Proof.Machine

/-- Settles O15: the link hands the BLOCK on, the Assembler adds it and evaluates its flow. -/
theorem blockEntersIntake : Obligations.BlockEntersIntake := by
  rintro noise n bn tag v e s ⟨on, idle⟩ free wf
  obtain ⟨l, accepted, assembly, received, noisy, kept, queue⟩ :=
    receiveBlock_accepted (s := s.setNotices []) on idle free noise n.toNat bn.toNat tag v.toList wf
  generalize entryOf n.toNat bn.toNat tag v.toList (e.map (fun l => l.map BitVec.toNat)) = x at accepted ⊢
  have frame : KeepsChoice (((s.setNotices []).setLink l).setAsm { s.asm with intake := s.asm.intake ++ [x] })
      (acceptEntry x ((s.setNotices []).setLink l)) := KeepsChoice.reflow _
  have follows : FlowFollows s (acceptEntry x ((s.setNotices []).setLink l)) :=
    flowFollows_reflow kept queue rfl rfl rfl rfl
  generalize acceptEntry x ((s.setNotices []).setLink l) = t at accepted frame follows
  have quiet : (receiveBlock noise n.toNat bn.toNat tag v.toList (e.map (fun l => l.map BitVec.toNat)) (s.setNotices [])).notices = [] := by
    rw [accepted]
    exact frame.notices
  have link : t.link = { l with queue := t.link.queue, tx := t.link.tx } := frame.link.rest
  refine ⟨_, inStep_quiet quiet, ?_⟩
  rw [accepted]
  refine ⟨frame.asm.intake, frame.asm.counters, (congrArg Link.assembly link).trans assembly,
    (congrArg (fun l => l.counters.received) link).trans received, (congrArg (fun l => l.counters.noise) link).trans noisy,
    follows.congr rfl rfl rfl, frame.attn, ⟨frame.sense, frame.supply, frame.console, frame.pending⟩, frame.store, frame.health,
    frame.feeder, frame.play, frame.resume⟩

end Sys2Proof.Claims
end

