-- ==== Sys2Proof/Proofs/Aside.lean ====
section
/-!
SUPPORT. What the planner's side leaves of the Assembler, the stream, the queue and the store when it takes store notices, ends its event and
takes notices of readiness: `Aside asked tidy calm a t`, through its operations one by one.
-/
namespace Sys2Proof.Machine

/-- From a to t the planner's side acted. The Intake and the next BN stay; the alignment stays or is cleared; the stream's course stays, or
the stream is closed or opened anew; the PACE that waits or is being sent stays, where that is asked, and a CEASE is followed by a CEASE
at most. The store keeps its form, no slot
comes to stand in row 5, where that is asked, and no frame changes but by an overflow, which counts, where the frames are asked (R6, R49). -/
structure Aside (asked tidy calm : Prop) (a t : State) : Prop where
  intake   : t.asm.intake = a.asm.intake
  expected : t.asm.align.expected = a.asm.align.expected
  align    : t.asm.align = a.asm.align ∨ t.asm.align.phase = .none
  course   : t.planner.stream.course = a.planner.stream.course ∨ t.planner.stream.state = .none ∨ t.planner.stream.state = .seeking
  pace     : calm → ∀ p, t.link.Carries (.pace p) ↔ a.link.Carries (.pace p)
  ceases   : ∀ m, a.link.Carries (.cease m) → ∃ n, t.link.Carries (.cease n)
  wf       : a.store.wf = true → t.store.wf = true
  row5     : tidy → a.store.wf = true → ∀ limit, a.store.NoRow5 limit → t.store.NoRow5 limit
  rises    : a.planner.counters.overflow ≤ 4294967295 → a.planner.counters.overflow ≤ t.planner.counters.overflow ∧
    t.planner.counters.overflow ≤ 4294967295
  frames   : asked → a.store.wf = true → a.planner.counters.overflow < 4294967295 →
    t.planner.counters.overflow = a.planner.counters.overflow → ∀ b, (t.store.slotOf b).frames = (a.store.slotOf b).frames

/-! ### PACE and CEASE in the queue -/

/-- From l to x the PACE that waits or is being sent stays what it was, and a CEASE that waits or is being sent is followed by a CEASE at most. -/
structure Link.Aside (l x : Link) : Prop where
  pace   : ∀ p, x.Carries (.pace p) ↔ l.Carries (.pace p)
  ceases : ∀ m, l.Carries (.cease m) → ∃ n, x.Carries (.cease n)

namespace Link.Aside

theorem refl (l : Link) : l.Aside l := ⟨fun _ => Iff.rfl, fun m h => ⟨m, h⟩⟩

theorem trans {a b c : Link} (h : a.Aside b) (k : b.Aside c) : a.Aside c :=
  ⟨fun p => (k.pace p).trans (h.pace p), fun m w => (h.ceases m w).elim k.ceases⟩

theorem kick (l : Link) : l.Aside l.kick := ⟨fun _ => l.kick_carries_iff _, fun m h => ⟨m, Link.kick_carries h⟩⟩

/-- What a request adds is the message itself. -/
theorem mem_requestQueue_cases {x m : TxMsg} {q : List TxMsg} (h : x ∈ requestQueue m q) : x = m ∨ x ∈ q := by
  have flow : ∀ n o : TxMsg, x ∈ flowRequest n o q → x = n ∨ x ∈ q := by
    intro n o h
    unfold flowRequest at h
    split at h
    · exact .inr (List.mem_filter.mp h).1
    · split at h
      · exact .inr h
      · exact (List.mem_append.mp h).symm.imp_left List.mem_singleton.mp
  cases m with
  | seek n b => exact mem_replaceOrAdd_cases h
  | pace l => exact mem_replaceOrAdd_cases h
  | load p => exact mem_replaceOrAdd_cases h
  | cease n => exact (List.mem_cons.mp h).imp_right fun k => (List.mem_filter.mp k).1
  | hold => exact flow _ _ h
  | go => exact flow _ _ h

/-- A request other than PACE. -/
theorem request (l : Link) {m : TxMsg} (other : m.cls ≠ .pace) : l.Aside ({ l with queue := requestQueue m l.queue } : Link).kick := by
  refine trans (b := { l with queue := requestQueue m l.queue }) ⟨fun p => or_congr ⟨fun w => ?_, mem_requestQueue (Ne.symm other)⟩ Iff.rfl,
    fun n h => ?_⟩ (kick _)
  · exact (mem_requestQueue_cases w).resolve_left fun e => other (by rw [← e]; rfl)
  · by_cases same : m.cls = .cease
    · obtain ⟨k, rfl⟩ : ∃ k, m = .cease k := by
        cases m <;> cases same
        exact ⟨_, rfl⟩
      exact ⟨k, .inl List.mem_cons_self⟩
    · exact ⟨n, h.imp_left (mem_requestQueue (Ne.symm same))⟩

theorem withdraw (l : Link) (n : Nat) : l.Aside { l with queue := l.queue.filter (fun m => !m.isSeekOf n) } :=
  ⟨fun _ => or_congr (List.mem_filter.trans (and_iff_left rfl)) Iff.rfl,
    fun m h => ⟨m, h.imp_left fun w => List.mem_filter.mpr ⟨w, rfl⟩⟩⟩

end Link.Aside

/-! ### The frames of a store -/

theorem Store.declares_noRow5 (blocks : List Nat) {limit : Nat} : ∀ {t : Store}, t.wf = true → t.NoRow5 limit →
    (blocks.foldl Store.declare t).NoRow5 limit := by
  induction blocks with
  | nil => exact fun _ h => h
  | cons b rest ih => exact fun w h => ih (Store.declare_wf w b) (h.declare w b)

theorem Store.declares_wf (blocks : List Nat) : ∀ {t : Store}, t.wf = true → (blocks.foldl Store.declare t).wf = true := by
  induction blocks with
  | nil => exact fun w => w
  | cons b rest ih => exact fun w => ih (Store.declare_wf w b)

namespace Aside

variable {asked tidy calm : Prop} {a s : State}

theorem refl (asked tidy calm : Prop) (a : State) : Aside asked tidy calm a a :=
  ⟨rfl, rfl, .inl rfl, .inl rfl, fun _ _ => Iff.rfl, fun m h => ⟨m, h⟩, fun w => w, fun _ _ _ h => h,
    fun h => ⟨Nat.le_refl _, h⟩, fun _ _ _ _ _ => rfl⟩

/-- What the relation rests on. -/
def base (s : State) : Assembler × Stream × Nat × Link × Store :=
  (s.asm, s.planner.stream, s.planner.counters.overflow, s.link, s.store)

/-- Nothing changes of what the relation rests on. -/
theorem same {t : State} (h : Aside asked tidy calm a s) (based : base t = base s) : Aside asked tidy calm a t := by
  simp only [base, Prod.mk.injEq] at based
  obtain ⟨asm, stream, overflow, link, store⟩ := based
  refine ⟨?_, ?_, ?_, ?_, ?_, ?_, ?_, ?_, ?_, ?_⟩
  · rw [asm]; exact h.intake
  · rw [asm]; exact h.expected
  · rw [asm]; exact h.align
  · rw [stream]; exact h.course
  · rw [link]; exact h.pace
  · rw [link]; exact h.ceases
  · rw [store]; exact h.wf
  · rw [store]; exact h.row5
  · rw [overflow]; exact h.rises
  · rw [overflow, store]; exact h.frames

theorem trans {b t : State} (h : Aside asked tidy calm a b) (k : Aside asked tidy calm b t) : Aside asked tidy calm a t where
  intake := k.intake.trans h.intake
  expected := k.expected.trans h.expected
  align := by
    rcases k.align with same | cleared
    · rw [same]; exact h.align
    · exact .inr cleared
  course := by
    rcases k.course with same | fresh
    · rw [same]
      exact h.course.imp_right fun w => by rwa [Stays.course_state same]
    · exact .inr fresh
  pace asks p := (k.pace asks p).trans (h.pace asks p)
  ceases m w := (h.ceases m w).elim k.ceases
  wf w := k.wf (h.wf w)
  row5 asks w limit n := k.row5 asks (h.wf w) limit (h.row5 asks w limit n)
  rises w := by
    obtain ⟨low, high⟩ := h.rises w
    obtain ⟨low', high'⟩ := k.rises high
    exact ⟨Nat.le_trans low low', high'⟩
  frames asks w bound e c := by
    obtain ⟨low, high⟩ := h.rises (Nat.le_of_lt bound)
    obtain ⟨low', -⟩ := k.rises high
    have between : b.planner.counters.overflow = a.planner.counters.overflow := by omega
    exact (k.frames asks (h.wf w) (between ▸ bound) (e.trans between.symm) c).trans (h.frames asks w bound between c)

/-! ### Changes of one block -/

theorem setNotices (h : Aside asked tidy calm a s) (x : List Bool) : Aside asked tidy calm a (s.setNotices x) := h.same rfl

theorem setPlay (h : Aside asked tidy calm a s) (x : Play) : Aside asked tidy calm a (s.setPlay x) := h.same rfl

theorem mapFeeder (h : Aside asked tidy calm a s) (g : Feeder → Feeder) : Aside asked tidy calm a (mapFeeder g s) := h.same rfl

theorem raise (h : Aside asked tidy calm a s) (e : Event) (d : Nat) : Aside asked tidy calm a (raise e d s) := h.same rfl

/-- A change of the planner that closes the stream, opens one or keeps its course. -/
theorem setPlanner (h : Aside asked tidy calm a s) (x : Planner) (overflow : x.counters.overflow = s.planner.counters.overflow)
    (course : x.stream.course = s.planner.stream.course ∨ x.stream.state = .none ∨ x.stream.state = .seeking) :
    Aside asked tidy calm a (s.setPlanner x) where
  intake := h.intake
  expected := h.expected
  align := h.align
  course := by
    rcases course with same | fresh
    · show x.stream.course = _ ∨ _
      rw [same]
      exact h.course.imp_right fun w => (Stays.course_state same).symm ▸ w
    · exact .inr fresh
  pace := h.pace
  ceases := h.ceases
  wf := h.wf
  row5 := h.row5
  rises w := by
    show _ ≤ x.counters.overflow ∧ x.counters.overflow ≤ _
    rw [overflow]
    exact h.rises w
  frames asks w bound e := h.frames asks w bound (overflow.symm.trans e)

/-- A stream that is closed, or opened anew. -/
theorem freshStream (h : Aside asked tidy calm a s) {x : Stream} (fresh : x.state = .none ∨ x.state = .seeking) :
    Aside asked tidy calm a (setStream x s) := h.setPlanner _ rfl (.inr fresh)

theorem setLink (h : Aside asked tidy calm a s) {x : Link} (leaves : s.link.Aside x) : Aside asked tidy calm a (s.setLink x) :=
  ⟨h.intake, h.expected, h.align, h.course, fun asks p => (leaves.pace p).trans (h.pace asks p), fun m w => (h.ceases m w).elim leaves.ceases, h.wf,
    h.row5, h.rises, h.frames⟩

theorem txRequest (h : Aside asked tidy calm a s) {m : TxMsg} (other : m.cls ≠ .pace) : Aside asked tidy calm a (txRequest m s) :=
  h.setLink (.request s.link other)

theorem clearPhase (h : Aside asked tidy calm a s) : Aside asked tidy calm a (clearPhase s) :=
  ⟨h.intake, h.expected, .inr rfl, h.course, h.pace, h.ceases, h.wf, h.row5, h.rises, h.frames⟩

/-- The frames need not be asked. -/
theorem unasked (h : Aside asked tidy calm a s) : Aside False tidy calm a s :=
  ⟨h.intake, h.expected, h.align, h.course, h.pace, h.ceases, h.wf, h.row5, h.rises, False.elim⟩

/-- A change of the store that keeps the form, and where they are asked the frames. -/
theorem setStore (h : Aside asked tidy calm a s) {x : Store} (wf : s.store.wf = true → x.wf = true)
    (row5 : tidy → s.store.wf = true → ∀ limit, s.store.NoRow5 limit → x.NoRow5 limit)
    (frames : asked → s.store.wf = true → ∀ b, (x.slotOf b).frames = (s.store.slotOf b).frames) : Aside asked tidy calm a (s.setStore x) where
  intake := h.intake
  expected := h.expected
  align := h.align
  course := h.course
  pace := h.pace
  ceases := h.ceases
  wf w := wf (h.wf w)
  row5 asks w limit n := row5 asks (h.wf w) limit (h.row5 asks w limit n)
  rises := h.rises
  frames asks w bound e b := (frames asks (h.wf w) b).trans (h.frames asks w bound e b)

/-! ### The flow, the choice and the close (R41, R54, R65) -/

theorem evaluateFlow (h : Aside asked tidy calm a s) : Aside asked tidy calm a (evaluateFlow s) := by
  have held : Aside asked tidy calm a (s.setAsm { s.asm with holdIntake := intakeFull s, holdWindow := windowFull s }) :=
    ⟨h.intake, h.expected, h.align, h.course, h.pace, h.ceases, h.wf, h.row5, h.rises, h.frames⟩
  unfold Machine.evaluateFlow
  dsimp only
  split <;> split
  · exact held
  · exact held.txRequest nofun
  · exact held.txRequest nofun
  · exact held

theorem countPlanner (h : Aside asked tidy calm a s) (f : PlannerCounters → PlannerCounters)
    (overflow : (f s.planner.counters).overflow = s.planner.counters.overflow) : Aside asked tidy calm a (countPlanner f s) :=
  h.setPlanner _ overflow (.inl rfl)

theorem setList (h : Aside asked tidy calm a s) (x : List RepairEntry) : Aside asked tidy calm a (setList x s) := h.same rfl

theorem setFrontier (h : Aside asked tidy calm a s) (x : Frontier) : Aside asked tidy calm a (setFrontier x s) := h.same rfl

theorem absorb (h : Aside asked tidy calm a s) (old : Store) : Aside asked tidy calm a (absorb old s) := h.setPlanner _ rfl (.inl rfl)

theorem openStream (h : Aside asked tidy calm a s) (purpose : Purpose) (target last : Nat) : Aside asked tidy calm a (openStream purpose target last s) :=
  txRequest (h.freshStream (.inr rfl)) (by exact nofun)

theorem chooseStream (h : Aside asked tidy calm a s) : Aside asked tidy calm a (chooseStream s) := by
  unfold Machine.chooseStream
  split
  · split
    · exact openStream (countPlanner (h.setList _) _ rfl) _ _ _
    · split
      · exact openStream (h.countPlanner _ rfl) _ _ _
      · exact h
  · exact h

theorem changeStore (h : Aside asked tidy calm a s) (f : Store → Store) (wf : s.store.wf = true → (f s.store).wf = true)
    (row5 : tidy → s.store.wf = true → ∀ limit, s.store.NoRow5 limit → (f s.store).NoRow5 limit)
    (frames : asked → s.store.wf = true → ∀ b, ((f s.store).slotOf b).frames = (s.store.slotOf b).frames) :
    Aside asked tidy calm a (changeStore f s) := by
  obtain ⟨x, e⟩ := changeStore_notices f s
  rw [e]
  exact (h.setStore wf row5 frames).setNotices x

theorem plannerDeclares (blocks : List Nat) : ∀ {s : State}, Aside asked tidy calm a s → Aside asked tidy calm a (plannerDeclares blocks s) := by
  induction blocks with
  | nil => exact fun h => h
  | cons b rest ih =>
    intro s h
    exact ih (absorb (h.changeStore (fun t => t.declare b) (fun w => Store.declare_wf w b) (fun _ w _ n => n.declare w b)
      fun _ w c => Store.frames_declares [b] w c) _)

theorem exhaust (h : Aside asked tidy calm a s) (served : Option RepairEntry) : Aside asked tidy calm a (exhaust served s) := by
  unfold Machine.exhaust
  split
  · exact h
  · split
    · exact plannerDeclares _ (h.countPlanner _ rfl)
    · exact h

theorem closeStream (h : Aside asked tidy calm a s) (close : Close) : Aside asked tidy calm a (closeStream close s) := by
  have closed : Aside asked tidy calm a (Machine.clearPhase (withdrawSeek s.planner.stream.number
      (setStream { s.planner.stream with state := .none, timerRuns := false } s))) :=
    ((h.freshStream (.inl rfl)).setLink (.withdraw _ _)).clearPhase
  unfold Machine.closeStream
  split
  · exact h
  · dsimp only
    split <;> split
    · exact ((closed.txRequest (by exact nofun)).setList _).exhaust _
    · exact (closed.setList _).exhaust _
    · exact (closed.txRequest (by exact nofun)).setList _
    · exact closed.setList _

theorem preempt (h : Aside asked tidy calm a s) : Aside asked tidy calm a (preempt s) := by
  unfold Machine.preempt
  split
  · exact (h.closeStream _).countPlanner _ rfl
  · exact h

theorem settle (h : Aside asked tidy calm a s) : Aside asked tidy calm a (settle s) := by
  have once : ∀ {u : State}, Aside asked tidy calm a u → Aside asked tidy calm a (Machine.evaluateFlow (Machine.chooseStream (Machine.preempt u))) :=
    fun w => w.preempt.chooseStream.evaluateFlow
  unfold Machine.settle
  dsimp only
  split
  · exact once (once h)
  · exact once h

theorem plannerNotice (h : Aside asked tidy calm a s) (byRestart : Bool) : Aside asked tidy calm a (plannerNotice byRestart s) := by
  have told : Aside asked tidy calm a (s.setPlanner { s.planner with active := plannerMayRead s }) := h.setPlanner _ rfl (.inl rfl)
  unfold Machine.plannerNotice
  dsimp only
  split
  · exact told.settle
  · exact (told.closeStream _).settle

theorem endCheck (h : Aside asked tidy calm a s) : Aside asked tidy calm a (endCheck s) := by
  unfold Machine.endCheck
  split
  · exact h.closeStream _
  · exact h

/-! ### Store notices (R16, R47, R49, R68) -/

/-- Once an overflow counts, the frames it freed need not be told. -/
theorem countOverflow (h : Aside False tidy calm a s) :
    Aside asked tidy calm a (Machine.countPlanner (fun c => { c with overflow := bump c.overflow }) s) where
  intake := h.intake
  expected := h.expected
  align := h.align
  course := h.course
  pace := h.pace
  ceases := h.ceases
  wf := h.wf
  row5 := h.row5
  rises w := by
    obtain ⟨low, high⟩ := h.rises w
    exact ⟨Nat.le_trans low (le_bump high), bump_le _⟩
  frames _ _ bound e := by
    obtain ⟨low, high⟩ := h.rises (Nat.le_of_lt bound)
    have counts : bump s.planner.counters.overflow = a.planner.counters.overflow := e
    have same : s.planner.counters.overflow = a.planner.counters.overflow :=
      Nat.le_antisymm (counts ▸ le_bump high) low
    rw [same] at counts
    exact absurd counts (Nat.ne_of_gt (lt_bump bound))

/-- An overflow frees frames, and counts (R49). -/
theorem overflowOnce (h : Aside asked tidy calm a s) : Aside asked tidy calm a (overflowOnce s) := by
  unfold Machine.overflowOnce
  split
  · exact h
  · rename_i r _
    have trimmed : Aside False tidy calm a (Machine.changeStore (fun t => t.trim r.first) (Machine.setList s.planner.list.dropLast s)) :=
      (h.unasked.setList _).changeStore _ (fun w => Store.trim_wf w _) (fun _ w _ n => n.freed (Store.trim_freed w _)) False.elim
    dsimp only
    split
    · exact ((trimmed.closeStream _).countOverflow.raise _ _).absorb _
    · exact (trimmed.countOverflow.raise _ _).absorb _

theorem overflowLoop (n : Nat) : ∀ {s : State}, Aside asked tidy calm a s → Aside asked tidy calm a (overflowLoop n s) := by
  induction n with
  | zero => exact fun h => h
  | succ n ih =>
    intro s h
    unfold Machine.overflowLoop
    split
    · exact ih h.overflowOnce
    · exact h

theorem judgeLateness (h : Aside asked tidy calm a s) : Aside asked tidy calm a (judgeLateness s) := by
  unfold Machine.judgeLateness
  dsimp only
  split
  · exact h
  · exact overflowLoop _ (plannerDeclares _ (h.countPlanner _ rfl))

theorem takeStoreNotice (h : Aside asked tidy calm a s) (old : Store) : Aside asked tidy calm a (takeStoreNotice old s) :=
  (overflowLoop _ (h.absorb old)).judgeLateness

/-- An event at the store, after what it does there. -/
theorem storeNotifiedFrom (f : Store → Store) (h : Aside asked tidy calm a (s.setStore (f s.store))) : Aside asked tidy calm a (storeNotified f s) := by
  have changed : Aside asked tidy calm a (Machine.changeStore f s) := by
    obtain ⟨x, e⟩ := changeStore_notices f s
    rw [e]
    exact h.setNotices x
  unfold Machine.storeNotified
  dsimp only
  split
  · exact changed.takeStoreNotice _
  · exact changed

theorem storeEventFrom (f : Store → Store) (h : Aside asked tidy calm a (s.setStore (f s.store))) : Aside asked tidy calm a (storeEvent f s) := by
  have notified := storeNotifiedFrom f h
  unfold Machine.storeEvent
  dsimp only
  split
  · exact notified.settle
  · exact notified

theorem declareEntry (h : Aside asked tidy calm a s) : Aside asked tidy calm a (declareEntry s) := by
  refine storeEventFrom (fun t => t.declareIfOpen s.feeder.block) (h.setStore (fun w => Store.declareIfOpen_wf w _) (fun _ w limit n => ?_)
    fun _ w b => ?_)
  · unfold Store.declareIfOpen
    split
    · exact n.declare w _
    · exact n
  · unfold Store.declareIfOpen
    split
    · exact Store.frames_declares [_] w b
    · rfl

/-- A recomputation under another limit declares slots (R7). -/
theorem retryLimitChanged (h : Aside asked tidy calm a s) : Aside asked tidy calm a (retryLimitChanged s) := by
  refine storeEventFrom (fun t => t.recheckAll (effectiveRetry s)) (h.setStore (fun w => Store.recheckAll_wf w _)
    (fun _ _ limit n k => ?_) fun _ _ b => ?_)
  · rw [Store.slotAt_recheckAll]
    unfold Slot.recheck
    split
    · rfl
    · exact n k
  · have window : (s.store.recheckAll (effectiveRetry s)).holds b = s.store.holds b := Store.holds_congr rfl rfl b
    unfold Store.slotOf
    rw [window]
    split
    · rw [Store.slotAt_recheckAll, Slot.recheck_frames]
    · rfl

/-! ### Notices of readiness (R16, R124, R146) -/

theorem playRequest (h : Aside asked tidy calm a s) : Aside asked tidy calm a (playRequest s) := by
  unfold Machine.playRequest
  split
  · exact (h.mapFeeder _).declareEntry
  · exact h.mapFeeder _
  · split
    · exact (h.mapFeeder _).declareEntry
    · exact h
  · exact h
  · exact h

theorem feederPrimed (h : Aside asked tidy calm a s) (p : Bool) : Aside asked tidy calm a (feederPrimed p s) := by
  unfold Machine.feederPrimed
  dsimp only
  split
  · exact ((h.mapFeeder _).mapFeeder _).declareEntry
  · exact h.mapFeeder _

theorem enterState (h : Aside asked tidy calm a s) (x : PlayState) (byRestart : Bool) : Aside asked tidy calm a (enterState x byRestart s) :=
  (h.setPlay _).plannerNotice byRestart

theorem leaveCueing (h : Aside asked tidy calm a s) : Aside asked tidy calm a (leaveCueing s) := by
  unfold Machine.leaveCueing
  split
  · exact (h.setPlay _).enterState _ _
  · exact (h.enterState _ _).playRequest

theorem playPrimed (h : Aside asked tidy calm a s) (p : Bool) : Aside asked tidy calm a (playPrimed p s) := by
  unfold Machine.playPrimed
  dsimp only
  split
  · exact leaveCueing (h.setPlay _)
  · exact h.setPlay _

theorem takeAll (notices : List Bool) : ∀ {s : State}, Aside asked tidy calm a s → Aside asked tidy calm a (notices.foldl takeReadiness s) := by
  induction notices with
  | nil => exact fun h => h
  | cons p rest ih => exact fun h => ih ((h.feederPrimed p).playPrimed p)

theorem takeNotices (h : Aside asked tidy calm a s) : Aside asked tidy calm a (takeNotices s) := takeAll _ (setNotices (takeAll _ (h.setNotices [])) [])

end Aside

end Sys2Proof.Machine
end

