-- ==== Sys2Proof/Proofs/PlacedFrames.lean ====
section
/-!
SUPPORT. Where the frames of an entry are placed (R35, R36), and what the merge steps of a placement write (R9, R37).
-/
namespace Sys2Proof.Machine

/-! ### Positions -/

theorem mem_positioned {l : List Frame} {q p : Int} {f : Frame} :
    (p, f) ∈ positioned q l ↔ ∃ i, l[i]? = some f ∧ p = q + (i : Nat) := by
  induction l generalizing q with
  | nil => simp [positioned]
  | cons g rest ih =>
    unfold positioned
    rw [List.mem_cons, ih]
    constructor
    · rintro (first | ⟨i, there, rfl⟩)
      · obtain ⟨rfl, rfl⟩ := Prod.mk.inj first
        exact ⟨0, rfl, (Int.add_zero p).symm⟩
      · exact ⟨i + 1, there, by omega⟩
    · rintro ⟨i, there, rfl⟩
      cases i with
      | zero =>
        cases Option.some.inj there
        exact .inl (by simp)
      | succ i => exact .inr ⟨i, there, by omega⟩

theorem positioned_rising (l : List Frame) (q : Int) : (positioned q l).Pairwise (fun a b => a.1 < b.1) := by
  induction l generalizing q with
  | nil => exact .nil
  | cons f rest ih =>
    refine List.pairwise_cons.mpr ⟨fun x hx => ?_, ih (q + 1)⟩
    obtain ⟨i, -, at_⟩ := mem_positioned.mp hx
    omega

theorem placeable_iff {s : State} {q : Int} :
    placeable s q = true ↔ (playPosition s : Int) ≤ q ∧ q < (s.store.limit * 588 : Nat) := by
  unfold placeable
  rw [Bool.and_eq_true, decide_eq_true_iff, decide_eq_true_iff]

/-- Which frames of an entry are placed, and where (R35). -/
theorem mem_placedFrames {s : State} {x : IntakeEntry} {d : Int} {q : Nat} {f : Frame} :
    (q, f) ∈ placedFrames s x d ↔
      ∃ i, x.frames[i]? = some f ∧ (q : Int) = (x.bn * 588 + i : Nat) + d ∧ playPosition s ≤ q ∧
        q < (s.store.playBlock + s.store.length) * 588 := by
  unfold placedFrames
  simp only [List.mem_map, List.mem_filter, Prod.mk.injEq]
  constructor
  · rintro ⟨⟨p, g⟩, ⟨mem, inside⟩, rfl, rfl⟩
    obtain ⟨i, there, at_⟩ := mem_positioned.mp mem
    obtain ⟨low, high⟩ := placeable_iff.mp inside
    simp only [Config.framesPerBlock] at at_
    simp only at low high
    refine ⟨i, there, ?_, ?_, ?_⟩
    · omega
    · omega
    · unfold Store.limit at high
      omega
  · rintro ⟨i, there, at_, low, high⟩
    refine ⟨((q : Int), f), ⟨mem_positioned.mpr ⟨i, there, ?_⟩, placeable_iff.mpr ⟨?_, ?_⟩⟩, ?_, rfl⟩
    · simp only [Config.framesPerBlock]
      omega
    · omega
    · unfold Store.limit
      omega
    · exact Int.toNat_natCast q

/-- The placed positions rise. -/
theorem placedFrames_rising (s : State) (x : IntakeEntry) (d : Int) : (placedFrames s x d).Pairwise (fun a b => a.1 < b.1) := by
  unfold placedFrames
  rw [List.pairwise_map]
  refine (List.Pairwise.and_mem.mp ((positioned_rising _ _).filter _)).imp fun {a b} h => ?_
  obtain ⟨ha, -, lt⟩ := h
  obtain ⟨low, -⟩ := placeable_iff.mp (List.mem_filter.mp ha).2
  omega

/-- The block and the index of a position (R35, R36). -/
theorem position_block {bn i q : Nat} {d : Int} (hi : i < 588) (low : -588 ≤ d) (high : d ≤ 588)
    (at_ : (q : Int) = (bn * 588 + i : Nat) + d) :
    (0 ≤ (i : Int) + d → (i : Int) + d < 588 → q / 588 = bn ∧ ((q % 588 : Nat) : Int) = i + d) ∧
    (588 ≤ (i : Int) + d → q / 588 = bn + 1 ∧ ((q % 588 : Nat) : Int) = i + d - 588) ∧
    ((i : Int) + d < 0 → q / 588 + 1 = bn ∧ ((q % 588 : Nat) : Int) = i + d + 588) := by
  refine ⟨fun _ _ => ?_, fun _ => ?_, fun _ => ?_⟩
  all_goals omega

/-! ### The frames of a slot after a merge step -/

/-- The last write of an index is read. -/
theorem get_mergeFrames {step : List (Nat × Frame)} : ∀ {held : List (Nat × Frame)}, Sparse.wf Frame.none held = true →
    step.Pairwise (fun a b => a.1 ≠ b.1) →
    (∀ f ∈ step, Sparse.get Frame.none (mergeFrames held step) f.1 = f.2) ∧
      ∀ i, (∀ f ∈ step, f.1 ≠ i) → Sparse.get Frame.none (mergeFrames held step) i = Sparse.get Frame.none held i := by
  induction step with
  | nil => exact fun _ _ => ⟨nofun, fun _ _ => rfl⟩
  | cons g rest ih =>
    intro held w distinct
    obtain ⟨fresh, distinct⟩ := List.pairwise_cons.mp distinct
    obtain ⟨written, other⟩ := ih (Sparse.wf_put w (i := g.1) (v := g.2)) distinct
    refine ⟨fun f hf => ?_, fun i hi => ?_⟩
    · rcases List.mem_cons.mp hf with rfl | hf
      · exact (other f.1 fun x hx => (fresh x hx).symm).trans (Sparse.get_put_self w)
      · exact written f hf
    · exact (other i fun x hx => hi x (List.mem_cons_of_mem _ hx)).trans
        (Sparse.get_put_other w (hi g List.mem_cons_self).symm)

theorem Store.slotOf_merge_frames {t : Store} (w : t.wf = true) (limit b : Nat) (step : List (Nat × Frame)) (c : Nat) :
    ((t.merge limit b step).slotOf c).frames =
      if c = b ∧ t.holds b = true then mergeFrames (t.slotOf b).frames step else (t.slotOf c).frames := by
  cases step with
  | nil =>
    show (t.slotOf c).frames = _
    split
    · rename_i same
      rw [same.1]
      rfl
    · rfl
  | cons f rest =>
    rw [Store.merge_of_ne t limit b (List.cons_ne_nil f rest)]
    by_cases hb : t.holds b = true
    · by_cases same : c = b
      · subst same
        rw [Store.slotOf_setSlot_self w hb, if_pos ⟨rfl, hb⟩]
        exact Slot.recheck_frames _ limit
      · rw [Store.slotOf_setSlot_other w b _ same, if_neg fun both => same both.1]
    · rw [Store.setSlot_outside hb, if_neg fun both => hb both.2]

/-! ### The merge steps of a placement -/

/-- A merge step leaves the window. -/
theorem takeStep_window (s : State) {m : MergeStep} (index : ∀ f ∈ m.frames, f.1 < Config.framesPerBlock) (b : Nat) :
    (takeStep s m).store.holds b = s.store.holds b := by
  have kept := (KeepsOuter.moves s).takeStep m index (.refl s)
  exact Store.holds_congr kept.store.playBlock kept.store.extent b

theorem takeStep_aside (s : State) (m : MergeStep) :
    Aside True True True (s.setStore (s.store.merge (effectiveRetry s) m.bn m.frames)) (takeStep s m) :=
  Aside.storeNotifiedFrom (fun t => t.merge (effectiveRetry s) m.bn m.frames) (.refl _ _ _ _)

/-- The steps leave everything but the frames they write and the slots they recompute. -/
theorem takeSteps_aside (steps : List MergeStep) (index : ∀ m ∈ steps, ∀ f ∈ m.frames, f.1 < Config.framesPerBlock) :
    ∀ s : State, Aside False False True s (takeSteps steps s) := by
  induction steps with
  | nil => exact fun s => .refl _ _ _ s
  | cons m rest ih =>
    intro s
    have stepped : Aside False False True s (takeStep s m) :=
      Aside.storeNotifiedFrom (fun t => t.merge (effectiveRetry s) m.bn m.frames)
        ((Aside.refl False False True s).setStore (fun w => Store.merge_wf w _ _ (index m List.mem_cons_self)) False.elim False.elim)
    exact stepped.trans (ih (fun x hx => index x (List.mem_cons_of_mem _ hx)) _)

/-- What the steps write where no overflow frees it again: the frames of each step's block in the window, and no others (R9, R36). -/
theorem takeSteps_frames (steps : List MergeStep) (index : ∀ m ∈ steps, ∀ f ∈ m.frames, f.1 < Config.framesPerBlock)
    (distinct : steps.Pairwise (fun a b => a.bn ≠ b.bn)) : ∀ {s : State}, s.store.wf = true →
    s.planner.counters.overflow < 4294967295 → (takeSteps steps s).planner.counters.overflow = s.planner.counters.overflow →
    (∀ m ∈ steps, s.store.holds m.bn = true →
      ((takeSteps steps s).store.slotOf m.bn).frames = mergeFrames (s.store.slotOf m.bn).frames m.frames) ∧
    ∀ c, (∀ m ∈ steps, m.bn = c → s.store.holds c ≠ true) →
      ((takeSteps steps s).store.slotOf c).frames = (s.store.slotOf c).frames := by
  induction steps with
  | nil => exact fun _ _ _ => ⟨nofun, fun _ _ => rfl⟩
  | cons m rest ih =>
    intro s w bound same
    have mine := index m List.mem_cons_self
    have others := fun x (hx : x ∈ rest) => index x (List.mem_cons_of_mem _ hx)
    obtain ⟨fresh, distinct⟩ := List.pairwise_cons.mp distinct
    have first := takeStep_aside s m
    have wf' : (takeStep s m).store.wf = true := first.wf (Store.merge_wf w _ _ mine)
    obtain ⟨low, high⟩ := first.rises (Nat.le_of_lt bound)
    obtain ⟨low', -⟩ := (takeSteps_aside rest others (takeStep s m)).rises high
    have still : (takeStep s m).planner.counters.overflow = s.planner.counters.overflow :=
      Nat.le_antisymm (Nat.le_trans low' (Nat.le_of_eq same)) low
    have step : ∀ c, ((takeStep s m).store.slotOf c).frames =
        if c = m.bn ∧ s.store.holds m.bn = true then mergeFrames (s.store.slotOf m.bn).frames m.frames
        else (s.store.slotOf c).frames := fun c =>
      (first.frames trivial (Store.merge_wf w _ _ mine) bound still c).trans (Store.slotOf_merge_frames w _ _ _ c)
    obtain ⟨written, kept⟩ := ih others distinct wf' (still ▸ bound) (same.trans still.symm)
    refine ⟨fun x hx inside => ?_, fun c outside => ?_⟩
    · rcases List.mem_cons.mp hx with rfl | hx
      · refine (kept x.bn fun y hy at_ => absurd at_ (fresh y hy).symm).trans ((step x.bn).trans (if_pos ⟨rfl, inside⟩))
      · refine (written x hx ((takeStep_window s mine _).trans inside)).trans ?_
        rw [step x.bn, if_neg fun both => fresh x hx both.1.symm]
    · refine (kept c fun y hy at_ => ?_).trans ((step c).trans (if_neg fun both => ?_))
      · rw [takeStep_window s mine]
        exact outside y (List.mem_cons_of_mem _ hy) at_
      · exact outside m List.mem_cons_self both.1.symm (both.1 ▸ both.2)

/-! ### A placement as a whole (R36, R37) -/

/-- The steps go to different blocks. -/
theorem mergeSteps_distinct (t : Store) (bn : Nat) (placed : List (Nat × Frame)) :
    (mergeSteps t bn placed).Pairwise (fun a b => a.bn ≠ b.bn) := by
  unfold mergeSteps
  refine List.Pairwise.filter _ (List.pairwise_map.mpr ?_)
  show (reachedBlocks bn).Pairwise (fun a b => a ≠ b)
  unfold reachedBlocks
  split
  · decide
  · simp only [List.pairwise_cons, List.mem_cons, List.not_mem_nil, or_false]
    refine ⟨?_, ?_, nofun, .nil⟩
    · rintro b (rfl | rfl) <;> omega
    · rintro b rfl
      omega

section
variable {t : Store} {placed : List (Nat × Frame)} {bn : Nat}

/-- A placed frame of a block that can be reached has its step, with the merge with the held one (R37). -/
theorem mem_mergeSteps {q : Nat} {f : Frame} (mem : (q, f) ∈ placed) (reached : q / 588 ∈ reachedBlocks bn) :
    mergeStepOf t placed (q / 588) ∈ mergeSteps t bn placed ∧
      (q % 588, mergeFrame (t.frameAt q) f) ∈ (mergeStepOf t placed (q / 588)).frames := by
  have there : (q % 588, mergeFrame (t.frameAt q) f) ∈ (mergeStepOf t placed (q / 588)).frames :=
    List.mem_map.mpr ⟨(q, f), List.mem_filter.mpr ⟨mem, decide_eq_true rfl⟩, rfl⟩
  refine ⟨List.mem_filter.mpr ⟨List.mem_map.mpr ⟨_, reached, rfl⟩, ?_⟩, there⟩
  cases frames : (mergeStepOf t placed (q / 588)).frames with
  | nil => rw [frames] at there; cases there
  | cons => rfl

/-- The frames of a step are those placed in its block, at different indices. -/
theorem mergeStepOf_frames (rising : placed.Pairwise (fun a b => a.1 < b.1)) (b : Nat) :
    (mergeStepOf t placed b).frames.Pairwise (fun a b => a.1 ≠ b.1) := by
  unfold mergeStepOf
  refine List.pairwise_map.mpr ((List.Pairwise.and_mem.mp (rising.filter _)).imp fun {x y} h => ?_)
  obtain ⟨hx, hy, lt⟩ := h
  have bx : x.1 / Config.framesPerBlock = b := of_decide_eq_true (List.mem_filter.mp hx).2
  have by_ : y.1 / Config.framesPerBlock = b := of_decide_eq_true (List.mem_filter.mp hy).2
  simp only [Config.framesPerBlock] at bx by_ ⊢
  omega

theorem mem_mergeStepOf {b i : Nat} {f : Frame} (h : (i, f) ∈ (mergeStepOf t placed b).frames) :
    ∃ q g, (q, g) ∈ placed ∧ q / 588 = b ∧ q % 588 = i := by
  obtain ⟨⟨q, g⟩, mem, at_⟩ := List.mem_map.mp h
  exact ⟨q, g, (List.mem_filter.mp mem).1, of_decide_eq_true (List.mem_filter.mp mem).2, congrArg Prod.fst at_⟩

end

/-- The steps of a placement write the merge of each frame that is placed, and no other frame (R35 to R37). -/
theorem takeSteps_placed {s u : State} {x : IntakeEntry} {d : Int} (store : u.store = s.store) (wf : s.store.wf = true)
    (block : s.feeder.block = s.store.playBlock) (frames : x.frames.length = 588) (low : -588 ≤ d) (high : d ≤ 588)
    (bound : u.planner.counters.overflow < 4294967295)
    (same : (takeSteps (mergeSteps s.store x.bn (placedFrames s x d)) u).planner.counters.overflow = u.planner.counters.overflow) :
    (∀ f ∈ placedFrames s x d, (takeSteps (mergeSteps s.store x.bn (placedFrames s x d)) u).store.frameAt f.1 =
      mergeFrame (s.store.frameAt f.1) f.2) ∧
    ∀ q, (∀ f ∈ placedFrames s x d, f.1 ≠ q) →
      (takeSteps (mergeSteps s.store x.bn (placedFrames s x d)) u).store.frameAt q = s.store.frameAt q := by
  obtain ⟨written, kept⟩ := takeSteps_frames _ (mergeSteps_index s.store x.bn (placedFrames s x d)) (mergeSteps_distinct _ _ _)
    (s := u) (store ▸ wf) bound same
  rw [store] at written kept
  have canonical : ∀ b, Sparse.wf Frame.none (s.store.slotOf b).frames = true := fun b => by
    have slot := Store.slotOf_wf wf b
    rw [Slot.wf, Bool.and_eq_true] at slot
    exact slot.1
  have merged := fun b => get_mergeFrames (canonical b) (mergeStepOf_frames (t := s.store) (placedFrames_rising s x d) b)
  refine ⟨fun f hf => ?_, fun q hq => ?_⟩
  · obtain ⟨q, g⟩ := f
    obtain ⟨i, there, at_, from_, below⟩ := mem_placedFrames.mp hf
    have hi : i < 588 := frames ▸ (List.getElem?_eq_some_iff.mp there).1
    have reached : q / 588 ∈ reachedBlocks x.bn := by
      unfold reachedBlocks
      split <;> simp only [List.mem_cons, List.not_mem_nil, or_false] <;> omega
    have inside : s.store.holds (q / 588) = true := by
      unfold Store.holds Store.limit
      unfold playPosition at from_
      simp only [Config.framesPerBlock, block] at from_
      exact decide_eq_true (by omega)
    obtain ⟨step, mem⟩ := mem_mergeSteps (t := s.store) hf reached
    unfold Store.frameAt
    rw [show q / Config.framesPerBlock = (mergeStepOf s.store (placedFrames s x d) (q / 588)).bn from rfl, written _ step inside]
    exact (merged (q / 588)).1 _ mem
  · unfold Store.frameAt
    by_cases step : ∃ m ∈ mergeSteps s.store x.bn (placedFrames s x d), m.bn = q / 588 ∧ s.store.holds (q / 588) = true
    · obtain ⟨m, hm, at_, inside⟩ := step
      obtain ⟨b, -, rfl⟩ := List.mem_map.mp (List.mem_filter.mp hm).1
      have at_ : b = q / 588 := at_
      subst at_
      rw [show q / Config.framesPerBlock = (mergeStepOf s.store (placedFrames s x d) (q / 588)).bn from rfl, written _ hm inside]
      refine (merged (q / 588)).2 (q % 588) fun f hf at_ => ?_
      obtain ⟨p, g, mem, block', index⟩ := mem_mergeStepOf (i := f.1) (f := f.2) hf
      exact hq (p, g) mem (by show p = q; omega)
    · rw [kept (q / Config.framesPerBlock) fun m hm at_ inside => step ⟨m, hm, at_, inside⟩]

end Sys2Proof.Machine
end

