-- ==== Sys2Proof/Proofs/HealthReports.lean ====
section
/-!
SUPPORT. The Monitor's re-derivation of the health state (R78 to R81, R88), a delivery report (R77, R86) and a penalty (R76): the scores
and the state they leave, the PACE and the HEALTH event they bring about, and what they leave alone.
-/
namespace Sys2Proof.Machine

/-! ### The Monitor's record -/

/-- The Monitor's record after the health state is re-derived (R78, R80, R81). -/
def Health.rederived (h : Health) : Health :=
  if h.state = .withdrawn ∨ h.state = healthOf h.skip then h
  else { h.enter (healthOf h.skip) with pace := paceOf (healthOf h.skip) }

/-- The record after the rough indication is re-derived: an entry to it counts (R86, R91). -/
def Health.roughened (h : Health) (before : Bool) : Health :=
  if h.rough = before ∨ before = true then h
  else { h with counters := { h.counters with roughEntry := bump h.counters.roughEntry } }

theorem requestPace_health (level : Pace) (s : State) : (requestPace level s).health = { s.health with pace := level } := by
  unfold requestPace
  split
  · rename_i same
    rw [← same]
  · rfl

theorem rederiveHealth_same {s : State} (h : s.health.state = .withdrawn ∨ s.health.state = healthOf s.health.skip) :
    rederiveHealth s = s := if_pos h

theorem rederiveHealth_changed {s : State} (h : ¬ (s.health.state = .withdrawn ∨ s.health.state = healthOf s.health.skip)) :
    rederiveHealth s = raise .health (healthOf s.health.skip).detail (requestPace (paceOf (healthOf s.health.skip))
      (plannerNotice false (s.setHealth (s.health.enter (healthOf s.health.skip))))) := if_neg h

/-- The Monitor's record does not depend on the blocks it hands its change to. -/
theorem rederiveHealth_health (s : State) : (rederiveHealth s).health = s.health.rederived := by
  unfold Health.rederived
  split
  · rename_i h
    rw [rederiveHealth_same h]
  · rename_i h
    rw [rederiveHealth_changed h]
    refine (requestPace_health _ _).trans ?_
    rw [plannerNotice_health]
    rfl

theorem Health.rederived_erasure (h : Health) : h.rederived.erasure = h.erasure := by
  unfold Health.rederived
  split
  · rfl
  · exact Health.enter_erasure h _

theorem Health.enter_skip (h : Health) (x : HealthState) : (h.enter x).skip = h.skip := by
  unfold Health.enter
  split <;> rfl

theorem Health.enter_pace (h : Health) (x : HealthState) : (h.enter x).pace = h.pace := by
  unfold Health.enter
  split <;> rfl

theorem Health.enter_state (h : Health) (x : HealthState) : (h.enter x).state = x := by
  unfold Health.enter
  split <;> rfl

theorem Health.rederived_skip (h : Health) : h.rederived.skip = h.skip := by
  unfold Health.rederived
  split
  · rfl
  · exact Health.enter_skip h _

/-! ### What the Monitor leaves alone -/

/-- From a to t nothing changed beside the audio path, the planner's choice, the health and two events. -/
structure Beside (a t : State) : Prop where
  resume  : t.resume = a.resume
  sense   : t.sense = a.sense
  supply  : t.supply = a.supply
  console : t.console = a.console
  pending : t.pending = a.pending
  counted : t.asm.counters = a.asm.counters
  planner : a.planner.Leads t.planner
  lost    : t.link.lost = a.link.lost
  attn    : ∀ i, i ≠ Event.repairOverflow.index → i ≠ Event.health.index → t.attn.record i = a.attn.record i

namespace Beside

variable {a b s t : State}

theorem refl (a : State) : Beside a a := ⟨rfl, rfl, rfl, rfl, rfl, rfl, Planner.Leads.refl _, rfl, fun _ _ _ => rfl⟩

theorem trans (h : Beside a b) (k : Beside b t) : Beside a t :=
  ⟨k.resume.trans h.resume, k.sense.trans h.sense, k.supply.trans h.supply, k.console.trans h.console, k.pending.trans h.pending,
    k.counted.trans h.counted, h.planner.trans k.planner, k.lost.trans h.lost,
    fun i hi hj => (k.attn i hi hj).trans (h.attn i hi hj)⟩

theorem ofRest (h : KeepsRest a t) : Beside a t :=
  ⟨h.resume, h.sense, h.supply, h.console, h.pending, h.counted, h.planner, by rw [h.link.rest],
    fun i hi _ => h.attn i hi⟩

theorem ofChoice (h : KeepsChoice a t) : Beside a t :=
  ⟨h.resume, h.sense, h.supply, h.console, h.pending, h.asm.counters, h.planner, by rw [h.link.rest],
    fun i _ _ => by rw [h.attn]⟩

theorem setHealth (h : Beside a s) (x : Health) : Beside a (s.setHealth x) := { h with }

theorem raiseHealth (h : Beside a s) (d : Nat) : Beside a (raise .health d s) :=
  { h with attn := fun i hi hj => (Attn.record_raise_other _ _ _ i hj).trans (h.attn i hi hj) }

theorem requestPace (h : Beside a s) (level : Pace) : Beside a (requestPace level s) := by
  unfold Machine.requestPace
  split
  · exact h
  · exact { h with lost := (congrArg Link.lost (Link.kick_rest _)).trans h.lost }

theorem rederiveHealth (h : Beside a s) : Beside a (rederiveHealth s) := by
  unfold Machine.rederiveHealth
  dsimp only
  split
  · exact h
  · exact (((h.setHealth _).trans (.ofChoice (KeepsChoice.plannerNotice _ _))).requestPace _).raiseHealth _

theorem addSkip (h : Beside a s) (amount : Nat) : Beside a (addSkip amount s) := by
  unfold Machine.addSkip
  split
  · exact h
  · exact (h.setHealth _).rederiveHealth

theorem retryLimitChanged (h : Beside a s) : Beside a (retryLimitChanged s) :=
  h.trans (.ofRest ((KeepsRest.moves s).retryLimitChanged (.refl s)))

theorem takeReport (h : Beside a s) (cls : ErasureClass) (inSequence : Bool) : Beside a (takeReport cls inSequence s) := by
  have scored : Beside a (Machine.rederiveHealth (s.setHealth (s.health.report cls inSequence))) := (h.setHealth _).rederiveHealth
  unfold Machine.takeReport rederiveRough
  dsimp only
  split
  · exact scored
  · split
    · exact scored.retryLimitChanged.raiseHealth _
    · exact (scored.setHealth _).retryLimitChanged.raiseHealth _

end Beside

namespace Aside

variable {asked tidy calm : Prop} {a s : State}

theorem setHealth (h : Aside asked tidy calm a s) (x : Health) : Aside asked tidy calm a (s.setHealth x) := h.same rfl

/-- A PACE is requested where the level changes (R80). -/
theorem requestPace (h : Aside asked tidy calm a s) (level : Pace) (calmly : calm → level = s.health.pace) :
    Aside asked tidy calm a (requestPace level s) := by
  unfold Machine.requestPace
  split
  · exact h
  · rename_i changed
    have kept : ∀ m, s.link.Carries (.cease m) → (Machine.txRequest (TxMsg.pace level) s).link.Carries (.cease m) := fun m w =>
      Link.kick_carries (Or.imp_left (mem_requestQueue (x := .cease m) (m := TxMsg.pace level) (by exact nofun)) w)
    exact ⟨h.intake, h.expected, h.align, h.course, fun asks => absurd (calmly asks).symm changed,
      fun m w => (h.ceases m w).imp fun n => kept n, h.wf, h.row5, h.rises, h.frames⟩

theorem rederiveHealth (h : Aside asked tidy calm a s) (calmly : calm → s.health.rederived.pace = s.health.pace) :
    Aside asked tidy calm a (rederiveHealth s) := by
  by_cases same : s.health.state = .withdrawn ∨ s.health.state = healthOf s.health.skip
  · rw [rederiveHealth_same same]
    exact h
  · rw [rederiveHealth_changed same]
    refine (((h.setHealth _).plannerNotice _).requestPace _ fun asks => ?_).raise _ _
    have kept := calmly asks
    rw [plannerNotice_health, State.health_setHealth, Health.enter_pace, ← kept]
    unfold Health.rederived
    rw [if_neg same]

theorem addSkip (h : Aside asked tidy False a s) (amount : Nat) : Aside asked tidy False a (addSkip amount s) := by
  unfold Machine.addSkip
  split
  · exact h
  · exact (h.setHealth _).rederiveHealth False.elim

theorem rederiveRough (h : Aside asked tidy calm a s) (before : Bool) : Aside asked tidy calm a (rederiveRough before s) := by
  unfold Machine.rederiveRough
  split
  · exact h
  · split
    · exact h.retryLimitChanged.raise _ _
    · exact (h.setHealth _).retryLimitChanged.raise _ _

theorem takeReport (h : Aside asked tidy False a s) (cls : ErasureClass) (inSequence : Bool) :
    Aside asked tidy False a (takeReport cls inSequence s) :=
  ((h.setHealth _).rederiveHealth False.elim).rederiveRough _

end Aside

/-! ### A delivery report as a whole (R77) -/

/-- PACE follows the level: requested where it changes, and only there (R80). -/
theorem requestPace_pace (level : Pace) (s : State) :
    (level ≠ s.health.pace → (requestPace level s).link.Carries (.pace level)) ∧
      (level = s.health.pace → (requestPace level s).link = s.link) := by
  unfold requestPace
  refine ⟨fun changed => ?_, fun same => by rw [if_pos same.symm]⟩
  rw [if_neg fun same => changed same.symm]
  exact Link.kick_carries (.inl (mem_requestQueue_self (by exact nofun) _))

theorem rederiveHealth_pace (s : State) (changed : s.health.rederived.pace ≠ s.health.pace) :
    (rederiveHealth s).link.Carries (.pace s.health.rederived.pace) := by
  by_cases same : s.health.state = .withdrawn ∨ s.health.state = healthOf s.health.skip
  · unfold Health.rederived at changed
    exact absurd (congrArg Health.pace (if_pos same)) changed
  · rw [rederiveHealth_changed same]
    unfold Health.rederived at changed ⊢
    rw [if_neg same] at changed ⊢
    refine (requestPace_pace _ _).1 ?_
    rw [plannerNotice_health, State.health_setHealth, Health.enter_pace]
    exact changed

/-- HEALTH is raised where the state changes (R88). -/
theorem rederiveHealth_record (s : State) :
    (rederiveHealth s).attn.record Event.health.index =
      if s.health.rederived.state = s.health.state then s.attn.record Event.health.index
      else Claims.oneMore (s.attn.record Event.health.index) s.health.rederived.state.detail := by
  by_cases same : s.health.state = .withdrawn ∨ s.health.state = healthOf s.health.skip
  · rw [rederiveHealth_same same]
    unfold Health.rederived
    rw [if_pos same, if_pos rfl]
  · have state : s.health.rederived.state = healthOf s.health.skip := by
      unfold Health.rederived
      rw [if_neg same]
      exact Health.enter_state _ _
    rw [rederiveHealth_changed same, state, if_neg fun e => same (.inr e.symm)]
    refine (Attn.record_raise _ _ _).trans ?_
    have quiet : (requestPace (paceOf (healthOf s.health.skip))
        (plannerNotice false (s.setHealth (s.health.enter (healthOf s.health.skip))))).attn = s.attn := by
      refine Eq.trans ?_ (KeepsChoice.plannerNotice false (s.setHealth (s.health.enter (healthOf s.health.skip)))).attn
      unfold requestPace
      split <;> rfl
    rw [quiet]
    rfl

/-- The rough indication leaves the health state, the pace and both scores. -/
theorem Health.roughened_fields (h : Health) (before : Bool) :
    (h.roughened before).state = h.state ∧ (h.roughened before).pace = h.pace ∧ (h.roughened before).skip = h.skip ∧
      (h.roughened before).erasure = h.erasure ∧
      (h.roughened before).counters =
        if h.rough = true ∧ before = false then { h.counters with roughEntry := bump h.counters.roughEntry } else h.counters := by
  unfold Health.roughened
  cases h.rough <;> cases before <;> exact ⟨rfl, rfl, rfl, rfl, rfl⟩

theorem rederiveRough_record (before : Bool) (s : State) :
    (rederiveRough before s).attn.record Event.health.index =
      if s.health.rough = before then s.attn.record Event.health.index
      else Claims.oneMore (s.attn.record Event.health.index) (if s.health.rough then 4 else 5) := by
  have raised : ∀ (u : State) (d : Nat), u.attn = s.attn →
      (raise .health d (retryLimitChanged u)).attn.record Event.health.index = Claims.oneMore (s.attn.record Event.health.index) d := by
    intro u d same
    refine (Attn.record_raise _ _ _).trans ?_
    rw [((KeepsRest.moves u).retryLimitChanged (.refl u)).attn _ (by decide), same]
    rfl
  unfold rederiveRough
  split
  · rfl
  · rename_i changed
    split
    · rename_i was
      rw [was] at changed
      rw [raised s 5 rfl, if_neg changed]
    · rename_i was
      rw [Bool.not_eq_true] at was
      rw [was, Bool.not_eq_false] at changed
      rw [if_pos changed]
      exact raised _ 4 rfl

/-- A disc that has become rough leaves no slot in row 5 under the limit of 1 (R7, R86). -/
theorem rederiveRough_row5 (s : State) (rough : s.health.rough = true) (wf : s.store.wf = true) :
    (rederiveRough false s).store.NoRow5 1 := by
  unfold rederiveRough
  rw [if_neg (by rw [rough]; exact nofun), if_neg nofun]
  generalize became : countHealth (fun c => { c with roughEntry := bump c.roughEntry }) s = u
  have store : u.store = s.store := by rw [← became]; rfl
  have one : effectiveRetry u = 1 := by
    rw [← became]
    unfold effectiveRetry
    exact if_pos rough
  have taken : Aside True True True (u.setStore (u.store.recheckAll (effectiveRetry u))) (retryLimitChanged u) :=
    Aside.storeEventFrom (fun t => t.recheckAll (effectiveRetry u)) (.refl _ _ _ _)
  exact taken.row5 trivial (Store.recheckAll_wf (store ▸ wf) _) 1 (one ▸ Store.noRow5_recheckAll u.store 1)

/-! ### The record after a report (R76 to R81) -/

section
variable {h : Health}

theorem Health.rederived_state (awake : h.state ≠ .withdrawn) : h.rederived.state = healthOf h.skip := by
  unfold Health.rederived
  split
  · rename_i same
    exact same.resolve_left awake
  · exact Health.enter_state _ _

theorem Health.rederived_pace (awake : h.state ≠ .withdrawn) (paced : h.pace = paceOf h.state) :
    h.rederived.pace = paceOf (healthOf h.skip) := by
  unfold Health.rederived
  split
  · rename_i same
    rw [paced, same.resolve_left awake]
  · rfl

theorem healthOf_withdrawn_iff (n : Nat) : healthOf n = .withdrawn ↔ 256 ≤ n := by
  unfold healthOf
  split
  · exact ⟨nofun, fun _ => by omega⟩
  · split
    · exact ⟨nofun, fun _ => by omega⟩
    · exact ⟨fun _ => by omega, fun _ => rfl⟩

/-- Below the threshold of WITHDRAWN the entries to GUARDED count (R91). -/
theorem Health.rederived_counters (awake : h.state ≠ .withdrawn) (low : h.skip < 256) :
    h.rederived.counters =
      if healthOf h.skip = .guarded ∧ h.state ≠ .guarded then { h.counters with guardedEntry := bump h.counters.guardedEntry }
      else h.counters := by
  unfold Health.rederived
  split
  · rename_i same
    rw [if_neg fun both => both.2 ((same.resolve_left awake).trans both.1)]
  · rename_i changed
    have other := (not_or.mp changed).2
    cases new : healthOf h.skip with
    | steady => rw [if_neg (fun both => by cases both.1)]; rfl
    | guarded => rw [if_pos ⟨rfl, fun e => other (e.trans new.symm)⟩]; rfl
    | withdrawn => exact absurd ((healthOf_withdrawn_iff _).mp new) (Nat.not_le.mpr low)

/-- A report leaves the counters, and no report raises the skip score. -/
theorem Health.report_counters (h : Health) (cls : ErasureClass) (inSequence : Bool) :
    (h.report cls inSequence).counters = h.counters ∧ (h.report cls inSequence).skip ≤ h.skip := by
  unfold Health.report
  split
  · split
    · refine ⟨rfl, ?_⟩
      dsimp only
      split
      · exact Nat.le_refl _
      · exact Nat.sub_le _ _
    · exact ⟨rfl, Nat.le_refl _⟩
  · exact ⟨rfl, Nat.le_refl _⟩
  · exact ⟨rfl, Nat.le_refl _⟩

end

section
variable (cls : ErasureClass) (inSequence : Bool) (s : State)

theorem takeReport_health :
    (takeReport cls inSequence s).health = ((s.health.report cls inSequence).rederived).roughened s.health.rough := by
  have value := rederiveHealth_health (s.setHealth (s.health.report cls inSequence))
  rw [State.health_setHealth] at value
  unfold takeReport rederiveRough Health.roughened
  dsimp only
  rw [← value]
  generalize rederiveHealth (s.setHealth (s.health.report cls inSequence)) = u
  by_cases same : u.health.rough = s.health.rough
  · rw [if_pos same, if_pos (.inl same)]
  · rw [if_neg same]
    by_cases before : s.health.rough = true
    · rw [if_pos before, if_pos (.inr before)]
      exact ((KeepsRest.moves u).retryLimitChanged (.refl u)).health
    · rw [if_neg before, if_neg (not_or.mpr ⟨same, before⟩)]
      exact ((KeepsRest.moves _).retryLimitChanged (.refl (countHealth (fun c => { c with roughEntry := bump c.roughEntry }) u))).health

end

end Sys2Proof.Machine

namespace Sys2Proof.Claims

open Sys2Proof.Machine

/-- What the end of a placement rests on: from s to u the entry was placed and the planner took its report, then the Monitor took its own, and
t came after that without a change of the Monitor. -/
structure Delivered (s u t : State) (cls : ErasureClass) (inSequence : Bool) : Prop where
  wf      : s.store.wf = true → u.store.wf = true
  carried : ∀ p, u.link.Carries (.pace p) ↔ s.link.Carries (.pace p)
  health  : u.health = s.health
  record  : u.attn.record Event.health.index = s.attn.record Event.health.index
  after   : Aside False True True (takeReport cls inSequence u) t
  health' : t.health = (takeReport cls inSequence u).health
  record' : t.attn.record Event.health.index = (takeReport cls inSequence u).attn.record Event.health.index

namespace Delivered

variable {s u t : State} {cls : ErasureClass} {inSequence : Bool}

/-- The record of the Monitor once the scores and the health state are taken (R76 to R81). -/
def scored (s : State) (cls : ErasureClass) (inSequence : Bool) : Health := (s.health.report cls inSequence).rederived

/-- The Monitor's record after the report. -/
theorem monitor (h : Delivered s u t cls inSequence) :
    t.health = (scored s cls inSequence).roughened s.health.rough := by
  rw [h.health', takeReport_health, h.health]
  rfl

/-- The scores take the report, and nothing after it moves them. -/
theorem reported (h : Delivered s u t cls inSequence) (awake : ¬ Withdrawn s) : Reported s t cls inSequence := by
  obtain ⟨-, -, skip, erasure, -⟩ := (scored s cls inSequence).roughened_fields s.health.rough
  unfold Reported
  rw [h.monitor, skip, erasure, scored, Health.rederived_skip, Health.rederived_erasure]
  unfold Health.report
  cases cls with
  | clean =>
    cases inSequence with
    | true => exact ⟨if_neg awake, rfl⟩
    | false => exact ⟨rfl, rfl⟩
  | some => exact ⟨rfl, rfl⟩
  | all => exact ⟨rfl, rfl⟩

theorem scored_health (h : Delivered s u t cls inSequence) :
    (rederiveHealth (u.setHealth (u.health.report cls inSequence))).health = scored s cls inSequence := by
  rw [rederiveHealth_health, State.health_setHealth, h.health]
  rfl

/-- PACE waits or is being sent where the level changed, and else no PACE joined or left (R80). -/
theorem pace (h : Delivered s u t cls inSequence) :
    (t.health.pace ≠ s.health.pace → t.link.Carries (.pace t.health.pace)) ∧
      (t.health.pace = s.health.pace → ∀ p, t.link.Carries (.pace p) → s.link.Carries (.pace p)) := by
  have level : t.health.pace = (scored s cls inSequence).pace := by
    rw [h.monitor]
    exact (Health.roughened_fields _ _).2.1
  have ends : Aside False True True (rederiveHealth (u.setHealth (u.health.report cls inSequence))) t :=
    (Aside.rederiveRough (.refl _ _ _ _) _).trans h.after
  have kept : (s.health.report cls inSequence).pace = s.health.pace := (s.health.scored_report cls inSequence).pace
  rw [level]
  refine ⟨fun changed => (ends.pace trivial _).mpr ?_, fun same p carried => ?_⟩
  · have sent := rederiveHealth_pace (u.setHealth (u.health.report cls inSequence))
    rw [State.health_setHealth, h.health] at sent
    rw [h.health]
    exact sent (kept.symm ▸ changed)
  · have quiet : Aside False True True u (rederiveHealth (u.setHealth (u.health.report cls inSequence))) := by
      refine ((Aside.refl _ _ _ u).setHealth _).rederiveHealth fun _ => ?_
      rw [State.health_setHealth, h.health]
      exact same.trans kept.symm
    exact (h.carried p).mp ((quiet.pace trivial p).mp ((ends.pace trivial p).mp carried))

/-- HEALTH is raised for the change of the state, then for that of the rough indication (R88). -/
theorem record_eq (h : Delivered s u t cls inSequence) : t.attn.record Event.health.index = healthRecord s t := by
  have stated := rederiveHealth_record (u.setHealth (u.health.report cls inSequence))
  rw [State.health_setHealth, h.health, State.attn_setHealth, h.record, (s.health.scored_report cls inSequence).state] at stated
  have roughly := rederiveRough_record u.health.rough (rederiveHealth (u.setHealth (u.health.report cls inSequence)))
  obtain ⟨state, -, -, erasure, -⟩ := (scored s cls inSequence).roughened_fields s.health.rough
  have same : t.health.state = (scored s cls inSequence).state := by rw [h.monitor]; exact state
  have rough : t.health.rough = (scored s cls inSequence).rough := by
    rw [h.monitor]
    unfold Health.rough
    exact congrArg (fun n => decide (128 ≤ n)) erasure
  refine h.record'.trans (roughly.trans ?_)
  rw [h.scored_health, h.health, stated]
  unfold healthRecord
  rw [same, rough]
  rfl

/-- A disc that has become rough leaves no slot in row 5 (R7, R86). -/
theorem row5 (h : Delivered s u t cls inSequence) (rough : t.health.rough = true) (before : s.health.rough = false)
    (wf : s.store.wf = true) : t.store.NoRow5 1 := by
  have taken : Aside False True False u (rederiveHealth (u.setHealth (u.health.report cls inSequence))) :=
    ((Aside.refl _ _ _ u).setHealth _).rederiveHealth False.elim
  have clean := rederiveRough_row5 (rederiveHealth (u.setHealth (u.health.report cls inSequence)))
    (by
      rw [h.scored_health, ← rough, h.monitor]
      unfold Health.rough
      exact congrArg (fun n => decide (128 ≤ n)) ((scored s cls inSequence).roughened_fields s.health.rough).2.2.2.1.symm)
    (taken.wf (h.wf wf))
  refine h.after.row5 trivial ?_ 1 ?_
  · exact (Aside.takeReport (.refl False True False u) cls inSequence).wf (h.wf wf)
  · unfold takeReport
    dsimp only
    rw [h.health, before]
    exact h.health ▸ clean

/-- The health state, the pace and the rough indication follow the scores. -/
theorem healthFollows (h : Delivered s u t cls inSequence) (awake : ¬ Withdrawn s) : HealthFollows s t := by
  rintro ⟨state, paced, -⟩
  obtain ⟨counters, lower⟩ := s.health.report_counters cls inSequence
  have score := s.health.scored_report cls inSequence
  have awake' : (s.health.report cls inSequence).state ≠ .withdrawn := score.state ▸ awake
  have low : (s.health.report cls inSequence).skip < 256 := by
    have below : ¬ 256 ≤ s.health.skip := fun high => awake (state.trans ((healthOf_withdrawn_iff _).mpr high))
    omega
  obtain ⟨sameState, samePace, sameSkip, sameErasure, sameCounters⟩ := (scored s cls inSequence).roughened_fields s.health.rough
  rw [← h.monitor] at sameState samePace sameSkip sameErasure sameCounters
  have skip : t.health.skip = (s.health.report cls inSequence).skip := sameSkip.trans (Health.rederived_skip _)
  have derived : t.health.state = healthOf t.health.skip := by
    rw [skip]
    exact sameState.trans (Health.rederived_state awake')
  have stays : ¬ Withdrawn t := fun w => by
    have high := (healthOf_withdrawn_iff _).mp (derived.symm.trans w)
    omega
  have rough : t.health.rough = (scored s cls inSequence).rough := congrArg (fun n => decide (128 ≤ n)) sameErasure
  have counted : (scored s cls inSequence).counters =
      if t.health.state = .guarded ∧ s.health.state ≠ .guarded then
        { s.health.counters with guardedEntry := bump s.health.counters.guardedEntry }
      else s.health.counters := by
    rw [derived, skip, ← counters, ← score.state]
    exact Health.rederived_counters awake' low
  refine ⟨fun w => absurd w awake, fun _ => ?_, ?_, h.pace.1, h.pace.2, ?_, ?_, ?_, fun w => absurd w stays, h.record_eq, h.row5⟩
  · rw [derived]
    exact if_congr Nat.lt_succ_iff rfl (if_congr Nat.lt_succ_iff rfl rfl)
  · rw [samePace, scored, Health.rederived_pace awake' (score.pace.trans (paced.trans (by rw [score.state]))), derived, skip]
    generalize healthOf (s.health.report cls inSequence).skip = x
    cases x <;> rfl
  · rw [sameCounters, counted]
    split <;> split <;> rfl
  · refine Eq.trans ?_ (if_neg fun both => stays both.1).symm
    rw [sameCounters, counted]
    split <;> split <;> rfl
  · rw [sameCounters, counted, rough]
    split <;> split <;> rfl

end Delivered

end Sys2Proof.Claims
end

