-- ==== Sys2Proof/Proofs/PlacementOutcomes.lean ====
section
/-!
SUPPORT. A placement that ends with the reports (R39, R40), from the entry that has left the Intake to the notices taken: what it leaves of
the Assembler, the stream, the store and the Monitor. Then the statement about an entry of an ANCHORED stream (O26).
-/
namespace Sys2Proof.Machine

/-- The Assembler's own event of a placement, then the merge steps (R39, R41). -/
def merged (A : Align) (f : PlacementCounters → PlacementCounters) (steps : List MergeStep) (s : State) : State :=
  takeSteps steps (evaluateFlow (setAlign A (countPlacement f s)))

/-- The stream's record has taken a placement report (R62). -/
def planReported (n expected : Nat) (anchored : Option Int) (s : State) : State :=
  if n = s.planner.stream.number then setStream (s.planner.stream.report expected anchored) s else s

theorem takePlacement_aside (asked tidy calm : Prop) (n expected : Nat) (anchored : Option Int) (s : State) :
    Aside asked tidy calm (planReported n expected anchored s) (takePlacement n expected anchored s) := by
  unfold takePlacement planReported
  split
  · exact (Aside.refl _ _ _ _).endCheck.settle
  · exact (Aside.refl _ _ _ _).settle

theorem planReported_keeps (n expected : Nat) (anchored : Option Int) (s : State) :
    (planReported n expected anchored s).asm = s.asm ∧ (planReported n expected anchored s).link = s.link ∧
      (planReported n expected anchored s).store = s.store ∧
      (planReported n expected anchored s).planner.counters = s.planner.counters := by
  unfold planReported
  split <;> exact ⟨rfl, rfl, rfl, rfl⟩

section
variable (A : Align) (f : PlacementCounters → PlacementCounters) {steps : List MergeStep}
  (index : ∀ m ∈ steps, ∀ x ∈ m.frames, x.1 < Config.framesPerBlock) (s : State)

include index

theorem merged_rest : KeepsRest (setAlign A (countPlacement f s)) (merged A f steps s) :=
  (KeepsRest.moves _).takeSteps steps index ((KeepsRest.moves _).evaluateFlow (.refl _))

theorem merged_aside : Aside False False True (setAlign A (countPlacement f s)) (merged A f steps s) :=
  ((Aside.refl _ _ _ _).evaluateFlow).trans (takeSteps_aside steps index _)

end

/-- The alignment and the stream's course stay, or the stream is closed. -/
theorem merged_stays (A : Align) (f : PlacementCounters → PlacementCounters) (steps : List MergeStep) (s : State) :
    Stays (setAlign A (countPlacement f s)) (merged A f steps s) :=
  (evaluateFlow_stays _).trans (takeSteps_stays steps _)

/-! ### The end of the placement -/

/-- The reports to the planner and the Monitor, then the notices of readiness (R16, R39, R40). -/
def concluded (n : Nat) (x : IntakeEntry) (anchored : Option Int) (inSequence : Bool) (s : State) : State :=
  takeNotices (reportPlacement n x anchored inSequence s)

section
variable (n : Nat) (x : IntakeEntry) (anchored : Option Int) (inSequence : Bool) (s : State)

theorem concluded_aside : Aside True True False (planReported n (x.bn + 1) anchored s) (concluded n x anchored inSequence s) :=
  ((takePlacement_aside _ _ _ n (x.bn + 1) anchored s).takeReport x.cls inSequence).takeNotices

theorem concluded_beside : Beside s (concluded n x anchored inSequence s) :=
  ((Beside.ofRest ((KeepsRest.moves s).takePlacement n (x.bn + 1) anchored (.refl s))).takeReport x.cls inSequence).trans
    (.ofRest (.takeNotices _))

end

/-- What a placement that ends with the reports leaves, beside the store and the stream. -/
structure Concluded (s t : State) (A : Align) (f : PlacementCounters → PlacementCounters) (cls : ErasureClass) (inSequence : Bool) :
    Prop where
  intake    : t.asm.intake = s.asm.intake
  expected  : t.asm.align.expected = A.expected
  align     : t.asm.align = A ∨ t.asm.align.phase = .none
  beside    : Beside (setAlign A (countPlacement f s)) t
  delivered : ∃ u, Claims.Delivered s u t cls inSequence

section
variable (A : Align) (f : PlacementCounters → PlacementCounters) {steps : List MergeStep}
  (index : ∀ m ∈ steps, ∀ x ∈ m.frames, x.1 < Config.framesPerBlock) (n : Nat) (x : IntakeEntry) (anchored : Option Int)
  (inSequence : Bool) (s : State)

include index

theorem concluded_merged : Concluded s (concluded n x anchored inSequence (merged A f steps s)) A f x.cls inSequence := by
  have rest := merged_rest A f index s
  have first := merged_aside A f index s
  have last := concluded_aside n x anchored inSequence (merged A f steps s)
  obtain ⟨asm, link, store, -⟩ := planReported_keeps n (x.bn + 1) anchored (merged A f steps s)
  have told := (KeepsRest.moves _).takePlacement n (x.bn + 1) anchored (.refl (merged A f steps s))
  have report : Aside False False True (planReported n (x.bn + 1) anchored (merged A f steps s))
      (takePlacement n (x.bn + 1) anchored (merged A f steps s)) := takePlacement_aside _ _ _ _ _ _ _
  have taken : KeepsRest (reportPlacement n x anchored inSequence (merged A f steps s))
      (concluded n x anchored inSequence (merged A f steps s)) := .takeNotices _
  refine ⟨?_, ?_, ?_, (Beside.ofRest rest).trans (concluded_beside n x anchored inSequence _),
    takePlacement n (x.bn + 1) anchored (merged A f steps s), ⟨fun w => ?_, fun p => ?_, ?_, ?_, ?_, ?_, ?_⟩⟩
  · rw [last.intake, asm]
    exact first.intake
  · rw [last.expected, asm]
    exact first.expected
  · rcases last.align with same | cleared
    · rw [same, asm]
      exact first.align
    · exact .inr cleared
  · refine report.wf ?_
    rw [store]
    exact first.wf w
  · refine (report.pace trivial p).trans ?_
    rw [link]
    exact first.pace trivial p
  · exact told.health.trans rest.health
  · exact (told.attn _ (by decide)).trans (rest.attn _ (by decide))
  · exact (Aside.refl _ _ _ _).takeNotices
  · exact taken.health
  · exact taken.attn _ (by decide)

end

/-- What is placed stays where no overflow came of it (R35 to R37, R49). -/
theorem concluded_placed (A : Align) (f : PlacementCounters → PlacementCounters) (n : Nat) {x : IntakeEntry} {d : Int}
    (anchored : Option Int) (inSequence : Bool) (s : State) :
    Claims.PlacedAt s (concluded n x anchored inSequence (merged A f (mergeSteps s.store x.bn (placedFrames s x d)) s)) x d := by
  rintro ⟨wf, block, length, low, high, bound⟩ same
  have first := merged_aside A f (mergeSteps_index s.store x.bn (placedFrames s x d)) s
  have last := concluded_aside n x anchored inSequence (merged A f (mergeSteps s.store x.bn (placedFrames s x d)) s)
  obtain ⟨-, -, store, counters⟩ := planReported_keeps n (x.bn + 1) anchored (merged A f (mergeSteps s.store x.bn (placedFrames s x d)) s)
  obtain ⟨planner, held, -⟩ := evaluateFlow_keeps (setAlign A (countPlacement f s))
  obtain ⟨rises, most⟩ := first.rises (Nat.le_of_lt bound)
  have later := last.rises
  have frames := last.frames trivial
  rw [counters] at later frames
  rw [store] at frames
  obtain ⟨rises', -⟩ := later most
  have still : (merged A f (mergeSteps s.store x.bn (placedFrames s x d)) s).planner.counters.overflow =
      s.planner.counters.overflow := Nat.le_antisymm (Nat.le_trans rises' (Nat.le_of_eq same)) rises
  have kept := frames (first.wf wf) (still ▸ bound) (same.trans still.symm)
  have reads : ∀ q, (concluded n x anchored inSequence (merged A f (mergeSteps s.store x.bn (placedFrames s x d)) s)).store.frameAt q =
      (merged A f (mergeSteps s.store x.bn (placedFrames s x d)) s).store.frameAt q := fun q => by
    unfold Store.frameAt
    rw [kept]
  have placed := takeSteps_placed (u := evaluateFlow (setAlign A (countPlacement f s))) (x := x) (d := d) held wf block length low high
    (by rw [planner]; exact bound) (by rw [planner]; exact still)
  exact ⟨fun g hg => (reads g.1).trans (placed.1 g hg), fun q hq => (reads q).trans (placed.2 q hq)⟩

/-- The current stream's course is the reported one, or the stream is closed or opened anew (R62). -/
theorem concluded_course (A : Align) (f : PlacementCounters → PlacementCounters) (steps : List MergeStep) (x : IntakeEntry)
    (anchored : Option Int) (inSequence : Bool) {s : State} {n : Nat} (current : n = s.planner.stream.number) :
    let t := concluded n x anchored inSequence (merged A f steps s)
    t.planner.stream.course = (s.planner.stream.report (x.bn + 1) anchored).course ∨ t.planner.stream.state = .none ∨
      t.planner.stream.state = .seeking := by
  intro t
  rcases (concluded_aside n x anchored inSequence (merged A f steps s)).course with same | fresh
  · rcases (merged_stays A f steps s).stream with ⟨-, course⟩ | ⟨none, -⟩
    · refine .inl (same.trans ?_)
      unfold planReported
      rw [if_pos (current.trans (Prod.mk.inj course).1.symm)]
      exact Stream.report_course course _ _
    · refine .inr (.inl ((Stays.course_state same).trans ?_))
      unfold planReported
      split
      · exact Stream.report_state.1.mpr none
      · exact none
  · exact .inr fresh

end Sys2Proof.Machine

namespace Sys2Proof.Claims

open Sys2Proof.Machine

/-- A placement raises HEALTH and REPAIR_OVERFLOW alone, and leaves the senses. -/
theorem onlyRaised_beside {s t : State} (h : Beside s t) : OnlyRaised [.health, .repairOverflow] s t := by
  intro e out
  refine h.attn _ (fun same => out ?_) fun same => out ?_
  · cases e
    case repairOverflow => decide
    all_goals exact absurd same (by decide)
  · cases e
    case health => decide
    all_goals exact absurd same (by decide)

theorem sensesStay_beside {s t : State} (h : Beside s t) : SensesStay s t := ⟨h.sense, h.supply, h.console, h.pending⟩

/-- The state as a placement finds it once the entry has left the Intake (R23). -/
def left (s : State) (rest : List IntakeEntry) : State := (s.setNotices []).setAsm { s.asm with intake := rest }

/-- The placement of an accepted entry. -/
theorem completes_accepted {s : State} {x : IntakeEntry} {rest : List IntakeEntry} {P : State → Prop} (front : s.asm.intake = x :: rest)
    (accepted : Accepted s x) (h : P ((takeNotices (placeAccepted x (left s rest))).setNotices s.notices)) :
    Completes .placement s P := by
  obtain ⟨stream, landed, tag, awake⟩ := accepted
  refine ⟨_, rfl, ?_⟩
  have judged : placement (s.setNotices []) = placeAccepted x (left s rest) :=
    (placement_front (s := s.setNotices []) front).trans (judgeEntry_accepted stream landed tag awake)
  rw [judged]
  exact h

theorem placeAccepted_flowSound {s : State} (x : IntakeEntry) (landed : s.asm.align.phase ≠ .none) :
    FlowSound (takeNotices (placeAccepted x s)) :=
  (Holds.takeNotices (k := ⟨True, False, False, False, False⟩)
    (Holds.placeAccepted ⟨False.elim, False.elim, False.elim, False.elim, False.elim⟩ id False.elim landed x)).flow trivial

/-- The alignment after an entry is placed at an offset (R31, R35). -/
def anchoredAlign (s : State) (x : IntakeEntry) (d : Int) : Align :=
  { s.asm.align with phase := .anchored, offset := d, expected := x.bn + 1 }

/-- The placement counters after an entry is placed, and where it anchors the stream after the seam (R31, R43). -/
theorem afterPlacing_placedCounters (s : State) (x : IntakeEntry) (d : Int) (anchors : Bool) :
    s.asm.counters.afterPlacing (mergeSteps s.store x.bn (placedFrames s x d)).length (disagreements s.store (placedFrames s x d)) anchors =
      { placedCounters s x d with seam := if anchors then bump s.asm.counters.seam else s.asm.counters.seam } := by
  unfold PlacementCounters.afterPlacing placedCounters
  simp only [List.length_eq_zero_iff]

/-- What an entry that is placed leaves beside the flow and the stream. -/
theorem placeAt_concluded (x : IntakeEntry) (d : Int) (anchored : Option Int) (inSequence : Bool) (s : State) :
    Concluded s (takeNotices (placeAt x d anchored inSequence s)) (anchoredAlign s x d)
      (fun c => c.afterPlacing (mergeSteps s.store x.bn (placedFrames s x d)).length (disagreements s.store (placedFrames s x d))
        anchored.isSome) x.cls inSequence :=
  concluded_merged _ _ (mergeSteps_index s.store x.bn (placedFrames s x d)) s.asm.align.stream x anchored inSequence s

theorem placeAt_placed (x : IntakeEntry) (d : Int) (anchored : Option Int) (inSequence : Bool) (s : State) :
    PlacedAt s (takeNotices (placeAt x d anchored inSequence s)) x d :=
  concluded_placed (anchoredAlign s x d) _ s.asm.align.stream anchored inSequence s

theorem placeAt_course (x : IntakeEntry) (d : Int) (anchored : Option Int) (inSequence : Bool) {s : State}
    (current : StreamIsCurrent s) :
    let t := takeNotices (placeAt x d anchored inSequence s)
    t.planner.stream.course = (s.planner.stream.report (x.bn + 1) anchored).course ∨ t.planner.stream.state = .none ∨
      t.planner.stream.state = .seeking :=
  concluded_course (anchoredAlign s x d) _ _ x anchored inSequence current.1

/-- The entry as it is judged: an ANCHORED stream's entry in sequence, and one that a lost message explains (R27, R28). -/
theorem placeAccepted_anchored {s : State} {x : IntakeEntry} (phase : s.asm.align.phase = .anchored) (next : x.bn = s.asm.align.expected) :
    placeAccepted x s = placeAt x s.asm.align.offset none true s := by
  unfold placeAccepted placeInSequence
  rw [if_pos next, if_neg (by rw [phase]; exact nofun)]

theorem placeAccepted_gap {s : State} {x : IntakeEntry} (phase : s.asm.align.phase = .anchored) (late : s.asm.align.expected < x.bn)
    (gap : x.bn ≤ s.asm.align.expected + 4) (lost : s.link.lost = true) :
    placeAccepted x s = placeAt x s.asm.align.offset none false (s.setLink { s.link with lost := false }) := by
  have tolerated : toleratesGap s x = true := by
    unfold toleratesGap
    dsimp only
    rw [decide_eq_true phase, decide_eq_true late, decide_eq_true gap, lost]
    rfl
  unfold placeAccepted
  rw [if_neg (Nat.ne_of_gt late), if_pos tolerated]

/-- An entry of an ANCHORED stream that is placed at the stream's offset, the flag of a lost message set as given. -/
theorem completes_anchored {s : State} {x : IntakeEntry} {rest : List IntakeEntry} (front : s.asm.intake = x :: rest)
    (accepted : Accepted s x) (inSequence lost : Bool)
    (here : placeAccepted x (left s rest) =
      placeAt x s.asm.align.offset none inSequence ((left s rest).setLink { s.link with lost := lost })) :
    Completes .placement s (fun t =>
      t.asm.intake = rest ∧ t.asm.align.expected = x.bn + 1 ∧ t.asm.counters = placedCounters s x s.asm.align.offset ∧
      PlacedAt s t x s.asm.align.offset ∧ Reported s t x.cls inSequence ∧ HealthFollows s t ∧ FlowSound t ∧ t.link.lost = lost ∧
      (StreamIsCurrent s → t.planner.stream.state = .searching ∨ t.planner.stream.state = .anchored →
        t.planner.stream.expected = x.bn + 1) ∧
      t.resume = s.resume ∧ OnlyRaised [.health, .repairOverflow] s t ∧ SensesStay s t) := by
  refine completes_accepted front accepted ?_
  have flow := placeAccepted_flowSound (s := left s rest) x accepted.2.1
  rw [here] at flow ⊢
  generalize found : (left s rest).setLink { s.link with lost := lost } = u at flow ⊢
  have placed := placeAt_placed x s.asm.align.offset none inSequence u
  have course := placeAt_course x s.asm.align.offset none inSequence (s := u)
  obtain ⟨intake, expected, -, beside, v, delivered⟩ := placeAt_concluded x s.asm.align.offset none inSequence u
  have raised := onlyRaised_beside beside
  have senses := sensesStay_beside beside
  have counted := beside.counted.trans (afterPlacing_placedCounters u x s.asm.align.offset false)
  have health := delivered.healthFollows
  have scores := delivered.reported
  subst found
  generalize takeNotices (placeAt x s.asm.align.offset none inSequence ((left s rest).setLink { s.link with lost := lost })) = t at *
  refine ⟨intake, expected, counted, placed, scores accepted.2.2.2, health accepted.2.2.2, flow, beside.lost, fun current landed => ?_,
    beside.resume, raised, senses⟩
  rcases course current with same | none | seeking
  · exact congrArg (fun c => c.2.2.1) same
  · rcases landed with searching | anchored
    · exact absurd (none.symm.trans searching) nofun
    · exact absurd (none.symm.trans anchored) nofun
  · rcases landed with searching | anchored
    · exact absurd (seeking.symm.trans searching) nofun
    · exact absurd (seeking.symm.trans anchored) nofun

/-- Settles O26: the entry is placed, the reports are taken, and the notices of readiness leave what is stated. -/
theorem placementPlacesEntry : Obligations.PlacementPlacesEntry := by
  refine ⟨fun _ _ _ _ _ => mem_placedFrames, fun _ _ _ _ hi low high at_ => position_block hi low high at_,
    fun t b i hi => Store.frameAt_block t b hi, fun x rest s front accepted phase => ⟨fun next => ?_, fun late gap lost => ?_⟩⟩
  · exact completes_anchored front accepted true s.link.lost (placeAccepted_anchored (s := left s rest) phase next)
  · obtain ⟨t, runs, intake, expected, counted, placed, scores, health, flow, taken, -, others⟩ :=
      completes_anchored front accepted false false (placeAccepted_gap (s := left s rest) phase late gap lost)
    exact ⟨t, runs, intake, expected, counted, placed, scores, health, flow, taken, others⟩

end Sys2Proof.Claims
end

