-- ==== Sys2Proof/Proofs/OffsetSearch.lean ====
section
/-!
SUPPORT. Which offset an entry matches (R30), and which of those is chosen (R31).
-/
namespace Sys2Proof.Machine

/-! ### Runs of agreements (R30) -/

/-- A list holds a run: so many of its places in a row are true. -/
def RunIn (need : Nat) (l : List Bool) : Prop := ∃ i, i + need ≤ l.length ∧ ∀ k, k < need → l[i + k]? = some true

theorem runIn_drop {need : Nat} {l m : List Bool} (h : RunIn need m) : RunIn need (l ++ m) := by
  obtain ⟨i, short, run⟩ := h
  refine ⟨l.length + i, by rw [List.length_append]; omega, fun k hk => ?_⟩
  rw [Nat.add_assoc, List.getElem?_append_right (Nat.le_add_right _ _), Nat.add_sub_cancel_left]
  exact run k hk

theorem runIn_replicate {need n : Nat} (h : need ≤ n) (l : List Bool) : RunIn need (List.replicate n true ++ l) := by
  refine ⟨0, by rw [List.length_append, List.length_replicate]; omega, fun k hk => ?_⟩
  rw [Nat.zero_add, List.getElem?_append_left (by rw [List.length_replicate]; omega), List.getElem?_replicate,
    if_pos (Nat.lt_of_lt_of_le hk h)]

/-- A run does not pass a disagreement. -/
theorem runIn_split {need n : Nat} {l : List Bool} (h : RunIn need (List.replicate n true ++ false :: l)) : need ≤ n ∨ RunIn need l := by
  obtain ⟨i, short, run⟩ := h
  rw [List.length_append, List.length_replicate, List.length_cons] at short
  by_cases before : i + need ≤ n
  · exact .inl (by omega)
  · by_cases after : n + 1 ≤ i
    · refine .inr ⟨i - (n + 1), by omega, fun k hk => ?_⟩
      have there := run k hk
      rw [List.getElem?_append_right (by rw [List.length_replicate]; omega), List.length_replicate,
        show i + k - n = (i - (n + 1) + k) + 1 by omega, List.getElem?_cons_succ] at there
      exact there
    · have there := run (n - i) (by omega)
      rw [show i + (n - i) = n by omega, List.getElem?_append_right (by rw [List.length_replicate]), List.length_replicate,
        Nat.sub_self] at there
      exact absurd there nofun

/-- The search counts the agreements just before the list. -/
theorem hasRun_iff (need : Nat) (l : List Bool) : ∀ n, hasRun need n l = true ↔ RunIn need (List.replicate n true ++ l) := by
  induction l with
  | nil =>
    intro n
    refine ⟨fun h => runIn_replicate (of_decide_eq_true h) [], fun ⟨i, short, _⟩ => decide_eq_true ?_⟩
    rw [List.append_nil, List.length_replicate] at short
    omega
  | cons b rest ih =>
    intro n
    unfold hasRun
    rw [Bool.or_eq_true, decide_eq_true_iff, ih]
    cases b with
    | true =>
      have joined : List.replicate n true ++ true :: rest = List.replicate (n + 1) true ++ rest := by
        rw [List.replicate_succ', List.append_assoc, List.singleton_append]
      rw [joined]
      exact ⟨fun h => h.elim (fun le => runIn_replicate (Nat.le_succ_of_le le) rest) id, .inr⟩
    | false =>
      refine ⟨fun h => h.elim (fun le => runIn_replicate le _) fun later => ?_, runIn_split⟩
      rw [List.append_cons]
      exact runIn_drop later

/-! ### Agreement with the held audio (R30) -/

theorem agreements_getElem? (s : State) (l : List Frame) : ∀ (q : Int) (k : Nat),
    (agreements s q l)[k]? = l[k]?.map (fun f => f.agrees (comparedFrame s (q + (k : Nat)))) := by
  induction l with
  | nil => exact fun _ _ => rfl
  | cons f rest ih =>
    intro q k
    cases k with
    | zero =>
      show some _ = some _
      rw [show q + ((0 : Nat) : Int) = q from Int.add_zero q]
    | succ k =>
      refine (ih (q + 1) k).trans ?_
      rw [show q + ((k + 1 : Nat) : Int) = q + 1 + (k : Nat) by omega]
      rfl

theorem agreements_length (s : State) (l : List Frame) : ∀ q : Int, (agreements s q l).length = l.length := by
  induction l with
  | nil => exact fun _ => rfl
  | cons f rest ih => exact fun q => congrArg Nat.succ (ih (q + 1))

/-- A frame agrees where a GOOD one of its value is held, at or after the play position. -/
theorem agrees_compared_iff {s : State} {f : Frame} {q : Int} :
    f.agrees (comparedFrame s q) = true ↔
      f.mark = .good ∧ ∃ p : Nat, (p : Int) = q ∧ playPosition s ≤ p ∧ s.store.frameAt p = ⟨.good, f.value⟩ := by
  unfold Frame.agrees comparedFrame
  rw [Bool.and_eq_true, Bool.and_eq_true, decide_eq_true_iff, decide_eq_true_iff, decide_eq_true_iff]
  split
  · rename_i before
    refine ⟨fun h => absurd h.1.2 nofun, fun ⟨_, p, at_, from_, _⟩ => ?_⟩
    omega
  · rename_i reached
    constructor
    · rintro ⟨⟨good, held⟩, value⟩
      refine ⟨good, q.toNat, by omega, by omega, ?_⟩
      rw [← held, value]
    · rintro ⟨good, p, at_, -, held⟩
      rw [show q.toNat = p by omega, held]
      exact ⟨⟨good, rfl⟩, rfl⟩

/-- An offset matches where enough frames in a row agree (R30). -/
theorem offsetMatches_iff (s : State) (x : IntakeEntry) (d : Int) :
    offsetMatches s x d = true ↔
      ∃ i, i + s.console.params.matchRun ≤ x.frames.length ∧
        ∀ k, k < s.console.params.matchRun →
          ∃ f, x.frames[i + k]? = some f ∧ f.mark = .good ∧
            ∃ q : Nat, (q : Int) = (x.bn * 588 : Nat) + d + (i + k : Nat) ∧ playPosition s ≤ q ∧
              s.store.frameAt q = ⟨.good, f.value⟩ := by
  unfold offsetMatches
  rw [hasRun_iff]
  refine exists_congr fun i => and_congr ?_ (forall_congr' fun k => imp_congr_right fun _ => ?_)
  · rw [List.replicate_zero, List.nil_append, agreements_length]
  · rw [List.replicate_zero, List.nil_append, agreements_getElem?, Option.map_eq_some_iff]
    exact exists_congr fun f => and_congr_right fun _ => agrees_compared_iff

/-! ### The choice (R31) -/

/-- The order of choice: the smaller offset first, and the negative one of two that are equally small. -/
def Sooner (a b : Int) : Prop := a.natAbs < b.natAbs ∨ (a.natAbs = b.natAbs ∧ a < b)

theorem mem_candidateOffsets {slip : Nat} {d : Int} : d ∈ candidateOffsets slip ↔ d.natAbs ≤ slip := by
  unfold candidateOffsets
  simp only [List.mem_cons, List.mem_flatMap, List.mem_range, List.not_mem_nil, or_false]
  constructor
  · rintro (rfl | ⟨k, low, rfl | rfl⟩) <;> omega
  · intro h
    by_cases zero : d = 0
    · exact .inl zero
    · exact .inr ⟨d.natAbs - 1, by omega, by omega⟩

theorem candidateOffsets_ordered (slip : Nat) : (candidateOffsets slip).Pairwise Sooner := by
  unfold candidateOffsets Sooner
  refine List.pairwise_cons.mpr ⟨fun d hd => ?_, List.pairwise_flatMap.mpr ⟨fun k _ => ?_, ?_⟩⟩
  · obtain ⟨k, -, mem⟩ := List.mem_flatMap.mp hd
    simp only [List.mem_cons, List.not_mem_nil, or_false] at mem
    omega
  · refine List.pairwise_cons.mpr ⟨fun d hd => ?_, List.pairwise_singleton _ _⟩
    obtain rfl := List.mem_singleton.mp hd
    omega
  · refine List.pairwise_lt_range.imp fun {j k} lt a ha b hb => ?_
    simp only [List.mem_cons, List.not_mem_nil, or_false] at ha hb
    omega

/-- The first of an ordered list that satisfies a test is the least that does. -/
theorem find?_ordered_iff {p : Int → Bool} {l : List Int} (ordered : l.Pairwise Sooner) {d : Int} :
    l.find? p = some d ↔ d ∈ l ∧ p d = true ∧ ∀ e ∈ l, p e = true → e = d ∨ Sooner d e := by
  have first : ∀ {c : Int}, l.find? p = some c → c ∈ l ∧ p c = true ∧ ∀ e ∈ l, p e = true → e = c ∨ Sooner c e := by
    intro c found
    obtain ⟨holds, before, after, rfl, fails⟩ := List.find?_eq_some_iff_append.mp found
    refine ⟨List.mem_append_right _ List.mem_cons_self, holds, fun e he pe => ?_⟩
    rcases List.mem_append.mp he with early | late
    · exact absurd pe (by simpa using fails e early)
    · rcases List.mem_cons.mp late with same | later
      · exact .inl same
      · exact .inr ((List.pairwise_cons.mp (List.pairwise_append.mp ordered).2.1).1 e later)
  refine ⟨first, fun ⟨mem, holds, least⟩ => ?_⟩
  obtain ⟨c, found⟩ := Option.isSome_iff_exists.mp (List.find?_isSome.mpr ⟨d, mem, holds⟩)
  obtain ⟨mem', holds', least'⟩ := first found
  have same : c = d := by
    rcases least c mem' holds' with same | sooner
    · exact same
    · rcases least' d mem holds with same | sooner'
      · exact same.symm
      · unfold Sooner at sooner sooner'
        omega
  rw [found, same]

theorem chooseOffset_none_iff (s : State) (x : IntakeEntry) :
    chooseOffset s x = none ↔ ∀ d : Int, d.natAbs ≤ s.console.params.slipRange → offsetMatches s x d = false := by
  unfold chooseOffset
  rw [List.find?_eq_none]
  simp only [mem_candidateOffsets, Bool.not_eq_true]

theorem chooseOffset_some_iff (s : State) (x : IntakeEntry) (d : Int) :
    chooseOffset s x = some d ↔
      d.natAbs ≤ s.console.params.slipRange ∧ offsetMatches s x d = true ∧
        ∀ d' : Int, offsetMatches s x d' = true → d.natAbs < d'.natAbs ∨ (d.natAbs = d'.natAbs ∧ d ≤ d') := by
  unfold chooseOffset
  rw [find?_ordered_iff (candidateOffsets_ordered _)]
  simp only [mem_candidateOffsets]
  refine and_congr_right fun inside => and_congr_right fun _ => ⟨fun least e pe => ?_, fun least e _ pe => ?_⟩
  · by_cases reach : e.natAbs ≤ s.console.params.slipRange
    · have first := least e reach pe
      unfold Sooner at first
      omega
    · exact .inl (by omega)
  · have first := least e pe
    unfold Sooner
    omega

end Sys2Proof.Machine
end

