-- ==== Sys2Proof/Proofs/QuietEnd.lean ====
section
/-!
SUPPORT. The end of an event where the hold causes are the conditions and no stream is pre-empted: it is the choice alone (R41, R53 to R55).
A report after it tells the planner nothing new where the planner's activity stays (R52).
-/
namespace Sys2Proof.Machine

/-! ### Nothing to evaluate, nothing to pre-empt -/

/-- An evaluation of the flow that finds the hold causes as they are changes nothing (R41). -/
theorem evaluateFlow_sound {s : State} (sound : FlowSound s) : evaluateFlow s = s := by
  obtain ⟨intake, window⟩ := (flowSound_iff s).mp sound
  have same : s.setAsm { s.asm with holdIntake := intakeFull s, holdWindow := windowFull s } = s := by
    rw [← intake, ← window]
    rfl
  have held : flowHeld s = (intakeFull s || windowFull s) := sound.held
  unfold evaluateFlow
  dsimp only
  rw [same, held]
  cases intakeFull s || windowFull s <;> rfl

/-- The end of an event is the choice alone. -/
theorem settle_chooses {s : State} (sound : FlowSound s) (keeps : ¬ Preempts s) : settle s = chooseStream s := by
  obtain ⟨store, asm, -⟩ := chooseStream_keeps s
  have sound' : FlowSound (chooseStream s) := sound.congr asm (by rw [store]) (by rw [store])
  have same : flowDiffers s (chooseStream s) = false := by
    unfold flowDiffers
    rw [asm]
    simp
  unfold settle
  rw [preempt_of_not keeps, evaluateFlow_sound sound']
  dsimp only
  rw [same]
  rfl

/-- A state in which the planner has nothing to do at the end of an event, nor when it is told what it knows. -/
structure AtRest (s : State) : Prop where
  sound   : FlowSound s
  keeps   : ¬ Preempts s
  chooses : chooseStream s = s
  active  : s.planner.active = plannerMayRead s
  closed  : plannerMayRead s = false → s.planner.stream.state = .none

namespace AtRest

variable {s : State}

theorem settle (h : AtRest s) : settle s = s := (settle_chooses h.sound h.keeps).trans h.chooses

/-- A notice of what the planner knows changes nothing (R52). -/
theorem plannerNotice (h : AtRest s) : plannerNotice false s = s := by
  have told : s.setPlanner { s.planner with active := plannerMayRead s } = s := by
    rw [← h.active]
    rfl
  unfold Machine.plannerNotice
  dsimp only
  rw [told]
  split
  · exact h.settle
  · rename_i may
    rw [closeStream_none (h.closed (Bool.not_eq_true _ ▸ may)), h.settle]

end AtRest

/-- The conditions of the activity stay where WITHDRAWN is neither entered nor left (R52). -/
theorem plannerMayRead_awake {s t : State} (play : t.play = s.play) (awake : s.health.state ≠ .withdrawn)
    (still : t.health.state ≠ .withdrawn) : plannerMayRead t = plannerMayRead s := by
  unfold plannerMayRead
  rw [play, decide_eq_true still, decide_eq_true awake]

/-- Where nothing is left to choose, the choice is made. -/
theorem Settled.chooses {s : State} (h : Settled s) : chooseStream s = s := by
  by_cases choice : s.planner.active = true ∧ s.planner.stream.state = .none
  · obtain ⟨none, full⟩ := h.1 choice.1 choice.2
    exact chooseStream_nothing none full
  · exact chooseStream_idle choice

/-- A choice requests SEEK alone. -/
theorem chooseStream_carries {s : State} {m : TxMsg} (other : m.cls ≠ .seek) (h : s.link.Carries m) :
    (chooseStream s).link.Carries m := by
  have asked : ∀ n b, ({ s.link with queue := requestQueue (.seek n b) s.link.queue } : Link).kick.Carries m := fun n b =>
    Link.kick_carries (Or.imp_left (mem_requestQueue (m := .seek n b) other) h)
  unfold chooseStream
  split
  · split
    · exact asked _ _
    · split
      · exact asked _ _
      · exact h
  · exact h

/-- What the Monitor's change leaves at a planner at rest: everything but the Monitor, the queue and HEALTH. -/
theorem rederiveHealth_atRest {s : State} (low : healthOf s.health.skip ≠ .withdrawn)
    (rest : ∀ x : Health, x.state ≠ .withdrawn → AtRest (s.setHealth x)) :
    ∃ x l y, rederiveHealth s = ((s.setHealth x).setLink l).setAttn y ∧
      ∀ m : TxMsg, m.cls ≠ .pace → s.link.Carries m → l.Carries m := by
  by_cases same : s.health.state = .withdrawn ∨ s.health.state = healthOf s.health.skip
  · rw [rederiveHealth_same same]
    exact ⟨s.health, s.link, s.attn, rfl, fun _ _ w => w⟩
  · rw [rederiveHealth_changed same]
    have still := rest (s.health.enter (healthOf s.health.skip)) (by rw [Health.enter_state]; exact low)
    rw [still.plannerNotice]
    unfold requestPace
    split
    · exact ⟨s.health.enter (healthOf s.health.skip), s.link, s.attn.raise .health _, rfl, fun _ _ w => w⟩
    · exact ⟨{ s.health.enter (healthOf s.health.skip) with pace := paceOf (healthOf s.health.skip) },
        ({ s.link with queue := requestQueue (.pace (paceOf (healthOf s.health.skip))) s.link.queue } : Link).kick,
        s.attn.raise .health _, rfl, fun m other w =>
          Link.kick_carries (Or.imp_left (mem_requestQueue (m := .pace (paceOf (healthOf s.health.skip))) other) w)⟩

end Sys2Proof.Machine
end

