-- ==== Sys2Proof/Proofs/StreamOver.lean ====
section
/-!
SUPPORT. What follows the close of a stream with CEASE up to the notices of readiness: the choice, the penalty, and the Monitor's notice to
the planner (R52, R54, R65, R76, R81). At most one stream is opened, and it bears the next number (R51, R56).
-/
namespace Sys2Proof.Machine

/-- The stream of number n was closed in c, and x came after it without a change of the store: the stream is NONE, or its record is that of
the next number, and no SEEK of the closed one waits (R51, R65). -/
structure Over (n : Nat) (c x : State) : Prop where
  store     : x.store = c.store
  exhausted : x.planner.counters.exhaustion = c.planner.counters.exhaustion
  frontier  : x.planner.frontier = c.planner.frontier
  list      : x.planner.list.map (fun e => (e.first, e.last, e.mislocks)) = c.planner.list.map (fun e => (e.first, e.last, e.mislocks))
  phase     : x.asm.align.phase = .none
  sound     : FlowSound x
  keeps     : ¬ Preempts x
  number    : (x.planner.stream.state = .none ∧ x.planner.stream.number = n) ∨ x.planner.stream.number = nextNumber n
  seeks     : ∀ b, TxMsg.seek n b ∉ x.link.queue

/-- Without a stream that has landed the window is no condition, whatever becomes of the store (R41). -/
theorem FlowSound.unlanded {s t : State} (h : FlowSound s) (phase : s.asm.align.phase = .none) (phase' : t.asm.align.phase = .none)
    (intake : t.asm.intake = s.asm.intake) (held : t.asm.holdIntake = s.asm.holdIntake) (window : t.asm.holdWindow = s.asm.holdWindow) :
    FlowSound t := by
  obtain ⟨h1, h2⟩ := (flowSound_iff s).mp h
  refine (flowSound_iff t).mpr ⟨?_, ?_⟩
  · unfold intakeFull at h1 ⊢
    rw [held, intake, h1]
  · rw [window, h2, windowFull_cleared phase, windowFull_cleared phase']

theorem nextNumber_ne (n : Nat) : nextNumber n ≠ n := by
  unfold nextNumber
  split
  · omega
  · omega

namespace Over

variable {n : Nat} {c x : State}

/-- No SEEK of the closed stream joins the queue by another request. -/
theorem seeks_request {l : Link} {m : TxMsg} (h : ∀ b, TxMsg.seek n b ∉ l.queue) (other : ∀ b, TxMsg.seek n b ≠ m) (b : Nat) :
    TxMsg.seek n b ∉ ({ l with queue := requestQueue m l.queue } : Link).kick.queue := fun waits =>
  (Link.Aside.mem_requestQueue_cases (Link.mem_kick waits)).elim (other b) (h b)

theorem openStream (h : Over n c x) (number : x.planner.stream.number = n) (purpose : Purpose) (target last : Nat)
    (keeps : purpose = .frontier → ∀ e ∈ x.planner.list, due x e = false) :
    Over n c (openStream purpose target last x) where
  store := h.store
  exhausted := h.exhausted
  frontier := h.frontier
  list := h.list
  phase := h.phase
  sound := h.sound
  keeps := fun ⟨_, frontier, e, he, d⟩ => absurd ((keeps frontier e he).symm.trans d) nofun
  number := .inr (congrArg nextNumber number)
  seeks := seeks_request h.seeks fun b same => nextNumber_ne n (by
    rw [number] at same
    exact (TxMsg.seek.inj same).1.symm)

/-- The choice opens at most the next stream (R54, R56). -/
theorem chooseStream (h : Over n c x) (fresh : x.planner.stream.state = .none → x.planner.stream.number = n) :
    Over n c (chooseStream x) := by
  by_cases choice : x.planner.active = true ∧ x.planner.stream.state = .none
  · obtain ⟨active, idle⟩ := choice
    cases found : x.planner.list.find? (due x) with
    | some e =>
      rw [chooseStream_repair active idle found]
      have counted : Over n c (countPlanner (fun c => { c with repairStream := bump c.repairStream })
          (setList (x.planner.list.map (fun y => if y.first = e.first then y.served else y)) x)) := by
        refine { h with list := ?_, keeps := fun again => again.1 idle }
        refine Eq.trans ?_ h.list
        show List.map _ (List.map _ _) = _
        rw [List.map_map]
        refine List.map_congr_left fun y _ => ?_
        show (fun e : RepairEntry => (e.first, e.last, e.mislocks)) (if y.first = e.first then y.served else y) = _
        split <;> rfl
      exact counted.openStream (fresh idle) _ _ _ nofun
    | none =>
      have none : ∀ e ∈ x.planner.list, due x e = false :=
        fun e he => Bool.eq_false_iff.mpr (List.find?_eq_none.mp found e he)
      rcases Nat.lt_or_ge x.planner.frontier.fillHead x.store.limit with below | full
      · rw [chooseStream_frontier active idle none below]
        have counted : Over n c (countPlanner (fun c => { c with frontierStream := bump c.frontierStream }) x) := { h with }
        exact counted.openStream (fresh idle) _ _ _ fun _ => none
      · rw [chooseStream_nothing none full]
        exact h
  · rw [chooseStream_idle choice]
    exact h

theorem setHealth (h : Over n c x) (y : Health) : Over n c (x.setHealth y) := { h with }

theorem setActive (h : Over n c x) (active : Bool) : Over n c (x.setPlanner { x.planner with active := active }) := { h with }

theorem raise (h : Over n c x) (e : Event) (d : Nat) : Over n c (raise e d x) := { h with }

theorem requestPace (h : Over n c x) (level : Pace) : Over n c (requestPace level x) := by
  unfold Machine.requestPace
  split
  · exact h
  · exact { h with seeks := seeks_request h.seeks (by exact nofun) }

/-- A deactivation closes the stream that was opened anew (R52, R65). -/
theorem deactivate (h : Over n c x) (opened : x.planner.stream.state ≠ .none) : Over n c (ceased x) where
  store := h.store
  exhausted := h.exhausted
  frontier := h.frontier
  list := by
    refine Eq.trans ?_ h.list
    show List.map _ (List.map _ _) = _
    rw [List.map_map]
    rfl
  phase := rfl
  sound := h.sound.unlanded h.phase rfl rfl rfl rfl
  keeps := fun again => again.1 rfl
  number := .inr (h.number.resolve_left fun both => opened both.1)
  seeks := seeks_request (l := { x.link with queue := x.link.queue.filter (fun m => !m.isSeekOf x.planner.stream.number) })
    (fun b waits => h.seeks b (List.mem_filter.mp waits).1) (by exact nofun)

theorem plannerNotice (h : Over n c x) (fresh : x.planner.stream.state = .none → x.planner.stream.number = n) :
    Over n c (plannerNotice false x) := by
  unfold Machine.plannerNotice
  dsimp only
  have told := h.setActive (plannerMayRead x)
  split
  · rw [settle_chooses told.sound told.keeps]
    exact told.chooseStream fresh
  · rename_i may
    rw [Bool.not_eq_true] at may
    rw [may] at told ⊢
    by_cases opened : x.planner.stream.state = .none
    · rw [closeStream_none (s := x.setPlanner { x.planner with active := false }) opened, settle_chooses told.sound told.keeps]
      exact told.chooseStream fresh
    · rw [closeStream_ceasing (s := x.setPlanner { x.planner with active := false }) opened rfl]
      have closed := told.deactivate opened
      have inactive : (ceased (x.setPlanner { x.planner with active := false })).planner.active = false := rfl
      rw [if_neg nofun, settle_chooses closed.sound closed.keeps, chooseStream_idle fun both => absurd (inactive.symm.trans both.1) nofun]
      exact closed

theorem rederiveHealth (h : Over n c x) (fresh : x.planner.stream.state = .none → x.planner.stream.number = n) :
    Over n c (rederiveHealth x) := by
  by_cases same : x.health.state = .withdrawn ∨ x.health.state = healthOf x.health.skip
  · rw [rederiveHealth_same same]
    exact h
  · rw [rederiveHealth_changed same]
    exact (((h.setHealth (x.health.enter (healthOf x.health.skip))).plannerNotice fresh).requestPace _).raise _ _

theorem addSkip (h : Over n c x) (fresh : x.planner.stream.state = .none → x.planner.stream.number = n) (amount : Nat) :
    Over n c (addSkip amount x) := by
  unfold Machine.addSkip
  split
  · exact h
  · exact (h.setHealth { x.health with skip := satAdd 511 x.health.skip amount }).rederiveHealth fresh

end Over

/-- A choice that leaves no stream has changed nothing. -/
theorem chooseStream_none {s : State} (h : (chooseStream s).planner.stream.state = .none) : chooseStream s = s := by
  unfold chooseStream at h ⊢
  split at h
  · rename_i choice
    rw [if_pos choice]
    split at h
    · exact absurd h nofun
    · split at h
      · exact absurd h nofun
      · rename_i full
        exact if_neg full
  · rename_i idle
    exact if_neg idle

theorem chooseStream_active (s : State) : (chooseStream s).planner.active = s.planner.active := by
  unfold chooseStream
  split
  · split
    · rfl
    · split <;> rfl
  · rfl

/-! ### The close itself (R65, R66) -/

section
variable {m : State} {close : Close} (opened : m.planner.stream.state ≠ .none) (ceases : close.ceases = true)
  (checks : close.checksExhaustion = true)

include opened ceases checks

theorem closeStream_checked : closeStream close m = exhaust (m.planner.list.find? RepairEntry.active) (ceased m) := by
  rw [closeStream_ceasing opened ceases, if_pos checks]

/-- The close leaves no stream, the old number and a CEASE of it, and the window no condition. -/
theorem closed_over (sound : FlowSound m) (phase : m.asm.align.phase = .none) :
    Over m.planner.stream.number (closeStream close m) (closeStream close m) ∧
      (closeStream close m).planner.stream.state = .none ∧
      (closeStream close m).planner.stream.number = m.planner.stream.number ∧
      (closeStream close m).link.Carries (.cease m.planner.stream.number) := by
  rw [closeStream_checked opened ceases checks]
  have declared := exhaust_declaredOnly (m.planner.list.find? RepairEntry.active) (ceased m)
  have none : (exhaust (m.planner.list.find? RepairEntry.active) (ceased m)).planner.stream.state = .none := declared.state
  have cleared : (ceased m).asm.align.phase = .none := rfl
  refine ⟨⟨rfl, rfl, rfl, rfl, ?_, ?_, fun again => again.1 none, .inl ⟨none, declared.number⟩, fun b => ?_⟩, none, declared.number, ?_⟩
  · rw [declared.asm]
    exact cleared
  · refine FlowSound.unlanded (sound.unlanded (t := ceased m) phase rfl rfl rfl rfl) cleared ?_ ?_ ?_ ?_
    all_goals rw [declared.asm]
    exact cleared
  · rw [declared.link]
    exact ceased_withdraws m b
  · rw [declared.link]
    exact ceased_carries m

end

/-- The end of a close's event is the choice alone, and opens at most the next stream. -/
theorem Over.settled {n : Nat} {c : State} (h : Over n c c) (number : c.planner.stream.number = n) :
    Over n c (settle c) ∧ settle c = Machine.chooseStream c ∧
      ((settle c).planner.stream.state = .none → (settle c).planner.stream.number = n) := by
  rw [settle_chooses h.sound h.keeps]
  refine ⟨h.chooseStream fun _ => number, rfl, fun none => ?_⟩
  rw [chooseStream_none none]
  exact number

/-! ### The exhaustion check (R66) -/

theorem plannerDeclares_counters (blocks : List Nat) : ∀ s : State, (plannerDeclares blocks s).planner.counters = s.planner.counters := by
  induction blocks with
  | nil => exact fun _ => rfl
  | cons b rest ih => exact fun s => (ih (plannerDeclare s b)).trans (by simp [plannerDeclare])

theorem Store.declares_figures (blocks : List Nat) : ∀ t : Store,
    (blocks.foldl Store.declare t).playBlock = t.playBlock ∧ (blocks.foldl Store.declare t).extent = t.extent := by
  induction blocks with
  | nil => exact fun _ => ⟨rfl, rfl⟩
  | cons b rest ih =>
    intro t
    obtain ⟨extent, play⟩ := Store.setSlot_figures t b { t.slotOf b with declared := true }
    exact ⟨(ih _).1.trans play, (ih _).2.trans extent⟩

/-- At the limit every block of the entry in the window is declared, and no other (R66). -/
theorem exhaust_reached {s : State} {e : RepairEntry} (reached : effectiveRetry s ≤ e.attempts) (wf : s.store.wf = true) :
    (exhaust (some e) s).planner.counters.exhaustion = bump s.planner.counters.exhaustion ∧
    (exhaust (some e) s).store.playBlock = s.store.playBlock ∧ (exhaust (some e) s).store.extent = s.store.extent ∧
    ∀ b,
      (s.store.holds b = true ∧ e.first ≤ b ∧ b ≤ e.last →
        (exhaust (some e) s).store.slotOf b = { s.store.slotOf b with declared := true }) ∧
      (b < e.first ∨ e.last < b → (exhaust (some e) s).store.slotOf b = s.store.slotOf b) := by
  have all : exhaust (some e) s = plannerDeclares e.blocks (countPlanner (fun c => { c with exhaustion := bump c.exhaustion }) s) :=
    if_pos reached
  have store : (exhaust (some e) s).store = e.blocks.foldl Store.declare s.store := by
    rw [all]
    exact plannerDeclares_store _ _
  obtain ⟨play, extent⟩ := Store.declares_figures e.blocks s.store
  refine ⟨?_, ?_, ?_, fun b => ⟨fun ⟨held, low, high⟩ => ?_, fun out => ?_⟩⟩
  · rw [all, plannerDeclares_counters]
    rfl
  · rw [store, play]
  · rw [store, extent]
  · rw [store, Store.slotOf_declares _ b wf, if_pos ⟨(e.mem_blocks b).mpr ⟨low, high⟩, held⟩]
  · rw [store, Store.slotOf_declares _ b wf, if_neg fun both => ?_]
    have inside := (e.mem_blocks b).mp both.1
    omega

/-- The check goes by the ends of the entry and its attempts. -/
theorem exhaust_congr {a b : Option RepairEntry}
    (same : a.map (fun e => (e.first, e.last, e.attempts)) = b.map (fun e => (e.first, e.last, e.attempts))) (s : State) :
    exhaust a s = exhaust b s := by
  cases a with
  | none =>
    cases b with
    | none => rfl
    | some f => cases same
  | some e =>
    cases b with
    | none => cases same
    | some f =>
      obtain ⟨first, same⟩ := Prod.mk.inj (Option.some.inj same)
      obtain ⟨last, attempts⟩ := Prod.mk.inj same
      unfold exhaust RepairEntry.blocks
      dsimp only at first last attempts ⊢
      rw [first, last, attempts]

/-! ### The Monitor's penalty (R76) -/

theorem addSkip_awake {s : State} (awake : s.health.state ≠ .withdrawn) (amount : Nat) :
    addSkip amount s = rederiveHealth (s.setHealth { s.health with skip := satAdd 511 s.health.skip amount }) := if_neg awake

/-- The penalty moves the skip score alone of the two. -/
theorem addSkip_scores {s : State} (awake : s.health.state ≠ .withdrawn) (amount : Nat) :
    (addSkip amount s).health.skip = satAdd 511 s.health.skip amount ∧ (addSkip amount s).health.erasure = s.health.erasure ∧
      (addSkip amount s).health.state = healthOf (satAdd 511 s.health.skip amount) := by
  rw [addSkip_awake awake, rederiveHealth_health]
  refine ⟨?_, ?_, ?_⟩
  · rw [Health.rederived_skip, State.health_setHealth]
  · rw [Health.rederived_erasure, State.health_setHealth]
  · rw [Health.rederived_state (by rw [State.health_setHealth]; exact awake), State.health_setHealth]

theorem addSkip_outer (amount : Nat) (s : State) : (addSkip amount s).feeder = s.feeder ∧ (addSkip amount s).play = s.play := by
  have paced : ∀ (level : Pace) (u : State), (requestPace level u).feeder = u.feeder ∧ (requestPace level u).play = u.play := by
    intro level u
    unfold requestPace
    split <;> exact ⟨rfl, rfl⟩
  have derived : ∀ u : State, (rederiveHealth u).feeder = u.feeder ∧ (rederiveHealth u).play = u.play := by
    intro u
    by_cases same : u.health.state = .withdrawn ∨ u.health.state = healthOf u.health.skip
    · rw [rederiveHealth_same same]
      exact ⟨rfl, rfl⟩
    · rw [rederiveHealth_changed same]
      have told := KeepsChoice.plannerNotice false (u.setHealth (u.health.enter (healthOf u.health.skip)))
      obtain ⟨feeder, play⟩ := paced (paceOf (healthOf u.health.skip))
        (plannerNotice false (u.setHealth (u.health.enter (healthOf u.health.skip))))
      exact ⟨feeder.trans told.feeder, play.trans told.play⟩
  unfold addSkip
  split
  · exact ⟨rfl, rfl⟩
  · exact derived (s.setHealth { s.health with skip := satAdd 511 s.health.skip amount })

/-- Notices that start no feeder and end no CUEING leave the store, the planner and the link. -/
theorem takeNotices_steady {s : State} (hf : s.feeder.state ≠ .starved) (hp : s.play.state ≠ .cueing) :
    (takeNotices s).store = s.store ∧ (takeNotices s).planner = s.planner ∧ (takeNotices s).link = s.link := by
  rw [takeNotices_still hf hp]
  exact ⟨rfl, rfl, rfl⟩

/-- A close stops the seek timer (R65). -/
theorem closeStream_timer {s : State} {close : Close} (opened : s.planner.stream.state ≠ .none) :
    (closeStream close s).planner.stream.timerRuns = false := by
  have stopped : (closeRecord close s).planner.stream.timerRuns = false := by
    rw [(closeRecord_fields close s).2.2.1]
  rw [closeStream_open close opened]
  split
  · exact ((KeepsRest.moves _).exhaust _ (.refl (closeRecord close s))).planner.timer stopped
  · exact stopped

end Sys2Proof.Machine

namespace Sys2Proof.Claims

open Sys2Proof.Machine

/-- From s to m a report of the Assembler was taken up to the close of the stream: the alignment is cleared and the flow evaluated; what the
close goes by is as it was. -/
structure Reporting (s m : State) : Prop where
  store     : m.store = s.store
  health    : m.health = s.health
  console   : m.console = s.console
  play      : m.play = s.play
  feeder    : m.feeder = s.feeder
  stream    : m.planner.stream = s.planner.stream
  active    : m.planner.active = s.planner.active
  exhausted : m.planner.counters.exhaustion = s.planner.counters.exhaustion
  served    : (m.planner.list.find? RepairEntry.active).map (fun e => (e.first, e.last, e.attempts)) =
    (s.planner.list.find? RepairEntry.active).map (fun e => (e.first, e.last, e.attempts))
  sound     : FlowSound m
  phase     : m.asm.align.phase = .none

/-- The close of the stream, the choice, the penalty, and the notices of readiness (R16, R54, R65, R76). -/
def penalized (close : Close) (m : State) : State := takeNotices (addSkip 8 (settle (closeStream close m)))

namespace Reporting

variable {s m : State} {close : Close}

/-- With the feeder and the Play Controller steady the notices change their records of readiness alone (R124, R146). -/
theorem steadily (h : Reporting s m) (steady : Steady s) :
    (penalized close m).store = (addSkip 8 (settle (closeStream close m))).store ∧
      (penalized close m).planner = (addSkip 8 (settle (closeStream close m))).planner ∧
      (penalized close m).link = (addSkip 8 (settle (closeStream close m))).link := by
  have kept := (KeepsOuter.moves m).settle ((KeepsOuter.moves m).closeStream close (.refl m))
  obtain ⟨feeder, play⟩ := addSkip_outer 8 (settle (closeStream close m))
  refine takeNotices_steady ?_ ?_
  · rw [feeder, kept.feeder, h.feeder]
    exact steady.1
  · rw [play, kept.play, h.play]
    exact steady.2

section
variable (h : Reporting s m) (opened : s.planner.stream.state ≠ .none) (ceases : close.ceases = true)
  (checks : close.checksExhaustion = true)

include h opened ceases checks

/-- What is left before the notices of readiness. -/
theorem streamOver : Over s.planner.stream.number (closeStream close m) (addSkip 8 (settle (closeStream close m))) := by
  obtain ⟨closed, -, number, -⟩ := closed_over (h.stream.symm ▸ opened) ceases checks h.sound h.phase
  rw [h.stream] at closed number
  obtain ⟨ended, -, fresh⟩ := closed.settled number
  exact ended.addSkip fresh 8

/-- No stream has landed (R57, R65). -/
theorem nothingLanded : NothingLanded (penalized close m) := by
  obtain ⟨closed, none, -, -⟩ := closed_over (h.stream.symm ▸ opened) ceases checks h.sound h.phase
  have aside : Aside True True False (closeStream close m) (penalized close m) := (((Aside.refl _ _ _ _).settle).addSkip 8).takeNotices
  have beside : Beside (closeStream close m) (penalized close m) :=
    ((Beside.ofRest ((KeepsRest.moves _).settle (.refl _))).addSkip 8).trans (.ofRest (.takeNotices _))
  refine ⟨beside.planner.timer (closeStream_timer (h.stream.symm ▸ opened)), ?_, ?_⟩
  · rcases aside.align with same | cleared
    · rw [same]
      exact closed.phase
    · exact cleared
  · rcases aside.course with same | fresh
    · exact .inl ((Stays.course_state same).trans none)
    · exact fresh

/-- A CEASE is requested; it is that of the closed stream where the planner was told nothing new (R52, R65, R109). -/
theorem ceased (awake : ¬ Withdrawn s) : Ceased s (penalized close m) := by
  obtain ⟨closed, none, number, carries⟩ := closed_over (h.stream.symm ▸ opened) ceases checks h.sound h.phase
  rw [h.stream] at closed number carries
  obtain ⟨ended, chosen, fresh⟩ := closed.settled number
  have aside : Aside True True False (closeStream close m) (penalized close m) := (((Aside.refl _ _ _ _).settle).addSkip 8).takeNotices
  refine ⟨aside.ceases _ carries, fun steady told still => ?_⟩
  have kept := (KeepsOuter.moves m).settle ((KeepsOuter.moves m).closeStream close (.refl m))
  have awake' : (settle (closeStream close m)).health.state ≠ .withdrawn := by
    rw [kept.health, h.health]
    exact awake
  have low : healthOf (satAdd 511 (settle (closeStream close m)).health.skip 8) ≠ .withdrawn := fun high => awake (still (by
    unfold Withdrawn penalized
    rw [(KeepsRest.takeNotices _).health, (addSkip_scores awake' 8).2.2]
    exact high))
  have active : (settle (closeStream close m)).planner.active = plannerMayRead s := by
    have reading := (closeStream_stays close m).reading
    rw [chosen, chooseStream_active]
    exact (Prod.mk.inj reading).1.trans (h.active.trans told)
  have sent : (settle (closeStream close m)).link.Carries (.cease s.planner.stream.number) := by
    rw [chosen]
    exact chooseStream_carries nofun carries
  have settled := settled_settle (closeStream close m)
  have play := kept.play.trans h.play
  have shut : plannerMayRead s = false → (settle (closeStream close m)).planner.stream.state = .none := fun may => by
    rw [chosen, chooseStream_idle fun both => ?_]
    · exact none
    · rw [chosen, chooseStream_active, both.1] at active
      exact absurd (active.trans may) nofun
  rw [(h.steadily steady).2.2, addSkip_awake awake']
  generalize settle (closeStream close m) = e at *
  obtain ⟨x, l, y, made, carry⟩ := rederiveHealth_atRest (s := e.setHealth { e.health with skip := satAdd 511 e.health.skip 8 }) low
    fun x still => by
      have may : plannerMayRead ((e.setHealth { e.health with skip := satAdd 511 e.health.skip 8 }).setHealth x) = plannerMayRead s :=
        plannerMayRead_awake play awake still
      have same : Settled ((e.setHealth { e.health with skip := satAdd 511 e.health.skip 8 }).setHealth x) := settled.congr rfl rfl rfl rfl
      exact ⟨ended.sound, ended.keeps, same.chooses, active.trans may.symm, fun no => shut (may.symm.trans no)⟩
  rw [made]
  exact carry _ nofun sent

/-- The stream is over, and the store and the counter are those the exhaustion check left (R51, R65, R66). -/
theorem streamOver_exhaustionChecked (steady : Steady s) : StreamOver s (penalized close m) ∧ ExhaustionChecked s (penalized close m) := by
  obtain ⟨store, planner, link⟩ := h.steadily (close := close) steady
  have left := h.streamOver opened ceases checks
  have closed : closeStream close m = exhaust (s.planner.list.find? RepairEntry.active) (Machine.ceased m) :=
    (closeStream_checked (h.stream.symm ▸ opened) ceases checks).trans (exhaust_congr h.served _)
  have limit : effectiveRetry (Machine.ceased m) = effectiveRetry s :=
    effectiveRetry_congr (congrArg Health.rough h.health) (congrArg (fun c => c.params.retryLimit) h.console)
  have held : (Machine.ceased m).store = s.store := h.store
  refine ⟨⟨?_, ?_⟩, fun below => ?_, fun e found reached wf => ?_⟩
  · rw [planner]
    exact left.number.imp_left And.left
  · rw [link]
    exact left.seeks
  · rw [store, planner, left.store, left.exhausted, closed, exhaust_below fun e found => limit.symm ▸ below e found]
    exact ⟨h.store, h.exhausted⟩
  · have checked := exhaust_reached (s := Machine.ceased m) (e := e) (limit.symm ▸ reached) (held.symm ▸ wf)
    rw [store, planner, left.store, left.exhausted, closed, found, ← h.exhausted, ← held]
    exact checked

/-- The stream is closed with CEASE, and the skip score raised (R65, R76). -/
theorem closedWithCease (awake : ¬ Withdrawn s) : ClosedWithCease s (penalized close m) :=
  ⟨h.nothingLanded opened ceases checks, h.ceased opened ceases checks awake,
    h.streamOver_exhaustionChecked opened ceases checks⟩

end

end Reporting

end Sys2Proof.Claims
end

