-- ==== Sys2Proof/Proofs/AlignmentOutcomes.lean ====
section
/-!
SUPPORT. The outcomes of the alignment search and of continuity: a comparison alone, an anchoring, a mislock and a discontinuity (R27 to R33).
Then the statement about them (O27).
-/
namespace Sys2Proof.Machine

section
variable {s : State} {x : IntakeEntry}

theorem placeAccepted_mislock (phase : s.asm.align.phase = .searching) (next : x.bn = s.asm.align.expected)
    (beyond : s.asm.align.target ≤ x.bn) : placeAccepted x s = mislock s := by
  unfold placeAccepted placeInSequence
  rw [if_pos next, if_pos phase, if_pos beyond]

theorem placeAccepted_compared (phase : s.asm.align.phase = .searching) (next : x.bn = s.asm.align.expected)
    (below : x.bn < s.asm.align.target) (none : chooseOffset s x = none) : placeAccepted x s = compareOnly x s := by
  unfold placeAccepted placeInSequence
  rw [if_pos next, if_pos phase, if_neg (Nat.not_le.mpr below), none]

theorem placeAccepted_anchors {d : Int} (phase : s.asm.align.phase = .searching) (next : x.bn = s.asm.align.expected)
    (below : x.bn < s.asm.align.target) (chosen : chooseOffset s x = some d) : placeAccepted x s = placeAt x d (some d) true s := by
  unfold placeAccepted placeInSequence
  rw [if_pos next, if_pos phase, if_neg (Nat.not_le.mpr below), chosen]

theorem placeAccepted_broken (other : x.bn ≠ s.asm.align.expected)
    (unexplained : s.asm.align.phase = .searching ∨ x.bn < s.asm.align.expected ∨ s.asm.align.expected + 4 < x.bn ∨ s.link.lost = false) :
    placeAccepted x s = discontinuity s := by
  have refused : ¬ toleratesGap s x = true := by
    unfold toleratesGap
    dsimp only
    rw [Bool.and_eq_true, Bool.and_eq_true, Bool.and_eq_true, decide_eq_true_iff, decide_eq_true_iff, decide_eq_true_iff]
    rintro ⟨⟨⟨anchored, late⟩, gap⟩, lost⟩
    rcases unexplained with searching | early | far | kept
    · exact absurd (anchored.symm.trans searching) nofun
    · omega
    · omega
    · exact absurd (lost.symm.trans kept) nofun
  unfold placeAccepted
  rw [if_neg other, if_neg refused]

end

/-- The target's mislock count is the planner's own (R58, R64). -/
theorem mapTargetMislocks_planner (f : Nat → Nat) (s : State) : ∃ p, mapTargetMislocks f s = s.setPlanner p ∧
    p.stream = s.planner.stream ∧ p.active = s.planner.active ∧ p.counters = s.planner.counters ∧
    (p.list.find? RepairEntry.active).map (fun e => (e.first, e.last, e.attempts)) =
      (s.planner.list.find? RepairEntry.active).map (fun e => (e.first, e.last, e.attempts)) := by
  unfold mapTargetMislocks
  split
  · exact ⟨_, rfl, rfl, rfl, rfl, rfl⟩
  · refine ⟨_, rfl, rfl, rfl, rfl, ?_⟩
    show ((s.planner.list.map _).find? _).map _ = _
    have same : RepairEntry.active ∘ (fun e : RepairEntry => if e.active then { e with mislocks := f e.mislocks } else e) =
        RepairEntry.active := by
      funext e
      show (if e.active then { e with mislocks := f e.mislocks } else e : RepairEntry).active = e.active
      split <;> rfl
    rw [List.find?_map, same, Option.map_map]
    refine congrArg (fun g => Option.map g _) ?_
    funext e
    show (fun e : RepairEntry => (e.first, e.last, e.attempts)) (if e.active then { e with mislocks := f e.mislocks } else e) = _
    split <;> rfl

end Sys2Proof.Machine

namespace Sys2Proof.Claims

open Sys2Proof.Machine

/-- The Assembler's own event of a mislock or a discontinuity: the phase is cleared, and the flow evaluated (R29, R33, R41). -/
theorem reporting_cleared (s : State) (rest : List IntakeEntry) (f : PlacementCounters → PlacementCounters) :
    Reporting s (evaluateFlow (clearPhase (countPlacement f (left s rest)))) := by
  have kept := (KeepsChoice.moves (clearPhase (countPlacement f (left s rest)))).evaluateFlow (.refl _)
  obtain ⟨planner, store, console, align⟩ := evaluateFlow_keeps (clearPhase (countPlacement f (left s rest)))
  refine ⟨store, kept.health, console, kept.play, kept.feeder, ?_, ?_, ?_, ?_, evaluateFlow_flowSound _, ?_⟩
  · rw [planner]; rfl
  · rw [planner]; rfl
  · rw [planner]; rfl
  · rw [planner]; rfl
  · rw [align]; rfl

theorem Reporting.mislocked {s m : State} (h : Reporting s m) :
    Reporting s (countPlanner (fun c => { c with mislock := bump c.mislock }) (mapTargetMislocks (fun n => satAdd 3 n 1) m)) := by
  obtain ⟨p, made, stream, active, counters, served⟩ := mapTargetMislocks_planner (fun n => satAdd 3 n 1) m
  rw [made]
  refine ⟨h.store, h.health, h.console, h.play, h.feeder, stream.trans h.stream, active.trans h.active, ?_, served.trans h.served,
    h.sound.congr rfl rfl rfl, h.phase⟩
  exact (congrArg PlannerCounters.exhaustion counters).trans h.exhausted

/-! ### An anchoring (R31) -/

/-- What the anchoring leaves of the stream: it is anchored at the offset, or closed, or opened anew. -/
theorem placeAt_anchors (x : IntakeEntry) (d : Int) (inSequence : Bool) {s : State} (current : StreamIsCurrent s) :
    let t := takeNotices (placeAt x d (some d) inSequence s)
    t.planner.stream.state ≠ .searching ∧
      (t.planner.stream.state = .anchored → t.planner.stream.expected = x.bn + 1 ∧ t.planner.stream.offset = d) := by
  intro t
  rcases placeAt_course x d (some d) inSequence current with same | none | seeking
  · have state : t.planner.stream.state = (s.planner.stream.report (x.bn + 1) (some d)).state := Stays.course_state same
    refine ⟨fun searching => ?_, fun _ => ⟨congrArg (fun c => c.2.2.1) same, congrArg (fun c => c.2.2.2) same⟩⟩
    rw [state] at searching
    unfold Stream.report at searching
    dsimp only at searching
    split at searching <;> cases searching
  · exact ⟨fun searching => absurd (none.symm.trans searching) nofun, fun anchored => absurd (none.symm.trans anchored) nofun⟩
  · exact ⟨fun searching => absurd (seeking.symm.trans searching) nofun, fun anchored => absurd (seeking.symm.trans anchored) nofun⟩

/-! ### A comparison alone (R32) -/

/-- The alignment after an entry is compared only (R32). -/
def comparedAlign (s : State) (x : IntakeEntry) : Align := { s.asm.align with expected := x.bn + 1 }

theorem compareOnly_concluded (x : IntakeEntry) (s : State) :
    Concluded s (takeNotices (compareOnly x s)) (comparedAlign s x) (fun c => { c with compared := bump c.compared }) x.cls true :=
  concluded_merged (steps := []) (comparedAlign s x) _ nofun s.asm.align.stream x none true s

/-- The state once the Assembler has taken its own event of a comparison (R32, R41). -/
def comparing (s : State) (x : IntakeEntry) : State :=
  merged (comparedAlign s x) (fun c => { c with compared := bump c.compared }) [] s

/-- The state once the planner has the report of it (R62). -/
def comparedState (s : State) (x : IntakeEntry) : State :=
  setStream { s.planner.stream with expected := x.bn + 1 } (comparing s x)

section
variable {s : State} {x : IntakeEntry}

theorem comparing_keeps : (comparing s x).planner = s.planner ∧ (comparing s x).store = s.store ∧
    (comparing s x).asm.align = comparedAlign s x ∧ (comparing s x).play = s.play ∧ (comparing s x).health = s.health ∧
    (comparing s x).notices = s.notices ∧ FlowSound (comparing s x) := by
  have kept := (KeepsChoice.moves (setAlign (comparedAlign s x) (countPlacement (fun c => { c with compared := bump c.compared }) s))).evaluateFlow
    (.refl _)
  obtain ⟨planner, store, -, align⟩ := evaluateFlow_keeps (setAlign (comparedAlign s x)
    (countPlacement (fun c => { c with compared := bump c.compared }) s))
  exact ⟨planner, store, align, kept.play, kept.health, kept.notices, evaluateFlow_flowSound _⟩

/-- A REPAIR stream that is not at its end goes on, and the planner has nothing to do (R54, R55, R62). -/
theorem comparedState_atRest (opened : s.planner.stream.state ≠ .none) (repair : s.planner.stream.purpose = .repair)
    (active : s.planner.active = true) (reads : plannerMayRead s = true) (y : Health) (awake : y.state ≠ .withdrawn) :
    AtRest ((comparedState s x).setHealth y) := by
  obtain ⟨planner, -, -, play, -, -, sound⟩ := comparing_keeps (s := s) (x := x)
  have was : s.health.state ≠ .withdrawn := fun w => by
    unfold plannerMayRead at reads
    rw [w, decide_eq_false (not_not.mpr rfl), Bool.and_false] at reads
    cases reads
  have may : plannerMayRead ((comparedState s x).setHealth y) = true :=
    (plannerMayRead_awake (t := (comparedState s x).setHealth y) play was awake).trans reads
  have still : ((comparedState s x).setHealth y).planner.active = true := (congrArg Planner.active planner).trans active
  exact ⟨sound.congr rfl rfl rfl, fun again => absurd (repair.symm.trans again.2.1) nofun,
    chooseStream_idle fun both => opened both.2, still.trans may.symm, fun no => absurd (may.symm.trans no) nofun⟩

/-- The planner takes the report of a comparison and does nothing else. -/
theorem takePlacement_compared (current : StreamIsCurrent s) (repair : s.planner.stream.purpose = .repair)
    (room : x.bn + 1 ≤ s.planner.stream.servedLast) (active : s.planner.active = true) (reads : plannerMayRead s = true)
    (awake : s.health.state ≠ .withdrawn) :
    takePlacement s.asm.align.stream (x.bn + 1) none (comparing s x) = comparedState s x := by
  obtain ⟨planner, -, -, -, health, -⟩ := comparing_keeps (s := s) (x := x)
  have stream : (comparing s x).planner.stream = s.planner.stream := congrArg Planner.stream planner
  have goesOn : endCheck (comparedState s x) = comparedState s x := by
    have within : endReached (comparedState s x) = false := by
      unfold endReached
      dsimp only
      rw [show (comparedState s x).planner.stream.purpose = .repair from repair]
      exact decide_eq_false (Nat.not_lt.mpr room)
    unfold endCheck
    rw [within, Bool.and_false]
    rfl
  have rest := comparedState_atRest (x := x) current.2 repair active reads s.health awake
  have same : (comparedState s x).setHealth s.health = comparedState s x := by
    rw [← health]
    rfl
  unfold takePlacement
  rw [stream, if_pos current.1, show setStream (s.planner.stream.report (x.bn + 1) none) (comparing s x) = comparedState s x from rfl,
    goesOn]
  exact (same ▸ rest).settle

/-- A comparison that leaves the rough indication moves the alignment and the stream's record on, and nothing of the store (R32, R62). -/
theorem compareOnly_undisturbed (quiet : s.notices = []) (current : StreamIsCurrent s) (repair : s.planner.stream.purpose = .repair)
    (room : x.bn + 1 ≤ s.planner.stream.servedLast) (active : s.planner.active = true) (reads : plannerMayRead s = true)
    (awake : s.health.state ≠ .withdrawn) (sound : s.health.Sound)
    (rough : (takeNotices (compareOnly x s)).health.rough = s.health.rough) :
    (takeNotices (compareOnly x s)).asm.align = comparedAlign s x ∧
      (takeNotices (compareOnly x s)).planner.stream = { s.planner.stream with expected := x.bn + 1 } ∧
      (takeNotices (compareOnly x s)).store = s.store := by
  obtain ⟨-, store, align, -, health, notices, -⟩ := comparing_keeps (s := s) (x := x)
  have reported : compareOnly x s = takeReport x.cls true (comparedState s x) :=
    congrArg (takeReport x.cls true) (takePlacement_compared current repair room active reads awake)
  have health' : (comparedState s x).health = s.health := health
  have low : healthOf (s.health.report x.cls true).skip ≠ .withdrawn := fun high => by
    have lower := (s.health.report_counters x.cls true).2
    have above := (healthOf_withdrawn_iff _).mp high
    exact awake (sound.1.trans ((healthOf_withdrawn_iff _).mpr (Nat.le_trans above lower)))
  obtain ⟨y, l, a, made, -⟩ := rederiveHealth_atRest (s := (comparedState s x).setHealth (s.health.report x.cls true)) low
    fun y still => comparedState_atRest (x := x) current.2 repair active reads y still
  have smooth : (rederiveHealth ((comparedState s x).setHealth (s.health.report x.cls true))).health.rough = s.health.rough := by
    rw [← rough, (KeepsRest.takeNotices _).health, reported, takeReport_health, health', rederiveHealth_health]
    exact congrArg (fun n => decide (128 ≤ n)) (Health.roughened_fields _ _).2.2.2.1.symm
  have taken : compareOnly x s = (((((comparedState s x).setHealth (s.health.report x.cls true)).setHealth y).setLink l).setAttn a) := by
    rw [reported, ← made]
    unfold takeReport rederiveRough
    dsimp only
    rw [health', if_pos smooth]
  rw [takeNotices_none (by rw [taken]; exact notices.trans quiet), taken]
  exact ⟨align, rfl, store⟩

end

/-! ### A discontinuity and a mislock (R29, R33) -/

/-- The Assembler's own event of a discontinuity. -/
def breaking (s : State) : State :=
  evaluateFlow (clearPhase (countPlacement (fun c => { c with discontinuity := bump c.discontinuity }) s))

/-- The state in which a mislock closes the stream: counted, and the target's count raised. -/
def mislocked (s : State) : State :=
  countPlanner (fun c => { c with mislock := bump c.mislock }) (mapTargetMislocks (fun n => satAdd 3 n 1) (evaluateFlow (clearPhase s)))

section
variable (s : State)

theorem discontinuity_aside : Aside True True False (clearPhase (countPlacement (fun c => { c with discontinuity := bump c.discontinuity }) s))
    (takeNotices (discontinuity s)) := by
  have first := (Aside.refl True True False
    (clearPhase (countPlacement (fun c => { c with discontinuity := bump c.discontinuity }) s))).evaluateFlow
  refine Aside.takeNotices ?_
  unfold discontinuity takeDiscontinuity
  dsimp only
  split
  · exact ((first.closeStream _).settle).addSkip _
  · exact first.settle

theorem discontinuity_beside : Beside (clearPhase (countPlacement (fun c => { c with discontinuity := bump c.discontinuity }) s))
    (takeNotices (discontinuity s)) := by
  have M := KeepsRest.moves (clearPhase (countPlacement (fun c => { c with discontinuity := bump c.discontinuity }) s))
  have first := M.evaluateFlow (.refl _)
  refine Beside.trans ?_ (.ofRest (.takeNotices _))
  unfold discontinuity takeDiscontinuity
  dsimp only
  split
  · exact (Beside.ofRest (M.settle (M.closeStream _ first))).addSkip _
  · exact .ofRest (M.settle first)

/-- A discontinuity leaves the erasure score (R29, R63). -/
theorem discontinuity_erasure (awake : s.health.state ≠ .withdrawn) :
    (takeNotices (discontinuity s)).health.erasure = s.health.erasure := by
  have M := KeepsRest.moves (clearPhase (countPlacement (fun c => { c with discontinuity := bump c.discontinuity }) s))
  have first := M.evaluateFlow (.refl _)
  rw [(KeepsRest.takeNotices _).health]
  unfold discontinuity takeDiscontinuity
  dsimp only
  split
  · have ended := M.settle (M.closeStream .broken first)
    exact (addSkip_scores (ended.health.symm ▸ awake) 8).2.1.trans (congrArg Health.erasure ended.health)
  · exact congrArg Health.erasure (M.settle first).health

variable {s} in
theorem discontinuity_current (current : StreamIsCurrent s) :
    takeNotices (discontinuity s) = penalized .broken (breaking s) := by
  have planner : (breaking s).planner = s.planner := (evaluateFlow_keeps _).1
  have named : reportIsCurrent s.asm.align.stream (breaking s) = true := by
    unfold reportIsCurrent
    rw [planner, decide_eq_true current.1, decide_eq_true current.2]
    rfl
  exact congrArg takeNotices (if_pos named)

variable {s} in
theorem mislock_current (current : StreamIsCurrent s) : takeNotices (mislock s) = penalized .mislock (mislocked s) := by
  have planner : (evaluateFlow (clearPhase s)).planner = s.planner := (evaluateFlow_keeps _).1
  have named : reportIsCurrent s.asm.align.stream (evaluateFlow (clearPhase s)) = true := by
    unfold reportIsCurrent
    rw [planner, decide_eq_true current.1, decide_eq_true current.2]
    rfl
  exact congrArg takeNotices (if_pos named)

end

section
variable (s : State)

theorem mislocked_keeps : (mislocked s).asm = (evaluateFlow (clearPhase s)).asm ∧
    (mislocked s).planner.counters.mislock = bump s.planner.counters.mislock ∧
    Beside ((clearPhase s).setPlanner (mislocked s).planner) (mislocked s) := by
  obtain ⟨p, made, -, -, counters, -⟩ := mapTargetMislocks_planner (fun n => satAdd 3 n 1) (evaluateFlow (clearPhase s))
  have kept := Beside.ofRest ((KeepsRest.moves (clearPhase s)).evaluateFlow (.refl _))
  have planner : (evaluateFlow (clearPhase s)).planner = s.planner := (evaluateFlow_keeps _).1
  have count : p.counters.mislock = s.planner.counters.mislock := by rw [counters, planner]
  unfold mislocked
  rw [made]
  exact ⟨rfl, congrArg bump count,
    ⟨kept.resume, kept.sense, kept.supply, kept.console, kept.pending, kept.counted, Planner.Leads.refl _, kept.lost, kept.attn⟩⟩

theorem mislocked_beside : Beside ((clearPhase s).setPlanner (mislocked s).planner) (penalized .mislock (mislocked s)) :=
  have M := KeepsRest.moves (mislocked s)
  ((mislocked_keeps s).2.2.trans ((Beside.ofRest (M.settle (M.closeStream _ (.refl _)))).addSkip _)).trans (.ofRest (.takeNotices _))

theorem mislocked_intake : (penalized .mislock (mislocked s)).asm.intake = s.asm.intake := by
  have closed : Aside True True False (mislocked s) (penalized .mislock (mislocked s)) :=
    ((((Aside.refl _ _ _ _).closeStream _).settle).addSkip _).takeNotices
  have evaluated := (KeepsChoice.moves (clearPhase s)).evaluateFlow (.refl _)
  rw [closed.intake, (mislocked_keeps s).1]
  exact evaluated.asm.intake

end

/-- The target of a FRONTIER stream counts the mislock (R33, R64). -/
theorem mislocked_frontier {s : State} (frontier : s.planner.stream.purpose = .frontier) :
    (mislocked s).planner.frontier = { s.planner.frontier with mislocks := min 3 (s.planner.frontier.mislocks + 1) } ∧
      (mislocked s).planner.list = s.planner.list := by
  have planner : (evaluateFlow (clearPhase s)).planner = s.planner := (evaluateFlow_keeps _).1
  unfold mislocked mapTargetMislocks
  rw [planner, frontier]
  exact ⟨rfl, show (evaluateFlow (clearPhase s)).planner.list = s.planner.list by rw [planner]⟩

/-- The target of a REPAIR stream counts the mislock (R33, R64). -/
theorem mislocked_repair {s : State} (repair : s.planner.stream.purpose = .repair) :
    (mislocked s).planner.list =
      s.planner.list.map (fun e => if e.active then { e with mislocks := min 3 (e.mislocks + 1) } else e) := by
  have planner : (evaluateFlow (clearPhase s)).planner = s.planner := (evaluateFlow_keeps _).1
  unfold mislocked mapTargetMislocks
  rw [planner, repair]
  rfl

/-- The penalty of a closed stream raises the skip score (R76). -/
theorem Reporting.skipRaised {s m : State} {close : Close} (h : Reporting s m) (awake : ¬ Withdrawn s) :
    SkipRaised s (penalized close m) 8 := by
  have ended := (KeepsRest.moves m).settle ((KeepsRest.moves m).closeStream close (.refl m))
  refine ⟨fun w => absurd w awake, fun _ => ?_⟩
  unfold penalized
  rw [(KeepsRest.takeNotices _).health, (addSkip_scores (by rw [ended.health, h.health]; exact awake) 8).1, ended.health, h.health]
  rfl

/-! ### The statement (O27) -/

/-- The search reads the store, the cursor and the parameters. -/
theorem chooseOffset_left (s : State) (rest : List IntakeEntry) (x : IntakeEntry) : chooseOffset (left s rest) x = chooseOffset s x := by
  have agreed : ∀ (l : List Frame) (q : Int), agreements (left s rest) q l = agreements s q l := by
    intro l
    induction l with
    | nil => exact fun _ => rfl
    | cons f later ih => exact fun q => congrArg (f.agrees (comparedFrame s q) :: ·) (ih (q + 1))
  unfold chooseOffset
  refine congrArg (fun p => List.find? p _) (funext fun d => ?_)
  unfold offsetMatches
  rw [agreed]
  rfl

section
variable {s : State} {x : IntakeEntry} {rest : List IntakeEntry} (front : s.asm.intake = x :: rest) (accepted : Accepted s x)

include front accepted

theorem completes_compared (phase : s.asm.align.phase = .searching) (next : x.bn = s.asm.align.expected) (below : x.bn < s.asm.align.target)
    (none : chooseOffset s x = none) :
    Completes .placement s (fun t =>
      t.asm.intake = rest ∧ t.asm.align.expected = x.bn + 1 ∧
      t.asm.counters = { s.asm.counters with compared := bump s.asm.counters.compared } ∧ Reported s t x.cls true ∧
      (StreamIsCurrent s → s.planner.stream.purpose = .repair → x.bn + 1 ≤ s.planner.stream.servedLast →
        s.planner.active = true → plannerMayRead s = true → s.health.Sound → t.health.rough = s.health.rough →
        t.asm.align = { s.asm.align with expected := x.bn + 1 } ∧
          t.planner.stream = { s.planner.stream with expected := x.bn + 1 } ∧ t.store = s.store) ∧
      t.resume = s.resume ∧ OnlyRaised [.health, .repairOverflow] s t ∧ SensesStay s t) := by
  refine completes_accepted front accepted ?_
  rw [placeAccepted_compared (s := left s rest) phase next below ((chooseOffset_left s rest x).trans none)]
  have undisturbed := compareOnly_undisturbed (s := left s rest) (x := x) rfl
  obtain ⟨intake, expected, -, beside, v, delivered⟩ := compareOnly_concluded x (left s rest)
  have raised := onlyRaised_beside beside
  have senses := sensesStay_beside beside
  have scores := delivered.reported accepted.2.2.2
  generalize takeNotices (compareOnly x (left s rest)) = t at *
  exact ⟨intake, expected, beside.counted, scores,
    fun current repair room active reads sound rough => undisturbed current repair room active reads accepted.2.2.2 sound rough,
    beside.resume, raised, senses⟩

theorem completes_anchors {d : Int} (phase : s.asm.align.phase = .searching) (next : x.bn = s.asm.align.expected)
    (below : x.bn < s.asm.align.target) (chosen : chooseOffset s x = some d) :
    Completes .placement s (fun t =>
      t.asm.intake = rest ∧ t.asm.align.expected = x.bn + 1 ∧
      t.asm.counters = { placedCounters s x d with seam := bump s.asm.counters.seam } ∧ PlacedAt s t x d ∧
      (t.asm.align.phase = .none ∨ t.asm.align = { s.asm.align with phase := .anchored, offset := d, expected := x.bn + 1 }) ∧
      (StreamIsCurrent s →
        t.planner.stream.state ≠ .searching ∧
          (t.planner.stream.state = .anchored →
            t.planner.stream.expected = x.bn + 1 ∧ t.planner.stream.offset = d)) ∧
      Reported s t x.cls true ∧ t.resume = s.resume ∧ OnlyRaised [.health, .repairOverflow] s t ∧ SensesStay s t) := by
  refine completes_accepted front accepted ?_
  rw [placeAccepted_anchors (s := left s rest) phase next below ((chooseOffset_left s rest x).trans chosen)]
  have placed := placeAt_placed x d (some d) true (left s rest)
  have anchors := placeAt_anchors x d true (s := left s rest)
  obtain ⟨intake, expected, align, beside, v, delivered⟩ := placeAt_concluded x d (some d) true (left s rest)
  have raised := onlyRaised_beside beside
  have senses := sensesStay_beside beside
  have counted := beside.counted.trans (afterPlacing_placedCounters (left s rest) x d true)
  have scores := delivered.reported accepted.2.2.2
  generalize takeNotices (placeAt x d (some d) true (left s rest)) = t at *
  exact ⟨intake, expected, counted, placed, align.symm, anchors, scores, beside.resume, raised, senses⟩

theorem completes_broken (other : x.bn ≠ s.asm.align.expected)
    (unexplained : s.asm.align.phase = .searching ∨ x.bn < s.asm.align.expected ∨ s.asm.align.expected + 4 < x.bn ∨ s.link.lost = false) :
    Completes .placement s (fun t =>
      t.asm.intake = rest ∧ t.asm.align.expected = s.asm.align.expected ∧ t.asm.align.phase = .none ∧
      t.asm.counters = { s.asm.counters with discontinuity := bump s.asm.counters.discontinuity } ∧
      (StreamIsCurrent s → ClosedWithCease s t ∧ SkipRaised s t 8) ∧
      t.health.erasure = s.health.erasure ∧ t.resume = s.resume ∧ OnlyRaised [.health, .repairOverflow] s t ∧
      SensesStay s t) := by
  refine completes_accepted front accepted ?_
  rw [placeAccepted_broken (s := left s rest) other unexplained]
  have aside := discontinuity_aside (left s rest)
  have beside := discontinuity_beside (left s rest)
  have erasure := discontinuity_erasure (left s rest) accepted.2.2.2
  have raised := onlyRaised_beside beside
  have senses := sensesStay_beside beside
  have closes (current : StreamIsCurrent s) : ClosedWithCease s (takeNotices (discontinuity (left s rest))) ∧
      SkipRaised s (takeNotices (discontinuity (left s rest))) 8 := by
    have report := reporting_cleared s rest (fun c => { c with discontinuity := bump c.discontinuity })
    rw [discontinuity_current (s := left s rest) current]
    exact ⟨report.closedWithCease current.2 rfl rfl accepted.2.2.2, report.skipRaised accepted.2.2.2⟩
  generalize takeNotices (discontinuity (left s rest)) = t at *
  refine ⟨aside.intake, aside.expected, ?_, beside.counted, closes, erasure, beside.resume, raised, senses⟩
  rcases aside.align with same | cleared
  · exact congrArg Align.phase same
  · exact cleared

theorem completes_mislock (phase : s.asm.align.phase = .searching) (next : x.bn = s.asm.align.expected)
    (beyond : s.asm.align.target ≤ x.bn) (current : StreamIsCurrent s) :
    Completes .placement s (fun t =>
      t.asm.intake = rest ∧ t.asm.counters = s.asm.counters ∧
      t.planner.counters.mislock = bump s.planner.counters.mislock ∧ ClosedWithCease s t ∧ SkipRaised s t 8 ∧
      (s.planner.stream.purpose = .frontier → s.planner.list.find? RepairEntry.active = none → Steady s →
        t.planner.frontier = { s.planner.frontier with mislocks := min 3 (s.planner.frontier.mislocks + 1) }) ∧
      (s.planner.stream.purpose = .repair → Steady s →
        (∀ e ∈ s.planner.list, e.active = true → e.attempts < effectiveRetry s) →
        t.planner.list.map (fun e => (e.first, e.last, e.mislocks)) =
          s.planner.list.map (fun e => (e.first, e.last, if e.active then min 3 (e.mislocks + 1) else e.mislocks))) ∧
      t.resume = s.resume ∧ OnlyRaised [.health, .repairOverflow] s t ∧ SensesStay s t) := by
  refine completes_accepted front accepted ?_
  rw [placeAccepted_mislock (s := left s rest) phase next beyond, mislock_current (s := left s rest) current]
  have cleared : Reporting s (evaluateFlow (clearPhase (left s rest))) := reporting_cleared s rest id
  have report : Reporting s (mislocked (left s rest)) := cleared.mislocked
  have closes := report.closedWithCease (close := .mislock) current.2 rfl rfl accepted.2.2.2
  have raises := report.skipRaised (close := .mislock) accepted.2.2.2
  have intake := mislocked_intake (left s rest)
  have beside := mislocked_beside (left s rest)
  have raised := onlyRaised_beside beside
  have senses := sensesStay_beside beside
  have counted : (penalized .mislock (mislocked (left s rest))).planner.counters.mislock = bump s.planner.counters.mislock :=
    (congrArg PlannerCounters.mislock beside.planner.answers).trans (mislocked_keeps (left s rest)).2.1
  have frontier (purpose : s.planner.stream.purpose = .frontier) (none : s.planner.list.find? RepairEntry.active = none)
      (steady : Steady s) : (penalized .mislock (mislocked (left s rest))).planner.frontier =
        { s.planner.frontier with mislocks := min 3 (s.planner.frontier.mislocks + 1) } := by
    obtain ⟨counts, list⟩ := mislocked_frontier (s := left s rest) purpose
    have unserved : (mislocked (left s rest)).planner.list.find? RepairEntry.active = .none := (congrArg _ list).trans none
    rw [(report.steadily steady).2.1, (report.streamOver current.2 rfl rfl).frontier,
      closeStream_checked (report.stream.symm ▸ current.2) rfl rfl, unserved]
    exact counts
  have list (purpose : s.planner.stream.purpose = .repair) (steady : Steady s)
      (below : ∀ e ∈ s.planner.list, e.active = true → e.attempts < effectiveRetry s) :
      (penalized .mislock (mislocked (left s rest))).planner.list.map (fun e => (e.first, e.last, e.mislocks)) =
        s.planner.list.map (fun e => (e.first, e.last, if e.active then min 3 (e.mislocks + 1) else e.mislocks)) := by
    have limit : effectiveRetry (Machine.ceased (mislocked (left s rest))) = effectiveRetry s :=
      effectiveRetry_congr (congrArg Health.rough report.health) (congrArg (fun c => c.params.retryLimit) report.console)
    rw [(report.steadily steady).2.1, (report.streamOver current.2 rfl rfl).list,
      closeStream_checked (report.stream.symm ▸ current.2) rfl rfl, exhaust_congr report.served,
      exhaust_below fun e found => limit.symm ▸ below e (List.mem_of_find?_eq_some found) (List.find?_some found)]
    show ((mislocked (left s rest)).planner.list.map _).map _ = _
    rw [mislocked_repair (s := left s rest) purpose, List.map_map, List.map_map]
    refine List.map_congr_left fun e _ => ?_
    by_cases served : e.active = true
    · simp [served]
    · simp [served]
  generalize penalized .mislock (mislocked (left s rest)) = t at *
  exact ⟨intake, beside.counted, counted, closes, raises, frontier, list, beside.resume, raised, senses⟩

end

/-- Settles O27: the search by its specification, and the four outcomes one by one. -/
theorem alignmentSearch : Obligations.AlignmentSearch := by
  refine ⟨offsetMatches_iff, fun s x => ⟨chooseOffset_none_iff s x, chooseOffset_some_iff s x⟩,
    fun x rest s front accepted => ⟨fun phase next below none => ?_, fun d phase next below chosen => ?_,
      fun phase next beyond current => ?_, fun other unexplained => ?_⟩⟩
  · exact completes_compared front accepted phase next below none
  · exact completes_anchors front accepted phase next below chosen
  · exact completes_mislock front accepted phase next beyond current
  · exact completes_broken front accepted other unexplained

end Sys2Proof.Claims
end

