-- ==== Sys2Proof/Proofs/StaleAnswers.lean ====
section
/-!
SUPPORT. A sound message at the link, of any kind, up to its dispatch (R95, R100, R104, R106). Then the answers of the drive that are
not for the current stream, and the statement about them (O17).
-/
namespace Sys2Proof.Machine

/-! ### The link before the dispatch -/

/-- A line that goes high leaves the lost-message flag, and every message that waits or is being sent (R95, R111). -/
theorem Link.lineHigh_messages (l : Link) : l.lineHigh.lost = l.lost ∧ ∀ m, l.lineHigh.Carries m ↔ l.Carries m := by
  unfold Link.lineHigh
  dsimp only
  split
  · rename_i held
    refine ⟨by rw [Link.kick_rest], fun m => (Link.kick_carries_iff _ m).trans (or_congr Iff.rfl ?_)⟩
    rw [held]
    exact ⟨nofun, nofun⟩
  all_goals exact ⟨rfl, fun _ => Iff.rfl⟩

/-- From l to x a message came in: it is counted, assembly is IDLE, the flag stays, and no message of the part's own joined or left. -/
structure Link.Received (l x : Link) : Prop where
  received : x.counters.received = bump l.counters.received
  assembly : x.assembly = .idle
  lost     : x.lost = l.lost
  carries  : ∀ m, x.Carries m ↔ l.Carries m

/-- The characters of a message while none is under way leave the flag and the messages of the part's own (R95, R100). -/
theorem beginMessage_messages {s : State} (idle : s.link.assembly = .idle) (noise : Nat) :
    (beginMessage noise s).link.lost = s.link.lost ∧ ∀ m, (beginMessage noise s).link.Carries m ↔ s.link.Carries m := by
  have high : (lineHigh s).link.assembly = .idle ∧ (lineHigh s).link.lost = s.link.lost ∧
      ∀ m, (lineHigh s).link.Carries m ↔ s.link.Carries m := by
    unfold lineHigh
    split
    · exact ⟨s.link.lineHigh_fields.1.trans idle, s.link.lineHigh_messages⟩
    · exact ⟨idle, rfl, fun _ => Iff.rfl⟩
  unfold beginMessage
  generalize lineHigh s = u at high ⊢
  obtain ⟨assembly, lost, carries⟩ := high
  unfold truncate mapLink
  rw [State.link_setLink]
  dsimp only
  rw [assembly]
  exact ⟨lost, carries⟩

/-- A sound message changes the link alone before it is handed to its owner (R104, R106). -/
theorem receive_dispatches {s : State} (on : s.console.params.receiverEnable = 1) (idle : s.link.assembly = .idle) (noise : Nat)
    (monitorFirst : Bool) {m : RxMsg} (sound : m.malformed = false) :
    ∃ l, receive noise monitorFirst m s = dispatch monitorFirst m (s.setLink l) ∧ s.link.Received l := by
  have enabled : receiverOn s = true := decide_eq_true on
  obtain ⟨l, begun, assembly, counters, -, -⟩ := beginMessage_idle idle noise
  obtain ⟨lost, carries⟩ := beginMessage_messages idle noise
  rw [begun] at lost carries
  refine ⟨{ l with counters := { l.counters with received := bump l.counters.received } }, ?_, by rw [counters], assembly, lost, carries⟩
  unfold receive deliver
  rw [if_pos enabled, begun, sound]
  rfl

/-! ### Answers that are not for the current stream (R61) -/

theorem answersSeek_iff {n : Nat} {s : State} :
    answersSeek n s = true ↔ n ≠ 0 ∧ n = s.planner.stream.number ∧ s.planner.stream.state = .seeking := by
  simp [answersSeek, and_assoc]

theorem jumpIsCurrent_iff {n : Nat} {s : State} :
    jumpIsCurrent n s = true ↔
      n ≠ 0 ∧ n = s.planner.stream.number ∧ (s.planner.stream.state = .searching ∨ s.planner.stream.state = .anchored) := by
  simp [jumpIsCurrent, and_assoc]

section
variable {n : Nat} {s : State}

theorem not_answersSeek (h : n = 0 ∨ n ≠ s.planner.stream.number ∨ s.planner.stream.state ≠ .seeking) :
    ¬ answersSeek n s = true := by
  rw [answersSeek_iff]
  rintro ⟨named, current, seeking⟩
  rcases h with zero | other | elsewhere
  · exact named zero
  · exact other current
  · exact elsewhere seeking

theorem takeLanded_stale (h : ¬ answersSeek n s = true) (landing : Nat) : takeLanded n landing s = staleAnswer s := if_neg h

theorem takeRefused_stale (h : ¬ answersSeek n s = true) (reason : Nat) : takeRefused n reason s = staleAnswer s := if_neg h

theorem takeJump_stale
    (h : n = 0 ∨ n ≠ s.planner.stream.number ∨ s.planner.stream.state = .none ∨ s.planner.stream.state = .seeking) :
    takeJump n s = staleAnswer s := by
  refine if_neg fun current => ?_
  obtain ⟨named, same, landed⟩ := jumpIsCurrent_iff.mp current
  rcases h with zero | other | none | seeking
  · exact named zero
  · exact other same
  · rw [none] at landed
    exact landed.elim nofun nofun
  · rw [seeking] at landed
    exact landed.elim nofun nofun

end

/-- The Monitor's notice of a JUMP moves its own record alone, and neither the health state nor a score (R84). -/
theorem monitorJump_health (s : State) :
    ∃ x, monitorJump s = s.setHealth x ∧ x.state = s.health.state ∧ x.skip = s.health.skip ∧ x.erasure = s.health.erasure := by
  unfold monitorJump
  split
  · exact ⟨_, rfl, rfl, rfl, rfl⟩
  · exact ⟨s.health, rfl, rfl, rfl, rfl⟩

end Sys2Proof.Machine

namespace Sys2Proof.Claims

open Sys2Proof.Machine

/-- The state in which a message is handed to its owner: the step begins, and the link has taken the message. -/
def taking (s : State) (l : Link) : State := (s.setNotices []).setLink l

/-- A command that is a sound message is the dispatch of it, with the notices of readiness (R16, R106). -/
theorem completes_message {c : Instr} {s : State} {P : State → Prop} (ready : LinkReady s) {noise : Nat} {monitorFirst : Bool} {m : RxMsg}
    (runs : exec c s = inStep (receive noise monitorFirst m) s) (sound : m.malformed = false)
    (h : ∀ l, s.link.Received l → P ((takeNotices (dispatch monitorFirst m (taking s l))).setNotices s.notices)) : Completes c s P := by
  obtain ⟨on, idle⟩ := ready
  obtain ⟨l, received, taken⟩ := receive_dispatches (s := s.setNotices []) on idle noise monitorFirst sound
  refine ⟨_, runs, ?_⟩
  rw [received]
  exact h l taken

/-- The planner's record with one more Stale answer. -/
def staleCounted (p : Planner) : Planner :=
  { p with counters := { p.counters with staleAnswer := bump p.counters.staleAnswer } }

/-- A message whose owner counts a Stale answer, and at most moves the Monitor's record, does nothing else beside the link (R61). -/
theorem completes_stale {c : Instr} {s : State} {P : State → Prop} (ready : LinkReady s) {noise : Nat} {monitorFirst : Bool} {m : RxMsg}
    (runs : exec c s = inStep (receive noise monitorFirst m) s) (sound : m.malformed = false)
    (stale : ∀ l, ∃ x, dispatch monitorFirst m (taking s l) = (staleAnswer (taking s l)).setHealth x ∧
      P (((s.setLink l).setPlanner (staleCounted s.planner)).setHealth x)) : Completes c s P := by
  refine completes_message ready runs sound fun l _ => ?_
  obtain ⟨x, taken, holds⟩ := stale l
  rw [taken, takeNotices_none rfl]
  exact holds

/-- Settles O17: each such answer reaches `staleAnswer`, whatever else it says. -/
theorem staleAnswersCounted : Obligations.StaleAnswersCounted := by
  intro noise n s ready
  refine ⟨fun other => ⟨fun bn inside => ?_, fun reason named => ?_⟩, fun other lastGood landing monitorFirst => ?_⟩
  · refine completes_stale ready (noise := noise) (monitorFirst := false) (m := .landed n.toNat bn.toNat) rfl
      (decide_eq_false (Nat.not_le.mpr inside)) fun l =>
        ⟨s.health, takeLanded_stale (s := taking s l) (not_answersSeek other) _, ?_⟩
    exact ⟨rfl, rfl, rfl, ⟨rfl, rfl, rfl, rfl⟩, rfl, rfl, rfl, rfl, rfl⟩
  · have sound : (RxMsg.refused n.toNat reason.toNat).malformed = false := by
      rcases named with rfl | rfl <;> rfl
    refine completes_stale ready (noise := noise) (monitorFirst := false) (m := .refused n.toNat reason.toNat) rfl sound fun l =>
      ⟨s.health, takeRefused_stale (s := taking s l) (not_answersSeek other) _, ?_⟩
    exact ⟨rfl, rfl, rfl, ⟨rfl, rfl, rfl, rfl⟩, rfl, rfl, rfl, rfl, rfl⟩
  · refine completes_stale ready (noise := noise) (monitorFirst := monitorFirst)
      (m := .jump n.toNat lastGood.toNat landing.toNat) rfl rfl fun l => ?_
    have handed : ∃ x, dispatchJump n.toNat monitorFirst (taking s l) = (staleAnswer (taking s l)).setHealth x := by
      cases monitorFirst with
      | true =>
        obtain ⟨x, watched, -⟩ := monitorJump_health (taking s l)
        refine ⟨x, ?_⟩
        show takeJump n.toNat (monitorJump (taking s l)) = _
        rw [watched, takeJump_stale (s := (taking s l).setHealth x) other]
        rfl
      | false =>
        obtain ⟨x, watched, -⟩ := monitorJump_health (staleAnswer (taking s l))
        refine ⟨x, ?_⟩
        show monitorJump (takeJump n.toNat (taking s l)) = _
        rw [takeJump_stale (s := taking s l) other, watched]
    obtain ⟨x, taken⟩ := handed
    exact ⟨x, taken, rfl, rfl, rfl, rfl, rfl, rfl, rfl, rfl, rfl, rfl, rfl⟩

end Sys2Proof.Claims
end

