-- ==== Sys2Proof/Proofs/Reopening.lean ====
section
/-!
SUPPORT. The end of an event after a close, whatever the hold causes were before it (R41, R53 to R56, R65): at most one stream is
opened, it bears the next number, nothing pre-empts it, and no CEASE joins or leaves.
-/
namespace Sys2Proof.Machine

/-- The stream of number n was closed in c, and x came after it by choices and evaluations of the flow: no stream is open, or that of
the next number is SEEKING, and no SEEK of the closed one waits (R51, R65). -/
structure Reopened (n : Nat) (c x : State) : Prop where
  store     : x.store = c.store
  exhausted : x.planner.counters.exhaustion = c.planner.counters.exhaustion
  preempted : x.planner.counters.preemption = c.planner.counters.preemption
  frontier  : x.planner.frontier = c.planner.frontier
  list      : x.planner.list.map (fun e => (e.first, e.last, e.mislocks)) = c.planner.list.map (fun e => (e.first, e.last, e.mislocks))
  phase     : x.asm.align.phase = .none
  number    : (x.planner.stream.state = .none ∧ x.planner.stream.number = n) ∨
    (x.planner.stream.state = .seeking ∧ x.planner.stream.number = nextNumber n ∧ c.planner.active = true)
  active    : x.planner.active = c.planner.active
  seeks     : ∀ b, TxMsg.seek n b ∉ x.link.queue
  ceases    : ∀ k, x.link.Carries (.cease k) ↔ c.link.Carries (.cease k)

/-- No CEASE joins or leaves by another request (R109). -/
theorem Link.request_ceases (l : Link) {m : TxMsg} (other : m.cls ≠ .cease) (k : Nat) :
    ({ l with queue := requestQueue m l.queue } : Link).kick.Carries (.cease k) ↔ l.Carries (.cease k) := by
  refine (Link.kick_carries_iff _ _).trans (or_congr ⟨fun waits => ?_, mem_requestQueue (Ne.symm other)⟩ Iff.rfl)
  exact (Link.Aside.mem_requestQueue_cases waits).resolve_left fun same => other (by rw [← same]; rfl)

/-- A choice changes nothing, or it opens a stream where there was none, on a list of the same runs (R54, R56). -/
theorem chooseStream_opens (s : State) : chooseStream s = s ∨
    (s.planner.active = true ∧ s.planner.stream.state = .none) ∧ ∃ purpose target last list counters,
      chooseStream s = openStream purpose target last (s.setPlanner { s.planner with list := list, counters := counters }) ∧
      list.map (fun e => (e.first, e.last, e.mislocks)) = s.planner.list.map (fun e => (e.first, e.last, e.mislocks)) ∧
      counters.exhaustion = s.planner.counters.exhaustion ∧ counters.preemption = s.planner.counters.preemption := by
  by_cases choice : s.planner.active = true ∧ s.planner.stream.state = .none
  · have ⟨active, idle⟩ := choice
    cases found : s.planner.list.find? (due s) with
    | some e =>
      rw [chooseStream_repair active idle found]
      refine .inr ⟨choice, _, _, _, _, _, rfl, ?_, rfl, rfl⟩
      show List.map _ (List.map _ _) = _
      rw [List.map_map]
      refine List.map_congr_left fun y _ => ?_
      show (fun e : RepairEntry => (e.first, e.last, e.mislocks)) (if y.first = e.first then y.served else y) = _
      split <;> rfl
    | none =>
      have none : ∀ e ∈ s.planner.list, due s e = false :=
        fun e he => Bool.eq_false_iff.mpr (List.find?_eq_none.mp found e he)
      rcases Nat.lt_or_ge s.planner.frontier.fillHead s.store.limit with below | full
      · rw [chooseStream_frontier active idle none below]
        exact .inr ⟨choice, _, _, _, _, _, rfl, rfl, rfl, rfl⟩
      · exact .inl (chooseStream_nothing none full)
  · exact .inl (chooseStream_idle choice)

/-- A choice queues no CEASE, and replaces none. -/
theorem chooseStream_ceases (s : State) (k : Nat) : (chooseStream s).link.Carries (.cease k) ↔ s.link.Carries (.cease k) := by
  rcases chooseStream_opens s with same | ⟨-, purpose, target, last, list, counters, opens, -⟩
  · rw [same]
  · rw [opens]
    exact Link.request_ceases s.link (by exact nofun) k

namespace Reopened

variable {n : Nat} {c x : State}

theorem fresh (h : Reopened n c x) (none : x.planner.stream.state = .none) : x.planner.stream.number = n :=
  (h.number.resolve_right fun both => absurd (none.symm.trans both.1) nofun).2

/-- A request other than a CEASE and a SEEK of the closed stream. -/
theorem request (h : Reopened n c x) {m : TxMsg} (other : m.cls ≠ .cease) (seek : ∀ b, TxMsg.seek n b ≠ m) :
    Reopened n c (txRequest m x) :=
  { h with
    seeks := Over.seeks_request h.seeks seek
    ceases := fun k => (Link.request_ceases x.link other k).trans (h.ceases k) }

theorem chooseStream (h : Reopened n c x) : Reopened n c (chooseStream x) := by
  rcases chooseStream_opens x with same | ⟨⟨active, idle⟩, purpose, target, last, list, counters, opens, runs, exhausted, preempted⟩
  · rw [same]
    exact h
  · rw [opens]
    have number : nextNumber x.planner.stream.number = nextNumber n := congrArg nextNumber (h.fresh idle)
    have seek : ∀ b start, TxMsg.seek n b ≠ TxMsg.seek (nextNumber x.planner.stream.number) start := fun b start same =>
      nextNumber_ne n ((number.symm.trans (TxMsg.seek.inj same).1.symm))
    unfold openStream
    refine request ?_ (by exact nofun) fun b => seek b _
    exact { h with
      exhausted := exhausted.trans h.exhausted
      preempted := preempted.trans h.preempted
      list := runs.trans h.list
      number := .inr ⟨rfl, number, h.active.symm.trans active⟩ }

theorem evaluateFlow (h : Reopened n c x) : Reopened n c (evaluateFlow x) := by
  have held : Reopened n c (x.setAsm { x.asm with holdIntake := intakeFull x, holdWindow := windowFull x }) := { h with }
  unfold Machine.evaluateFlow
  dsimp only
  split <;> split
  · exact held
  · exact held.request (by exact nofun) (by exact nofun)
  · exact held.request (by exact nofun) (by exact nofun)
  · exact held

end Reopened

/-! ### Nothing pre-empts what a choice opens (R54, R55) -/

theorem not_preempts_none {s : State} (none : s.planner.stream.state = .none) : ¬ Preempts s := fun again => again.1 none

/-- A choice opens no FRONTIER stream while an entry is due. -/
theorem not_preempts_chooseStream {s : State} (h : ¬ Preempts s) : ¬ Preempts (chooseStream s) := by
  by_cases active : s.planner.active = true
  · rintro ⟨opened, frontier, e, he, d⟩
    have none := (settled_chooseStream h).2 ((chooseStream_active s).trans active) opened frontier e he
    exact absurd (none.symm.trans d) nofun
  · rwa [chooseStream_idle fun both => active both.1]

/-- Without a stream that has landed an evaluation can only end the hold of the window, so no entry becomes due by it (R41, R53). -/
theorem not_preempts_evaluateFlow {s : State} (phase : s.asm.align.phase = .none) (h : ¬ Preempts s) :
    ¬ Preempts (evaluateFlow s) := by
  obtain ⟨planner, store, console, -⟩ := evaluateFlow_keeps s
  rintro ⟨opened, frontier, e, he, d⟩
  rw [planner] at opened frontier he
  rw [due_iff, store, console, evaluateFlow_window, windowFull_cleared phase] at d
  exact h ⟨opened, frontier, e, he, (due_iff s e).mpr (.inl (d.resolve_right nofun))⟩

/-- The end of an event in which no stream is pre-empted: the choice, and once more where the flow changed. -/
theorem settle_unpreempted {s : State} (h : ¬ Preempts s) :
    settle s = if flowDiffers s (evaluateFlow (chooseStream s)) then
        evaluateFlow (chooseStream (preempt (evaluateFlow (chooseStream s))))
      else evaluateFlow (chooseStream s) := by
  unfold settle
  rw [preempt_of_not h]

namespace Reopened

variable {n : Nat} {c x : State}

/-- The end of an event after the close. -/
theorem settle (h : Reopened n c x) (keeps : ¬ Preempts x) :
    Reopened n c (settle x) ∧ FlowSound (settle x) ∧ ¬ Preempts (settle x) := by
  have once : ∀ {u : State}, Reopened n c u → ¬ Preempts u →
      Reopened n c (Machine.evaluateFlow (Machine.chooseStream u)) ∧ FlowSound (Machine.evaluateFlow (Machine.chooseStream u)) ∧
        ¬ Preempts (Machine.evaluateFlow (Machine.chooseStream u)) := fun h keeps =>
    ⟨h.chooseStream.evaluateFlow, evaluateFlow_flowSound _,
      not_preempts_evaluateFlow h.chooseStream.phase (not_preempts_chooseStream keeps)⟩
  have first := once h keeps
  rw [settle_unpreempted keeps]
  split
  · rw [preempt_of_not first.2.2]
    exact once first.1 first.2.2
  · exact first

/-- What the close and the choice leave is what the Monitor's notice goes on from. -/
theorem toOver (h : Reopened n c x) (sound : FlowSound x) (keeps : ¬ Preempts x) : Over n c x :=
  ⟨h.store, h.exhausted, h.frontier, h.list, h.phase, sound, keeps, h.number.imp_right fun next => next.2.1, h.seeks⟩

end Reopened

/-! ### The close (R65) -/

section
variable {s : State} (close : Close)

/-- The close of the record leaves no SEEK of the stream in the queue, and queues its CEASE or none. -/
theorem closeRecord_link (s : State) : (∀ b, TxMsg.seek s.planner.stream.number b ∉ (closeRecord close s).link.queue) ∧
    (close.ceases = true → (closeRecord close s).link.Carries (.cease s.planner.stream.number)) ∧
    (close.ceases = false → ∀ k, (closeRecord close s).link.Carries (.cease k) ↔ s.link.Carries (.cease k)) := by
  have withdrawn : ∀ b, TxMsg.seek s.planner.stream.number b ∉
      s.link.queue.filter (fun m => !m.isSeekOf s.planner.stream.number) := fun b waits => by
    have other := (List.mem_filter.mp waits).2
    simp [TxMsg.isSeekOf] at other
  unfold closeRecord
  cases close.ceases with
  | true =>
    exact ⟨Over.seeks_request (l := { s.link with queue := s.link.queue.filter (fun m => !m.isSeekOf s.planner.stream.number) })
      withdrawn nofun, fun _ => Link.request_carries _ nofun, nofun⟩
  | false =>
    exact ⟨withdrawn, nofun, fun _ k => or_congr (List.mem_filter.trans (and_iff_left rfl)) Iff.rfl⟩

variable (opened : s.planner.stream.state ≠ .none)

include opened

/-- A close is the close of the record, with the exhaustion check where it makes one. -/
theorem closeStream_declaredOnly : DeclaredOnly (closeRecord close s) (closeStream close s) := by
  rw [closeStream_open close opened]
  split
  · exact exhaust_declaredOnly _ _
  · exact .refl _

theorem closeStream_link : (closeStream close s).link = (closeRecord close s).link := (closeStream_declaredOnly close opened).link

theorem closeStream_number : (closeStream close s).planner.stream.number = s.planner.stream.number := by
  rw [(closeStream_declaredOnly close opened).number, (closeRecord_fields close s).2.2.1]

/-- After a close there is no stream, and none of the closed one's messages but its CEASE. -/
theorem closeStream_reopened :
    Reopened s.planner.stream.number (closeStream close s) (closeStream close s) :=
  ⟨rfl, rfl, rfl, rfl, rfl, closeStream_cleared close s fun none => absurd none opened,
    .inl ⟨closeStream_state close s, closeStream_number close opened⟩, rfl,
    fun b => by rw [closeStream_link close opened]; exact (closeRecord_link close s).1 b, fun _ => Iff.rfl⟩

end

/-! ### What no stream has landed in (R57, R65) -/

/-- The parts that say that no stream has landed: the alignment is cleared, and the record agrees with it. -/
def unlandedParts : Parts := ⟨False, False, False, True, True⟩

theorem closeStream_unlanded {s : State} (close : Close) (opened : s.planner.stream.state ≠ .none) :
    Holds unlandedParts (closeStream close s) :=
  have cleared := closeStream_cleared close s fun none => absurd none opened
  ⟨False.elim, False.elim, False.elim, fun _ => alignSound_closed (closeStream_state close s) cleared, fun _ => cleared⟩

theorem Holds.nothingLanded {t : State} (h : Holds unlandedParts t) (timer : t.planner.stream.timerRuns = false) :
    Claims.NothingLanded t :=
  ⟨timer, h.cleared trivial, (h.align trivial).1.mp (h.cleared trivial)⟩

/-! ### The Monitor's penalty after the close (R52, R76, R81) -/

/-- A CEASE waits through a penalty that the planner is told nothing new by. -/
theorem addSkip_carries {x : State} {amount : Nat} {m : TxMsg} (settled : Settled x) (sound : FlowSound x) (keeps : ¬ Preempts x)
    (active : x.planner.active = plannerMayRead x) (shut : plannerMayRead x = false → x.planner.stream.state = .none)
    (awake : (addSkip amount x).health.state = .withdrawn → x.health.state = .withdrawn) (other : m.cls ≠ .pace)
    (sent : x.link.Carries m) : (addSkip amount x).link.Carries m := by
  by_cases withdrawn : x.health.state = .withdrawn
  · unfold addSkip
    rwa [if_pos withdrawn]
  · have low : healthOf (satAdd 511 x.health.skip amount) ≠ .withdrawn := fun high =>
      withdrawn (awake ((addSkip_scores withdrawn amount).2.2.trans high))
    rw [addSkip_awake withdrawn]
    obtain ⟨y, l, a, made, carry⟩ := rederiveHealth_atRest
      (s := x.setHealth { x.health with skip := satAdd 511 x.health.skip amount }) low fun h still => by
        have may : plannerMayRead ((x.setHealth { x.health with skip := satAdd 511 x.health.skip amount }).setHealth h) =
            plannerMayRead x := plannerMayRead_awake rfl withdrawn still
        have same : Settled ((x.setHealth { x.health with skip := satAdd 511 x.health.skip amount }).setHealth h) :=
          settled.congr rfl rfl rfl rfl
        exact ⟨sound.congr rfl rfl rfl, keeps, same.chooses, active.trans may.symm, fun no => shut (may.symm.trans no)⟩
    rw [made]
    exact carry m other sent

namespace Over

variable {n : Nat} {c x : State}

/-- A notice to the planner after the close queues no CEASE of the closed stream: what it closes bears the next number (R51, R52). -/
theorem plannerNotice_ceases (h : Over n c x) (again : (Machine.plannerNotice false x).link.Carries (.cease n)) :
    x.link.Carries (.cease n) := by
  have told := h.setActive (plannerMayRead x)
  unfold Machine.plannerNotice at again
  dsimp only at again
  split at again
  · rw [settle_chooses told.sound told.keeps, chooseStream_ceases] at again
    exact again
  · by_cases opened : x.planner.stream.state = .none
    · rw [closeStream_none (s := x.setPlanner { x.planner with active := plannerMayRead x }) opened,
        settle_chooses told.sound told.keeps, chooseStream_ceases] at again
      exact again
    · have next : x.planner.stream.number = nextNumber n := h.number.resolve_left fun both => opened both.1
      have closed := told.deactivate opened
      rw [closeStream_ceasing (s := x.setPlanner { x.planner with active := plannerMayRead x }) opened rfl, if_neg nofun,
        settle_chooses closed.sound closed.keeps, chooseStream_ceases] at again
      rcases (Link.kick_carries_iff _ _).mp again with waits | sent
      · rcases List.mem_cons.mp waits with same | kept
        · exact absurd (next.symm.trans (TxMsg.cease.inj same).symm) (nextNumber_ne n)
        · exact .inl (List.mem_filter.mp (List.mem_filter.mp kept).1).1
      · exact .inr sent

theorem addSkip_ceases (h : Over n c x) {amount : Nat} (again : (Machine.addSkip amount x).link.Carries (.cease n)) :
    x.link.Carries (.cease n) := by
  have paced : ∀ (level : Pace) (u : State), (Machine.requestPace level u).link.Carries (.cease n) → u.link.Carries (.cease n) := by
    intro level u carried
    unfold Machine.requestPace at carried
    split at carried
    · exact carried
    · exact (Link.request_ceases u.link (by exact nofun) n).mp carried
  have derived : ∀ {u : State}, Over n c u → u.link = x.link → (Machine.rederiveHealth u).link.Carries (.cease n) →
      x.link.Carries (.cease n) := by
    intro u left link carried
    by_cases same : u.health.state = .withdrawn ∨ u.health.state = healthOf u.health.skip
    · rw [rederiveHealth_same same] at carried
      exact link ▸ carried
    · rw [rederiveHealth_changed same] at carried
      have told := (left.setHealth (u.health.enter (healthOf u.health.skip))).plannerNotice_ceases (paced _ _ carried)
      exact link ▸ told
  unfold Machine.addSkip at again
  split at again
  · exact again
  · exact derived (h.setHealth { x.health with skip := satAdd 511 x.health.skip amount }) rfl again

end Over

/-- A penalty leaves the store (R76). -/
theorem addSkip_store (amount : Nat) (s : State) : (addSkip amount s).store = s.store := by
  have paced : ∀ (level : Pace) (u : State), (requestPace level u).store = u.store := by
    intro level u
    unfold requestPace
    split <;> rfl
  have derived : ∀ u : State, (rederiveHealth u).store = u.store := by
    intro u
    by_cases same : u.health.state = .withdrawn ∨ u.health.state = healthOf u.health.skip
    · rw [rederiveHealth_same same]
    · rw [rederiveHealth_changed same]
      exact (paced _ _).trans (plannerNotice_store _ _)
  unfold addSkip
  split
  · rfl
  · exact derived _

end Sys2Proof.Machine
end

