-- ==== Sys2Proof/Proofs/StreamClosed.lean ====
section
/-!
SUPPORT. A close of the current stream from outside it: the exhaustion check, the choice, the Monitor's penalty and the notices of
readiness (R16, R54, R65, R66, R76). Then SEEK_TIMEOUT and JUMP (R57, R63, R84).
-/
namespace Sys2Proof.Machine

/-- What follows a close of the stream: the end of the event, then the Monitor's penalty (R54, R76). -/
def penalty (amount : Nat) (c : State) : State := addSkip amount (settle c)

/-- A state with the Monitor's record it has. -/
theorem State.setHealth_health (s : State) : s.setHealth s.health = s := rfl

section
variable (amount : Nat) (c : State)

theorem addSkip_erasure : (addSkip amount c).health.erasure = c.health.erasure := by
  by_cases withdrawn : c.health.state = .withdrawn
  · exact congrArg (fun x : State => x.health.erasure) (if_pos withdrawn)
  · exact (addSkip_scores withdrawn amount).2.1

theorem penalty_outer : (penalty amount c).feeder = c.feeder ∧ (penalty amount c).play = c.play := by
  obtain ⟨feeder, play⟩ := addSkip_outer amount (settle c)
  exact ⟨feeder.trans (settle_feeder c), play.trans (settle_play c)⟩

theorem penalty_store : (penalty amount c).store = c.store := (addSkip_store amount _).trans (settle_store c)

theorem penalty_erasure : (penalty amount c).health.erasure = c.health.erasure :=
  (addSkip_erasure amount _).trans (congrArg Health.erasure (settle_health c))

theorem penalty_beside : Beside c (penalty amount c) :=
  (Beside.ofRest ((KeepsRest.moves c).settle (.refl c))).addSkip amount

theorem penalty_aside : Aside True True False c (penalty amount c) := ((Aside.refl _ _ _ _).settle).addSkip amount

end

namespace Reopened

variable {n : Nat} {c : State} (closed : Reopened n c c) (none : c.planner.stream.state = .none) (amount : Nat)

include closed none

/-- The end of the event opens at most the next stream. -/
theorem ended : Reopened n c (Machine.settle c) ∧ Over n c (Machine.settle c) := by
  obtain ⟨opened, sound, keeps⟩ := closed.settle (not_preempts_none none)
  exact ⟨opened, opened.toOver sound keeps⟩

theorem penalty_over : Over n c (penalty amount c) := by
  obtain ⟨opened, left⟩ := closed.ended none
  exact left.addSkip opened.fresh amount

/-- The penalty brings about no CEASE of the closed stream. -/
theorem penalty_ceases (again : (penalty amount c).link.Carries (.cease n)) : c.link.Carries (.cease n) := by
  obtain ⟨opened, left⟩ := closed.ended none
  exact (opened.ceases n).mp (left.addSkip_ceases again)

/-- The CEASE of the closed stream waits on where the planner is told nothing new by the penalty (R52, R81). -/
theorem penalty_carries (sent : c.link.Carries (.cease n)) (active : c.planner.active = plannerMayRead c)
    (awake : (penalty amount c).health.state = .withdrawn → c.health.state = .withdrawn) :
    (penalty amount c).link.Carries (.cease n) := by
  obtain ⟨opened, left⟩ := closed.ended none
  have reads : plannerMayRead (Machine.settle c) = plannerMayRead c := by
    unfold plannerMayRead
    rw [settle_play, settle_health]
  have told : (Machine.settle c).planner.active = plannerMayRead (Machine.settle c) :=
    opened.active.trans (active.trans reads.symm)
  refine addSkip_carries (settled_settle c) left.sound left.keeps told (fun no => ?_) ?_ (by exact nofun)
    ((opened.ceases n).mpr sent)
  · refine (opened.number.resolve_right fun next => ?_).1
    exact absurd (next.2.2.symm.trans (active.trans (reads.symm.trans no))) nofun
  · rw [settle_health]
    exact awake

end Reopened

end Sys2Proof.Machine

namespace Sys2Proof.Claims

open Sys2Proof.Machine

/-- From s to m only what a close does not go by has changed: the stream is to be closed in m as it would be in s. -/
structure Closing (s m : State) : Prop where
  store     : m.store = s.store
  console   : m.console = s.console
  feeder    : m.feeder = s.feeder
  play      : m.play = s.play
  state     : m.health.state = s.health.state
  skip      : m.health.skip = s.health.skip
  erasure   : m.health.erasure = s.health.erasure
  opened    : m.planner.stream.state ≠ .none
  number    : m.planner.stream.number = s.planner.stream.number
  active    : m.planner.active = s.planner.active
  exhausted : m.planner.counters.exhaustion = s.planner.counters.exhaustion
  served    : (m.planner.list.find? RepairEntry.active).map (fun e => (e.first, e.last, e.attempts)) =
    (s.planner.list.find? RepairEntry.active).map (fun e => (e.first, e.last, e.attempts))

/-- The skip score after a penalty (R76, R82). -/
theorem skipRaised_addSkip {s e t : State} {amount : Nat} (state : e.health.state = s.health.state)
    (skip : e.health.skip = s.health.skip) (raised : t.health.skip = (addSkip amount e).health.skip) : SkipRaised s t amount := by
  refine ⟨fun withdrawn => ?_, fun awake => ?_⟩
  · rw [raised, show addSkip amount e = e from if_pos (state.trans withdrawn), skip]
  · rw [raised, (addSkip_scores (fun w => awake (state.symm.trans w)) amount).1, skip]
    rfl

/-- The notices of readiness after a penalty leave the store, the planner and the link of a steady audio path (R124, R146). -/
theorem takeNotices_penalty {s c : State} {amount : Nat} {x : Health} (feeder : c.feeder = s.feeder) (play : c.play = s.play)
    (steady : Steady s) :
    (takeNotices ((penalty amount c).setHealth x)).store = (penalty amount c).store ∧
      (takeNotices ((penalty amount c).setHealth x)).planner = (penalty amount c).planner ∧
      (takeNotices ((penalty amount c).setHealth x)).link = (penalty amount c).link := by
  obtain ⟨feeder', play'⟩ := penalty_outer amount c
  exact takeNotices_steady (s := (penalty amount c).setHealth x)
    (fun starved => steady.1 ((congrArg Feeder.state (feeder'.trans feeder)).symm.trans starved))
    (fun cueing => steady.2 ((congrArg Play.state (play'.trans play)).symm.trans cueing))

/-- No stream has landed at the end of the step, whatever the notices of readiness bring about (R57, R65). -/
theorem nothingLanded_penalty {c : State} {amount : Nat} {x : Health} (unlanded : Holds unlandedParts c)
    (timer : c.planner.stream.timerRuns = false) (state : x.state = (penalty amount c).health.state) :
    NothingLanded (takeNotices ((penalty amount c).setHealth x)) := by
  have beside : Beside c (takeNotices ((penalty amount c).setHealth x)) :=
    ((penalty_beside amount c).setHealth x).trans (.ofRest (.takeNotices _))
  have ended : Holds unlandedParts (settle c) := Holds.settle (f := False) unlanded
  exact ((ended.addSkip amount).setHealth x state).takeNotices.nothingLanded (beside.planner.timer timer)

namespace Closing

variable {s m : State} {close : Close}

section
variable (h : Closing s m)

include h

theorem closed : Reopened s.planner.stream.number (closeStream close m) (closeStream close m) := by
  have closed := closeStream_reopened close h.opened
  rwa [h.number] at closed

theorem kept : (closeStream close m).health = m.health ∧ (closeStream close m).feeder = s.feeder ∧
    (closeStream close m).play = s.play ∧ (closeStream close m).planner.active = s.planner.active := by
  have kept := (KeepsOuter.moves m).closeStream close (.refl m)
  exact ⟨kept.health, kept.feeder.trans h.feeder, kept.play.trans h.play,
    (Prod.mk.inj (closeStream_stays close m).reading).1.trans h.active⟩

/-- The check of the entry the stream of s served (R66). -/
theorem exhaustionChecked (checks : close.checksExhaustion = true) {t : State} (store : t.store = (closeStream close m).store)
    (exhausted : t.planner.counters.exhaustion = (closeStream close m).planner.counters.exhaustion) : ExhaustionChecked s t := by
  have closed : closeStream close m = exhaust (s.planner.list.find? RepairEntry.active) (closeRecord close m) := by
    rw [closeStream_open close h.opened, if_pos checks, exhaust_congr h.served]
  have outer : KeepsOuter m (closeRecord close m) := by
    have M := KeepsOuter.moves m
    have cleared := M.clearPhase (M.withdrawSeek m.planner.stream.number
      (M.setStream { m.planner.stream with state := .none, timerRuns := false } (fun _ => rfl) (.refl m)))
    unfold closeRecord
    dsimp only
    split
    · exact M.setList _ (M.txRequest _ ⟨nofun, nofun⟩ cleared)
    · exact M.setList _ cleared
  have limit : effectiveRetry (closeRecord close m) = effectiveRetry s :=
    effectiveRetry_congr (by unfold Health.rough; rw [outer.health, h.erasure]) (by rw [outer.console, h.console])
  obtain ⟨held, -, planner, -⟩ := closeRecord_fields close m
  have counted : (closeRecord close m).planner.counters.exhaustion = s.planner.counters.exhaustion := by
    rw [planner]
    exact h.exhausted
  refine ⟨fun below => ?_, fun e found reached wf => ?_⟩
  · rw [store, exhausted, closed, exhaust_below fun e found => limit.symm ▸ below e found]
    exact ⟨held.trans h.store, counted⟩
  · have same : (closeRecord close m).store = s.store := held.trans h.store
    have checked := exhaust_reached (s := closeRecord close m) (e := e) (limit.symm ▸ reached) (same.symm ▸ wf)
    rw [store, exhausted, closed, found, ← counted, ← same]
    exact checked

/-- The stream is over, and the store and the counter are those the check left (R51, R65, R66). -/
theorem streamOver (checks : close.checksExhaustion = true) {c x t : State} (left : Over s.planner.stream.number c x)
    (held : c.store = (closeStream close m).store)
    (counted : c.planner.counters.exhaustion = (closeStream close m).planner.counters.exhaustion)
    (still : t.store = x.store ∧ t.planner = x.planner ∧ t.link = x.link) : StreamOver s t ∧ ExhaustionChecked s t := by
  obtain ⟨store, planner, link⟩ := still
  refine ⟨⟨?_, ?_⟩, h.exhaustionChecked checks (store.trans (left.store.trans held)) ?_⟩
  · rw [planner]
    exact left.number.imp_left And.left
  · rw [link]
    exact left.seeks
  · rw [planner]
    exact left.exhausted.trans counted

/-- A close with CEASE and a penalty, up to the end of the step. -/
theorem penalized (ceases : close.ceases = true) (checks : close.checksExhaustion = true) {amount : Nat} {x : Health}
    (state : x.state = (penalty amount (closeStream close m)).health.state)
    (skip : x.skip = (penalty amount (closeStream close m)).health.skip)
    (erasure : x.erasure = (penalty amount (closeStream close m)).health.erasure) {t : State}
    (taken : t = takeNotices ((penalty amount (closeStream close m)).setHealth x)) :
    ClosedWithCease s t ∧ SkipRaised s t amount ∧ t.health.erasure = s.health.erasure ∧ Beside m t := by
  subst taken
  obtain ⟨health, feeder, play, active⟩ := h.kept (close := close)
  have closed := h.closed (close := close)
  have none := closeStream_state close m
  have sent : (closeStream close m).link.Carries (.cease s.planner.stream.number) := by
    rw [closeStream_link close h.opened, ← h.number]
    exact (closeRecord_link close m).2.1 ceases
  have rest := KeepsRest.takeNotices ((penalty amount (closeStream close m)).setHealth x)
  have aside : Aside True True False (closeStream close m) (takeNotices ((penalty amount (closeStream close m)).setHealth x)) :=
    ((penalty_aside amount _).setHealth x).takeNotices
  have beside : Beside (closeStream close m) (takeNotices ((penalty amount (closeStream close m)).setHealth x)) :=
    ((penalty_beside amount _).setHealth x).trans (.ofRest rest)
  have withdrawn : (takeNotices ((penalty amount (closeStream close m)).setHealth x)).health.state =
      (penalty amount (closeStream close m)).health.state := by
    rw [rest.health]
    exact state
  have landless := nothingLanded_penalty (closeStream_unlanded close h.opened) (closeStream_timer h.opened) state
  refine ⟨⟨landless, ⟨aside.ceases _ sent, ?_⟩, fun steady => ?_⟩,
    skipRaised_addSkip (e := settle (closeStream close m)) ?_ ?_ ?_, ?_,
    (Beside.ofRest ((KeepsRest.moves m).closeStream close (.refl m))).trans beside⟩
  · intro steady told still
    rw [(takeNotices_penalty feeder play steady).2.2]
    refine closed.penalty_carries none amount sent ?_ fun low => ?_
    · rw [active, told]
      unfold plannerMayRead
      rw [play, health, h.state]
    · rw [health, h.state]
      exact still (withdrawn.trans low)
  · exact h.streamOver checks (closed.penalty_over none amount) rfl rfl (takeNotices_penalty feeder play steady)
  · rw [settle_health, health, h.state]
  · rw [settle_health, health, h.skip]
  · rw [rest.health]
    exact skip
  · rw [rest.health]
    exact erasure.trans ((penalty_erasure amount _).trans (by rw [health, h.erasure]))

end

end Closing

/-! ### SEEK_TIMEOUT (R57) -/

/-- The state in which the stream is closed whose SEEK has timed out. -/
def timingOut (s : State) : State :=
  countPlanner (fun c => { c with seekTimeout := bump c.seekTimeout }) (advanceSeekTimer (s.setNotices []))

theorem completes_seekTimeout {s : State} (runs : s.planner.stream.timerRuns = true)
    (reached : s.console.params.seekTimeout ≤ min 1023 (s.planner.stream.timer + 1)) (seeking : s.planner.stream.state = .seeking) :
    Completes .seekTimeout s (fun t =>
      t.planner.counters.seekTimeout = bump s.planner.counters.seekTimeout ∧ ClosedWithCease s t ∧ SkipRaised s t 8 ∧
      t.health.erasure = s.health.erasure ∧ t.resume = s.resume ∧ OnlyRaised [.health, .repairOverflow] s t ∧
      SensesStay s t) := by
  have due : seekTimeoutDue (s.setNotices []) = true := seekTimeoutDue_iff.mpr ⟨runs, reached⟩
  have closing : Closing s (timingOut s) :=
    ⟨rfl, rfl, rfl, rfl, rfl, rfl, rfl, fun none => absurd (seeking.symm.trans none) nofun, rfl, rfl, rfl, rfl⟩
  have times : (if seekTimeoutDue (s.setNotices []) then timeOutSeek (s.setNotices []) else s.setNotices []) =
      penalty 8 (closeStream .seekTimeout (timingOut s)) := if_pos due
  refine ⟨_, rfl, ?_⟩
  dsimp only
  rw [times, ← State.setHealth_health (penalty 8 _)]
  generalize taken : takeNotices _ = t
  obtain ⟨closed, raised, erasure, beside⟩ := closing.penalized (close := .seekTimeout) rfl rfl rfl rfl rfl taken.symm
  have only := onlyRaised_beside beside
  have senses := sensesStay_beside beside
  exact ⟨congrArg PlannerCounters.seekTimeout beside.planner.answers, closed, raised, erasure, beside.resume, only, senses⟩

/-! ### JUMP (R63, R84) -/

section
variable {noise : Nat} {n : BitVec 4} {lastGood landing : BitVec 24} {monitorFirst : Bool} {s : State}

/-- The state in which the stream is closed that the drive has lost. -/
def jumping (s : State) : State := countPlanner (fun c => { c with jump := bump c.jump }) s

theorem completes_jump (ready : LinkReady s) (named : n.toNat ≠ 0) (same : n.toNat = s.planner.stream.number)
    (landed : s.planner.stream.state = .searching ∨ s.planner.stream.state = .anchored) :
    Completes (.jump noise n lastGood landing monitorFirst) s (fun t =>
      t.planner.counters.jump = bump s.planner.counters.jump ∧ ClosedWithCease s t ∧ SkipRaised s t 8 ∧
      t.health.erasure = s.health.erasure ∧ t.resume = s.resume ∧ OnlyRaised [.health, .repairOverflow] s t ∧
      SensesStay s t) := by
  refine completes_message ready (noise := noise) (monitorFirst := monitorFirst)
    (m := .jump n.toNat lastGood.toNat landing.toNat) rfl rfl fun l _ => ?_
  have opened : s.planner.stream.state ≠ .none := fun none => by
    rw [none] at landed
    exact landed.elim nofun nofun
  have closes : ∀ x, takeJump n.toNat ((taking s l).setHealth x) =
      penalty 8 (closeStream .broken (jumping ((taking s l).setHealth x))) := fun x =>
    if_pos (jumpIsCurrent_iff.mpr ⟨named, same, landed⟩)
  have outcome : ∀ {x y : Health} {t : State}, x.state = s.health.state → x.skip = s.health.skip → x.erasure = s.health.erasure →
      y.state = (penalty 8 (closeStream .broken (jumping ((taking s l).setHealth x)))).health.state →
      y.skip = (penalty 8 (closeStream .broken (jumping ((taking s l).setHealth x)))).health.skip →
      y.erasure = (penalty 8 (closeStream .broken (jumping ((taking s l).setHealth x)))).health.erasure →
      takeNotices ((penalty 8 (closeStream .broken (jumping ((taking s l).setHealth x)))).setHealth y) = t →
      t.planner.counters.jump = bump s.planner.counters.jump ∧ ClosedWithCease s t ∧ SkipRaised s t 8 ∧
        t.health.erasure = s.health.erasure ∧ t.resume = s.resume ∧ OnlyRaised [.health, .repairOverflow] s t ∧
        SensesStay s t := by
    intro x y t state skip erasure state' skip' erasure' taken
    have closing : Closing s (jumping ((taking s l).setHealth x)) :=
      ⟨rfl, rfl, rfl, rfl, state, skip, erasure, opened, rfl, rfl, rfl, rfl⟩
    obtain ⟨closed, raised, erased, beside⟩ := closing.penalized (close := .broken) rfl rfl state' skip' erasure' taken.symm
    have only := onlyRaised_beside beside
    have senses := sensesStay_beside beside
    exact ⟨congrArg PlannerCounters.jump beside.planner.answers, closed, raised, erased, beside.resume, only, senses⟩
  cases monitorFirst with
  | true =>
    obtain ⟨x, watched, state, skip, erasure⟩ := monitorJump_health (taking s l)
    have handed : dispatch true (.jump n.toNat lastGood.toNat landing.toNat) (taking s l) =
        penalty 8 (closeStream .broken (jumping ((taking s l).setHealth x))) := by
      show takeJump n.toNat (monitorJump (taking s l)) = _
      rw [watched, closes x]
    rw [handed, ← State.setHealth_health (penalty 8 _)]
    generalize taken : takeNotices _ = t
    exact outcome (t := t) state skip erasure rfl rfl rfl taken
  | false =>
    obtain ⟨y, watched, state, skip, erasure⟩ :=
      monitorJump_health (penalty 8 (closeStream .broken (jumping ((taking s l).setHealth s.health))))
    have handed : dispatch false (.jump n.toNat lastGood.toNat landing.toNat) (taking s l) =
        (penalty 8 (closeStream .broken (jumping ((taking s l).setHealth s.health)))).setHealth y := by
      show monitorJump (takeJump n.toNat ((taking s l).setHealth s.health)) = _
      rw [closes s.health, watched]
    rw [handed]
    generalize taken : takeNotices _ = t
    exact outcome (t := t) rfl rfl rfl state skip erasure taken

/-- The planner's answer to a JUMP while WITHDRAWN leaves the Monitor (R82). -/
theorem takeJump_beside {u : State} (n : Nat) (withdrawn : u.health.state = .withdrawn) :
    (takeJump n u).health = u.health ∧ (takeJump n u).sense = u.sense ∧ (takeJump n u).supply = u.supply ∧
      (takeJump n u).console = u.console ∧ (takeJump n u).pending = u.pending := by
  unfold takeJump
  split
  · have kept := (KeepsOuter.moves (jumping u)).settle ((KeepsOuter.moves (jumping u)).closeStream .broken (.refl _))
    have frozen : penalty 8 (closeStream .broken (jumping u)) = settle (closeStream .broken (jumping u)) :=
      if_pos ((congrArg Health.state kept.health).trans withdrawn)
    rw [show breakStream (countPlanner (fun c => { c with jump := bump c.jump }) u) =
      penalty 8 (closeStream .broken (jumping u)) from rfl, frozen]
    exact ⟨kept.health, kept.sense, kept.supply, kept.console, kept.pending⟩
  · exact ⟨rfl, rfl, rfl, rfl, rfl⟩

theorem completes_jump_withdrawn (ready : LinkReady s) (withdrawn : Withdrawn s) :
    Completes (.jump noise n lastGood landing monitorFirst) s (fun t =>
      t.health =
        { s.health with
          quiet := 0, disturbed := true
          counters := { s.health.counters with quietBreak := bump s.health.counters.quietBreak } } ∧
      SensesStay s t) := by
  refine completes_message ready (noise := noise) (monitorFirst := monitorFirst)
    (m := .jump n.toNat lastGood.toNat landing.toNat) rfl rfl fun l _ => ?_
  have broken : ∀ {u : State}, u.health.state = .withdrawn → monitorJump u = breakQuiet u := fun low => if_pos low
  have rest := KeepsRest.takeNotices (dispatch monitorFirst (.jump n.toNat lastGood.toNat landing.toNat) (taking s l))
  suffices handed : ∀ u, u = dispatch monitorFirst (.jump n.toNat lastGood.toNat landing.toNat) (taking s l) →
      u.health = (breakQuiet s).health ∧ SensesStay s u by
    obtain ⟨health, sense, supply, console, pending⟩ := handed _ rfl
    exact ⟨rest.health.trans health, rest.sense.trans sense, rest.supply.trans supply, rest.console.trans console,
      rest.pending.trans pending⟩
  rintro u rfl
  cases monitorFirst with
  | true =>
    show (takeJump n.toNat (monitorJump (taking s l))).health = _ ∧ SensesStay s (takeJump n.toNat (monitorJump (taking s l)))
    rw [broken (u := taking s l) withdrawn]
    exact takeJump_beside (u := breakQuiet (taking s l)) n.toNat withdrawn
  | false =>
    show (monitorJump (takeJump n.toNat (taking s l))).health = _ ∧ SensesStay s (monitorJump (takeJump n.toNat (taking s l)))
    obtain ⟨health, senses⟩ := takeJump_beside (u := taking s l) n.toNat withdrawn
    rw [broken ((congrArg Health.state health).trans withdrawn)]
    refine ⟨?_, senses⟩
    unfold breakQuiet
    rw [State.health_setHealth, health]
    rfl

end

end Sys2Proof.Claims
end

