-- ==== Sys2Proof/Proofs/ExtentCut.lean ====
section
/-!
SUPPORT. A cut of the extent (R131, R156, R157): what it leaves, the event it raises, and the end of a disc whose end the cursor has
reached. The notices of readiness keep the disc's record and the extent (R16).
-/
namespace Sys2Proof.Machine

/-! ### The disc's record and the extent through the notices of readiness -/

/-- The disc's record and the extent the store goes by. -/
def State.discExtent (s : State) : DiscRecord × Nat := (s.play.disc, s.store.extent)

theorem declareEntry_discExtent (s : State) : (declareEntry s).discExtent = s.discExtent :=
  Prod.ext (congrArg Play.disc (declareEntry_play s))
    ((storeEvent_extent s fun t => t.declareIfOpen s.feeder.block).trans (Store.declareIfOpen_leads s.store s.feeder.block).extent)

theorem enterState_discExtent (x : PlayState) (b : Bool) (s : State) : (enterState x b s).discExtent = s.discExtent :=
  Prod.ext ((congrArg Play.disc (enterState_play s x b)).trans rfl) (congrArg Store.extent (enterState_store s x b))

theorem playRequest_discExtent (s : State) : (playRequest s).discExtent = s.discExtent := by
  unfold playRequest
  split
  · exact declareEntry_discExtent _
  · rfl
  · split
    · exact declareEntry_discExtent _
    · rfl
  · rfl
  · rfl

theorem feederPrimed_discExtent (p : Bool) (s : State) : (feederPrimed p s).discExtent = s.discExtent := by
  unfold feederPrimed
  dsimp only
  split
  · exact declareEntry_discExtent _
  · rfl

theorem playPrimed_discExtent (p : Bool) (s : State) : (playPrimed p s).discExtent = s.discExtent := by
  have left : ∀ u : State, (leaveCueing u).discExtent = u.discExtent := by
    intro u
    unfold leaveCueing
    split
    · exact enterState_discExtent _ _ _
    · exact (playRequest_discExtent _).trans (enterState_discExtent _ _ _)
  unfold playPrimed
  dsimp only
  split
  · exact left _
  · rfl

theorem takeAll_discExtent (notices : List Bool) : ∀ s : State, (notices.foldl takeReadiness s).discExtent = s.discExtent := by
  induction notices with
  | nil => exact fun _ => rfl
  | cons p rest ih => exact fun s => (ih _).trans ((playPrimed_discExtent p _).trans (feederPrimed_discExtent p s))

theorem takeNotices_discExtent (s : State) : (takeNotices s).discExtent = s.discExtent :=
  (takeAll_discExtent _ _).trans (takeAll_discExtent _ _)

/-! ### What a cut leaves -/

/-- From a to t the extent may have been cut, and the disc ended: nothing changed beside the audio path and three events. -/
structure CutFrame (a t : State) : Prop where
  health  : t.health = a.health
  sense   : t.sense = a.sense
  supply  : t.supply = a.supply
  console : t.console = a.console
  pending : t.pending = a.pending
  planner : a.planner.Leads t.planner
  attn    : ∀ i, i ≠ Event.repairOverflow.index → i ≠ Event.discReady.index → i ≠ Event.endOfDisc.index →
    t.attn.record i = a.attn.record i

namespace CutFrame

variable {a b s t : State}

theorem refl (a : State) : CutFrame a a := ⟨rfl, rfl, rfl, rfl, rfl, Planner.Leads.refl _, fun _ _ _ _ => rfl⟩

theorem trans (h : CutFrame a b) (k : CutFrame b t) : CutFrame a t :=
  ⟨k.health.trans h.health, k.sense.trans h.sense, k.supply.trans h.supply, k.console.trans h.console, k.pending.trans h.pending,
    h.planner.trans k.planner, fun i hi hj hk => (k.attn i hi hj hk).trans (h.attn i hi hj hk)⟩

theorem ofRest (h : KeepsRest a t) : CutFrame a t :=
  ⟨h.health, h.sense, h.supply, h.console, h.pending, h.planner, fun i hi _ _ => h.attn i hi⟩

theorem raiseReady (h : CutFrame a s) (r : ReadyReason) (p : Nat) : CutFrame a (raiseReady r p s) :=
  { h with attn := fun i hi hj hk => (Attn.record_raise_other _ _ _ i hj).trans (h.attn i hi hj hk) }

theorem raiseEnd (h : CutFrame a s) (p : Nat) : CutFrame a (raise .endOfDisc p s) :=
  { h with attn := fun i hi hj hk => (Attn.record_raise_other _ _ _ i hk).trans (h.attn i hi hj hk) }

end CutFrame

/-! ### The end notice (R156) -/

/-- The end of the disc is recorded, and the causes and marks are cleared. -/
def endRecorded (s : State) : State :=
  mapPlay (fun p => { p with causes := Causes.none, confirming := false, pauseOnPrime := false, unprimed := false })
    (invalidate s.play.disc.position (countPlay (fun c => { c with endOfDisc := bump c.endOfDisc })
      (raise .endOfDisc s.play.disc.position s)))

section
variable (s : State)

theorem endNotice_enters : endNotice s =
    if s.play.disc.confirmed then enterState .ready false (endRecorded s) else enterState .empty false (clearDisc (endRecorded s)) := rfl

theorem endNotice_rest : KeepsRest (endRecorded s) (endNotice s) := by
  have M := KeepsRest.moves (endRecorded s)
  rw [endNotice_enters]
  split
  · exact M.enterState _ _ (.refl _)
  · exact M.enterState _ _ (M.clearDisc (.refl _))

theorem endNotice_frame : CutFrame s (endNotice s) := by
  have recorded : CutFrame s (endRecorded s) := { (CutFrame.refl s).raiseEnd s.play.disc.position with }
  exact recorded.trans (.ofRest (endNotice_rest s))

theorem endNotice_state : (endNotice s).play.state = if s.play.disc.confirmed then .ready else .empty := by
  rw [endNotice_enters]
  split <;> rw [enterState_play] <;> rfl

theorem endNotice_discExtent (confirmed : s.play.disc.confirmed = true) : (endNotice s).discExtent = s.discExtent := by
  rw [endNotice_enters, if_pos confirmed]
  exact enterState_discExtent _ _ _

theorem endNotice_silent (silent : s.feeder.state = .silent) : (endNotice s).feeder.state = .silent := by
  rw [endNotice_enters]
  split
  · rw [enterState_feeder]
    exact silent
  · rw [enterState_feeder, clearDisc_feeder]
    unfold Feeder.cue
    dsimp only
    rw [if_pos (show (endRecorded s).feeder.state = .silent from silent)]
    exact silent

end

/-! ### The feeder takes the new extent (R131) -/

theorem atDiscEnd_iff {s : State} :
    atDiscEnd s = true ↔ 0 < s.play.disc.extent ∧ s.play.disc.extent * 588 ≤ playPosition s := by
  unfold atDiscEnd
  rw [Bool.and_eq_true, decide_eq_true_iff, decide_eq_true_iff]

theorem Feeder.endDisc_state (f : Feeder) : f.endDisc.state = .silent := by
  unfold Feeder.endDisc
  split
  · assumption
  · rfl

section
variable {s : State}

/-- Without an arrival at the end the feeder changes its end indication at most. -/
theorem feederExtent_goesOn (h : ¬ (atDiscEnd s = true ∧ s.feeder.atEnd = false)) : ∃ f, feederExtent s = s.setFeeder f := by
  unfold feederExtent endOfDisc
  split
  · rename_i atEnd
    rw [if_pos (by simpa [atEnd] using h)]
    exact ⟨s.feeder, rfl⟩
  · split
    · exact ⟨_, rfl⟩
    · exact ⟨s.feeder, rfl⟩

/-- An arrival at the end gives the end notice. -/
theorem feederExtent_ends (atEnd : atDiscEnd s = true) (fresh : s.feeder.atEnd = false) :
    feederExtent s = endNotice (mapFeeder Feeder.endDisc s) := by
  unfold feederExtent endOfDisc
  rw [if_pos atEnd, fresh]
  rfl

theorem feederExtent_frame (s : State) : CutFrame s (feederExtent s) := by
  by_cases h : atDiscEnd s = true ∧ s.feeder.atEnd = false
  · rw [feederExtent_ends h.1 h.2]
    exact CutFrame.trans (b := mapFeeder Feeder.endDisc s) { CutFrame.refl s with } (endNotice_frame _)
  · obtain ⟨f, made⟩ := feederExtent_goesOn h
    rw [made]
    exact { CutFrame.refl s with }

end

end Sys2Proof.Machine

namespace Sys2Proof.Claims

open Sys2Proof.Machine

theorem raisedOnce_raise (e : Event) (d : Nat) (s : State) : RaisedOnce s (raise e d s) e d := by
  unfold RaisedOnce raise
  rw [State.attn_setAttn, Attn.record_raise]
  rfl

section
variable (s : State)

theorem endNotice_raises : RaisedOnce s (endNotice s) .endOfDisc s.play.disc.position :=
  ((endNotice_rest s).attn _ (by decide)).trans (raisedOnce_raise _ _ s)

theorem endNotice_resume : (endNotice s).resume = s.resume.write s.play.disc.position ResumeEntry.invalid := (endNotice_rest s).resume

end

/-! ### The cut (R157) -/

/-- The extent is cut at the Play Controller and the store, and DISC_READY raised; the feeder has not taken it yet. -/
def cutNoted (x : Nat) (s : State) : State :=
  let u := changeExtent x (mapPlay (fun p => { p with disc := { p.disc with extent := x } }) s)
  raiseReady .extentCut u.play.disc.position u

section
variable (x : Nat) (s : State)

theorem cutNoted_play : (cutNoted x s).play = { s.play with disc := { s.play.disc with extent := x } } :=
  changeExtent_play (mapPlay (fun p => { p with disc := { p.disc with extent := x } }) s) x

theorem cutNoted_feeder : (cutNoted x s).feeder = s.feeder :=
  changeExtent_feeder (mapPlay (fun p => { p with disc := { p.disc with extent := x } }) s) x

theorem cutNoted_discExtent : (cutNoted x s).discExtent = ({ s.play.disc with extent := x }, x) :=
  Prod.ext (congrArg Play.disc (cutNoted_play x s))
    (changeExtent_extent (mapPlay (fun p => { p with disc := { p.disc with extent := x } }) s) x)

theorem changed_rest : KeepsRest s (changeExtent x (mapPlay (fun p => { p with disc := { p.disc with extent := x } }) s)) :=
  (KeepsRest.moves s).changeExtent x ((KeepsRest.moves s).mapPlay _ rfl (.refl s))

theorem cutNoted_frame : CutFrame s (cutNoted x s) := (CutFrame.ofRest (changed_rest x s)).raiseReady _ _

theorem cutNoted_resume : (cutNoted x s).resume = s.resume := (changed_rest x s).resume

theorem cutNoted_raises : RaisedOnce s (cutNoted x s) .discReady (128 + s.play.disc.position) := by
  have raised := raisedOnce_raise .discReady (128 + s.play.disc.position)
    (changeExtent x (mapPlay (fun p => { p with disc := { p.disc with extent := x } }) s))
  have before := (changed_rest x s).attn Event.discReady.index (by decide)
  have play := changeExtent_play (mapPlay (fun p => { p with disc := { p.disc with extent := x } }) s) x
  unfold RaisedOnce at raised ⊢
  rw [before] at raised
  unfold cutNoted
  dsimp only
  rw [play]
  exact raised

theorem cutNoted_endOfDisc : (cutNoted x s).attn.record Event.endOfDisc.index = s.attn.record Event.endOfDisc.index :=
  (Attn.record_raise_other _ _ _ _ (by decide)).trans ((changed_rest x s).attn _ (by decide))

theorem cutNoted_atDiscEnd : atDiscEnd (cutNoted x s) = true ↔ 0 < x ∧ x * 588 ≤ playPosition s := by
  unfold playPosition
  rw [atDiscEnd_iff, cutNoted_play, playPosition, cutNoted_feeder]

end

section
variable {x : Nat} {s : State}

theorem cutExtent_beyond (beyond : s.play.disc.extent ≤ x) : cutExtent x s = s := if_neg (Nat.not_lt.mpr beyond)

theorem cutExtent_below (below : x < s.play.disc.extent) : cutExtent x s = feederExtent (cutNoted x s) := if_pos below

theorem cutExtent_frame (x : Nat) (s : State) : CutFrame s (cutExtent x s) := by
  rcases Nat.lt_or_ge x s.play.disc.extent with below | beyond
  · rw [cutExtent_below below]
    exact (cutNoted_frame x s).trans (feederExtent_frame _)
  · rw [cutExtent_beyond beyond]
    exact .refl s

section
variable (below : x < s.play.disc.extent)

include below

theorem cutExtent_raises : RaisedOnce s (cutExtent x s) .discReady (128 + s.play.disc.position) := by
  have noted := cutNoted_raises x s
  rw [cutExtent_below below]
  by_cases h : atDiscEnd (cutNoted x s) = true ∧ (cutNoted x s).feeder.atEnd = false
  · rw [feederExtent_ends h.1 h.2]
    refine ((endNotice_rest _).attn _ (by decide)).trans (Eq.trans ?_ noted)
    exact Attn.record_raise_other _ _ _ _ (by decide)
  · obtain ⟨f, made⟩ := feederExtent_goesOn h
    rw [made]
    exact noted

/-- The record and the store keep the new extent, but where the end of a disc that is not confirmed clears them (R156). -/
theorem cutExtent_discExtent
    (kept : s.play.disc.confirmed = true ∨ x = 0 ∨ playPosition s < x * 588 ∨ s.feeder.atEnd = true) :
    (cutExtent x s).discExtent = ({ s.play.disc with extent := x }, x) := by
  rw [cutExtent_below below, ← cutNoted_discExtent]
  by_cases h : atDiscEnd (cutNoted x s) = true ∧ (cutNoted x s).feeder.atEnd = false
  · obtain ⟨atEnd, fresh⟩ := h
    have confirmed : s.play.disc.confirmed = true := by
      rw [cutNoted_feeder] at fresh
      obtain ⟨above, reached⟩ := (cutNoted_atDiscEnd x s).mp atEnd
      rcases kept with confirmed | zero | before | past
      · exact confirmed
      · omega
      · omega
      · exact absurd (past.symm.trans fresh) nofun
    rw [feederExtent_ends atEnd fresh, endNotice_discExtent]
    · rfl
    · show (cutNoted x s).play.disc.confirmed = true
      rw [cutNoted_play]
      exact confirmed
  · obtain ⟨f, made⟩ := feederExtent_goesOn h
    rw [made]
    rfl

/-- A cut that the cursor has reached ends the disc (R131, R156, R157). -/
theorem cutExtent_ends (above : 0 < x) (reached : x * 588 ≤ playPosition s) (fresh : s.feeder.atEnd = false) :
    (cutExtent x s).play.state = (if s.play.disc.confirmed then .ready else .empty) ∧ (cutExtent x s).feeder.state = .silent ∧
      RaisedOnce s (cutExtent x s) .endOfDisc s.play.disc.position ∧
      (cutExtent x s).resume = s.resume.write s.play.disc.position ResumeEntry.invalid := by
  have atEnd := (cutNoted_atDiscEnd x s).mpr ⟨above, reached⟩
  rw [cutExtent_below below, feederExtent_ends atEnd (by rw [cutNoted_feeder]; exact fresh)]
  have raised := endNotice_raises (mapFeeder Feeder.endDisc (cutNoted x s))
  have resume := endNotice_resume (mapFeeder Feeder.endDisc (cutNoted x s))
  have play : (mapFeeder Feeder.endDisc (cutNoted x s)).play = { s.play with disc := { s.play.disc with extent := x } } :=
    cutNoted_play x s
  rw [play] at raised resume
  refine ⟨?_, endNotice_silent _ (Feeder.endDisc_state _), ?_, ?_⟩
  · rw [endNotice_state, play]
  · exact raised.trans (congrArg (fun r => oneMore r s.play.disc.position) (cutNoted_endOfDisc x s))
  · rw [resume]
    exact congrArg (fun r : Resume => r.write s.play.disc.position ResumeEntry.invalid) (cutNoted_resume x s)

end

end

end Sys2Proof.Claims
end

