-- ==== Sys2Proof/Proofs/StreamRefused.lean ====
section
/-!
SUPPORT. A REFUSED of the current stream: BUSY and RANGE (R59, R60, R67). Then the statement about the closes from outside the stream
(O10).
-/
namespace Sys2Proof.Machine

/-- Each event has a record of its own (R190). -/
theorem Event.index_injective {a b : Event} (same : a.index = b.index) : a = b := by
  have inverse : ∀ e : Event, Event.ofNat e.index.val = e := by
    intro e
    cases e <;> rfl
  rw [← inverse a, same, inverse b]

/-! ### The refusal count (R50, R59) -/

/-- Maintenance never raises the refusal count. -/
theorem absorb_refusals (old : Store) (s : State) : (absorb old s).planner.frontier.refusals ≤ s.planner.frontier.refusals := by
  show (if becameDone old s.store (s.planner.frontier.fillHead - 1) then 0 else s.planner.frontier.refusals) ≤ _
  split
  · exact Nat.zero_le _
  · exact Nat.le_refl _

theorem plannerDeclares_refusals (blocks : List Nat) : ∀ s : State,
    (plannerDeclares blocks s).planner.frontier.refusals ≤ s.planner.frontier.refusals := by
  induction blocks with
  | nil => exact fun _ => Nat.le_refl _
  | cons b rest ih =>
    intro s
    have first := absorb_refusals s.store (changeStore (fun t => t.declare b) s)
    rw [changeStore_planner] at first
    exact Nat.le_trans (ih (plannerDeclare s b)) first

/-- A close never raises the refusal count. -/
theorem closeStream_refusals (close : Close) (s : State) :
    (closeStream close s).planner.frontier.refusals ≤ s.planner.frontier.refusals := by
  have recorded : (closeRecord close s).planner.frontier = s.planner.frontier := by
    rw [(closeRecord_fields close s).2.2.1]
  have exhausted : ∀ served, (exhaust served (closeRecord close s)).planner.frontier.refusals ≤ s.planner.frontier.refusals := by
    intro served
    rw [← recorded]
    unfold exhaust
    split
    · exact Nat.le_refl _
    · split
      · exact plannerDeclares_refusals _ _
      · exact Nat.le_refl _
  by_cases none : s.planner.stream.state = .none
  · rw [closeStream_none none]
  · rw [closeStream_open close none]
    split
    · exact exhausted _
    · rw [recorded]

/-- Without an entry that the stream served, the close leaves the frontier record. -/
theorem closeStream_frontier {s : State} (close : Close) (opened : s.planner.stream.state ≠ .none)
    (unserved : s.planner.list.find? RepairEntry.active = none) : (closeStream close s).planner.frontier = s.planner.frontier := by
  rw [closeStream_open close opened, unserved]
  have recorded : (closeRecord close s).planner.frontier = s.planner.frontier := by
    rw [(closeRecord_fields close s).2.2.1]
  split <;> exact recorded

section
variable {s : State}

theorem refuseFrontier_below (below : satAdd 15 s.planner.frontier.refusals 1 < effectiveRetry s) :
    refuseFrontier s = setFrontier { s.planner.frontier with refusals := satAdd 15 s.planner.frontier.refusals 1 } s :=
  if_neg (Nat.not_le.mpr below)

/-- The last refusal is counted as a cut, and the count starts anew. -/
def cutCounted (s : State) : State :=
  countPlanner (fun c => { c with extentCut := bump c.extentCut }) (setFrontier { s.planner.frontier with refusals := 0 } s)

theorem refuseFrontier_last (last : effectiveRetry s ≤ satAdd 15 s.planner.frontier.refusals 1) :
    refuseFrontier s = cutExtent s.planner.frontier.fillHead (cutCounted s) := if_pos last

end

theorem Reopened.setFrontier {n : Nat} {c : State} (h : Reopened n c c) (f : Frontier) :
    Reopened n (setFrontier f c) (setFrontier f c) :=
  ⟨rfl, rfl, rfl, rfl, rfl, h.phase, h.number, rfl, h.seeks, fun _ => Iff.rfl⟩

/-! ### The two rows up to the choice -/

/-- The state in which BUSY closes the stream. -/
def busyCounted (s : State) : State := countPlanner (fun c => { c with refusedBusy := bump c.refusedBusy }) s

/-- The state after the close of BUSY. -/
def busyClosed (s : State) : State := closeStream .busy (busyCounted s)

/-- The state in which the choice follows a BUSY. -/
def busyLeft (s : State) : State :=
  match s.planner.stream.purpose with
  | .frontier => refuseFrontier (busyClosed s)
  | .repair => busyClosed s

theorem refuseBusy_penalty (s : State) : refuseBusy s = penalty 1 (busyLeft s) := by
  unfold refuseBusy busyLeft
  cases s.planner.stream.purpose <;> rfl

/-- The state in which RANGE closes the stream. -/
def rangeCounted (s : State) : State := countPlanner (fun c => { c with refusedRange := bump c.refusedRange }) s

/-- The state after the close of RANGE. -/
def rangeClosed (s : State) : State := closeStream .range (rangeCounted s)

theorem refuseRange_settles (s : State) : refuseRange s = settle (cutExtent s.planner.stream.start (rangeClosed s)) := rfl

theorem busyLeft_repair {s : State} (repair : s.planner.stream.purpose = .repair) : busyLeft s = busyClosed s := by
  unfold busyLeft
  rw [repair]

theorem busyLeft_frontier {s : State} (frontier : s.planner.stream.purpose = .frontier) :
    busyLeft s = refuseFrontier (busyClosed s) := by
  unfold busyLeft
  rw [frontier]

theorem closeStream_outer (close : Close) (s : State) : KeepsOuter s (closeStream close s) :=
  (KeepsOuter.moves s).closeStream close (.refl s)

theorem closeStream_retry (close : Close) (s : State) : effectiveRetry (closeStream close s) = effectiveRetry s :=
  have kept := closeStream_outer close s
  effectiveRetry_congr (congrArg Health.rough kept.health) (congrArg (fun c => c.params.retryLimit) kept.console)

/-- Notices that start no feeder and end no CUEING leave the states of the feeder and of the Play Controller. -/
theorem takeNotices_states {s : State} (hf : s.feeder.state ≠ .starved) (hp : s.play.state ≠ .cueing) :
    (takeNotices s).feeder.state = s.feeder.state ∧ (takeNotices s).play.state = s.play.state := by
  rw [takeNotices_still hf hp]
  exact ⟨rfl, rfl⟩

end Sys2Proof.Machine

namespace Sys2Proof.Claims

open Sys2Proof.Machine

/-! ### BUSY (R59, R67) -/

/-- What a BUSY changes before the choice: the counter, what the close changes, and what a cut changes. -/
theorem busyLeft_frame (u : State) : ∃ p, CutFrame ((busyClosed u).setPlanner p) (busyLeft u) ∧
    p.stream = (busyClosed u).planner.stream ∧ p.counters.refusedBusy = bump u.planner.counters.refusedBusy := by
  have counted : (busyClosed u).planner.counters.refusedBusy = bump u.planner.counters.refusedBusy :=
    congrArg PlannerCounters.refusedBusy (closeStream_outer .busy _).planner.answers
  cases purpose : u.planner.stream.purpose with
  | repair =>
    rw [busyLeft_repair purpose]
    exact ⟨_, .refl _, rfl, counted⟩
  | frontier =>
    rw [busyLeft_frontier purpose]
    rcases Nat.lt_or_ge (satAdd 15 (busyClosed u).planner.frontier.refusals 1) (effectiveRetry (busyClosed u)) with below | last
    · rw [refuseFrontier_below below]
      exact ⟨_, .refl _, rfl, counted⟩
    · rw [refuseFrontier_last last]
      exact ⟨(cutCounted (busyClosed u)).planner, cutExtent_frame _ _, rfl, counted⟩

section
variable {s : State} {l : Link}

/-- The frame of a whole BUSY. -/
theorem busy_frame (opened : s.planner.stream.state ≠ .none) {t : State} (taken : takeNotices (penalty 1 (busyLeft (taking s l))) = t) :
    t.planner.counters.refusedBusy = bump s.planner.counters.refusedBusy ∧ NothingLanded t ∧ SkipRaised s t 1 ∧
      t.health.erasure = s.health.erasure ∧ OnlyRaised [.health, .repairOverflow, .discReady, .endOfDisc] s t ∧ SensesStay s t := by
  obtain ⟨p, cut, stream, counted⟩ := busyLeft_frame (taking s l)
  have closed := closeStream_outer .busy (busyCounted (taking s l))
  have health : (busyLeft (taking s l)).health = s.health := cut.health.trans closed.health
  have rest := KeepsRest.takeNotices (penalty 1 (busyLeft (taking s l)))
  have beside : Beside (busyLeft (taking s l)) (takeNotices (penalty 1 (busyLeft (taking s l)))) :=
    (penalty_beside 1 _).trans (.ofRest rest)
  have timer : (busyLeft (taking s l)).planner.stream.timerRuns = false := by
    refine cut.planner.timer ?_
    show p.stream.timerRuns = false
    rw [stream]
    exact closeStream_timer opened
  have unlanded : Holds unlandedParts (busyLeft (taking s l)) := by
    have closed : Holds unlandedParts (busyClosed (taking s l)) := closeStream_unlanded .busy opened
    unfold busyLeft
    split
    · exact closed.refuseFrontier
    · exact closed
  have landed := nothingLanded_penalty (x := (penalty 1 (busyLeft (taking s l))).health) (amount := 1) unlanded timer rfl
  rw [State.setHealth_health] at landed
  rw [taken] at landed rest beside
  refine ⟨?_, landed, skipRaised_addSkip (e := settle (busyLeft (taking s l))) ?_ ?_ ?_, ?_, fun e out => ?_, ?_, ?_, ?_, ?_⟩
  · exact (congrArg PlannerCounters.refusedBusy (beside.planner.answers.trans cut.planner.answers)).trans counted
  · rw [settle_health, health]
  · rw [settle_health, health]
  · rw [rest.health]
    rfl
  · rw [rest.health, penalty_erasure, health]
  · have other : ∀ e' : Event, e' ∈ [Event.health, .repairOverflow, .discReady, .endOfDisc] → e.index ≠ e'.index :=
      fun e' listed same => out (Event.index_injective same ▸ listed)
    rw [beside.attn _ (other _ (by simp)) (other _ (by simp)),
      cut.attn _ (other _ (by simp)) (other _ (by simp)) (other _ (by simp))]
    exact closed.attn _ (other _ (by simp))
  · exact beside.sense.trans (cut.sense.trans closed.sense)
  · exact beside.supply.trans (cut.supply.trans closed.supply)
  · exact beside.console.trans (cut.console.trans closed.console)
  · exact beside.pending.trans (cut.pending.trans closed.pending)

section
variable (opened : s.planner.stream.state ≠ .none)

include opened

theorem closing_busy : Closing s (busyCounted (taking s l)) :=
  ⟨rfl, rfl, rfl, rfl, rfl, rfl, rfl, opened, rfl, rfl, rfl, rfl⟩

theorem closing_range : Closing s (rangeCounted (taking s l)) :=
  ⟨rfl, rfl, rfl, rfl, rfl, rfl, rfl, opened, rfl, rfl, rfl, rfl⟩

/-- A refusal below the limit leaves at most the refusal count for the choice. -/
theorem busyLeft_below (below : s.planner.stream.purpose = .repair ∨ min 15 (s.planner.frontier.refusals + 1) < effectiveRetry s) :
    ∃ f, busyLeft (taking s l) = setFrontier f (busyClosed (taking s l)) ∧
      (s.planner.stream.purpose = .frontier → s.planner.list.find? RepairEntry.active = none →
        f.refusals = min 15 (s.planner.frontier.refusals + 1)) := by
  cases purpose : s.planner.stream.purpose with
  | repair =>
    rw [busyLeft_repair (s := taking s l) purpose]
    exact ⟨(busyClosed (taking s l)).planner.frontier, rfl, nofun⟩
  | frontier =>
    rw [purpose] at below
    have room := below.resolve_left nofun
    have count : (busyClosed (taking s l)).planner.frontier.refusals ≤ s.planner.frontier.refusals := closeStream_refusals .busy _
    have limit : effectiveRetry (busyClosed (taking s l)) = effectiveRetry s := closeStream_retry .busy _
    rw [busyLeft_frontier (s := taking s l) purpose,
      refuseFrontier_below (by unfold satAdd; omega)]
    refine ⟨_, rfl, fun _ unserved => ?_⟩
    have kept : (busyClosed (taking s l)).planner.frontier = s.planner.frontier := closeStream_frontier .busy opened unserved
    rw [kept]
    rfl

/-- A refusal below the limit ends the stream without CEASE (R59, R65). -/
theorem busy_below (received : s.link.Received l) (steady : Steady s)
    (below : s.planner.stream.purpose = .repair ∨ min 15 (s.planner.frontier.refusals + 1) < effectiveRetry s) {t : State}
    (taken : takeNotices (penalty 1 (busyLeft (taking s l))) = t) :
    (StreamOver s t ∧ ExhaustionChecked s t ∧ t.play.disc = s.play.disc ∧ t.play.state = s.play.state ∧
      (t.link.Carries (.cease s.planner.stream.number) → s.link.Carries (.cease s.planner.stream.number))) ∧
    (s.planner.stream.purpose = .frontier → s.planner.list.find? RepairEntry.active = none →
      t.planner.frontier.refusals = min 15 (s.planner.frontier.refusals + 1)) := by
  obtain ⟨f, made, counts⟩ := busyLeft_below (l := l) opened below
  have closing := closing_busy (l := l) opened
  have closed := closing.closed (close := .busy)
  have outer := closeStream_outer .busy (busyCounted (taking s l))
  have none : (setFrontier f (busyClosed (taking s l))).planner.stream.state = .none := closeStream_state .busy _
  have again := closed.setFrontier f
  have left := again.penalty_over none 1
  rw [made] at taken
  obtain ⟨feeder, play⟩ := penalty_outer 1 (setFrontier f (busyClosed (taking s l)))
  have feeder := feeder.trans outer.feeder
  have play := play.trans outer.play
  have steady' : (penalty 1 (setFrontier f (busyClosed (taking s l)))).feeder.state ≠ .starved ∧
      (penalty 1 (setFrontier f (busyClosed (taking s l)))).play.state ≠ .cueing := by
    rw [feeder, play]
    exact steady
  have states := takeNotices_states steady'.1 steady'.2
  have still := takeNotices_steady steady'.1 steady'.2
  have disc := congrArg Prod.fst (takeNotices_discExtent (penalty 1 (setFrontier f (busyClosed (taking s l)))))
  have ceases := again.penalty_ceases none 1
  rw [taken] at still states disc
  obtain ⟨ends, checked⟩ := closing.streamOver (close := .busy) rfl left rfl rfl still
  obtain ⟨-, planner, link⟩ := still
  refine ⟨⟨ends, checked, ?_, ?_, fun carried => ?_⟩, fun frontier unserved => ?_⟩
  · exact disc.trans (congrArg Play.disc play)
  · exact states.2.trans (congrArg Play.state play)
  · rw [link] at carried
    have before : (closeStream .busy (busyCounted (taking s l))).link.Carries (.cease s.planner.stream.number) := ceases carried
    rw [closeStream_link .busy closing.opened] at before
    exact (received.carries _).mp (((closeRecord_link .busy _).2.2 rfl _).mp before)
  · rw [planner]
    exact (congrArg Frontier.refusals left.frontier).trans (counts frontier unserved)

/-- The last refusal cuts the extent to the fill head (R59, R67). -/
theorem busy_last (frontier : s.planner.stream.purpose = .frontier) (unserved : s.planner.list.find? RepairEntry.active = none)
    (last : effectiveRetry s ≤ min 15 (s.planner.frontier.refusals + 1)) {t : State}
    (taken : takeNotices (penalty 1 (busyLeft (taking s l))) = t) :
    t.planner.counters.extentCut = bump s.planner.counters.extentCut ∧
      (s.planner.frontier.fillHead < s.play.disc.extent →
        RaisedOnce s t .discReady (128 + s.play.disc.position) ∧
        (s.play.disc.confirmed = true →
          t.play.disc = { s.play.disc with extent := s.planner.frontier.fillHead } ∧
            t.store.extent = s.planner.frontier.fillHead)) := by
  have outer := closeStream_outer .busy (busyCounted (taking s l))
  have kept : (busyClosed (taking s l)).planner.frontier = s.planner.frontier := closeStream_frontier .busy opened unserved
  have limit : effectiveRetry (busyClosed (taking s l)) = effectiveRetry s := closeStream_retry .busy _
  have play : (cutCounted (busyClosed (taking s l))).play = s.play := outer.play
  rw [busyLeft_frontier (s := taking s l) frontier, refuseFrontier_last (by rw [limit, kept]; exact last), kept] at taken
  have cut := cutExtent_frame s.planner.frontier.fillHead (cutCounted (busyClosed (taking s l)))
  have raises := cutExtent_raises (x := s.planner.frontier.fillHead) (s := cutCounted (busyClosed (taking s l)))
  have cuts := cutExtent_discExtent (x := s.planner.frontier.fillHead) (s := cutCounted (busyClosed (taking s l)))
  have uncut : (busyClosed (taking s l)).planner.counters.extentCut = s.planner.counters.extentCut :=
    (congrArg PlannerCounters.extentCut outer.planner.answers).trans rfl
  have counted : (cutCounted (busyClosed (taking s l))).planner.counters.extentCut = bump s.planner.counters.extentCut :=
    congrArg bump uncut
  have record : (cutCounted (busyClosed (taking s l))).attn.record Event.discReady.index = s.attn.record Event.discReady.index :=
    outer.attn _ (by decide)
  generalize cutExtent s.planner.frontier.fillHead (cutCounted (busyClosed (taking s l))) = c at *
  have beside : Beside c (takeNotices (penalty 1 c)) := (penalty_beside 1 c).trans (.ofRest (.takeNotices _))
  have discExtent : (takeNotices (penalty 1 c)).discExtent = c.discExtent :=
    (takeNotices_discExtent _).trans (Prod.ext (congrArg Play.disc (penalty_outer 1 c).2) (congrArg Store.extent (penalty_store 1 c)))
  rw [taken] at beside discExtent
  refine ⟨?_, fun below => ?_⟩
  · exact (congrArg PlannerCounters.extentCut (beside.planner.answers.trans cut.planner.answers)).trans counted
  · rw [← play] at below
    refine ⟨?_, fun confirmed => ?_⟩
    · have raised := raises below
      unfold RaisedOnce at raised ⊢
      rw [beside.attn _ (by decide) (by decide), raised, record, play]
    · have kept := cuts below (.inl (by rw [play]; exact confirmed))
      rw [← discExtent, play] at kept
      exact Prod.mk.inj kept

end

/-! ### RANGE (R60, R67) -/

/-- The frame of a whole RANGE. -/
theorem range_frame (opened : s.planner.stream.state ≠ .none) {t : State} (taken : takeNotices (refuseRange (taking s l)) = t) :
    t.planner.counters.refusedRange = bump s.planner.counters.refusedRange ∧ NothingLanded t ∧ t.health = s.health ∧
      OnlyRaised [.repairOverflow, .discReady, .endOfDisc] s t ∧ SensesStay s t := by
  have closed := closeStream_outer .range (rangeCounted (taking s l))
  have timer : (rangeClosed (taking s l)).planner.stream.timerRuns = false := closeStream_timer opened
  have unlanded : Holds unlandedParts (rangeClosed (taking s l)) := closeStream_unlanded .range opened
  have cut := cutExtent_frame (taking s l).planner.stream.start (rangeClosed (taking s l))
  have left : Holds unlandedParts (refuseRange (taking s l)) := Holds.settle (f := False) (unlanded.cutExtent _)
  have landed := left.takeNotices
  have rest : KeepsRest (cutExtent (taking s l).planner.stream.start (rangeClosed (taking s l))) (takeNotices (refuseRange (taking s l))) :=
    ((KeepsRest.moves _).settle (.refl _)).trans (.takeNotices _)
  rw [taken] at landed
  rw [taken] at rest
  have frame : CutFrame (rangeClosed (taking s l)) t := cut.trans (.ofRest rest)
  refine ⟨?_, landed.nothingLanded (frame.planner.timer timer), frame.health.trans closed.health, fun e out => ?_, ?_, ?_, ?_, ?_⟩
  · exact congrArg PlannerCounters.refusedRange (frame.planner.answers.trans closed.planner.answers)
  · have other : ∀ e' : Event, e' ∈ [Event.repairOverflow, .discReady, .endOfDisc] → e.index ≠ e'.index :=
      fun e' listed same => out (Event.index_injective same ▸ listed)
    rw [frame.attn _ (other _ (by simp)) (other _ (by simp)) (other _ (by simp))]
    exact closed.attn _ (other _ (by simp))
  · exact frame.sense.trans closed.sense
  · exact frame.supply.trans closed.supply
  · exact frame.console.trans closed.console
  · exact frame.pending.trans closed.pending

/-- A RANGE at or beyond the extent ends the stream without CEASE (R60, R65). -/
theorem range_beyond (opened : s.planner.stream.state ≠ .none) (received : s.link.Received l) (steady : Steady s)
    (beyond : s.play.disc.extent ≤ s.planner.stream.start) {t : State} (taken : takeNotices (refuseRange (taking s l)) = t) :
    StreamOver s t ∧ ExhaustionChecked s t ∧ t.play.disc = s.play.disc ∧ t.play.state = s.play.state ∧
      (t.link.Carries (.cease s.planner.stream.number) → s.link.Carries (.cease s.planner.stream.number)) := by
  have closing := closing_range (l := l) opened
  have outer := closeStream_outer .range (rangeCounted (taking s l))
  have play : (rangeClosed (taking s l)).play = s.play := outer.play
  obtain ⟨ended, left⟩ := (closing.closed (close := .range)).ended (closeStream_state .range _)
  rw [refuseRange_settles, cutExtent_beyond (by rw [play]; exact beyond)] at taken
  have steady' : (settle (rangeClosed (taking s l))).feeder.state ≠ .starved ∧
      (settle (rangeClosed (taking s l))).play.state ≠ .cueing := by
    rw [settle_feeder, settle_play, play, show (rangeClosed (taking s l)).feeder = s.feeder from outer.feeder]
    exact steady
  have states := takeNotices_states steady'.1 steady'.2
  have still := takeNotices_steady steady'.1 steady'.2
  have disc := congrArg Prod.fst (takeNotices_discExtent (settle (rangeClosed (taking s l))))
  rw [taken] at still states disc
  obtain ⟨ends, checked⟩ := closing.streamOver (close := .range) rfl left rfl rfl still
  refine ⟨ends, checked, ?_, ?_, fun carried => ?_⟩
  · exact disc.trans (congrArg Play.disc ((settle_play _).trans play))
  · exact states.2.trans (congrArg Play.state ((settle_play _).trans play))
  · rw [still.2.2] at carried
    have before := (ended.ceases _).mp carried
    rw [closeStream_link .range closing.opened] at before
    exact (received.carries _).mp (((closeRecord_link .range _).2.2 rfl _).mp before)

/-- A RANGE below the extent cuts it, and ends a disc whose end the cursor has reached (R60, R67, R131, R157). -/
theorem range_below (below : s.planner.stream.start < s.play.disc.extent) {t : State}
    (taken : takeNotices (refuseRange (taking s l)) = t) :
    RaisedOnce s t .discReady (128 + s.play.disc.position) ∧
    (s.play.disc.confirmed = true ∨ s.planner.stream.start = 0 ∨ playPosition s < s.planner.stream.start * 588 ∨
        s.feeder.atEnd = true →
      t.play.disc = { s.play.disc with extent := s.planner.stream.start } ∧ t.store.extent = s.planner.stream.start) ∧
    (0 < s.planner.stream.start → s.planner.stream.start * 588 ≤ playPosition s → s.feeder.atEnd = false →
      t.play.state = (if s.play.disc.confirmed then .ready else .empty) ∧ t.feeder.state = .silent ∧
      RaisedOnce s t .endOfDisc s.play.disc.position ∧
      t.resume = s.resume.write s.play.disc.position ResumeEntry.invalid) := by
  have outer := closeStream_outer .range (rangeCounted (taking s l))
  have play : (rangeClosed (taking s l)).play = s.play := outer.play
  have feeder : (rangeClosed (taking s l)).feeder = s.feeder := outer.feeder
  have resume : (rangeClosed (taking s l)).resume = s.resume := outer.resume
  have position : playPosition (rangeClosed (taking s l)) = playPosition s := by
    unfold playPosition
    rw [feeder]
  have record : ∀ i, i ≠ Event.repairOverflow.index → (rangeClosed (taking s l)).attn.record i = s.attn.record i := outer.attn
  have below' : s.planner.stream.start < (rangeClosed (taking s l)).play.disc.extent := by
    rw [play]
    exact below
  have raises := cutExtent_raises below'
  have cuts := cutExtent_discExtent below'
  have ends := cutExtent_ends below'
  rw [position, feeder, play] at ends cuts
  rw [refuseRange_settles] at taken
  change takeNotices (settle (cutExtent s.planner.stream.start (rangeClosed (taking s l)))) = t at taken
  generalize cutExtent s.planner.stream.start (rangeClosed (taking s l)) = c at *
  have rest : KeepsRest c (takeNotices (settle c)) := ((KeepsRest.moves c).settle (.refl c)).trans (.takeNotices _)
  have discExtent : (takeNotices (settle c)).discExtent = c.discExtent :=
    (takeNotices_discExtent _).trans (Prod.ext (congrArg Play.disc (settle_play c)) (congrArg Store.extent (settle_store c)))
  have states := takeNotices_states (s := settle c)
  rw [settle_feeder, settle_play] at states
  rw [taken] at rest discExtent states
  refine ⟨?_, fun kept => ?_, fun above reached fresh => ?_⟩
  · unfold RaisedOnce at raises ⊢
    rw [rest.attn _ (by decide), raises, record _ (by decide), play]
  · exact Prod.mk.inj (discExtent.trans (cuts kept))
  · obtain ⟨state, silent, raised, written⟩ := ends above reached fresh
    obtain ⟨feeder', play'⟩ := states (by rw [silent]; exact nofun) (by rw [state]; split <;> exact nofun)
    refine ⟨play'.trans state, feeder'.trans silent, ?_, ?_⟩
    · unfold RaisedOnce at raised ⊢
      rw [rest.attn _ (by decide), raised, record _ (by decide)]
    · rw [rest.resume, written, resume]

end

/-! ### The statement (O10) -/

section
variable {s : State} {noise : Nat} {n : BitVec 4}

/-- A REFUSED of the current stream while SEEKING reaches the planner (R61, R106). -/
theorem completes_refused (ready : LinkReady s) (named : n.toNat ≠ 0) (same : n.toNat = s.planner.stream.number)
    (seeking : s.planner.stream.state = .seeking) {reason : Byte} (known : reason = 1 ∨ reason = 2) {P : State → Prop}
    (h : ∀ l t, s.link.Received l →
      takeNotices (if reason.toNat = 1 then refuseBusy (taking s l) else refuseRange (taking s l)) = t → P (t.setNotices s.notices)) :
    Completes (.refused noise n reason) s P := by
  have sound : (RxMsg.refused n.toNat reason.toNat).malformed = false := by
    rcases known with rfl | rfl <;> rfl
  refine completes_message ready (noise := noise) (monitorFirst := false) rfl sound fun l received => h l _ received ?_
  have current : answersSeek n.toNat (taking s l) = true := answersSeek_iff.mpr ⟨named, same, seeking⟩
  exact congrArg takeNotices (if_pos current).symm

end

/-- Settles O10: the three rows one by one. -/
theorem streamCloses : Obligations.StreamCloses := by
  refine ⟨fun s runs reached seeking => completes_seekTimeout runs reached seeking,
    fun noise n s ready named same seeking => ⟨?busy, ?range⟩,
    fun noise n lastGood landing monitorFirst s ready => ⟨completes_jump ready, completes_jump_withdrawn ready⟩⟩
  case busy =>
    have opened : s.planner.stream.state ≠ .none := fun none => absurd (seeking.symm.trans none) nofun
    refine completes_refused ready named same seeking (.inl rfl) fun l t received taken => ?_
    rw [if_pos (by decide), refuseBusy_penalty] at taken
    obtain ⟨counted, landed, raised, erasure, only, senses⟩ := busy_frame opened taken
    refine ⟨counted, landed, raised, erasure, fun steady below => (busy_below (t := t) opened received steady below taken).1,
      fun steady frontier unserved => ⟨fun below => ?_, fun last => busy_last (t := t) opened frontier unserved last taken⟩,
      only, senses⟩
    exact (busy_below (t := t) opened received steady (.inr below) taken).2 frontier unserved
  case range =>
    have opened : s.planner.stream.state ≠ .none := fun none => absurd (seeking.symm.trans none) nofun
    refine completes_refused ready named same seeking (.inr rfl) fun l t received taken => ?_
    rw [if_neg (by decide)] at taken
    obtain ⟨counted, landed, health, only, senses⟩ := range_frame opened taken
    exact ⟨counted, landed, health, fun steady beyond => range_beyond (t := t) opened received steady beyond taken,
      fun below => range_below (t := t) below taken, only, senses⟩

end Sys2Proof.Claims
end

