-- ==== Sys2Proof/Proofs/StreamLanded.lean ====
section
/-!
SUPPORT. A LANDED of the current stream: the set-up by R25's table, the end of a stream that has nothing to read, and the pre-emption by
an entry (R25, R41, R55, R58, R62). Then the statement about it (O16).
-/
namespace Sys2Proof.Machine

/-! ### R25's table (R25) -/

/-- The row of R25's table for a landing of the current stream. -/
def landedKind (s : State) : SetUpKind := setUpKindOf s.planner.stream.start s.planner.stream.target (forcesBlind s) s

/-- The stream record once the landing is taken. -/
def landedStream (landing : Nat) (s : State) : Stream :=
  { s.planner.stream with state := (landedKind s).phase.streamState, timerRuns := false, expected := landing }

/-- The alignment once the landing is taken. -/
def landedAlign (landing : Nat) (s : State) : Align :=
  ⟨s.planner.stream.number, (landedKind s).phase, s.planner.stream.start, s.planner.stream.target, landing, 0⟩

/-- The state in which the end check of a landing is made. -/
def landedState (landing : Nat) (s : State) : State :=
  let t := evaluateFlow (setUp s.planner.stream.number s.planner.stream.start s.planner.stream.target landing (forcesBlind s)
    (beginLanding landing s))
  setStream { t.planner.stream with state := (landedKind s).phase.streamState } t

theorem land_checks (landing : Nat) (s : State) : land landing s = settle (endCheck (landedState landing s)) := rfl

theorem forcesBlind_iff (s : State) : forcesBlind s = true ↔
    (s.planner.stream.purpose = .frontier ∧ 3 ≤ s.planner.frontier.mislocks) ∨
      (s.planner.stream.purpose = .repair ∧ ∃ e, s.planner.list.find? RepairEntry.active = some e ∧ 3 ≤ e.mislocks) := by
  unfold forcesBlind targetMislocks
  cases purpose : s.planner.stream.purpose with
  | frontier => simp
  | repair => cases served : s.planner.list.find? RepairEntry.active <;> simp

section
variable (s : State)

theorem landedKind_fresh (empty : s.store.presentIn s.planner.stream.start s.planner.stream.target = 0) : landedKind s = .fresh :=
  if_pos empty

variable {s} (held : s.store.presentIn s.planner.stream.start s.planner.stream.target ≠ 0)

include held

theorem landedKind_blind (blind : forcesBlind s = true) : landedKind s = .blindMislocks := by
  unfold landedKind setUpKindOf setUpKind
  rw [if_neg held, if_pos blind]

theorem landedKind_lowReference (sighted : ¬ forcesBlind s = true)
    (low : s.store.goodIn s.planner.stream.start s.planner.stream.target < s.console.params.matchRun) :
    landedKind s = .blindLowReference := by
  unfold landedKind setUpKindOf setUpKind
  rw [if_neg held, if_neg sighted, if_pos low]

theorem landedKind_searching (sighted : ¬ forcesBlind s = true)
    (enough : s.console.params.matchRun ≤ s.store.goodIn s.planner.stream.start s.planner.stream.target) :
    landedKind s = .searching := by
  unfold landedKind setUpKindOf setUpKind
  rw [if_neg held, if_neg sighted, if_neg (Nat.not_lt.mpr enough)]

end

/-- The stream searches where something is held before its target, nothing forces it blind and enough frames are GOOD (R25). -/
theorem landedKind_phase_iff (s : State) : (landedKind s).phase = .searching ↔
    s.store.presentIn s.planner.stream.start s.planner.stream.target ≠ 0 ∧ ¬ forcesBlind s = true ∧
      s.console.params.matchRun ≤ s.store.goodIn s.planner.stream.start s.planner.stream.target := by
  by_cases empty : s.store.presentIn s.planner.stream.start s.planner.stream.target = 0
  · rw [landedKind_fresh s empty]
    exact ⟨nofun, fun searches => absurd empty searches.1⟩
  · by_cases blind : forcesBlind s = true
    · rw [landedKind_blind empty blind]
      exact ⟨nofun, fun searches => absurd blind searches.2.1⟩
    · rcases Nat.lt_or_ge (s.store.goodIn s.planner.stream.start s.planner.stream.target) s.console.params.matchRun with low | enough
      · rw [landedKind_lowReference empty blind low]
        exact ⟨nofun, fun searches => absurd searches.2.2 (Nat.not_le.mpr low)⟩
      · rw [landedKind_searching empty blind enough]
        exact ⟨fun _ => ⟨empty, blind, enough⟩, fun _ => rfl⟩

theorem SetUpKind.phase_cases (kind : SetUpKind) : kind.phase = .searching ∨ kind.phase = .anchored := by
  cases kind
  case searching => exact .inl rfl
  all_goals exact .inr rfl

/-! ### The landing up to the end check (R58) -/

/-- p is the planner's record once a landing has begun: counted, and without the mislocks that forced a blind seam. -/
structure LandingBegun (s : State) (p : Planner) : Prop where
  active   : p.active = s.planner.active
  counters : p.counters = { s.planner.counters with landed := bump s.planner.counters.landed }
  served   : (p.list.find? RepairEntry.active).map (fun e => (e.first, e.last, e.attempts)) =
    (s.planner.list.find? RepairEntry.active).map (fun e => (e.first, e.last, e.attempts))
  sighted  : ¬ forcesBlind s = true → p.list = s.planner.list ∧ p.frontier = s.planner.frontier
  listed   : s.planner.stream.purpose = .frontier → p.list = s.planner.list
  frontier : forcesBlind s = true → s.planner.stream.purpose = .frontier → p.frontier = { s.planner.frontier with mislocks := 0 }
  repair   : forcesBlind s = true → s.planner.stream.purpose = .repair →
    p.list = s.planner.list.map (fun e => if e.active then { e with mislocks := 0 } else e) ∧ p.frontier = s.planner.frontier

/-- A landing begins with a change of the planner's record alone. -/
theorem beginLanding_planner (landing : Nat) (s : State) : ∃ p, beginLanding landing s = s.setPlanner p ∧
    p.stream = { s.planner.stream with timerRuns := false, expected := landing } ∧ LandingBegun s p := by
  have same : forcesBlind (setStream { s.planner.stream with timerRuns := false, expected := landing }
      (countPlanner (fun c => { c with landed := bump c.landed }) s)) = forcesBlind s := rfl
  unfold beginLanding
  dsimp only
  rw [same]
  by_cases blind : forcesBlind s = true
  · rw [if_pos blind]
    obtain ⟨p, made, stream, active, counters, served⟩ := mapTargetMislocks_planner (fun _ => 0)
      (setStream { s.planner.stream with timerRuns := false, expected := landing }
        (countPlanner (fun c => { c with landed := bump c.landed }) s))
    have planner : p = _ := (congrArg State.planner made).symm
    refine ⟨p, made, stream, active, counters, served, fun sighted => absurd blind sighted, fun frontier => ?_,
      fun _ frontier => ?_, fun _ repair => ?_⟩
    · rw [planner]
      simp [mapTargetMislocks, frontier, setStream, countPlanner, setFrontier]
    · rw [planner]
      simp [mapTargetMislocks, frontier, setStream, countPlanner, setFrontier]
    · rw [planner]
      simp [mapTargetMislocks, repair, setStream, countPlanner, setList]
  · rw [if_neg blind]
    exact ⟨_, rfl, rfl, rfl, rfl, rfl, fun _ => ⟨rfl, rfl⟩, fun _ => rfl, fun forced => absurd forced blind,
      fun forced => absurd forced blind⟩

/-- From s to m a landing was taken up to the end check: the set-up, the flow, and the stream's record (R25, R41, R58). -/
structure Landed (landing : Nat) (s m : State) : Prop where
  store    : m.store = s.store
  health   : m.health = s.health
  feeder   : m.feeder = s.feeder
  play     : m.play = s.play
  sense    : m.sense = s.sense
  supply   : m.supply = s.supply
  resume   : m.resume = s.resume
  console  : m.console = s.console
  pending  : m.pending = s.pending
  notices  : m.notices = s.notices
  align    : m.asm.align = landedAlign landing s
  counted  : m.asm.counters = ((landedKind s).report s).asm.counters
  attn     : m.attn = ((landedKind s).report s).attn
  lost     : m.link.lost = false
  received : m.link.counters = s.link.counters
  stream   : m.planner.stream = landedStream landing s
  planner  : ∃ p, LandingBegun s p ∧ m.planner = { p with stream := landedStream landing s }
  sound    : FlowSound m

/-- The set-up leaves the planner and everything outside the link, the Assembler and the event of a blind seam. -/
theorem setUp_keeps (n start target landing : Nat) (blind : Bool) (s : State) :
    let t := setUp n start target landing blind s
    let kind := setUpKindOf start target blind s
    t = (((s.setAsm { s.asm with
        align := ⟨n, kind.phase, start, target, landing, 0⟩, counters := (kind.report s).asm.counters }).setLink
          { s.link with lost := false }).setAttn (kind.report s).attn) := by
  intro t kind
  have reported : ∀ u : State, u.asm.counters = s.asm.counters → u.attn = s.attn →
      kind.report u = (u.setAsm { u.asm with counters := (kind.report s).asm.counters }).setAttn (kind.report s).attn := by
    intro u counters attn
    cases kind with
    | fresh =>
      show u = (u.setAsm { u.asm with counters := s.asm.counters }).setAttn s.attn
      rw [← counters, ← attn]
      rfl
    | searching =>
      show u = (u.setAsm { u.asm with counters := s.asm.counters }).setAttn s.attn
      rw [← counters, ← attn]
      rfl
    | blindMislocks =>
      show _ = (u.setAsm { u.asm with counters := { s.asm.counters with blindSeam := bump s.asm.counters.blindSeam } }).setAttn
        (s.attn.raise .seamBlind _)
      rw [← counters, ← attn]
      rfl
    | blindLowReference =>
      show _ = (u.setAsm { u.asm with counters := { s.asm.counters with blindSeam := bump s.asm.counters.blindSeam } }).setAttn
        (s.attn.raise .seamBlind _)
      rw [← counters, ← attn]
      rfl
  exact reported _ rfl rfl

theorem landedState_landed (landing : Nat) (s : State) : Landed landing s (landedState landing s) := by
  obtain ⟨p, begun, stream, spec⟩ := beginLanding_planner landing s
  have kind := beginLanding_kind landing s s.planner.stream.start s.planner.stream.target (forcesBlind s)
  have reported : (landedKind s).report (s.setPlanner p) = ((landedKind s).report s).setPlanner p := by
    cases landedKind s <;> rfl
  have up := setUp_keeps s.planner.stream.number s.planner.stream.start s.planner.stream.target landing (forcesBlind s) (s.setPlanner p)
  dsimp only at up
  rw [begun] at kind
  rw [kind, show setUpKindOf s.planner.stream.start s.planner.stream.target (forcesBlind s) s = landedKind s from rfl, reported] at up
  unfold landedState
  rw [begun, up]
  dsimp only
  generalize whole : State.setAttn _ _ = w
  have kept := (KeepsChoice.moves w).evaluateFlow (.refl w)
  obtain ⟨planner, -, -, align⟩ := evaluateFlow_keeps w
  have sound := evaluateFlow_flowSound w
  generalize evaluateFlow w = m at *
  subst whole
  have planner : m.planner = p := planner
  have record : { m.planner.stream with state := (landedKind s).phase.streamState } = landedStream landing s := by
    rw [planner, stream]
    rfl
  refine ⟨kept.store, kept.health, kept.feeder, kept.play, kept.sense, kept.supply, kept.resume, kept.console, kept.pending,
    kept.notices, align, kept.asm.counters, kept.attn, (congrArg Link.lost kept.link.rest).trans rfl,
    (congrArg Link.counters kept.link.rest).trans rfl, record, ⟨p, spec, ?_⟩, sound.congr rfl rfl rfl⟩
  show ({ m.planner with stream := _ } : Planner) = _
  rw [record, planner]

/-! ### The end check and the pre-emption (R41, R55, R62) -/

/-- The end of an event in which a stream is pre-empted is the end of an event after the pre-emption. -/
theorem settle_preempts {s : State} (h : Preempts s) : settle s = settle (preempt s) := by
  have flags : ∀ t, flowDiffers (preempt s) t = flowDiffers s t := by
    intro t
    rw [preempt_of h]
    rfl
  unfold settle
  rw [preempt_of_not (not_preempts_preempt s)]
  dsimp only
  rw [flags]

/-- The pre-emption is a close with CEASE. -/
theorem preempt_reopened {s : State} (h : Preempts s) : Reopened s.planner.stream.number (preempt s) (preempt s) := by
  have closed := closeStream_reopened .preemption h.1
  rw [closeStream_ceasing h.1 rfl, if_neg nofun] at closed
  rw [preempt_of h]
  exact ⟨rfl, rfl, rfl, rfl, rfl, closed.phase, closed.number, rfl, closed.seeks, fun _ => Iff.rfl⟩

theorem endCheck_goesOn {s : State} (goesOn : ¬ endReached s = true) : endCheck s = s := by
  unfold endCheck
  rw [Bool.eq_false_iff.mpr goesOn, Bool.and_false]
  rfl

namespace Landed

variable {landing : Nat} {s m : State} (h : Landed landing s m)

include h

theorem opened : m.planner.stream.state ≠ .none := by
  rw [h.stream]
  exact (Phase.streamState_landed (SetUpKind.phase_ne_none _)).1

theorem endReached_iff : endReached m = true ↔
    (s.planner.stream.purpose = .repair ∧ s.planner.stream.servedLast < landing) ∨
      (s.planner.stream.purpose = .frontier ∧
        ((s.store.extent * 588 : Nat) : Int) ≤ (landing * 588 : Nat) + s.planner.stream.offset) := by
  unfold endReached
  rw [h.stream, h.store]
  cases purpose : s.planner.stream.purpose <;> simp [landedStream, purpose]

theorem endCheck_closes (ended : endReached m = true) : endCheck m = closeStream .ended m := by
  unfold endCheck
  rw [ended, decide_eq_true h.opened]
  rfl

/-- The landing BN, at offset 0, fills the window or ends the disc (R41). -/
theorem windowFull_iff : windowFull m = true ↔ s.store.playBlock + 384 ≤ landing ∨ s.store.extent ≤ landing := by
  have landed : (landedKind s).phase ≠ .none := SetUpKind.phase_ne_none _
  unfold windowFull
  rw [h.align, h.store]
  show (decide ((landedKind s).phase ≠ .none) &&
    (decide ((((s.store.playBlock + 384) * 588 : Nat) : Int) ≤ (landing * 588 : Nat) + 0) ||
      decide (((s.store.extent * 588 : Nat) : Int) ≤ (landing * 588 : Nat) + 0))) = true ↔ _
  rw [Bool.and_eq_true, Bool.or_eq_true, decide_eq_true_iff, decide_eq_true_iff, decide_eq_true_iff, and_iff_right landed]
  exact or_congr (by omega) (by omega)

theorem preempts_iff : Preempts m ↔ s.planner.stream.purpose = .frontier ∧ ∃ e ∈ s.planner.list,
    e.first - s.store.playBlock ≤ s.console.params.repairLead ∨ s.store.playBlock + 384 ≤ landing ∨ s.store.extent ≤ landing := by
  have purpose : m.planner.stream.purpose = s.planner.stream.purpose := (congrArg Stream.purpose h.stream).trans rfl
  have due : ∀ e, due m e = true ↔
      e.first - s.store.playBlock ≤ s.console.params.repairLead ∨ s.store.playBlock + 384 ≤ landing ∨ s.store.extent ≤ landing := by
    intro e
    rw [due_iff, ((flowSound_iff m).mp h.sound).2, h.windowFull_iff, h.store, h.console]
  have list (frontier : s.planner.stream.purpose = .frontier) : m.planner.list = s.planner.list := by
    obtain ⟨p, begun, planner⟩ := h.planner
    rw [planner]
    exact begun.listed frontier
  constructor
  · rintro ⟨-, frontier, e, he, d⟩
    rw [purpose] at frontier
    exact ⟨frontier, e, list frontier ▸ he, (due e).mp d⟩
  · rintro ⟨frontier, e, he, d⟩
    exact ⟨h.opened, purpose.trans frontier, e, (list frontier).symm ▸ he, (due e).mpr d⟩

/-- Where the stream goes on, the end of the event changes nothing. -/
theorem settle_goesOn (goesOn : ¬ endReached m = true) (keeps : ¬ Preempts m) : settle (endCheck m) = m := by
  rw [endCheck_goesOn goesOn, settle_chooses h.sound keeps, chooseStream_idle fun both => h.opened both.2]

/-- What the rest of the step leaves of the landing. -/
theorem kept : KeepsRest m (takeNotices (settle (endCheck m))) ∧
    (takeNotices (settle (endCheck m))).asm.align.expected = landing := by
  have M := KeepsRest.moves m
  refine ⟨(M.settle (M.endCheck (.refl m))).trans (.takeNotices _), ?_⟩
  have aside : Aside True True False m (takeNotices (settle (endCheck m))) := (((Aside.refl _ _ _ _).endCheck).settle).takeNotices
  rw [aside.expected, h.align]
  rfl

end Landed

end Sys2Proof.Machine

namespace Sys2Proof.Claims

open Sys2Proof.Machine

/-- A close with CEASE and without a penalty, up to the end of the step. -/
theorem Closing.settled {s m : State} {close : Close} (h : Closing s m) (ceases : close.ceases = true)
    (checks : close.checksExhaustion = true) : ClosedWithCease s (takeNotices (settle (closeStream close m))) := by
  obtain ⟨-, feeder, play, -⟩ := h.kept (close := close)
  obtain ⟨opened, left⟩ := (h.closed (close := close)).ended (closeStream_state close m)
  have unlanded : Holds unlandedParts (settle (closeStream close m)) :=
    Holds.settle (f := False) (closeStream_unlanded close h.opened)
  have rest : KeepsRest (closeStream close m) (takeNotices (settle (closeStream close m))) :=
    ((KeepsRest.moves _).settle (.refl _)).trans (.takeNotices _)
  have sent : (settle (closeStream close m)).link.Carries (.cease s.planner.stream.number) := by
    rw [opened.ceases, closeStream_link close h.opened, ← h.number]
    exact (closeRecord_link close m).2.1 ceases
  have steadily (steady : Steady s) := takeNotices_steady (s := settle (closeStream close m))
    (by rw [settle_feeder, feeder]; exact steady.1) (by rw [settle_play, play]; exact steady.2)
  have aside : Aside True True False (settle (closeStream close m)) (takeNotices (settle (closeStream close m))) :=
    (Aside.refl _ _ _ _).takeNotices
  refine ⟨unlanded.takeNotices.nothingLanded (rest.planner.timer (closeStream_timer h.opened)), ⟨aside.ceases _ sent, ?_⟩, ?_⟩
  · intro steady _ _
    rw [(steadily steady).2.2]
    exact sent
  · exact fun steady => h.streamOver checks left rfl rfl (steadily steady)

/-! ### What a landing brings about (R25, R58) -/

/-- The set-up raises SEAM_BLIND alone. -/
theorem report_other (kind : SetUpKind) (s : State) {i : Fin 16} (other : i ≠ Event.seamBlind.index) :
    (kind.report s).attn.record i = s.attn.record i := by
  cases kind with
  | fresh => rfl
  | searching => rfl
  | blindMislocks => exact Attn.record_raise_other _ _ _ _ other
  | blindLowReference => exact Attn.record_raise_other _ _ _ _ other

/-- A landing leads to the outcomes of the landed state. -/
theorem completes_landed {noise : Nat} {n : BitVec 4} {bn : BitVec 24} {s : State} (ready : LinkReady s) (inside : bn.toNat < 450000)
    (named : n.toNat ≠ 0) (same : n.toNat = s.planner.stream.number) (seeking : s.planner.stream.state = .seeking)
    {P : State → Prop}
    (h : ∀ l m t, s.link.Received l → Landed bn.toNat (taking s l) m → takeNotices (settle (endCheck m)) = t →
      P (t.setNotices s.notices)) : Completes (.landed noise n bn) s P := by
  refine completes_message ready (noise := noise) (monitorFirst := false) (m := .landed n.toNat bn.toNat) rfl
    (decide_eq_false (Nat.not_le.mpr inside)) fun l received => h l _ _ received (landedState_landed bn.toNat (taking s l)) ?_
  have current : answersSeek n.toNat (taking s l) = true := answersSeek_iff.mpr ⟨named, same, seeking⟩
  exact congrArg takeNotices ((if_pos current).trans (land_checks _ _)).symm

section
variable {landing : Nat} {s m t : State} {l : Link} (h : Landed landing (taking s l) m) (taken : takeNotices (settle (endCheck m)) = t)

include h

theorem closing_landed : Closing s m := by
  obtain ⟨p, begun, planner⟩ := h.planner
  refine ⟨h.store, h.console, h.feeder, h.play, congrArg Health.state h.health, congrArg Health.skip h.health,
    congrArg Health.erasure h.health, h.opened, (congrArg Stream.number h.stream).trans rfl, ?_, ?_, ?_⟩
  · rw [planner]
    exact begun.active
  · rw [planner]
    exact (congrArg PlannerCounters.exhaustion begun.counters).trans rfl
  · rw [planner]
    exact begun.served

include taken

/-- What every landing brings about. -/
theorem landed_frame (received : s.link.Received l) :
    t.planner.counters.landed = bump s.planner.counters.landed ∧ t.planner.stream.timerRuns = false ∧
      t.asm.align.expected = landing ∧ t.link.lost = false ∧ t.link.counters.received = bump s.link.counters.received ∧
      t.health = s.health ∧ t.resume = s.resume ∧ OnlyRaised [.seamBlind, .repairOverflow] s t ∧ SensesStay s t := by
  obtain ⟨rest, expected⟩ := h.kept
  rw [taken] at rest expected
  obtain ⟨p, begun, planner⟩ := h.planner
  have counted : m.planner.counters.landed = bump s.planner.counters.landed := by
    rw [planner]
    exact (congrArg PlannerCounters.landed begun.counters).trans rfl
  refine ⟨(congrArg PlannerCounters.landed rest.planner.answers).trans counted, rest.planner.timer ?_, expected, ?_, ?_,
    rest.health.trans h.health, rest.resume.trans h.resume, fun e out => ?_, rest.sense.trans h.sense, rest.supply.trans h.supply,
    rest.console.trans h.console, rest.pending.trans h.pending⟩
  · rw [h.stream]
    rfl
  · rw [rest.link.rest]
    exact h.lost
  · rw [rest.link.rest]
    exact (congrArg LinkCounters.received h.received).trans received.received
  · have other : ∀ e' : Event, e' ∈ [Event.seamBlind, .repairOverflow] → e.index ≠ e'.index :=
      fun e' listed same => out (Event.index_injective same ▸ listed)
    rw [rest.attn _ (other _ (by simp)), h.attn]
    exact report_other _ _ (other _ (by simp))

/-- The counter and the event of a blind seam are those of the set-up. -/
theorem landed_reported : t.asm.counters = ((landedKind (taking s l)).report (taking s l)).asm.counters ∧
    ∀ i, i ≠ Event.repairOverflow.index → t.attn.record i = ((landedKind (taking s l)).report (taking s l)).attn.record i := by
  obtain ⟨rest, -⟩ := h.kept
  rw [taken] at rest
  exact ⟨rest.counted.trans h.counted, fun i other => by rw [rest.attn i other, h.attn]⟩

/-- A blind seam is counted, and raised with its reason (R25, R197). -/
theorem landed_blind {detail : Nat}
    (kind : landedKind s = .blindMislocks ∧ detail = 1 ∨ landedKind s = .blindLowReference ∧ detail = 2) :
    t.asm.counters.blindSeam = bump s.asm.counters.blindSeam ∧ RaisedOnce s t .seamBlind detail := by
  obtain ⟨counters, records⟩ := landed_reported h taken
  have record := records Event.seamBlind.index (by decide)
  rw [show landedKind (taking s l) = landedKind s from rfl] at counters record
  rcases kind with ⟨kind, rfl⟩ | ⟨kind, rfl⟩
  all_goals
    rw [kind] at counters record
    exact ⟨(congrArg PlacementCounters.blindSeam counters).trans rfl, record.trans (raisedOnce_raise .seamBlind _ s)⟩

/-- Without a blind seam nothing is counted or raised (R25). -/
theorem landed_sighted (kind : landedKind s = .fresh ∨ landedKind s = .searching) :
    t.asm.counters.blindSeam = s.asm.counters.blindSeam ∧ OnlyRaised [.repairOverflow] s t := by
  obtain ⟨counters, records⟩ := landed_reported h taken
  have silent : (landedKind (taking s l)).report (taking s l) = taking s l := by
    rw [show landedKind (taking s l) = landedKind s from rfl]
    rcases kind with kind | kind <;> rw [kind] <;> rfl
  rw [silent] at counters records
  refine ⟨(congrArg PlacementCounters.blindSeam counters).trans rfl, fun e out => records _ fun same => out ?_⟩
  exact List.mem_singleton.mpr (Event.index_injective same)

/-- A stream that goes on is set up, and nothing else changes (R25, R58). -/
theorem landed_goesOn (goesOn : ¬ endReached m = true) (keeps : ¬ Preempts m) :
    t.asm.align = landedAlign landing s ∧ t.planner.stream = landedStream landing s ∧
      (∃ p, LandingBegun s p ∧ t.planner.list = p.list ∧ t.planner.frontier = p.frontier) ∧
      t.store = s.store ∧ t.feeder = s.feeder ∧ t.play = s.play := by
  rw [h.settle_goesOn goesOn keeps, takeNotices_none h.notices] at taken
  subst taken
  obtain ⟨p, begun, planner⟩ := h.planner
  refine ⟨h.align, h.stream, ⟨p, { begun with }, ?_, ?_⟩, h.store, h.feeder, h.play⟩
  · rw [planner]
  · rw [planner]

/-- A stream that has reached its end is closed (R62). -/
theorem landed_ended (ended : endReached m = true) : ClosedWithCease s t := by
  rw [h.endCheck_closes ended] at taken
  subst taken
  exact (closing_landed h).settled rfl rfl

/-- A FRONTIER stream that an entry pre-empts is closed (R55). -/
theorem landed_preempted (goesOn : ¬ endReached m = true) (early : Preempts m) :
    NothingLanded t ∧ Ceased s t ∧ StreamOver s t ∧
      t.planner.counters.preemption = bump s.planner.counters.preemption ∧ t.store = s.store := by
  have quiet : (settle m).notices = [] := (KeepsChoice.settle m).notices.trans h.notices
  rw [endCheck_goesOn goesOn, takeNotices_none quiet, settle_preempts early] at taken
  subst taken
  have closed := preempt_reopened early
  have number : m.planner.stream.number = s.planner.stream.number := (congrArg Stream.number h.stream).trans rfl
  rw [number] at closed
  have none : (preempt m).planner.stream.state = .none := by
    rw [preempt_of early]
    rfl
  have timer : (preempt m).planner.stream.timerRuns = false := by
    rw [preempt_of early]
    rfl
  have sent : (preempt m).link.Carries (.cease s.planner.stream.number) := by
    rw [preempt_of early, ← number]
    exact ceased_carries m
  have counted : (preempt m).planner.counters.preemption = bump s.planner.counters.preemption := by
    obtain ⟨p, begun, planner⟩ := h.planner
    rw [preempt_of early]
    show bump m.planner.counters.preemption = _
    rw [planner]
    exact congrArg bump ((congrArg PlannerCounters.preemption begun.counters).trans rfl)
  obtain ⟨opened, left⟩ := closed.ended none
  have unlanded : Holds unlandedParts (preempt m) :=
    ⟨False.elim, False.elim, False.elim, fun _ => alignSound_closed none closed.phase, fun _ => closed.phase⟩
  have landless : Holds unlandedParts (settle (preempt m)) := Holds.settle (f := False) unlanded
  have carries := (opened.ceases _).mpr sent
  refine ⟨landless.nothingLanded ((KeepsChoice.settle _).planner.timer timer), ⟨⟨_, carries⟩, fun _ _ _ => carries⟩,
    ⟨left.number.imp_left And.left, left.seeks⟩, opened.preempted.trans counted, ?_⟩
  rw [settle_store, (preempt_keeps m).1, h.store]
  rfl

end

/-- Settles O16: the set-up by R25's table, and the end of the event one by one. -/
theorem landedTaken : Obligations.LandedTaken := by
  intro noise n bn s ready inside named same seeking
  refine ⟨completes_landed ready inside named same seeking fun l m t received h taken => landed_frame (t := t) h taken received,
    fun blind ended early phase blind_iff ended_iff early_iff known phase_iff =>
      completes_landed ready inside named same seeking fun l m t received h taken => ?_⟩
  have forced : blind ↔ forcesBlind s = true := blind_iff.trans (forcesBlind_iff s).symm
  have reached : ended ↔ endReached m = true := ended_iff.trans h.endReached_iff.symm
  have preempts : early ↔ Preempts m := early_iff.trans h.preempts_iff.symm
  have row : phase = (landedKind s).phase := by
    rw [forced] at phase_iff
    have searching := phase_iff.trans (landedKind_phase_iff s).symm
    rcases known with isSearching | isAnchored
    · rw [isSearching, searching.mp isSearching]
    · rw [isAnchored]
      refine ((landedKind s).phase_cases.resolve_left fun found => ?_).symm
      exact absurd ((searching.mpr found).symm.trans isAnchored) nofun
  refine ⟨fun goesOn keeps => ?goesOn, fun anchored held => ?blind, fun placed => ?sighted, fun finished => ?ended,
    fun goesOn preempted => ?early⟩
  case goesOn =>
    obtain ⟨align, stream, ⟨p, begun, list, frontier⟩, store, feeder, play⟩ :=
      landed_goesOn h taken (mt reached.mpr goesOn) (mt preempts.mpr keeps)
    refine ⟨align.trans (by rw [row, same]; rfl), stream.trans (by rw [row]; rfl), fun sighted => ?_,
      fun unsighted purpose => ⟨list.trans (begun.listed purpose), frontier.trans (begun.frontier (forced.mp unsighted) purpose)⟩,
      fun unsighted purpose => ?_, store, feeder, play⟩
    · obtain ⟨list', frontier'⟩ := begun.sighted (mt forced.mpr sighted)
      exact ⟨list.trans list', frontier.trans frontier'⟩
    · obtain ⟨list', frontier'⟩ := begun.repair (forced.mp unsighted) purpose
      exact ⟨list.trans list', frontier.trans frontier'⟩
  case blind =>
    by_cases unsighted : blind
    · obtain ⟨counted, raised⟩ := landed_blind (t := t) h taken (.inl ⟨landedKind_blind held (forced.mp unsighted), rfl⟩)
      exact ⟨counted, fun _ => raised, fun sighted => absurd unsighted sighted⟩
    · have low : s.store.goodIn s.planner.stream.start s.planner.stream.target < s.console.params.matchRun :=
        Nat.lt_of_not_le fun enough => absurd (anchored.symm.trans (phase_iff.mpr ⟨held, unsighted, enough⟩)) nofun
      obtain ⟨counted, raised⟩ := landed_blind (t := t) h taken
        (.inr ⟨landedKind_lowReference held (mt forced.mpr unsighted) low, rfl⟩)
      exact ⟨counted, fun sighted => absurd sighted unsighted, fun _ => raised⟩
  case sighted =>
    refine landed_sighted (t := t) h taken (placed.symm.imp (landedKind_fresh s) fun searching => ?_)
    obtain ⟨held, sighted, enough⟩ := phase_iff.mp searching
    exact landedKind_searching held (mt forced.mpr sighted) enough
  case ended => exact landed_ended (t := t) h taken (reached.mp finished)
  case early => exact landed_preempted (t := t) h taken (mt reached.mpr goesOn) (preempts.mp preempted)

end Sys2Proof.Claims
end

