-- ==== Sys2Proof/Proofs/HealthKeptStep.lean ====
section
/-!
SUPPORT. The Monitor's relations through a change of its scores (R76 to R82), and so through every command. Then the statement that every
step keeps them (O55).
-/
namespace Sys2Proof.Machine

/-! ### A change of the scores -/

section
variable {h : Health}

/-- An entry to a health state leaves the quiet count or starts it anew (R81). -/
theorem Health.enter_quiet_le (h : Health) (x : HealthState) : (h.enter x).quiet ≤ h.quiet := by
  unfold Health.enter
  split
  · exact Nat.le_refl _
  · exact Nat.le_refl _
  · exact Nat.zero_le _

theorem Health.rederived_quiet_le (h : Health) : h.rederived.quiet ≤ h.quiet := by
  unfold Health.rederived
  split
  · exact Nat.le_refl _
  · exact Health.enter_quiet_le h _

/-- WITHDRAWN is not derived again from the skip score (R82). -/
theorem Health.rederived_withdrawn (withdrawn : h.state = .withdrawn) : h.rederived = h := if_pos (.inl withdrawn)

/-- A change of the scores and the re-derivation after it keep the Monitor's relations: outside WITHDRAWN the health state and the
pace level are derived anew, and in WITHDRAWN the skip score, from which they were derived, is frozen (R78, R80, R82). -/
theorem Health.Sound.rederived {x : Health} (sound : h.Sound) (scored : h.Scored x) : x.rederived.Sound := by
  obtain ⟨state, pace, skip, erasure, quiet⟩ := sound
  have paced : x.pace = paceOf x.state := by rw [scored.pace, pace, scored.state]
  have derived : x.rederived.state = healthOf x.skip ∧ x.rederived.pace = paceOf (healthOf x.skip) := by
    by_cases withdrawn : x.state = .withdrawn
    · have frozen : x.state = healthOf x.skip := by
        rw [scored.frozen (scored.state.symm.trans withdrawn), scored.state, state]
      rw [Health.rederived_withdrawn withdrawn]
      exact ⟨frozen, paced.trans (congrArg paceOf frozen)⟩
    · exact ⟨Health.rederived_state withdrawn, Health.rederived_pace withdrawn paced⟩
  refine ⟨?_, ?_, ?_, ?_, ?_⟩
  · rw [derived.1, Health.rederived_skip]
  · rw [derived.2, derived.1]
  · rw [Health.rederived_skip]
    exact scored.skip skip
  · rw [Health.rederived_erasure]
    exact scored.erasure erasure
  · exact (Health.rederived_quiet_le x).trans (scored.quiet ▸ quiet)

end

/-! ### Every command -/

/-- A step keeps what every command keeps, if taking a command from the queue keeps it too. -/
theorem step_keeps {K : State → Prop} (M : AllMoves K) {s t : State} (taken : ∀ rest, K s → K (s.setPending rest))
    (hard : ∀ cause addr x u, K (hardReset cause addr x u)) (soft : ∀ {u : State}, K u → K (softReset u)) (h : K s)
    (e : step s = .next t) : K t := by
  unfold step at e
  split at e
  · cases e
    exact h
  · exact exec_keeps M _ (fun cause addr x => hard cause addr x _) soft (taken _ h) e

/-- The Monitor's relations hold (R75, R78, R80). -/
def HealthSound (s : State) : Prop := s.health.Sound

namespace HealthSound

/-- Only the Monitor moves its record. -/
theorem playMoves : PlayMoves HealthSound where
  setAsm _ _ h := h
  setPlanner _ _ h := h
  setLink _ _ h := h
  setStore _ _ h := h
  setNotices _ h := h
  dropIntake h := h
  overflow _ h := h
  changeStore _ _ h := h
  setFeeder _ _ h := h
  setPlay _ _ h := h
  write _ _ h := h
  raised _ _ _ h := h
  loadRequested _ h := h

theorem moves : AllMoves HealthSound where
  toPlayMoves := playMoves
  setAny _ h := h
  changePlanner _ h := h
  requested _ h := h
  changeLink _ _ h := h
  raisedAny _ _ h := h
  setHealth _ sound h := sound h
  rederived {s} x scored h := by
    unfold HealthSound
    rw [rederiveHealth_health, State.health_setHealth]
    exact Health.Sound.rederived h scored
  setSense _ _ h := h
  setConsole _ _ h := h
  setAttn _ h := h
  clearResume h := h
  commanded _ _ owner h := commanded_of (fun _ _ w => w) (fun _ w => w) _ _ owner h
  sampled _ h := sampled_of playMoves (fun _ _ w => w) (fun _ w => w) (fun _ w => w) _ h
  settled h := settled_of playMoves (fun _ _ w => w) (fun _ w => w) (fun _ w => w) h
  recovered _ h := recovered_of playMoves (fun _ _ w => w) (fun _ w => w) (fun _ w => w) h

/-- The judgement of the Resume Table leaves the Monitor as it was reset (R89, R175). -/
theorem hardReset (cause : ResetCause) (addr : Bool) (x : Stored) (s : State) : HealthSound (hardReset cause addr x s) := by
  have blocks : HealthSound (resetBlocks cause addr s) := State.reset_health
  have judged : ∀ r : Resume, HealthSound ((resetBlocks cause addr s).setResume r) := fun _ => blocks
  unfold Machine.hardReset judgeResume
  split
  · split
    · exact judged _
    · exact moves.raisedAny _ _ (judged _)
  · exact moves.raisedAny _ _ (judged _)

end HealthSound

end Sys2Proof.Machine

namespace Sys2Proof.Claims

open Sys2Proof.Machine

/-- Settles O55: the Monitor's own changes keep its relations, no other block moves its record, and every reset leaves the values of
R89. -/
theorem healthKept : Obligations.HealthKept := fun _ _ sound e =>
  step_keeps HealthSound.moves (fun _ h => h) HealthSound.hardReset (fun _ => State.reset_health) sound e

end Sys2Proof.Claims
end

