-- ==== Sys2Proof/Proofs/Recovery.lean ====
section
/-!
SUPPORT. The Monitor's two answers that end a withdrawal: the recovery (R85), and the SETTLED it waits for (R83). Then the statements about
them (O9, O18).
-/
namespace Sys2Proof.Machine

/-! ### Recovery (R85) -/

/-- The Monitor's record after recovery (R85). -/
def Health.recovered (h : Health) : Health :=
  { h with
    state := .steady, skip := 0, pace := .normal, quiet := 0, settledSeen := false, disturbed := false
    counters := { h.counters with recovery := bump h.counters.recovery } }

/-- The state in which the planner is told of the recovery: PACE NORMAL is requested (R85). -/
def recoveryPaced (s : State) : State := txRequest (.pace .normal) (s.setHealth s.health.recovered)

/-- The state after the planner took the notice of the recovery, before HEALTH is raised (R85, R87). -/
def recoveryTold (s : State) : State := plannerNotice false (recoveryPaced s)

section
variable (s : State)

theorem recoverHealth_raises : recoverHealth s = raise .health 1 (recoveryTold s) := rfl

theorem recoveryTold_frame : KeepsChoice (recoveryPaced s) (recoveryTold s) := KeepsChoice.plannerNotice false (recoveryPaced s)

/-- No choice of a stream withdraws the PACE (R109). -/
theorem recoveryTold_pace : (recoveryTold s).link.Carries (.pace .normal) :=
  (recoveryTold_frame s).link.other _ (.inl rfl) (Link.request_carries _ (by exact nofun))

/-- A recovery that is due is the whole of RECOVERY: it hands no notice of readiness. -/
theorem execRecovery_due {s : State} (due : recoveryDue (s.setNotices []) = true) :
    execRecovery s = .next ((recoverHealth (s.setNotices [])).setNotices s.notices) := by
  have recovers : (if recoveryDue (s.setNotices []) then recoverHealth (s.setNotices []) else s.setNotices []) =
      recoverHealth (s.setNotices []) := if_pos due
  have quiet : (recoverHealth (s.setNotices [])).notices = [] := (recoveryTold_frame (s.setNotices [])).notices
  unfold execRecovery
  rw [inStep_quiet (by rw [recovers]; exact quiet), recovers]

end

end Sys2Proof.Machine

namespace Sys2Proof.Claims

open Sys2Proof.Machine

/-- Settles O9: the Monitor's record and the PACE stand before the planner's notice, which moves neither. -/
theorem recoveryRuns : Obligations.RecoveryRuns := by
  intro s withdrawn seen calm reached
  have due : recoveryDue (s.setNotices []) = true := recoveryDue_iff.mpr ⟨⟨withdrawn, seen, calm⟩, reached⟩
  have told := recoveryTold_frame (s.setNotices [])
  have paced := recoveryTold_pace (s.setNotices [])
  refine ⟨_, execRecovery_due due, ?_⟩
  rw [recoverHealth_raises]
  generalize recoveryTold (s.setNotices []) = u at told paced
  refine ⟨told.health, paced, ?_, fun e other => ?_, told.store, told.feeder, told.play, told.resume, told.sense, told.supply,
    told.console, told.pending⟩
  · have raised := raisedOnce_raise .health 1 u
    unfold RaisedOnce at raised ⊢
    rw [told.attn] at raised
    exact raised
  · refine (Attn.record_raise_other _ _ _ _ fun same => other ?_).trans (congrArg (fun a => a.record e.index) told.attn)
    exact List.mem_singleton.mpr (Event.index_injective same)

/-! ### SETTLED (R83) -/

/-- Settles O18: the link hands the SETTLED to the Monitor, which moves its own record alone. -/
theorem settledTaken : Obligations.SettledTaken := by
  intro noise n s ready
  refine completes_message ready (noise := noise) (monitorFirst := false) (m := .settled n.toNat) rfl rfl fun l _ => ?_
  have taken : dispatch false (.settled n.toNat) (taking s l) = monitorSettled (taking s l) := rfl
  rw [taken, takeNotices_none rfl]
  exact ⟨rfl, rfl, rfl, rfl, rfl, rfl, rfl, rfl, rfl, rfl, rfl, rfl⟩

end Sys2Proof.Claims
end

