-- ==== Sys2Proof/Proofs/LinkKeptStep.lean ====
section
/-!
SUPPORT. The Transmit Queue and the transmitter through every command (R108, R111). Then the statement that every step keeps them (O54).
-/
namespace Sys2Proof.Machine

/-- The Transmit Queue holds at most one message of a class, and none while the transmitter is IDLE (R108, R111). -/
def LinkSound (s : State) : Prop := s.link.Sound

namespace LinkSound

/-- A request at the queue, whatever it asks for. -/
theorem txRequest (m : TxMsg) {s : State} (h : LinkSound s) : LinkSound (txRequest m s) := Link.request_sound h m

/-- The planner's side moves the queue by requests and withdrawals (R109, R110), the Play Controller by LOAD. -/
theorem playMoves : PlayMoves LinkSound where
  setAsm _ _ h := h
  setPlanner _ _ h := h
  setLink _ leads h := leads.sound h
  setStore _ _ h := h
  setNotices _ h := h
  dropIntake h := h
  overflow _ h := h
  changeStore _ _ h := h
  setFeeder _ _ h := h
  setPlay _ _ h := h
  write _ _ h := h
  raised _ _ _ h := h
  loadRequested _ h := txRequest _ h

theorem moves : AllMoves LinkSound where
  toPlayMoves := playMoves
  setAny _ h := h
  changePlanner _ h := h
  requested _ h := txRequest _ h
  changeLink _ sound h := sound h
  raisedAny _ _ h := h
  setHealth _ _ h := h
  rederived _ _ h := rederived_of playMoves (fun _ w => txRequest _ w) (fun _ _ w => w) (fun _ w => w) _ h
  setSense _ _ h := h
  setConsole _ _ h := h
  setAttn _ h := h
  clearResume h := h
  commanded _ _ owner h := commanded_of (fun _ _ w => w) (fun _ w => w) _ _ owner h
  sampled _ h := sampled_of playMoves (fun _ _ w => w) (fun _ w => w) (fun _ w => w) _ h
  settled h := settled_of playMoves (fun _ _ w => w) (fun _ w => w) (fun _ w => w) h
  recovered _ h := recovered_of playMoves (fun _ _ w => w) (fun _ w => w) (fun _ w => w) h

/-- After a reset the transmitter sends PACE NORMAL and nothing waits (R89, R113). -/
theorem restarted (l : Link) : l.restarted.Sound := Link.sound_of_same Link.afterReset_sound rfl rfl

/-- The judgement of the Resume Table leaves the link as it was reset (R113, R175). -/
theorem hardReset (cause : ResetCause) (addr : Bool) (x : Stored) (s : State) : LinkSound (hardReset cause addr x s) := by
  have judged : ∀ r : Resume, LinkSound ((resetBlocks cause addr s).setResume r) := fun _ => restarted s.link
  unfold Machine.hardReset judgeResume
  split
  · split
    · exact judged _
    · exact moves.raisedAny _ _ (judged _)
  · exact moves.raisedAny _ _ (judged _)

end LinkSound

end Sys2Proof.Machine

namespace Sys2Proof.Claims

open Sys2Proof.Machine

/-- Settles O54: requests, withdrawals and the transmitter's own changes keep the relation, and every reset leaves the link of R113. -/
theorem linkKept : Obligations.LinkKept := fun _ _ sound e =>
  step_keeps LinkSound.moves (fun _ h => h) LinkSound.hardReset (fun _ => LinkSound.restarted _) sound e

end Sys2Proof.Claims
end

