-- ==== Sys2Proof/Proofs/QueueRows.lean ====
section
/-!
SUPPORT. What a request and a withdrawal do to the Transmit Queue, by where it holds a message of the class (R109, R110). Then the
statements about them (O51, O52).
-/
namespace Sys2Proof.Machine

/-! ### Replacement (R109) -/

theorem replaceOrAdd_absent {m : TxMsg} {q : List TxMsg} (absent : m.cls ∉ q.map TxMsg.cls) : replaceOrAdd m q = q ++ [m] := by
  induction q with
  | nil => rfl
  | cons x rest ih =>
    obtain ⟨other, absent⟩ := not_or.mp (fun h => absent (List.mem_cons.mpr h))
    unfold replaceOrAdd
    rw [if_neg (Ne.symm other), ih absent]
    rfl

theorem replaceOrAdd_present {m x : TxMsg} (same : x.cls = m.cls) (b : List TxMsg) {a : List TxMsg}
    (first : m.cls ∉ a.map TxMsg.cls) : replaceOrAdd m (a ++ x :: b) = a ++ m :: b := by
  induction a with
  | nil => exact if_pos same
  | cons y rest ih =>
    obtain ⟨other, first⟩ := not_or.mp (fun h => first (List.mem_cons.mpr h))
    show replaceOrAdd m (y :: (rest ++ x :: b)) = _
    unfold replaceOrAdd
    rw [if_neg (Ne.symm other), ih first]
    rfl

theorem requestQueue_replaces {m : TxMsg} (replaces : m.cls = .seek ∨ m.cls = .pace ∨ m.cls = .load) (q : List TxMsg) :
    requestQueue m q = replaceOrAdd m q := by
  cases m with
  | seek n b | pace l | load p => rfl
  | cease n | hold | go => rcases replaces with h | h | h <;> cases h

/-! ### Messages of a class (R108) -/

theorem dropClass_absent {c : TxClass} {q : List TxMsg} (absent : c ∉ q.map TxMsg.cls) : dropClass c q = q :=
  List.filter_eq_self.mpr fun _ hx => decide_eq_true fun same => absent (same ▸ List.mem_map_of_mem hx)

/-- A queue of one message a class loses the one message of the class. -/
theorem dropClass_present {x : TxMsg} {a b : List TxMsg} (once : ((a ++ x :: b).map TxMsg.cls).Nodup) :
    dropClass x.cls (a ++ x :: b) = a ++ b := by
  rw [List.map_append, List.map_cons, List.nodup_middle, List.nodup_cons, ← List.map_append] at once
  have before : x.cls ∉ a.map TxMsg.cls := fun h => once.1 (by rw [List.map_append]; exact List.mem_append_left _ h)
  have behind : x.cls ∉ b.map TxMsg.cls := fun h => once.1 (by rw [List.map_append]; exact List.mem_append_right _ h)
  have dropped : dropClass x.cls (x :: b) = dropClass x.cls b := List.filter_cons_of_neg (by simp)
  calc dropClass x.cls (a ++ x :: b) = dropClass x.cls a ++ dropClass x.cls (x :: b) := List.filter_append a (x :: b)
    _ = a ++ b := by rw [dropped, dropClass_absent before, dropClass_absent behind]

/-- In a queue of one message a class two messages of a class are the same. -/
theorem eq_of_cls_eq {q : List TxMsg} (once : (q.map TxMsg.cls).Nodup) {x y : TxMsg} (hx : x ∈ q) (hy : y ∈ q)
    (same : x.cls = y.cls) : x = y := List.inj_on_of_nodup_map once hx hy same

/-! ### Flow requests (R42, R109) -/

section
variable {m o : TxMsg} {q : List TxMsg}

theorem flowRequest_absent (flow : m.cls = .flow) (opposite : o.cls = .flow) (absent : TxClass.flow ∉ q.map TxMsg.cls) :
    flowRequest m o q = q ++ [m] := by
  have without : ∀ x : TxMsg, x.cls = .flow → ¬ q.contains x = true := fun x hx waits =>
    absent (hx ▸ List.mem_map_of_mem (List.contains_iff_mem.mp waits))
  unfold flowRequest
  rw [if_neg (without o opposite), if_neg (without m flow)]

theorem flowRequest_waits (once : (q.map TxMsg.cls).Nodup) (same : m.cls = o.cls) (other : m ≠ o) (waits : m ∈ q) :
    flowRequest m o q = q := by
  have alone : ¬ q.contains o = true := fun h => other (eq_of_cls_eq once waits (List.contains_iff_mem.mp h) same)
  unfold flowRequest
  rw [if_neg alone, if_pos (List.contains_iff_mem.mpr waits)]

theorem flowRequest_cancels {a b : List TxMsg} (once : ((a ++ o :: b).map TxMsg.cls).Nodup) (opposite : o.cls = .flow) :
    flowRequest m o (a ++ o :: b) = a ++ b := by
  unfold flowRequest
  rw [if_pos (List.contains_iff_mem.mpr (List.mem_append_right _ List.mem_cons_self)), ← opposite]
  exact dropClass_present once

end

/-! ### Withdrawal (R110) -/

theorem TxMsg.isSeekOf_iff (m : TxMsg) (n : Nat) : m.isSeekOf n = true ↔ ∃ b, m = .seek n b := by
  cases m with
  | seek k b => simp [TxMsg.isSeekOf]
  | cease k | hold | go | pace l | load p => exact ⟨nofun, fun ⟨_, e⟩ => by cases e⟩

theorem withdrawn_absent {n : Nat} {q : List TxMsg} (absent : ∀ b, TxMsg.seek n b ∉ q) :
    q.filter (fun m => !m.isSeekOf n) = q := by
  refine List.filter_eq_self.mpr fun m hm => ?_
  rw [Bool.not_eq_true', Bool.eq_false_iff, ne_eq, TxMsg.isSeekOf_iff]
  rintro ⟨b, rfl⟩
  exact absent b hm

theorem withdrawn_present {n x : Nat} {front back : List TxMsg} (before : ∀ b, TxMsg.seek n b ∉ front)
    (behind : ∀ b, TxMsg.seek n b ∉ back) :
    (front ++ .seek n x :: back).filter (fun m => !m.isSeekOf n) = front ++ back := by
  have gone : (TxMsg.seek n x :: back).filter (fun m => !m.isSeekOf n) = back.filter (fun m => !m.isSeekOf n) :=
    List.filter_cons_of_neg (by rw [(TxMsg.isSeekOf_iff _ n).mpr ⟨x, rfl⟩]; nofun)
  rw [List.filter_append, gone, withdrawn_absent before, withdrawn_absent behind]

end Sys2Proof.Machine

namespace Sys2Proof.Claims

open Sys2Proof.Machine

/-- Settles O51, class by class. -/
theorem queueRequests : Obligations.QueueRequests := by
  refine ⟨fun m q replaces => ?replaced, fun n q once => ?ceased, fun m o q opposite once => ?turned⟩
  case replaced =>
    rw [requestQueue_replaces replaces]
    refine ⟨replaceOrAdd_absent, ?_⟩
    rintro a x b rfl same first
    exact replaceOrAdd_present same b first
  case ceased =>
    refine ⟨fun absent => congrArg _ (dropClass_absent absent), ?_⟩
    rintro k rest rfl
    exact congrArg _ (dropClass_present (a := []) once)
  case turned =>
    have classes : m.cls = .flow ∧ o.cls = .flow ∧ m ≠ o ∧ requestQueue m q = flowRequest m o q := by
      rcases opposite with ⟨rfl, rfl⟩ | ⟨rfl, rfl⟩
      · exact ⟨rfl, rfl, nofun, rfl⟩
      · exact ⟨rfl, rfl, nofun, rfl⟩
    obtain ⟨flow, flow', other, request⟩ := classes
    rw [request]
    refine ⟨flowRequest_absent flow flow', flowRequest_waits once (flow.trans flow'.symm) other, ?_⟩
    rintro a b rfl
    exact flowRequest_cancels once flow'

/-- Settles O52: the withdrawal is a filter of the queue alone. -/
theorem seekWithdrawn : Obligations.SeekWithdrawn := by
  refine fun n s => ⟨fun absent => ?_, fun front x back queue before behind => ?_⟩
  · unfold withdrawSeek
    rw [withdrawn_absent absent]
    rfl
  · unfold withdrawSeek
    rw [queue, withdrawn_present before behind]

end Sys2Proof.Claims
end

