-- ==== Sys2Proof/Proofs/LineRows.lean ====
section
/-!
SUPPORT. The line high after WAIT_HIGH (R95), the end of a message and the end of the gap after it (R111), as changes of the link. Then the
statement about the four rows (O24).
-/
namespace Sys2Proof.Machine

/-! ### The transmitter -/

/-- A transmitter that becomes IDLE takes the head of the queue, if there is one (R111). -/
theorem Link.kick_idle (l : Link) :
    ({ l with tx := .idle } : Link).kick =
      { l with
        queue := l.queue.tail
        tx := match l.queue with
          | [] => .idle
          | m :: _ => .sending m } := by
  obtain ⟨sampling, assembly, breakCount, lost, queue, tx, changes, changed, plc, counters⟩ := l
  cases queue with
  | nil => rfl
  | cons m rest => rfl

theorem Link.lineHigh_free {l : Link} (free : l.tx ≠ .held) : l.lineHigh = { l with sampling := .hunting, breakCount := 0 } := by
  unfold Link.lineHigh
  dsimp only
  split
  · rename_i held
    exact absurd held free
  all_goals rfl

theorem Link.lineHigh_held {l : Link} (held : l.tx = .held) :
    l.lineHigh = ({ l with sampling := .hunting, breakCount := 0, tx := .idle } : Link).kick := by
  unfold Link.lineHigh
  dsimp only
  rw [held]

/-- The receiver in WAIT_HIGH finds the line high (R95). -/
theorem lineHigh_waiting {s : State} (on : s.console.params.receiverEnable = 1) (waits : s.link.sampling = .waitHigh) :
    lineHigh s = s.setLink s.link.lineHigh := by
  unfold lineHigh
  rw [if_pos]
  · rfl
  · rw [waits]
    simpa [receiverOn] using on

/-- The stream's record once a message is sent: a SEEK of the stream starts its timer (R57). -/
def Stream.sent (x : Stream) : TxMsg → Stream
  | .seek n _ => if x.number = n ∧ x.state = .seeking then { x with timer := 0, timerRuns := true } else x
  | .cease _ | .hold | .go | .pace _ | .load _ => x

theorem seekSent_stream (n b : Nat) (s : State) : seekSent n s = setStream (s.planner.stream.sent (.seek n b)) s := by
  unfold seekSent Stream.sent
  dsimp only
  split
  · rfl
  · rfl

/-- The end of a message changes the link and the stream's record (R57, R111). -/
theorem transmitted_sending {s : State} {m : TxMsg} (sending : s.link.tx = .sending m) :
    transmitted s = (s.setLink (s.link.finish m (linkFormat s))).setPlanner
      { s.planner with stream := s.planner.stream.sent m } := by
  unfold transmitted
  rw [sending]
  cases m with
  | seek n b => exact seekSent_stream n b (s.setLink _)
  | cease n | hold | go | pace l | load p => rfl

theorem gapOver_gap {s : State} (gap : s.link.tx = .gap) :
    gapOver s = s.setLink ({ s.link with tx := .idle } : Link).kick := by
  unfold gapOver
  rw [gap]
  rfl

/-- A command that changes the link alone. -/
theorem inStep_setLink {f : State → State} {s : State} {l : Link} (h : f (s.setNotices []) = (s.setNotices []).setLink l) :
    inStep f s = .next (s.setLink l) := by
  rw [inStep_quiet (by rw [h]; rfl), h]
  rfl

end Sys2Proof.Machine

namespace Sys2Proof.Claims

open Sys2Proof.Machine

/-- Settles O24, row by row. -/
theorem lineAndTransmitter : Obligations.LineAndTransmitter := by
  refine fun s => ⟨fun on waits free => ?idle, fun on waits held => ?release, fun m sending => ?complete, fun gap => ?ended⟩
  case idle =>
    refine inStep_setLink ((lineHigh_waiting (s := s.setNotices []) on waits).trans ?_)
    exact congrArg _ (Link.lineHigh_free free)
  case release =>
    refine inStep_setLink ((lineHigh_waiting (s := s.setNotices []) on waits).trans (congrArg _ ?_))
    exact (Link.lineHigh_held held).trans (Link.kick_idle { s.link with sampling := .hunting, breakCount := 0 })
  case complete =>
    have sent := transmitted_sending (s := s.setNotices []) sending
    refine (inStep_quiet (by rw [sent]; rfl)).trans ?_
    rw [sent]
    cases m with
    | seek n b | cease n | hold | go | pace l | load p => rfl
  case ended =>
    exact inStep_setLink ((gapOver_gap (s := s.setNotices []) gap).trans (congrArg _ (Link.kick_idle s.link)))

end Sys2Proof.Claims
end

