-- ==== Sys2Proof/Proofs/RateMarks.lean ====
section
/-!
SUPPORT. A command that hands no notice of readiness, and LINK_FAULT alone among the events. Then the Rate Mark (R107) and the statement
about it (O21).
-/
namespace Sys2Proof.Machine

/-- When a Rate Mark locks: the measured divisor is in range, and within 35 percent of the current one (R107). -/
theorem rateLocks_iff (current span : Nat) :
    rateLocks current span = true ↔
      (1 ≤ (span + 64) / 128 ∧ (span + 64) / 128 ≤ 1023) ∧
        20 * (((span + 64) / 128 - current) + (current - (span + 64) / 128)) ≤ 7 * current := by
  unfold rateLocks measuredDivisor
  dsimp only
  rw [Bool.and_eq_true, Bool.and_eq_true, decide_eq_true_iff, decide_eq_true_iff, decide_eq_true_iff]

theorem takeRateMark_locks {s : State} {span : Nat} (h : rateLocks s.console.params.linkDivisor span = true) :
    takeRateMark (some span) s = lockRate ((span + 64) / 128) s := if_pos h

theorem takeRateMark_fails {s : State} {span : Nat} (h : ¬ rateLocks s.console.params.linkDivisor span = true) :
    takeRateMark (some span) s = failRate s := if_neg h

end Sys2Proof.Machine

namespace Sys2Proof.Claims

open Sys2Proof.Machine

/-- A command that hands no notice of readiness answers what it does (R16). -/
theorem completes_quiet {c : Instr} {s u : State} {f : State → State} {P : State → Prop} (runs : exec c s = inStep f s)
    (effect : f (s.setNotices []) = u) (quiet : u.notices = []) (h : P (u.setNotices s.notices)) : Completes c s P := by
  subst effect
  exact ⟨_, runs.trans (inStep_quiet quiet), h⟩

/-- A raise raises its own event alone (R190). -/
theorem onlyRaised_raise (e : Event) (d : Nat) (s : State) : OnlyRaised [e] s (raise e d s) := fun _ other =>
  Attn.record_raise_other _ _ _ _ fun same => other (List.mem_singleton.mpr (Event.index_injective same))

/-- A Rate Mark that the receiver takes changes the link alone before it is judged (R95, R107). -/
theorem completes_rateMark {noise span : Nat} {s : State} {P : State → Prop} (ready : LinkReady s)
    (h : ∀ l, l.counters = { s.link.counters with noise := bumpBy s.link.counters.noise noise } →
      (takeRateMark (some span) (taking s l)).notices = [] ∧ P ((takeRateMark (some span) (taking s l)).setNotices s.notices)) :
    Completes (.rateMark noise span) s P := by
  obtain ⟨on, idle⟩ := ready
  obtain ⟨l, begun, -, counters, -, -⟩ := beginMessage_idle (s := s.setNotices []) idle noise
  have enabled : receiverOn (s.setNotices []) = true := decide_eq_true on
  obtain ⟨quiet, holds⟩ := h l counters
  refine completes_quiet rfl ?_ quiet holds
  show (if receiverOn (s.setNotices []) then _ else _) = _
  rw [if_pos enabled, begun]
  rfl

/-- Settles O21: the mark locks exactly under the three conditions, and else it fails. -/
theorem rateMarkMeasured : Obligations.RateMarkMeasured := by
  refine fun noise span s ready => ⟨fun low high near => ?locks, fun out => ?fails⟩
  case locks =>
    refine completes_rateMark ready fun l counters => ?_
    rw [takeRateMark_locks (s := taking s l) ((rateLocks_iff _ _).mpr ⟨⟨low, high⟩, near⟩)]
    refine ⟨rfl, rfl, ?_, ?_, rfl, rfl, rfl, rfl, rfl, rfl, rfl⟩
    · show bump l.counters.rateLock = _
      rw [counters]
    · show l.counters.rateFail = _
      rw [counters]
  case fails =>
    refine completes_rateMark ready fun l counters => ?_
    rw [takeRateMark_fails (s := taking s l)]
    · refine ⟨rfl, ?_, ?_, raisedOnce_raise .linkFault 9 s, onlyRaised_raise .linkFault 9 s, rfl, rfl, ⟨rfl, rfl, rfl, rfl⟩, rfl, rfl,
        rfl, rfl, rfl⟩
      · show bump l.counters.rateFail = _
        rw [counters]
      · show l.counters.rateLock = _
        rw [counters]
    · show ¬ rateLocks s.console.params.linkDivisor span = true
      rw [rateLocks_iff]
      omega

end Sys2Proof.Claims
end

