-- ==== Sys2Proof/Proofs/LostMessages.lean ====
section
/-!
SUPPORT. The characters of a message one by one, up to what assembly does with each (R95 to R105), and what a loss leaves (R105). Then the
statement about lost messages (O22).
-/
namespace Sys2Proof.Machine

/-! ### One character (R95, R96) -/

/-- The line between two characters changes the link alone, and neither assembly, the flag nor a counter (R95). -/
theorem lineHigh_setLink (s : State) :
    ∃ l, lineHigh s = s.setLink l ∧ l.assembly = s.link.assembly ∧ l.lost = s.link.lost ∧ l.counters = s.link.counters := by
  unfold lineHigh
  split
  · obtain ⟨assembly, counters, -, -⟩ := s.link.lineHigh_fields
    exact ⟨s.link.lineHigh, rfl, assembly, s.link.lineHigh_messages.1, counters⟩
  · exact ⟨s.link, rfl, rfl, rfl, rfl⟩

/-- A character whose start is confirmed changes the link alone before assembly takes it: its noise is counted (R95, R96). -/
theorem receiveChar_judged {s : State} {c : RxChar} {j : Judged} (on : s.console.params.receiverEnable = 1)
    (judged : judgeChar (parityKind s.console.params.linkParity) s.console.params.linkStopBits c = some j) :
    ∃ l, receiveChar c s = assemble j c.span (s.setLink l) ∧ l.assembly = s.link.assembly ∧ l.lost = s.link.lost ∧
      l.counters = { s.link.counters with noise := bumpBy s.link.counters.noise j.noisy } := by
  obtain ⟨l, line, assembly, lost, counters⟩ := lineHigh_setLink s
  have enabled : receiverOn s = true := decide_eq_true on
  have judged' : judgeChar (parityKind (s.setLink l).console.params.linkParity) (s.setLink l).console.params.linkStopBits c = some j :=
    judged
  refine ⟨l.afterChar c j, ?_, assembly, lost, by rw [← counters]; rfl⟩
  unfold receiveChar
  rw [if_pos enabled, line]
  dsimp only
  rw [judged']
  rfl

/-! ### Assembly (R100 to R104) -/

section
variable {s : State} {j : Judged} {b : Byte} {span : Option Nat} {held : List Byte} {kind : RxKind}

/-- A faulted character in DISCARDING is counted (R100). -/
theorem assemble_faulted_discarding {x : CharFault} (fault : j.fault = some x) (h : s.link.assembly = .discarding) :
    assemble j span s = countFault x s := by
  unfold assemble takeFaulted
  rw [fault]
  dsimp only
  rw [h]

/-- A faulted character outside DISCARDING loses the message (R100). -/
theorem assemble_faulted {x : CharFault} (fault : j.fault = some x) (h : s.link.assembly ≠ .discarding) :
    assemble j span s = setAssembly .discarding (loseMessage x.loss s) := by
  unfold assemble takeFaulted
  rw [fault]
  dsimp only
  split
  · rename_i discarding
    exact absurd discarding h
  · rfl
  · rfl

theorem assemble_header (sound : j.fault = none) (marker : j.marker = true) :
    assemble j span s = takeHeader j.byte span (truncate s) := by
  unfold assemble
  rw [sound, marker]
  rfl

theorem assemble_body (sound : j.fault = none) (marker : j.marker = false) : assemble j span s = takeBody j.byte s := by
  unfold assemble
  rw [sound, marker]
  rfl

theorem truncate_inMessage (h : s.link.assembly = .inMessage held) : truncate s = loseMessage .truncated s := by
  unfold truncate
  rw [h]

theorem truncate_outside (h : s.link.assembly = .idle ∨ s.link.assembly = .discarding) : truncate s = s := by
  unfold truncate
  rcases h with h | h
  · rw [h]
  · rw [h]

theorem takeHeader_unknown (h : headerKind b = .unknown) :
    takeHeader b span s = setAssembly .discarding (loseMessage .unknownKind s) := by
  unfold takeHeader
  rw [h]

theorem takeHeader_begins (h : headerKind b = .message kind) (room : kind ≠ .block ∨ s.asm.intake.length < 2) :
    takeHeader b span s = setAssembly (.inMessage [b]) s := by
  unfold takeHeader
  rw [h]
  refine if_neg ?_
  simpa [intakeFull, imp_iff_not_or] using room

theorem takeHeader_overrun (h : headerKind b = .message .block) (full : 2 ≤ s.asm.intake.length) : takeHeader b span s = overrun s := by
  unfold takeHeader
  rw [h]
  exact if_pos (decide_eq_true full)

theorem takeBody_idle (h : s.link.assembly = .idle) : takeBody b s = setAssembly .discarding (loseMessage .marker s) := by
  unfold takeBody
  rw [h]

theorem takeBody_inMessage (h : s.link.assembly = .inMessage held) : takeBody b s = takeHeld (b :: held) s := by
  unfold takeBody
  rw [h]

theorem countMalformed_iff (kind : RxKind) (bytes : List Byte) :
    countMalformed kind bytes = true ↔
      kind = .block ∧ 2362 ≤ bytes.length ∧ 65 ≤ erasureCount bytes ∧ erasureCount bytes ≠ 65535 := by
  simp [countMalformed, and_assoc, Nat.lt_iff_add_one_le]

/-- The erasure count of a BLOCK is out of range (R102). -/
theorem takeHeld_malformed (header : headerKind (held.reverse.headD 0) = .message kind)
    (malformed : countMalformed kind held.reverse = true) :
    takeHeld held s = setAssembly .discarding (loseMessage .malformed s) := by
  unfold takeHeld
  dsimp only
  rw [header]
  exact if_pos malformed

/-- The last character of a message (R102). -/
theorem takeHeld_complete (header : headerKind (held.reverse.headD 0) = .message kind)
    (possible : ¬ countMalformed kind held.reverse = true) (last : messageLength kind held.reverse = some held.reverse.length) :
    takeHeld held s = complete kind held.reverse s := by
  unfold takeHeld
  dsimp only
  rw [header]
  dsimp only
  rw [if_neg possible, last]
  exact if_pos (Nat.le_refl _)

theorem complete_check {bytes : List Byte} (wrong : checkPasses bytes = false) :
    complete kind bytes s = setAssembly .idle (loseMessage .check s) := by
  unfold complete
  rw [wrong]
  rfl

theorem complete_malformed {bytes : List Byte} (right : checkPasses bytes = true)
    (malformed : (readMessage kind (bytes.headD 0) ((bytes.drop 1).take (bytes.length - 3))).malformed = true) :
    complete kind bytes s = setAssembly .idle (loseMessage .malformed s) := by
  unfold complete deliver
  rw [right, malformed]
  rfl

end

/-! ### The tables of R101 to R104 -/

/-- The check of a message is the CRC over what stands before it (R103). -/
theorem checkPasses_append (bytes : List Byte) (hi lo : Byte) :
    checkPasses (bytes ++ [hi, lo]) = true ↔ hi.toNat * 256 + lo.toNat = (crc16 bytes).toNat := by
  have before : (bytes ++ [hi, lo]).length - 2 = bytes.length := by simp
  unfold checkPasses
  dsimp only
  rw [before, List.drop_left, List.take_left, decide_eq_true_iff]
  simp [natOf]

/-- The length of a BLOCK whose erasure count is known (R102). -/
theorem messageLength_block_known {bytes : List Byte} (known : 2362 ≤ bytes.length) :
    messageLength .block bytes = some (if erasureCount bytes = 65535 then 2364 else 2364 + 2 * erasureCount bytes) := by
  unfold messageLength
  dsimp only
  rw [if_neg (Nat.not_lt.mpr known), apply_ite some]

theorem crc16_append (bytes : List Byte) (b : Byte) : crc16 (bytes ++ [b]) = crcByte (crc16 bytes) b := List.foldl_append

theorem headerKind_table (header : Byte) :
    headerKind header =
      if header = 0x55 then .rateMark
      else if header.toNat / 16 = 1 then .message .disc
      else if header.toNat / 16 = 2 then .message .block
      else if header.toNat / 16 = 3 then .message .jump
      else if header.toNat / 16 = 4 then .message .landed
      else if header.toNat / 16 = 6 then .message .refused
      else if header.toNat / 16 = 7 then .message .settled
      else if header.toNat / 16 = 8 then .message .gone
      else .unknown := by
  unfold headerKind
  refine if_congr Iff.rfl rfl ?_
  generalize header.toNat / 16 = code
  split
  iterate 7 rfl
  rename_i disc block jump landed refused settled gone
  rw [if_neg disc, if_neg block, if_neg jump, if_neg landed, if_neg refused, if_neg settled, if_neg gone]

/-- The header of a BLOCK, with any stream number (R101). -/
theorem headerKind_block (n : BitVec 4) : headerKind (BitVec.ofNat 8 (0x20 + n.toNat)) = .message .block := by
  have value : (BitVec.ofNat 8 (0x20 + n.toNat)).toNat = 0x20 + n.toNat := by
    rw [BitVec.toNat_ofNat]
    omega
  have code : (BitVec.ofNat 8 (0x20 + n.toNat)).toNat / 16 = 2 := by
    rw [value]
    omega
  have other : BitVec.ofNat 8 (0x20 + n.toNat) ≠ 0x55 := fun e => by
    rw [e] at code
    exact absurd code (by decide)
  rw [headerKind_table, if_neg other, code]
  rfl

end Sys2Proof.Machine

namespace Sys2Proof.Claims

open Sys2Proof.Machine

/-! ### What a loss leaves (R105) -/

/-- LINK_FAULT is raised for a loss (R105). -/
theorem raisedOnce_loseMessage (x : Loss) (s : State) : RaisedOnce s (loseMessage x s) .linkFault x.detail :=
  raisedOnce_raise .linkFault x.detail (mapLink (fun l => { l with lost := true, counters := l.counters.lose x }) s)

theorem onlyRaised_loseMessage (x : Loss) (s : State) : OnlyRaised [.linkFault] s (loseMessage x s) :=
  onlyRaised_raise .linkFault x.detail (mapLink (fun l => { l with lost := true, counters := l.counters.lose x }) s)

/-- The first loss of a step: what the link held stays but for the flag and the counter. -/
theorem losesMessage_first (s : State) (l : Link) (x : Loss) :
    LosesMessage s (loseMessage x (taking s l)) (l.counters.lose x) l.assembly :=
  ⟨rfl, rfl, rfl, onlyRaised_loseMessage x (taking s l), rfl, rfl, ⟨rfl, rfl, rfl, rfl⟩, rfl, rfl, rfl, rfl, rfl⟩

/-- A further loss in the same step. -/
theorem losesMessage_again {s u : State} {counters : LinkCounters} {a : RxAssembly} (h : LosesMessage s u counters a) (y : Loss) :
    LosesMessage s (loseMessage y u) (counters.lose y) a := by
  obtain ⟨-, counted, assembly, only, asm, planner, audio⟩ := h
  exact ⟨rfl, congrArg (fun k => k.lose y) counted, assembly, fun e out => (onlyRaised_loseMessage y u e out).trans (only e out), asm,
    planner, audio⟩

/-- After the losses of a step assembly is set, and the step ends. -/
theorem losesMessage_ends {s u : State} {counters : LinkCounters} {a : RxAssembly} (h : LosesMessage s u counters a)
    (b : RxAssembly) : LosesMessage s ((setAssembly b u).setNotices s.notices) counters b := by
  obtain ⟨lost, counted, -, only, asm, planner, audio⟩ := h
  exact ⟨lost, counted, rfl, only, asm, planner, audio⟩

section
variable {s : State} {c : RxChar} {j : Judged} {P : State → Prop}

/-- One character of a lost message (R95, R105): what assembly does with it, where that hands no notice of readiness. -/
theorem completes_char (on : s.console.params.receiverEnable = 1)
    (judged : judgeChar (parityKind s.console.params.linkParity) s.console.params.linkStopBits c = some j)
    (h : ∀ l, l.assembly = s.link.assembly → l.counters = { s.link.counters with noise := bumpBy s.link.counters.noise j.noisy } →
      ∃ v, assemble j c.span (taking s l) = v ∧ v.notices = [] ∧ P (v.setNotices s.notices)) :
    Completes (.lostMessage [c]) s P := by
  obtain ⟨l, received, assembly, -, counters⟩ := receiveChar_judged (s := s.setNotices []) on judged
  obtain ⟨v, assembled, quiet, holds⟩ := h l assembly counters
  refine completes_quiet rfl ?_ quiet holds
  show takeNotices (receiveChar c (s.setNotices [])) = v
  have taken : receiveChar c (s.setNotices []) = v := received.trans assembled
  rw [taken, takeNotices_none quiet]

/-- A character that loses a message once. -/
theorem completes_loss (on : s.console.params.receiverEnable = 1)
    (judged : judgeChar (parityKind s.console.params.linkParity) s.console.params.linkStopBits c = some j) (x : Loss)
    (a : RxAssembly)
    (loses : ∀ l, l.assembly = s.link.assembly → assemble j c.span (taking s l) = setAssembly a (loseMessage x (taking s l))) :
    Completes (.lostMessage [c]) s (fun t =>
      LosesMessage s t
        (({ s.link.counters with noise := bumpBy s.link.counters.noise j.noisy } : LinkCounters).lose x) a ∧
        RaisedOnce s t .linkFault x.detail) := by
  refine completes_char on judged fun l assembly counters => ⟨_, loses l assembly, rfl, ?_⟩
  rw [← counters]
  exact ⟨losesMessage_ends (losesMessage_first s l x) a, raisedOnce_loseMessage x (taking s l)⟩

end

/-- Settles O22: what assembly does with each character, in the order of the statement, and the tables. -/
theorem messagesLost : Obligations.MessagesLost := by
  refine ⟨fun c j x s on judged fault => ⟨fun outside => ?faulted, fun discarding => ?counted⟩,
    fun noise n s ready full => ?overrun,
    fun c j s counters on judged sound counted => ⟨fun marker idle => ?marker, fun held marker inside => ?truncated,
      fun marker outside header => ?unknown, fun held bytes kind marker inside all header => ?body⟩,
    headerKind_table, fun bytes => ?lengths, fun n a b tag samples indices => ?contents⟩
  case faulted =>
    obtain ⟨t, answered, ⟨lost, counters, assembly, only, asm, planner, audio⟩, raised⟩ :=
      completes_loss on judged x.loss .discarding fun l same =>
        assemble_faulted (s := taking s l) fault (same ▸ outside)
    refine ⟨t, answered, lost, assembly, ?_, ?_, ?_, only, asm, planner, audio⟩
    · rw [counters]
      cases x <;> rfl
    · rw [counters]
      cases x <;> rfl
    · cases x <;> exact raised
  case counted =>
    obtain ⟨l, received, assembly, lost, counters⟩ := receiveChar_judged (s := s.setNotices []) on judged
    have standing : l.assembly = .discarding := assembly.trans discarding
    have counts : receiveChar c (s.setNotices []) = countFault x (taking s l) :=
      received.trans (assemble_faulted_discarding (s := taking s l) fault standing)
    have framing : l.counters.framing = s.link.counters.framing := by rw [counters]; rfl
    have parity : l.counters.parity = s.link.counters.parity := by rw [counters]; rfl
    refine completes_quiet rfl counts rfl ⟨lost, standing, ?_, ?_, rfl, rfl, rfl, ⟨rfl, rfl, rfl, rfl⟩, rfl, rfl, rfl, rfl, rfl⟩
    · cases x with
      | framing => exact congrArg bump framing
      | parity => exact framing
    · cases x with
      | framing => exact parity
      | parity => exact congrArg bump parity
  case overrun =>
    obtain ⟨on, idle⟩ := ready
    obtain ⟨l, begun, -⟩ := beginMessage_idle (s := s.setNotices []) idle noise
    have enabled : receiverOn (s.setNotices []) = true := decide_eq_true on
    refine completes_quiet (u := overrun (taking s l)) rfl ?_ rfl ⟨rfl, rfl, rfl, raisedOnce_raise .linkFault 8 s,
      onlyRaised_raise .linkFault 8 s, rfl, ⟨rfl, rfl, rfl, rfl⟩, rfl, rfl, rfl, rfl, rfl⟩
    show (if receiverOn (s.setNotices []) then _ else _) = _
    rw [if_pos enabled, begun]
    exact takeHeader_overrun (s := taking s l) (headerKind_block n) full
  case marker =>
    subst counted
    exact completes_loss on judged .marker .discarding fun l same =>
      (assemble_body sound marker).trans (takeBody_idle (s := taking s l) (same.trans idle))
  case truncated =>
    subst counted
    have truncates : ∀ l : Link, l.assembly = s.link.assembly →
        assemble j c.span (taking s l) = takeHeader j.byte c.span (loseMessage .truncated (taking s l)) := fun l same =>
      (assemble_header sound marker).trans
        (congrArg (takeHeader j.byte c.span) (truncate_inMessage (s := taking s l) (same.trans inside)))
    refine ⟨fun kind header room => ?_, fun header => ?_⟩
    · exact completes_loss on judged .truncated (.inMessage [j.byte]) fun l same =>
        (truncates l same).trans (takeHeader_begins (s := loseMessage .truncated (taking s l)) header room)
    · refine completes_char on judged fun l same counters =>
        ⟨_, (truncates l same).trans (takeHeader_unknown header), rfl, ?_⟩
      have first : RaisedOnce s (loseMessage .truncated (taking s l)) .linkFault 4 :=
        raisedOnce_loseMessage .truncated (taking s l)
      have second := raisedOnce_loseMessage .unknownKind (loseMessage .truncated (taking s l))
      refine ⟨?_, second.trans (congrArg (fun r => oneMore r 5) first)⟩
      rw [← counters]
      exact losesMessage_ends (losesMessage_again (losesMessage_first s l .truncated) .unknownKind) .discarding
  case unknown =>
    subst counted
    refine completes_loss on judged .unknownKind .discarding fun l same => (assemble_header sound marker).trans ?_
    rw [truncate_outside (s := taking s l) (outside.imp same.trans same.trans)]
    exact takeHeader_unknown header
  case body =>
    obtain rfl : bytes = (j.byte :: held).reverse := all.trans List.reverse_cons.symm
    subst counted
    have holds : ∀ l : Link, l.assembly = s.link.assembly →
        assemble j c.span (taking s l) = takeHeld (j.byte :: held) (taking s l) := fun l same =>
      (assemble_body sound marker).trans (takeBody_inMessage (s := taking s l) (same.trans inside))
    refine ⟨fun block length low high => ?_, fun last possible => ?_⟩
    · refine completes_loss on judged .malformed .discarding fun l same => (holds l same).trans (takeHeld_malformed header ?_)
      exact (countMalformed_iff _ _).mpr ⟨block, Nat.le_of_eq length.symm, low, by omega⟩
    · have inRange : ¬ countMalformed kind (j.byte :: held).reverse = true := by
        rw [countMalformed_iff]
        rintro ⟨block, -, low, other⟩
        rcases possible with h | h | h
        · exact h block
        · omega
        · exact other h
      have ends := fun (l : Link) (same : l.assembly = s.link.assembly) =>
        (holds l same).trans (takeHeld_complete header inRange last)
      exact ⟨fun wrong => completes_loss on judged .check .idle fun l same => (ends l same).trans (complete_check wrong),
        fun right malformed => completes_loss on judged .malformed .idle fun l same =>
          (ends l same).trans (complete_malformed right malformed)⟩
  case lengths =>
    refine ⟨rfl, rfl, rfl, rfl, rfl, rfl, fun short => if_pos short, messageLength_block_known, checkPasses_append bytes, rfl,
      crc16_append bytes, fun _ _ => ⟨rfl, rfl⟩⟩
  case contents =>
    refine ⟨?disc, ?block, rfl, ?landed, ?refused, ?gone, rfl, rfl⟩
    case disc => simp [RxMsg.malformed, or_assoc]
    case block => simp [RxMsg.malformed, or_assoc, Nat.lt_iff_add_one_le]
    case landed => simp [RxMsg.malformed, Nat.lt_iff_add_one_le]
    case refused => simp [RxMsg.malformed]
    case gone => simp [RxMsg.malformed]

end Sys2Proof.Claims
end

