-- ==== Sys2Proof/Proofs/DriveRestartRefuted.lean ====
section
/-!
SUPPORT. The statement about a Drive Restart (O23) asks `FrontierSound` alone where it says that PACE and LOAD alone wait, and
`FrontierSound` says nothing of the Assembler. Here is a state that satisfies it, with an alignment that is ANCHORED while there is no
stream (`AlignSound` fails). A planner that takes the restart first opens a FRONTIER stream; the alignment then makes the window full, which
makes an entry due, and the new stream is pre-empted with CEASE (R41, R53, R55). Nothing of the restart takes that CEASE back.
-/
namespace Sys2Proof.Machine

/-- PLAYING at the start of a disc of one block, no stream, the window not held; the alignment is ANCHORED and expects block 1, and the
one entry of the Repair List is due only while the window is held. -/
def misaligned : State :=
  { State.reset with
    store := { Store.reset with extent := 1 }
    asm := { Assembler.reset with align := { Align.reset with phase := .anchored, expected := 1 } }
    planner := { Planner.reset with active := true, list := [⟨97, 97, 0, 0, false⟩] }
    play := { Play.reset with state := .playing, disc := ⟨1, 0, 1, true⟩ } }

theorem misaligned_frontierSound : FrontierSound misaligned :=
  ⟨rfl, by decide, by decide, rfl, nofun, nofun, by decide, by decide⟩

/-- The order in which the planner takes the restart first. -/
def plannerFirst : List RestartOwner := [.planner, .playController, .monitor, .assembler]

/-- After the whole step the SEEK is withdrawn, LOAD and PACE are queued, and the CEASE still waits at the head. -/
theorem misaligned_driveRestart {t : State} (answered : exec (.driveRestart plannerFirst) misaligned = .next t) :
    t.link.queue = [.cease 1, .load 1, .pace .normal] := by
  obtain rfl := Host.Outcome.next.inj answered
  decide

end Sys2Proof.Machine

namespace Sys2Proof.Claims

open Sys2Proof.Machine

/-- Refutes O23: in `misaligned`, which is `FrontierSound`, a CEASE waits beside PACE and LOAD. -/
theorem not_driveRestartTaken : ¬ Obligations.DriveRestartTaken := by
  intro h
  obtain ⟨t, answered, -, -, -, -, -, -, -, -, -, -, -, -, -, quiet, -⟩ := h plannerFirst misaligned (by decide) rfl (by decide)
  obtain ⟨-, -, only⟩ := quiet misaligned_frontierSound
  have waits : TxMsg.cease 1 ∈ t.link.queue := by
    rw [misaligned_driveRestart answered]
    exact List.mem_cons_self
  rcases only _ waits with pace | load
  · cases pace
  · cases load

end Sys2Proof.Claims
end

