-- ==== Sys2Proof/Proofs/FeederKeptStep.lean ====
section
/-!
SUPPORT. The Output Feeder's relations through every command (R115, R119, R125). Then the statement that every step keeps them (O58), and
the statement about the tick that finds the word clock lost (O12).
-/
namespace Sys2Proof.Machine

/-- G and the concealment run agree with the feeder state (R115, R119, R125). -/
def FeederSound (s : State) : Prop := s.feeder.Sound

namespace FeederSound

/-- The feeder's own operations keep the relation (`Feeder.cue_sound` and those beside it), and no other block moves its record. -/
theorem playMoves : PlayMoves FeederSound where
  setAsm _ _ h := h
  setPlanner _ _ h := h
  setLink _ _ h := h
  setStore _ _ h := h
  setNotices _ h := h
  dropIntake h := h
  overflow _ h := h
  changeStore _ _ h := h
  setFeeder _ sound h := sound h
  setPlay _ _ h := h
  write _ _ h := h
  raised _ _ _ h := h
  loadRequested _ h := h

theorem moves : AllMoves FeederSound where
  toPlayMoves := playMoves
  setAny _ h := h
  changePlanner _ h := h
  requested _ h := h
  changeLink _ _ h := h
  raisedAny _ _ h := h
  setHealth _ _ h := h
  rederived _ _ h := rederived_of playMoves (fun _ w => w) (fun _ _ w => w) (fun _ w => w) _ h
  setSense _ _ h := h
  setConsole _ _ h := h
  setAttn _ h := h
  clearResume h := h
  commanded _ _ owner h := commanded_of (fun _ _ w => w) (fun _ w => w) _ _ owner h
  sampled _ h := sampled_of playMoves (fun _ _ w => w) (fun _ w => w) (fun _ w => w) _ h
  settled h := settled_of playMoves (fun _ _ w => w) (fun _ w => w) (fun _ w => w) h
  recovered _ h := recovered_of playMoves (fun _ _ w => w) (fun _ w => w) (fun _ w => w) h

end FeederSound

/-- A hard reset keeps what the reset blocks have, whatever the Resume Table holds after its judgement (R175, R188). -/
theorem hardReset_keeps {K : State → Prop} (M : AllMoves K) {cause : ResetCause} {addr : Bool} {s : State}
    (blocks : ∀ r, K ((resetBlocks cause addr s).setResume r)) (x : Stored) : K (hardReset cause addr x s) := by
  unfold hardReset judgeResume
  split
  · split
    · exact blocks _
    · exact M.raisedAny _ _ (blocks _)
  · exact M.raisedAny _ _ (blocks _)

/-! ### The tick that finds no demand (R130) -/

/-- A loss that is due is the whole of CLOCK_LOSS: it hands no notice of readiness. -/
theorem execClockLoss_due {s : State} (due : clockLossDue s = true) : execClockLoss s = .next (loseClock s) := by
  have loses : (if clockLossDue (s.setNotices []) then loseClock (s.setNotices []) else s.setNotices []) =
      loseClock (s.setNotices []) := if_pos due
  unfold execClockLoss
  rw [inStep_quiet (by rw [loses]; rfl), loses]
  rfl

end Sys2Proof.Machine

namespace Sys2Proof.Claims

open Sys2Proof.Machine

/-- Settles O58: the feeder's own operations keep its relations, no other block moves its record, and every reset leaves it SILENT with
G 0 and no run (R132). -/
theorem feederKept : Obligations.FeederKept := fun _ _ sound e =>
  step_keeps FeederSound.moves (fun _ h => h) (fun _ _ x _ => hardReset_keeps FeederSound.moves (fun _ => State.reset_feeder) x)
    (fun _ => State.reset_feeder) sound e

/-- Settles O12: the hypotheses say that the loss is due, and the tick takes it. -/
theorem clockIsLost : Obligations.ClockIsLost := fun _ unseen present sounding =>
  execClockLoss_due (clockLossDue_iff.mpr ⟨unseen, present, sounding⟩)

end Sys2Proof.Claims
end

