-- ==== Sys2Proof/Proofs/Concealment.lean ====
section
/-!
SUPPORT. Concealment: what a measurement finds (R125), and how a frame is formed in each phase of a run (R126, R127).
-/
namespace Sys2Proof.Claims

open Sys2Proof.Machine

/-! ### Measuring a run (R125) -/

section
variable {s : State} {q : Nat}

/-- What stops a measurement at a position, other than the count of frames (R125). -/
def StopsAt (s : State) (q : Nat) : MeasureStop → Prop
  | .endFrame b => q < s.store.regionEnd ∧ s.store.frameAt q = ⟨.good, b⟩
  | .absent => q < s.store.regionEnd ∧ (s.store.frameAt q).mark = .absent ∧ s.store.declaredAt q = false
  | .region => s.store.regionEnd ≤ q
  | .limit => False

/-- A measurement from `q` over at most `fuel` frames goes on over `n` of them and stops by `x`. -/
def Measures (s : State) (q fuel n : Nat) (x : MeasureStop) : Prop :=
  (∀ i, i < n → Concealable s (q + i)) ∧ (n < fuel ∧ StopsAt s (q + n) x ∨ n = fuel ∧ x = .limit)

/-- A frame that no run can hold stops the measurement. -/
theorem concealable_or_stops (s : State) (q : Nat) : Concealable s q ∨ ∃ x, StopsAt s q x := by
  rcases Nat.lt_or_ge q s.store.regionEnd with inside | beyond
  · by_cases good : (s.store.frameAt q).mark = .good
    · exact .inr ⟨.endFrame (s.store.frameAt q).value, inside, by rw [← good]⟩
    · by_cases unread : (s.store.frameAt q).mark = .absent ∧ s.store.declaredAt q = false
      · exact .inr ⟨.absent, inside, unread⟩
      · exact .inl ⟨good, fun absent => Bool.not_eq_false _ ▸ fun undeclared => unread ⟨absent, undeclared⟩, inside⟩
  · exact .inr ⟨.region, beyond⟩

theorem measureFrom_stops {x : MeasureStop} (h : StopsAt s q x) (fuel n : Nat) :
    s.store.measureFrom s.store.regionEnd (fuel + 1) q n = ⟨n, x⟩ := by
  unfold Store.measureFrom
  dsimp only
  cases x with
  | endFrame b =>
    obtain ⟨inside, good⟩ := h
    rw [if_neg (Nat.not_le.mpr inside), good, if_pos rfl]
  | absent =>
    obtain ⟨inside, absent, undeclared⟩ := h
    rw [if_neg (Nat.not_le.mpr inside), if_neg (by rw [absent]; exact nofun), if_pos ⟨absent, undeclared⟩]
  | region => exact if_pos h
  | limit => exact h.elim

theorem measureFrom_goesOn (h : Concealable s q) (fuel n : Nat) :
    s.store.measureFrom s.store.regionEnd (fuel + 1) q n = s.store.measureFrom s.store.regionEnd fuel (q + 1) (n + 1) := by
  obtain ⟨notGood, declared, inside⟩ := h
  have within : ¬ s.store.regionEnd ≤ q := Nat.not_le.mpr inside
  have undeclared : ¬ ((s.store.frameAt q).mark = .absent ∧ s.store.declaredAt q = false) := fun ⟨absent, no⟩ =>
    absurd ((declared absent).symm.trans no) nofun
  conv_lhs => unfold Store.measureFrom
  dsimp only
  rw [if_neg within, if_neg notGood, if_neg undeclared]

/-- A measurement from the next frame is one frame shorter. -/
theorem Measures.next {fuel n : Nat} {x : MeasureStop} (first : Concealable s q) :
    Measures s q (fuel + 1) (n + 1) x ↔ Measures s (q + 1) fuel n x := by
  have shift : ∀ i, q + (i + 1) = q + 1 + i := fun i => by omega
  unfold Measures
  rw [shift n, Nat.succ_lt_succ_iff, Nat.succ_inj]
  refine and_congr_left fun _ => ⟨fun run i hi => shift i ▸ run (i + 1) (Nat.succ_lt_succ hi), fun run i hi => ?_⟩
  cases i with
  | zero => exact first
  | succ i => exact shift i ▸ run i (Nat.lt_of_succ_lt_succ hi)

theorem measures_total (s : State) (fuel : Nat) : ∀ q, ∃ n x, Measures s q fuel n x := by
  induction fuel with
  | zero => exact fun q => ⟨0, .limit, nofun, .inr ⟨rfl, rfl⟩⟩
  | succ fuel ih =>
    intro q
    rcases concealable_or_stops s q with first | ⟨x, stops⟩
    · obtain ⟨n, x, rest⟩ := ih (q + 1)
      exact ⟨n + 1, x, (Measures.next first).mpr rest⟩
    · exact ⟨0, x, nofun, .inl ⟨Nat.succ_pos _, stops⟩⟩

theorem Measures.measureFrom {fuel : Nat} : ∀ {q n : Nat} {x : MeasureStop} (k : Nat), Measures s q fuel n x →
    s.store.measureFrom s.store.regionEnd fuel q k = ⟨k + n, x⟩ := by
  induction fuel with
  | zero =>
    rintro q n x k ⟨-, ⟨none, -⟩ | ⟨rfl, rfl⟩⟩
    · exact absurd none (Nat.not_lt_zero n)
    · rfl
  | succ fuel ih =>
    intro q n x k h
    cases n with
    | zero =>
      obtain ⟨-, ⟨-, stops⟩ | ⟨none, -⟩⟩ := h
      · exact measureFrom_stops stops fuel k
      · cases none
    | succ n =>
      have first : Concealable s q := h.1 0 (Nat.succ_pos n)
      rw [measureFrom_goesOn first, ih (k + 1) ((Measures.next first).mp h), Nat.add_right_comm, Nat.add_assoc]

/-- What a measurement finds: the frames it goes on over, and what stops it (R125, log entry 29). -/
theorem measure_iff {n : Nat} {x : MeasureStop} : measure s = ⟨n, x⟩ ↔ Measures s (playPosition s) 128 n x := by
  have found : ∀ {n x}, Measures s (playPosition s) 128 n x → measure s = ⟨n, x⟩ := fun h =>
    (h.measureFrom 0).trans (by rw [Nat.zero_add])
  refine ⟨fun measured => ?_, found⟩
  obtain ⟨k, y, h⟩ := measures_total s 128 (playPosition s)
  obtain ⟨rfl, rfl⟩ := Measured.mk.inj ((found h).symm.trans measured)
  exact h

/-- A measurement that a frame or the region stops is shorter than 128. -/
theorem measure_stops {n : Nat} {x : MeasureStop} (counted : x ≠ .limit) :
    measure s = ⟨n, x⟩ ↔
      n < 128 ∧ (∀ i, i < n → Concealable s (playPosition s + i)) ∧ StopsAt s (playPosition s + n) x := by
  rw [measure_iff]
  unfold Measures
  rw [or_iff_left fun ⟨_, limit⟩ => counted limit, and_left_comm]

theorem measure_limit {n : Nat} :
    measure s = ⟨n, .limit⟩ ↔ n = 128 ∧ ∀ i, i < 128 → Concealable s (playPosition s + i) := by
  rw [measure_iff]
  unfold Measures
  rw [or_iff_right fun ⟨_, stops⟩ => stops, and_iff_left rfl, and_comm]
  exact and_congr_right fun full => by rw [full]

end

/-! ### The first frame of a run (R125 to R127) -/

section
variable (s : State)

theorem beginRun_bridged {n : Nat} {b : Sample} (back : Option Nat) (short : n ≤ s.console.params.interpolateLimit)
    (measured : measure s = ⟨n, .endFrame b⟩) :
    beginRun s back = interpolateFrame s.feeder.concealC s.feeder.last b n 0 back .interpolate := by
  have bridged : (measure s).bridged s.console.params.interpolateLimit = some b := by
    rw [measured]
    exact if_pos short
  unfold beginRun
  dsimp only
  rw [bridged, measured]

/-- A run that is not bridged is a MUTE run: it begins with its FADE, or with ZERO where FADE is skipped (R127). -/
theorem beginRun_mute {m : Measured} (back : Option Nat) (measured : measure s = m)
    (long : ∀ b, m.stop = .endFrame b → s.console.params.interpolateLimit < m.length) :
    beginRun s back =
      if min s.console.params.rampLength m.length = 0 then
        muteZeroFrame s.feeder.concealC s.console.params.rampLength (.mute m.detail)
      else
        muteFadeFrame s.feeder.concealC s.feeder.last (min s.console.params.rampLength m.length) 0 s.console.params.rampLength
          (.mute m.detail) := by
  have open_ : m.bridged s.console.params.interpolateLimit = none := by
    unfold Measured.bridged
    split
    · exact if_neg (Nat.not_le.mpr (long _ ‹_›))
    all_goals rfl
  unfold beginRun
  dsimp only
  rw [measured, open_]
  rfl

theorem Measured.detail_eq (m : Measured) : m.detail = if m.stop = .limit then 255 else m.length := by
  unfold Measured.detail
  cases m.stop <;> rfl

end

/-! ### The frame of each phase (R122, R126, R127) -/

section
variable {s : State}

theorem formFrame_interpolate {a b : Sample} {n given : Nat} {back : Option Nat}
    (run : s.feeder.run = .interpolate a b n given back) :
    formFrame s = interpolateFrame s.feeder.concealC a b n given back .none := by
  unfold formFrame
  dsimp only
  rw [run]

theorem formFrame_fade {h : Sample} {n given ramp : Nat} (run : s.feeder.run = .fade h n given ramp) :
    formFrame s = muteFadeFrame s.feeder.concealC h n given ramp .none := by
  unfold formFrame
  dsimp only
  rw [run]

theorem formFrame_zero {ramp : Nat} (run : s.feeder.run = .zero ramp) :
    formFrame s =
      if (s.store.frameAt (playPosition s)).mark = .good then leaveZero ramp (s.store.frameAt (playPosition s)).value
      else muteZeroFrame s.feeder.concealC ramp .none := by
  unfold formFrame
  dsimp only
  rw [run]

theorem formFrame_rise {ramp : Nat} (run : s.feeder.run = .rise ramp) :
    formFrame s =
      if (s.store.frameAt (playPosition s)).mark = .good then
        riseFrame s.feeder.concealC ramp (s.store.frameAt (playPosition s)).value
      else beginRun s (some ramp) := by
  unfold formFrame
  dsimp only
  rw [run]

theorem formFrame_none (run : s.feeder.run = .none) :
    formFrame s =
      if (s.store.frameAt (playPosition s)).mark = .good then
        plainFrame s.feeder.concealC (s.store.frameAt (playPosition s)).value
      else beginRun s none := by
  unfold formFrame
  dsimp only
  rw [run]

end

end Sys2Proof.Claims
end

