-- ==== Sys2Proof/Proofs/FrameDemand.lean ====
section
/-!
SUPPORT. The frame demand (R122), branch by branch: a frame of a fade, a frame that is given, a frame that cannot be given; and the ramp at
the end of a frame (R119).
-/
namespace Sys2Proof.Machine

/-! ### The demand and its branches -/

/-- The feeder notes the demand (R130). -/
def noted (s : State) : State := mapFeeder (fun f => { f with seen := true }) s

/-- The feeder is in a state in which the cursor moves: STARTING, RUNNING or STOPPING (R116). -/
def Feeder.Plays (f : Feeder) : Prop := f.state = .running ∨ f.state = .starting ∨ f.state = .stopping

section
variable {s : State}

theorem clockReturn_present (present : s.feeder.clockLost = false) : clockReturn s = s := by
  unfold clockReturn
  rw [present]
  rfl

/-- SILENT and STARVED give the next frame of the fade (R122, step 2). -/
theorem demand_fades (present : s.feeder.clockLost = false) (still : s.feeder.state = .silent ∨ s.feeder.state = .starved) :
    demand s = mapFeeder Feeder.fadeFrame (noted s) := by
  have back : clockReturn (mapFeeder (fun f => { f with seen := true }) s) = noted s := clockReturn_present (s := noted s) present
  have state : (noted s).feeder.state = s.feeder.state := rfl
  unfold demand
  dsimp only
  rw [back, state]
  rcases still with h | h
  · rw [h]
  · rw [h]

/-- STARTING, RUNNING and STOPPING go on to the disc and the store (R122, step 3). -/
theorem demand_plays (present : s.feeder.clockLost = false) (plays : s.feeder.Plays) :
    demand s = demandPlaying (noted s) := by
  have back : clockReturn (mapFeeder (fun f => { f with seen := true }) s) = noted s := clockReturn_present (s := noted s) present
  have state : (noted s).feeder.state = s.feeder.state := rfl
  unfold demand
  dsimp only
  rw [back, state]
  rcases plays with h | h | h
  · rw [h]
  · rw [h]
  · rw [h]

theorem demandPlaying_ends (ended : atDiscEnd s = true) : demandPlaying s = endOfDisc (mapFeeder Feeder.zeroFrame s) := if_pos ended

theorem demandPlaying_gives (inside : ¬ atDiscEnd s = true) (held : cannotGive s = false) : demandPlaying s = giveFrame s := by
  unfold demandPlaying
  rw [if_neg inside, held]
  rfl

theorem demandPlaying_stops (inside : ¬ atDiscEnd s = true) (unread : cannotGive s = true) (stopping : s.feeder.state = .stopping) :
    demandPlaying s = mapFeeder (fun f => f.stopShort (rampLength s)) s := by
  unfold demandPlaying
  rw [if_neg inside, if_pos unread, if_pos stopping]

theorem demandPlaying_starves (inside : ¬ atDiscEnd s = true) (unread : cannotGive s = true) (goesOn : s.feeder.state ≠ .stopping) :
    demandPlaying s = starve s := by
  unfold demandPlaying
  rw [if_neg inside, if_pos unread, if_neg goesOn]

theorem cannotGive_iff :
    cannotGive s = true ↔
      (s.store.frameAt (playPosition s)).mark = .absent ∧ s.store.declaredAt (playPosition s) = false := by
  unfold cannotGive
  rw [Bool.and_eq_true, decide_eq_true_iff, Bool.not_eq_true']

/-! ### The whole command -/

/-- FRAME_DEMAND: the demand, the frame shifted out, and the notices of readiness (R16, R114). -/
theorem exec_frameDemand (l r : Nat) (s : State) :
    exec (.frameDemand l r) s =
      .next ((takeNotices (mapFeeder (fun f => f.shiftOut l r) (demand (s.setNotices [])))).setNotices s.notices) := rfl

/-- A demand that hands no notice of readiness is the whole of FRAME_DEMAND. -/
theorem exec_frameDemand_quiet {u : State} (l r : Nat) (demanded : demand (s.setNotices []) = u) (quiet : u.notices = []) :
    exec (.frameDemand l r) s = .next ((mapFeeder (fun f => f.shiftOut l r) u).setNotices s.notices) := by
  rw [exec_frameDemand, demanded, takeNotices_none (by exact quiet)]

/-! ### Fades (R121) -/

theorem Feeder.fadeFrame_none {f : Feeder} (fade : f.fade = none) :
    f.fadeFrame = { f with given := Sample.zero, conceal := decide (f.state = .starved) } := by
  unfold Feeder.fadeFrame
  dsimp only
  rw [fade]

theorem Feeder.fadeFrame_some {f : Feeder} {d : Fade} (fade : f.fade = some d) :
    f.fadeFrame =
      { f with
        given := scaleSample d.level (d.remaining - 1) d.length
        fade := if d.remaining - 1 = 0 then none else some { d with remaining := d.remaining - 1 }
        last := if d.remaining - 1 = 0 then Sample.zero else f.last
        conceal := decide (f.state = .starved) } := by
  unfold Feeder.fadeFrame
  dsimp only
  rw [fade]

/-! ### The ramp (R119) -/

/-- G after the step of one frame, where the cursor moves. -/
theorem Feeder.steppedGain_eq {f : Feeder} {ramp g : Nat}
    (stepped : (f.state = .running ∧ f.gain = 128 ∧ g = 128) ∨ (f.state = .starting ∧ g = min 128 (f.gain + rampStep ramp)) ∨
      (f.state = .stopping ∧ g = f.gain - rampStep ramp)) : f.steppedGain ramp = g := by
  unfold Feeder.steppedGain
  rcases stepped with ⟨state, full, rfl⟩ | ⟨state, rfl⟩ | ⟨state, rfl⟩
  · rw [state]
    exact full
  · rw [state]
  · rw [state]

/-- What the end of a frame makes of the ramp: a STARTING one at 128 is RUNNING, a STOPPING one at 0 is SILENT. -/
theorem Feeder.finishRamp_eq (f : Feeder) {ends : Bool} (h : ends = decide (f.state = .stopping ∧ f.gain = 0)) :
    f.finishRamp =
      { f with
        state := if ends then .silent else if f.state = .starting ∧ f.gain = 128 then .running else f.state
        last := if ends then Sample.zero else f.last
        run := if ends then .none else f.run
        concealC := if ends then 128 else f.concealC } := by
  subst h
  by_cases down : f.state = .stopping ∧ f.gain = 0
  · obtain ⟨state, empty⟩ := down
    simp [Feeder.finishRamp, Feeder.rampedDown, Feeder.endRun, state, empty]
  · by_cases up : f.state = .starting ∧ f.gain = 128
    · obtain ⟨state, full⟩ := up
      simp [Feeder.finishRamp, state, full]
    · have same : f.finishRamp = f := by
        unfold Feeder.finishRamp
        split
        · exact if_neg fun full => up ⟨‹_›, full⟩
        · exact if_neg fun empty => down ⟨‹_›, empty⟩
        all_goals rfl
      rw [same, decide_eq_false down, if_neg up]
      rfl

/-! ### A frame that is given (R116, R119, R122) -/

/-- The feeder once a frame is given and its ramp ended, the cursor at a position. -/
def Feeder.gave (f : Feeder) (x : Formed) (g : Nat) (ends : Bool) (block frame : Nat) : Feeder :=
  { f with
    block := block, frame := frame, gain := g, given := scaleSample x.value g 128
    state := if ends then .silent else if f.state = .starting ∧ g = 128 then .running else f.state
    last := if ends then Sample.zero else x.value
    run := if ends then .none else x.run
    concealC := if ends then 128 else x.concealC, conceal := x.conceal
    counters := f.counters.afterFrame x }

theorem Feeder.finishRamp_give {f : Feeder} {ramp g : Nat} (x : Formed) {ends : Bool} (stepped : f.steppedGain ramp = g)
    (last : ends = decide (f.state = .stopping ∧ g = 0)) (block frame : Nat) :
    ({ f.give ramp x with block := block, frame := frame } : Feeder).finishRamp = f.gave x g ends block frame := by
  subst stepped
  exact Feeder.finishRamp_eq _ last

theorem Feeder.advance_within {f : Feeder} (within : f.frame < 587) : f.advance = { f with frame := f.frame + 1 } :=
  if_neg (Nat.ne_of_lt within)

theorem Feeder.advance_across {f : Feeder} (last : f.frame = 587) : f.advance = { f with block := f.block + 1, frame := 0 } :=
  if_pos last

/-- The records of events once a frame has been formed: a MUTE run that begins raises CONCEAL (R127). -/
def Attn.formed (a : Attn) (x : Formed) : Attn :=
  match x.begins with
  | .mute detail => a.raise .conceal (BitVec.ofNat 8 detail)
  | .none | .interpolate => a

theorem raiseConceal_eq (x : Formed) (s : State) : raiseConceal x s = s.setAttn (s.attn.formed x) := by
  unfold raiseConceal Attn.formed
  cases x.begins with
  | none => rfl
  | interpolate => rfl
  | mute detail => rfl

/-- A frame from within a block moves the feeder and the record of CONCEAL alone. -/
theorem giveFrame_within {g : Nat} {ends : Bool} (within : s.feeder.frame < 587)
    (stepped : s.feeder.steppedGain (rampLength s) = g) (last : ends = decide (s.feeder.state = .stopping ∧ g = 0)) :
    giveFrame s =
      (s.setFeeder (s.feeder.gave (formFrame s) g ends s.feeder.block (s.feeder.frame + 1))).setAttn
        (s.attn.formed (formFrame s)) := by
  have stays : ¬ decide (s.feeder.frame = Config.framesPerBlock - 1) = true := fun leaves =>
    absurd (of_decide_eq_true leaves) (Nat.ne_of_lt within)
  have advanced : (s.feeder.give (rampLength s) (formFrame s)).advance = _ := Feeder.advance_within within
  unfold giveFrame mapFeeder
  dsimp only
  rw [if_neg stays, raiseConceal_eq]
  refine congrArg (fun f => (s.setFeeder f).setAttn (s.attn.formed (formFrame s))) (?_ : Feeder.finishRamp _ = _)
  exact (congrArg Feeder.finishRamp advanced).trans (Feeder.finishRamp_give _ stepped last s.feeder.block (s.feeder.frame + 1))

/-- The feeder across a block boundary, before the boundary is handed on and the ramp ends (R117). -/
def Feeder.crossed (f : Feeder) (ramp : Nat) (x : Formed) : Feeder := { f.give ramp x with block := f.block + 1, frame := 0 }

/-- The last frame of a block (R117). -/
theorem giveFrame_across (last : s.feeder.frame = 587) :
    giveFrame s =
      mapFeeder Feeder.finishRamp (boundary s.feeder.block
        ((s.setFeeder (s.feeder.crossed (rampLength s) (formFrame s))).setAttn (s.attn.formed (formFrame s)))) := by
  have leaves : decide (s.feeder.frame = Config.framesPerBlock - 1) = true := decide_eq_true last
  have entered : mapFeeder (fun f => (f.give (rampLength s) (formFrame s)).advance) (raiseConceal (formFrame s) s) =
      (s.setFeeder (s.feeder.crossed (rampLength s) (formFrame s))).setAttn (s.attn.formed (formFrame s)) := by
    rw [raiseConceal_eq]
    exact congrArg (fun f => (s.setFeeder f).setAttn (s.attn.formed (formFrame s))) (Feeder.advance_across last)
  unfold giveFrame
  dsimp only
  rw [if_pos leaves, entered]

end

end Sys2Proof.Machine
end

