-- ==== Sys2Proof/Proofs/FramesGiven.lean ====
section
/-!
SUPPORT. A frame from within a block: the fade's next frame, or a frame given (R121, R122). Then the statement about the frames given (O13).
-/
namespace Sys2Proof.Machine

/-- A value scaled by 128 / 128 is itself (R119, R122). -/
theorem scaleSample_full (v : Sample) : scaleSample v 128 128 = v := by
  have word : ∀ x : BitVec 16, scaleWord x 128 128 = x := by
    intro x
    unfold scaleWord
    rw [Int.mul_tdiv_cancel _ (by decide), BitVec.ofInt_toInt]
  unfold scaleSample
  rw [word, word]

end Sys2Proof.Machine

namespace Sys2Proof.Claims

open Sys2Proof.Machine

section
variable {s : State}

theorem not_atDiscEnd (inside : Inside s) : ¬ atDiscEnd s = true := by
  rw [atDiscEnd_iff]
  rintro ⟨above, reached⟩
  rcases inside with zero | before
  · omega
  · omega

/-- The disc goes on before the cursor's next frame of its block. -/
theorem cannotGive_good {v : Sample} (good : s.store.frameAt (playPosition s) = ⟨.good, v⟩) : cannotGive s = false := by
  rw [Bool.eq_false_iff, ne_eq, cannotGive_iff, good]
  exact fun unread => absurd unread.1 nofun

theorem formFrame_plain {v : Sample} (run : s.feeder.run = .none) (full : s.feeder.concealC = 128)
    (good : s.store.frameAt (playPosition s) = ⟨.good, v⟩) :
    formFrame s = { value := v, run := .none, concealC := 128, cls := .good, conceal := false, begins := .none } := by
  rw [formFrame_none run, good, full]
  unfold plainFrame
  rw [if_pos rfl, scaleSample_full]

/-! ### Fades (R121) -/

/-- A demand in SILENT or STARVED is the next frame of the fade alone. -/
theorem exec_frameDemand_fades (l r : Nat) (present : s.feeder.clockLost = false)
    (still : s.feeder.state = .silent ∨ s.feeder.state = .starved) :
    exec (.frameDemand l r) s = .next (s.setFeeder (({ s.feeder with seen := true } : Feeder).fadeFrame.shiftOut l r)) :=
  exec_frameDemand_quiet l r (demand_fades (s := s.setNotices []) present still) rfl

/-! ### A frame given within a block (R122, steps 5 to 7) -/

/-- G of the frame, by the feeder state (R119). -/
def RampsTo (s : State) (g : Nat) : Prop :=
  (s.feeder.state = .running ∧ s.feeder.gain = 128 ∧ g = 128) ∨
    (s.feeder.state = .starting ∧ g = min 128 (s.feeder.gain + rampStep s.console.params.rampLength)) ∨
    (s.feeder.state = .stopping ∧ g = s.feeder.gain - rampStep s.console.params.rampLength)

theorem RampsTo.plays {g : Nat} (h : RampsTo s g) : s.feeder.Plays := h.imp And.left (Or.imp And.left And.left)

/-- A demand from within a block forms the frame, gives it and moves the cursor (R122). -/
theorem exec_frameDemand_gives (l r : Nat) {g : Nat} {ends : Bool} (present : s.feeder.clockLost = false)
    (within : s.feeder.frame < 587) (inside : Inside s) (held : cannotGive s = false) (ramps : RampsTo s g)
    (last : ends = decide (s.feeder.state = .stopping ∧ g = 0)) :
    exec (.frameDemand l r) s =
      .next ((s.setFeeder
        ((({ s.feeder with seen := true } : Feeder).gave (formFrame s) g ends s.feeder.block (s.feeder.frame + 1)).shiftOut l r)).setAttn
          (s.attn.formed (formFrame s))) := by
  have gives : demand (s.setNotices []) = giveFrame (noted (s.setNotices [])) :=
    (demand_plays (s := s.setNotices []) present ramps.plays).trans
      (demandPlaying_gives (s := noted (s.setNotices [])) (not_atDiscEnd inside) held)
  have made := giveFrame_within (s := noted (s.setNotices [])) within (Feeder.steppedGain_eq ramps) last
  have formed : formFrame (noted (s.setNotices [])) = formFrame s := rfl
  rw [formed] at made
  rw [exec_frameDemand_quiet l r (gives.trans made) rfl]
  rfl

/-- A GOOD frame outside concealment, given with its held value (R122). -/
theorem exec_frameDemand_plain (l r : Nat) {v : Sample} {g : Nat} (present : s.feeder.clockLost = false)
    (run : s.feeder.run = .none) (full : s.feeder.concealC = 128) (within : s.feeder.frame < 587) (inside : Inside s)
    (good : s.store.frameAt (playPosition s) = ⟨.good, v⟩) (ramps : RampsTo s g) :
    Gives l r s (scaleSample v g 128)
      { s.feeder with
        frame := s.feeder.frame + 1, conceal := false, gain := g
        last := if s.feeder.state = .stopping ∧ g = 0 then ⟨0, 0⟩ else v
        state := if s.feeder.state = .stopping ∧ g = 0 then .silent
          else if s.feeder.state = .starting ∧ g = 128 then .running else s.feeder.state
        counters := { s.feeder.counters with good := bump s.feeder.counters.good } } := by
  refine (exec_frameDemand_gives l r present within inside (cannotGive_good good) ramps rfl).trans ?_
  rw [formFrame_plain run full good]
  refine congrArg (fun f => Host.Outcome.next (s.setFeeder f)) ?_
  simp [Feeder.gave, Feeder.shiftOut, OutputCounters.afterFrame, run, full, Sample.zero]

end

/-! ### The measurement and the run, as stated (R125 to R127) -/

theorem riseFrame_first (ramp : Nat) (v : Sample) :
    riseFrame 0 ramp v =
      { value := scaleSample v (min 128 (128 / ramp)) 128
        run := if min 128 (128 / ramp) = 128 then .none else .rise ramp
        concealC := min 128 (128 / ramp), cls := .good, conceal := true, begins := .none } := by
  unfold riseFrame
  rw [Nat.zero_add]

/-- Settles O13: the demand branch by branch, the measurement by its specification, and the frame of each phase. -/
theorem framesGiven : Obligations.FramesGiven := by
  refine ⟨fun l r s present => ⟨fun v state gain run full within inside good => ?running, fun still fade => ?zero,
    fun d still fade => ?fading, fun v g state run full within inside good ramps => ?starting,
    fun v g state run full within inside good ramps => ?stopping,
    fun x step g ends formed within inside held step_eq ramps last => ?formed⟩,
    fun s => ⟨fun n b => ?endFrame, fun n => ?absent, fun n => ?region, fun n => measure_limit, fun n b back short measured => ?bridged,
    fun m back measured long => ⟨fun skipped => ?skipsFade, fun n length => ?fades⟩, fun a b j n => rfl,
    fun run notGood => (formFrame_none run).trans (if_neg notGood), fun a b n given back run => formFrame_interpolate run,
    fun h n given ramp run => formFrame_fade run, fun ramp run => ⟨fun notGood => ?stays, fun v good skipped => ?skipsRise,
    fun v good rises => ?rises⟩, fun ramp run => ⟨fun notGood => ?interrupted, fun v c good level => ?rising⟩⟩⟩
  case running =>
    have given := exec_frameDemand_plain l r present run full within inside good (.inl ⟨state, gain, rfl⟩)
    rw [scaleSample_full] at given
    refine given.trans (congrArg (fun f => Host.Outcome.next (s.setFeeder f)) ?_)
    simp [state, gain]
  case zero =>
    refine (exec_frameDemand_fades l r present still).trans ?_
    rw [Feeder.fadeFrame_none (f := { s.feeder with seen := true }) fade]
    rfl
  case fading =>
    refine (exec_frameDemand_fades l r present still).trans ?_
    rw [Feeder.fadeFrame_some (f := { s.feeder with seen := true }) fade]
    rfl
  case starting =>
    have given := exec_frameDemand_plain l r present run full within inside good (.inr (.inl ⟨state, ramps⟩))
    refine given.trans (congrArg (fun f => Host.Outcome.next (s.setFeeder f)) ?_)
    simp [state]
  case stopping =>
    have given := exec_frameDemand_plain l r present run full within inside good (.inr (.inr ⟨state, ramps⟩))
    refine given.trans (congrArg (fun f => Host.Outcome.next (s.setFeeder f)) ?_)
    simp [state]
  case formed =>
    subst formed step_eq
    refine (exec_frameDemand_gives l r present within inside held ramps last).trans ?_
    unfold Attn.formed
    cases (formFrame s).begins <;> rfl
  case endFrame => exact measure_stops nofun
  case absent => exact measure_stops nofun
  case region => exact measure_stops nofun
  case bridged =>
    rw [beginRun_bridged s back short measured]
    rfl
  case skipsFade =>
    rw [beginRun_mute s back measured long, if_pos skipped, Measured.detail_eq]
    rfl
  case fades =>
    rw [beginRun_mute s back measured long, length, if_neg (Nat.succ_ne_zero n), Measured.detail_eq]
    unfold muteFadeFrame
    simp
  case stays => exact (formFrame_zero run).trans (if_neg notGood)
  case skipsRise =>
    rw [formFrame_zero run, good, if_pos rfl, skipped]
    rfl
  case rises =>
    rw [formFrame_zero run, good, if_pos rfl]
    unfold leaveZero
    rw [if_neg rises, riseFrame_first]
  case interrupted => exact (formFrame_rise run).trans (if_neg notGood)
  case rising =>
    subst level
    rw [formFrame_rise run, good, if_pos rfl]
    rfl

end Sys2Proof.Claims
end

