-- ==== Sys2Proof/Proofs/PlayCauses.lean ====
section
/-!
SUPPORT. The suspend-cause set and the play state (R133, R134) through every operation of the Play Controller, and through those of the
Output Feeder, the planner, the Monitor and the link that hand something to it.
-/
namespace Sys2Proof.Machine

/-! ### The states with a suspend cause -/

/-- COASTING and SUSPENDED, the states that a suspend cause holds (R134). -/
def PlayState.held : PlayState → Bool
  | .coasting | .suspended => true
  | .empty | .loading | .ready | .cueing | .playing | .paused => false

theorem PlayState.held_iff (x : PlayState) : x.held = true ↔ x = .coasting ∨ x = .suspended := by
  cases x <;> simp [PlayState.held]

theorem Play.sound_iff (p : Play) : p.Sound ↔ p.causes.isEmpty = !p.state.held := by
  unfold Play.Sound
  rw [← PlayState.held_iff]
  cases p.causes.isEmpty <;> cases p.state.held <;> simp

/-- The suspend-cause set of the Play Controller agrees with its state. -/
def PlaySound (s : State) : Prop := s.play.Sound

/-- A confirmed load leads to a state without a suspend cause (R144). -/
theorem loadPlan_unheld (mode : SelectMode) (backoff : Nat) (entry : ResumeEntry) (tag : Tag) (extent : Nat) :
    (loadPlan mode backoff entry tag extent).state.held = false := by
  unfold loadPlan
  split
  · rfl
  · rfl
  · split <;> rfl

namespace PlaySound

variable {s : State}

/-- The relation rests on the Play Controller's state and causes alone. -/
theorem congr {t : State} (h : PlaySound s) (state : t.play.state = s.play.state) (causes : t.play.causes = s.play.causes) :
    PlaySound t := by
  unfold PlaySound Play.Sound at *
  rw [state, causes]
  exact h

theorem same {t : State} (h : PlaySound s) (play : t.play = s.play) : PlaySound t :=
  h.congr (congrArg Play.state play) (congrArg Play.causes play)

/-- The planner's operations leave the Play Controller as it is. -/
theorem moves : PlannerMoves PlaySound where
  setAsm _ _ h := h
  setPlanner _ _ h := h
  setLink _ _ h := h
  setStore _ _ h := h
  setNotices _ h := h
  dropIntake h := h
  overflow _ h := h

theorem noCause (h : PlaySound s) (state : s.play.state.held = false) : s.play.causes.isEmpty = true := by
  rw [(Play.sound_iff _).mp h, state]
  rfl

theorem someCause (h : PlaySound s) (state : s.play.state.held = true) : s.play.causes.isEmpty = false := by
  rw [(Play.sound_iff _).mp h, state]
  rfl

/-- A cause stands in COASTING or SUSPENDED. -/
theorem ofHeld (held : s.play.state.held = true) (some : s.play.causes.isEmpty = false) : PlaySound s :=
  (Play.sound_iff _).mpr (some.trans (congrArg not held).symm)

/-! ### The play state -/

/-- A state is entered whose causes are those in the set (R134). -/
theorem enterState (x : PlayState) (byRestart : Bool) (agrees : s.play.causes.isEmpty = !x.held) :
    PlaySound (enterState x byRestart s) := by
  unfold PlaySound
  rw [enterState_play]
  exact (Play.sound_iff _).mpr agrees

theorem countPlay (h : PlaySound s) (f : PlayCounters → PlayCounters) : PlaySound (countPlay f s) := h

theorem raise (h : PlaySound s) (e : Event) (d : Nat) : PlaySound (raise e d s) := h

theorem playRequest (h : PlaySound s) : PlaySound (playRequest s) := h.same (playRequest_play s)

theorem stopRequest (h : PlaySound s) : PlaySound (stopRequest s) := h

theorem leaveCueing (none : s.play.causes.isEmpty = true) : PlaySound (leaveCueing s) := by
  unfold PlaySound
  rw [leaveCueing_play]
  split
  · exact (Play.sound_iff _).mpr none
  · exact (Play.sound_iff _).mpr none

theorem testCueing (h : PlaySound s) : PlaySound (testCueing s) := by
  unfold Machine.testCueing
  split
  · rename_i cueing
    exact leaveCueing (h.noCause (by rw [cueing.1]; rfl))
  · exact h

theorem playPrimed (h : PlaySound s) (p : Bool) : PlaySound (playPrimed p s) := by
  have told : PlaySound (Machine.mapPlay (fun x => { x with storePrimed := p, unprimed := x.unprimed && !p }) s) := h
  unfold Machine.playPrimed
  dsimp only
  split
  · rename_i cueing
    exact leaveCueing (told.noCause (by rw [cueing.1]; rfl))
  · exact told

theorem takeReadiness (h : PlaySound s) (p : Bool) : PlaySound (takeReadiness s p) :=
  (h.same (feederPrimed_play s p)).playPrimed p

theorem takeAll (notices : List Bool) : ∀ {s : State}, PlaySound s → PlaySound (notices.foldl Machine.takeReadiness s) := by
  induction notices with
  | nil => exact fun h => h
  | cons p rest ih => exact fun h => ih (h.takeReadiness p)

theorem takeNotices (h : PlaySound s) : PlaySound (takeNotices s) := by
  have once : ∀ {u : State}, PlaySound u → PlaySound (takeHanded u) := fun {u} w => takeAll u.notices (s := u.setNotices []) w
  exact once (once h)

/-- A step keeps the relation where the command's own effect does. -/
theorem inStep {f : State → State} (hf : ∀ {u : State}, PlaySound u → PlaySound (f u)) {t : State} (h : PlaySound s)
    (e : inStep f s = .next t) : PlaySound t := by
  cases e
  exact (hf (u := s.setNotices []) h).takeNotices

/-- Once the set is empty play returns to PLAYING, PAUSED or CUEING (R147). -/
theorem returnToPlay (none : s.play.causes.isEmpty = true) : PlaySound (returnToPlay s) := by
  have cued : PlaySound (Machine.testCueing (Machine.stopRequest (Machine.enterState .cueing false s))) :=
    (enterState .cueing false none).stopRequest.testCueing
  unfold Machine.returnToPlay
  split
  · split
    · refine (enterState .playing false ?_).playRequest
      rw [countPlay_play]
      exact none
    · split
      · exact (enterState .playing false none).playRequest
      · exact cued
  · exact (enterState .paused false none).stopRequest
  · exact cued

/-! ### Play commands -/

theorem runSelect : PlaySound (runSelect s) := by
  unfold Machine.runSelect
  refine enterState _ _ ?_
  rw [queueLoad_play, mapPlay_play, clearDisc_play]
  rfl

/-- PLAY cues from any state but SUSPENDED, in which it is refused (R137, R139). -/
theorem runPlay (h : PlaySound s) (taken : playResult s = .done) : PlaySound (runPlay s) := by
  have awake : s.play.state ≠ .suspended := by
    intro state
    unfold playResult at taken
    rw [state] at taken
    cases taken
  unfold Machine.runPlay
  dsimp only
  split
  · rename_i coasting
    refine enterState _ _ ?_
    rw [mapPlay_play, cueAt_play]
    exact h.someCause (by rw [of_decide_eq_true coasting]; rfl)
  · rename_i elsewhere
    refine testCueing (enterState _ _ ?_)
    rw [cueAt_play]
    refine h.noCause (Bool.eq_false_iff.mpr fun held => ?_)
    exact ((PlayState.held_iff _).mp held).elim (fun e => elsewhere (decide_eq_true e)) awake

/-- PAUSE is taken in PLAYING and CUEING alone (R137, R140). -/
theorem runPause (h : PlaySound s) (taken : pauseResult s = .done) : PlaySound (runPause s) := by
  have none : s.play.causes.isEmpty = true := by
    refine h.noCause ?_
    unfold pauseResult at taken
    revert taken
    cases s.play.state
    case playing | cueing => exact fun _ => rfl
    all_goals exact nofun
  unfold Machine.runPause
  refine enterState _ _ ?_
  split
  · rw [mapPlay_play, sealAs_play]
    exact none
  · rw [stopRequest_play, sealAs_play]
    exact none

/-- CONTINUE is taken in PAUSED alone (R137, R141). -/
theorem runContinue (h : PlaySound s) (taken : continueResult s = .done) : PlaySound (runContinue s) := by
  have none : s.play.causes.isEmpty = true := by
    refine h.noCause ?_
    unfold continueResult at taken
    split at taken
    · cases taken
    · split at taken
      · rename_i paused
        rw [paused]
        rfl
      · cases taken
  unfold Machine.runContinue
  dsimp only
  split
  · exact (enterState _ _ none).playRequest
  · exact (enterState _ _ none).testCueing

/-- STOP ends in READY or EMPTY with no cause (R142). -/
theorem runStop : PlaySound (runStop s) := by
  have ended : ∀ (u : State) (w : Nat),
      PlaySound (if u.play.disc.confirmed = true then
          flushAtCursor (Machine.enterState .ready false (Machine.mapPlay (fun p => { p with causes := Causes.none }) u))
        else Machine.enterState .empty false (Machine.mapPlay (fun p => { p with wanted := w }) (clearDisc u))) := by
    intro u w
    split
    · unfold PlaySound
      rw [flushAtCursor_play, enterState_play]
      exact (Play.sound_iff _).mpr rfl
    · refine enterState _ _ ?_
      rw [mapPlay_play, clearDisc_play]
      rfl
  unfold Machine.runStop
  exact ended _ _

/-! ### Loading and removal -/

theorem endLoading (r : ReadyReason) : PlaySound (endLoading r s) := by
  refine (enterState _ _ ?_).raise _ _
  rw [mapPlay_play, clearDisc_play]
  rfl

theorem loseDisc (r : ReadyReason) : PlaySound (loseDisc r s) := by
  refine (enterState _ _ ?_).raise _ _
  rw [clearDisc_play]
  rfl

theorem followPlan (plan : LoadPlan) (unheld : plan.state.held = false) (none : s.play.causes.isEmpty = true) :
    PlaySound (followPlan plan s) := by
  unfold Machine.followPlan
  dsimp only
  split
  · exact enterState _ _ rfl
  · refine testCueing (enterState _ _ ?_)
    rw [mapPlay_play, cueAt_play, unheld]
    exact none

theorem forgetOther_play (tag : Tag) (p : Nat) (s : State) : (forgetOther tag p s).play = s.play := by
  unfold forgetOther
  dsimp only
  split
  · rfl
  · rfl

theorem confirmLoad (h : PlaySound s) (loading : s.play.state = .loading) (tag : Tag) (e p : Nat) :
    PlaySound (confirmLoad tag e p s) := by
  refine (followPlan _ (loadPlan_unheld _ _ _ _ _) ?_).raise _ _
  rw [forgetOther_play, changeExtent_play]
  exact h.noCause (by rw [loading]; rfl)

/-- A disc confirmed again leaves the cause SUPPLY at most (R151). -/
theorem sameDisc (held : s.play.state.held = true) : PlaySound (sameDisc s) := by
  unfold Machine.sameDisc
  dsimp only
  split
  · exact returnToPlay ‹_›
  · rename_i left
    exact moves.plannerNotice false (ofHeld held (Bool.eq_false_iff.mpr left))

theorem newDisc (tag : Tag) (e p : Nat) : PlaySound (newDisc tag e p s) := by
  refine ((enterState _ _ ?_).raise _ _).countPlay _
  rw [requestFlush_play, changeExtent_play]
  rfl

theorem takeDisc (h : PlaySound s) (tag : Tag) (e p : Nat) : PlaySound (takeDisc tag e p s) := by
  have away : s.play.state.held = true → PlaySound (if matchesReturn p s.play = true then
      (if tag = s.play.disc.tag then Machine.sameDisc s else Machine.newDisc tag e p s)
      else if s.play.confirming = true ∧ p ≠ s.play.disc.position then strayAnswer s else unsolicited s) := by
    intro held
    split
    · split
      · exact sameDisc held
      · exact newDisc _ _ _
    · split
      · exact h.countPlay _
      · exact h.countPlay _
  unfold Machine.takeDisc
  split
  · split
    · exact h.confirmLoad ‹_› _ _ _
    · exact h.countPlay _
  · rename_i state
    exact away (by rw [state]; rfl)
  · rename_i state
    exact away (by rw [state]; rfl)
  all_goals exact h.countPlay _

/-- An interruption of PLAYING leaves a cause in the set (R149, R152). -/
theorem coastOrSuspend (byRestart : Bool) (some : s.play.causes.isEmpty = false) : PlaySound (coastOrSuspend byRestart s) := by
  unfold Machine.coastOrSuspend
  split
  · exact enterState _ _ some
  · exact (enterState _ _ some).countPlay _

/-- The drive's part of a removal adds DRIVE to the set (R152, R153). -/
theorem driveAway (h : PlaySound s) (byRestart reload : Bool) : PlaySound (driveAway byRestart reload s) := by
  have load : ∀ u : State,
      (if (reload && (!u.play.causes.tray || u.play.confirming)) = true then loadForConfirmation u else u).play.state = u.play.state ∧
      (if (reload && (!u.play.causes.tray || u.play.confirming)) = true then loadForConfirmation u else u).play.causes =
        u.play.causes := by
    intro u
    split
    · exact ⟨rfl, rfl⟩
    · exact ⟨rfl, rfl⟩
  have added : ∀ c : Causes, ({ c with drive := true } : Causes).isEmpty = false := fun c => by simp [Causes.isEmpty]
  have stays : s.play.state.held = true →
      PlaySound (plannerNotice byRestart
        (if (reload && (!s.play.causes.tray || s.play.confirming)) = true then
          loadForConfirmation (Machine.mapPlay (fun p => { p.unconfirm with causes := { p.causes with drive := true } }) s)
        else Machine.mapPlay (fun p => { p.unconfirm with causes := { p.causes with drive := true } }) s)) := by
    intro held
    have marked := load (Machine.mapPlay (fun p => { p.unconfirm with causes := { p.causes with drive := true } }) s)
    exact moves.plannerNotice _ (ofHeld ((congrArg PlayState.held marked.1).trans held)
      ((congrArg Causes.isEmpty marked.2).trans (added _)))
  unfold Machine.driveAway
  dsimp only
  split
  · refine enterState _ _ ?_
    rw [stopRequest_play, (load _).2]
    exact added _
  · refine enterState _ _ ?_
    rw [stopRequest_play, (load _).2]
    exact added _
  · refine coastOrSuspend _ ?_
    rw [(load _).2]
    exact added _
  · rename_i state
    exact stays (by rw [state]; rfl)
  · rename_i state
    exact stays (by rw [state]; rfl)
  all_goals exact h

theorem takeGone (h : PlaySound s) (p : Nat) : PlaySound (takeGone p s) := by
  have away : PlaySound (if p ≠ s.play.disc.position then strayAnswer s
      else if s.play.confirming = true then Machine.loseDisc .noDisc s else Machine.driveAway false false s) := by
    split
    · exact h.countPlay _
    · split
      · exact loseDisc _
      · exact h.driveAway _ _
  unfold Machine.takeGone
  split
  · exact h.countPlay _
  · split
    · exact endLoading _
    · exact h.countPlay _
  · split
    · exact loseDisc _
    · exact h.countPlay _
  all_goals exact away

theorem queueLoad (h : PlaySound s) (p : Nat) : PlaySound (queueLoad p s) := h.congr rfl rfl

theorem playRestart (h : PlaySound s) : PlaySound (playRestart s) := by
  unfold Machine.playRestart
  split
  · exact h
  · exact h.queueLoad _
  · refine enterState _ _ ?_
    rw [queueLoad_play, mapPlay_play, clearDisc_play]
    rfl
  all_goals exact h.driveAway _ _

/-- A TRAY out adds TRAY to the set (R149). -/
theorem playTrayOut (h : PlaySound s) : PlaySound (playTrayOut s) := by
  have added : ∀ c : Causes, ({ c with tray := true } : Causes).isEmpty = false := fun _ => rfl
  unfold Machine.playTrayOut
  dsimp only
  split
  · exact h
  · exact endLoading _
  · refine enterState _ _ ?_
    rw [clearDisc_play]
    rfl
  · exact enterState _ _ (added _)
  · exact enterState _ _ (added _)
  · exact coastOrSuspend _ (added _)
  · rename_i state
    refine moves.plannerNotice _ (ofHeld ?_ (added _))
    rw [mapPlay_play, sealEntry_play]
    exact congrArg PlayState.held state
  · rename_i state
    refine moves.plannerNotice _ (ofHeld ?_ (added _))
    rw [mapPlay_play, sealEntry_play]
    exact congrArg PlayState.held state

theorem playTrayIn (h : PlaySound s) : PlaySound (playTrayIn s) := by
  unfold Machine.playTrayIn
  split
  · exact h.congr rfl rfl
  · exact h

theorem timeOutLoad : PlaySound (timeOutLoad s) := by
  unfold Machine.timeOutLoad
  dsimp only
  split
  · exact endLoading _
  · exact loseDisc _

theorem loadTick (h : PlaySound s) : PlaySound (loadTick s) := by
  unfold Machine.loadTick
  split
  · exact timeOutLoad
  · split
    · exact h
    · exact h

/-! ### Starvation and supply -/

theorem playStarved (h : PlaySound s) : PlaySound (playStarved s) := by
  unfold Machine.playStarved
  split
  · rename_i coasting
    refine enterState _ _ ?_
    rw [sealAs_play]
    exact h.someCause (by rw [coasting]; rfl)
  · exact h

/-- A supply warning adds SUPPLY to the set (R154). -/
theorem playSupplyWarning (h : PlaySound s) : PlaySound (playSupplyWarning s) := by
  have added : ∀ c : Causes, ({ c with supply := true } : Causes).isEmpty = false := fun c => by simp [Causes.isEmpty]
  have suspends : ∀ u : State, u.play.causes.isEmpty = false →
      PlaySound (Machine.enterState .suspended false (Machine.countPlay
        (fun c => { c with supplySuspension := bump c.supplySuspension }) (supplySuspends u))) := by
    intro u some
    refine enterState _ _ ?_
    rw [countPlay_play, supplySuspends_play]
    exact some
  unfold Machine.playSupplyWarning
  dsimp only
  split
  · exact suspends _ (added _)
  · exact suspends _ (added _)
  · exact suspends _ (added _)
  · exact suspends _ (added _)
  · rename_i state
    refine same (ofHeld ?_ (added _)) (supplySuspends_play _)
    exact congrArg PlayState.held state
  all_goals exact h

/-- A supply recovery takes SUPPLY from the set; where that empties it, play returns or pauses (R147, R155). -/
theorem playSupplyRecovery (h : PlaySound s) : PlaySound (playSupplyRecovery s) := by
  unfold Machine.playSupplyRecovery
  dsimp only
  split
  · rename_i emptied
    have none := (Bool.and_eq_true_iff.mp emptied).2
    split
    · exact returnToPlay none
    · exact (enterState .paused false none).stopRequest
  · rename_i kept
    rw [Bool.and_eq_true, not_and] at kept
    refine (Play.sound_iff _).mpr (Eq.trans ?_ ((Play.sound_iff s.play).mp h))
    show ({ s.play.causes with supply := false } : Causes).isEmpty = s.play.causes.isEmpty
    change s.play.causes.supply = true → ¬ ({ s.play.causes with supply := false } : Causes).isEmpty = true at kept
    cases had : s.play.causes.supply
    case false => simp only [Causes.isEmpty, had]
    case true =>
      rw [Bool.eq_false_iff.mpr (kept had)]
      simp only [Causes.isEmpty, had, Bool.not_true, Bool.and_false, Bool.false_and]

/-! ### The end of the disc -/

/-- The end of the disc ends play with no cause (R156). -/
theorem endNotice : PlaySound (endNotice s) := by
  unfold Machine.endNotice
  dsimp only
  split
  · exact enterState _ _ rfl
  · refine enterState _ _ ?_
    rw [clearDisc_play]
    rfl

theorem endOfDisc (h : PlaySound s) : PlaySound (endOfDisc s) := by
  unfold Machine.endOfDisc
  split
  · exact h
  · exact endNotice

theorem cutExtent (h : PlaySound s) (x : Nat) : PlaySound (cutExtent x s) := by
  have cut : PlaySound (changeExtent x (Machine.mapPlay (fun p => { p with disc := { p.disc with extent := x } }) s)) := by
    unfold PlaySound
    rw [changeExtent_play]
    exact h
  unfold Machine.cutExtent feederExtent
  dsimp only
  split
  · split
    · exact endOfDisc (s := Machine.raiseReady _ _ _) cut
    · split
      · exact cut
      · exact cut
  · exact h

/-! ### The frame demand -/

theorem playBoundary (h : PlaySound s) (b : Nat) : PlaySound (playBoundary b s) := by
  unfold Machine.playBoundary
  dsimp only
  split
  · exact h
  · exact h

theorem boundary (h : PlaySound s) (b : Nat) : PlaySound (boundary b s) := by
  have left : PlaySound (Machine.playBoundary (b + 1) (declareEntry (storeEvent (fun t => t.advance b) s))) :=
    playBoundary (h.same ((declareEntry_play _).trans (storeEvent_play s _))) _
  unfold Machine.boundary
  dsimp only
  split
  · exact left.endOfDisc
  · exact left

theorem giveFrame (h : PlaySound s) : PlaySound (giveFrame s) := by
  have raised : PlaySound (raiseConceal (formFrame s) s) := by
    unfold raiseConceal
    split
    · exact h
    · exact h
    · exact h.raise _ _
  unfold Machine.giveFrame
  dsimp only
  split
  · exact boundary (s := mapFeeder _ _) raised _
  · exact raised

theorem demand (h : PlaySound s) : PlaySound (demand s) := by
  have noted : PlaySound (clockReturn (mapFeeder (fun f => { f with seen := true }) s)) := by
    unfold clockReturn
    split
    · exact h
    · exact h
  have played : ∀ {u : State}, PlaySound u → PlaySound (demandPlaying u) := by
    intro u w
    unfold demandPlaying
    split
    · exact endOfDisc (s := mapFeeder _ _) w
    · split
      · split
        · exact w
        · exact playStarved (s := Machine.raise _ _ (mapFeeder _ _)) w
      · exact w.giveFrame
  unfold Machine.demand
  dsimp only
  split
  · exact noted
  · exact noted
  all_goals exact played noted

theorem clockTick (h : PlaySound s) : PlaySound (clockTick s) := by
  unfold Machine.clockTick
  split
  · exact h
  · exact h

theorem loseClock (h : PlaySound s) : PlaySound (loseClock s) := raise (s := mapFeeder _ s) h _ _

theorem frameDemand (h : PlaySound s) (l r : Nat) : PlaySound (frameDemand l r s) := h.demand

end PlaySound
end Sys2Proof.Machine
end

