-- ==== Sys2Proof/Proofs/PlayCausesStep.lean ====
section
/-!
SUPPORT. The suspend-cause set and the play state (R133, R134) through the Monitor, the current stream, the placement, the link, Drive
Restart, the senses and the Console Port, and so through every command. Then the statement that every step keeps them (O59).
-/
namespace Sys2Proof.Machine
namespace PlaySound

variable {s : State}

/-! ### The slots of the other units -/

theorem setAsm (h : PlaySound s) (x : Assembler) : PlaySound (s.setAsm x) := h

theorem setPlanner (h : PlaySound s) (x : Planner) : PlaySound (s.setPlanner x) := h

theorem setHealth (h : PlaySound s) (x : Health) : PlaySound (s.setHealth x) := h

theorem setLink (h : PlaySound s) (x : Link) : PlaySound (s.setLink x) := h

theorem setSense (h : PlaySound s) (x : Sense) : PlaySound (s.setSense x) := h

theorem setSupply (h : PlaySound s) (x : Supply) : PlaySound (s.setSupply x) := h

theorem setConsole (h : PlaySound s) (x : Console) : PlaySound (s.setConsole x) := h

theorem countPlanner (h : PlaySound s) (f : PlannerCounters → PlannerCounters) : PlaySound (countPlanner f s) := h

theorem setStream (h : PlaySound s) (x : Stream) : PlaySound (setStream x s) := h

theorem setFrontier (h : PlaySound s) (x : Frontier) : PlaySound (setFrontier x s) := h

theorem countPlacement (h : PlaySound s) (f : PlacementCounters → PlacementCounters) : PlaySound (countPlacement f s) := h

theorem setAlign (h : PlaySound s) (x : Align) : PlaySound (setAlign x s) := h

theorem txRequest (h : PlaySound s) (m : TxMsg) : PlaySound (txRequest m s) := h.setLink _

theorem mapLink (h : PlaySound s) (g : Link → Link) : PlaySound (mapLink g s) := h

theorem countLink (h : PlaySound s) (f : LinkCounters → LinkCounters) : PlaySound (countLink f s) := h.mapLink _

theorem setAssembly (h : PlaySound s) (x : RxAssembly) : PlaySound (setAssembly x s) := h.mapLink _

theorem loseMessage (h : PlaySound s) (x : Loss) : PlaySound (loseMessage x s) := (h.mapLink _).raise _ _

theorem mapConsole (h : PlaySound s) (g : Console → Console) : PlaySound (mapConsole g s) := h

/-! ### The Monitor -/

theorem rederiveHealth (h : PlaySound s) : PlaySound (rederiveHealth s) := by
  have asked : ∀ {u : State} (level : Pace), PlaySound u → PlaySound (requestPace level u) := by
    intro u level w
    unfold requestPace
    split
    · exact w
    · exact (w.setHealth _).txRequest _
  unfold Machine.rederiveHealth
  dsimp only
  split
  · exact h
  · exact (asked _ (moves.plannerNotice false (h.setHealth _))).raise _ _

theorem addSkip (h : PlaySound s) (amount : Nat) : PlaySound (addSkip amount s) := h.same (addSkip_outer amount s).2

theorem takeReport (h : PlaySound s) (cls : ErasureClass) (inSequence : Bool) : PlaySound (takeReport cls inSequence s) := by
  have scored : PlaySound (Machine.rederiveHealth (s.setHealth (s.health.report cls inSequence))) :=
    (h.setHealth _).rederiveHealth
  unfold Machine.takeReport rederiveRough
  dsimp only
  split
  · exact scored
  · split
    · exact (moves.retryLimitChanged scored).raise _ _
    · exact (moves.retryLimitChanged (scored.setHealth _)).raise _ _

theorem monitorJump (h : PlaySound s) : PlaySound (monitorJump s) := by
  unfold Machine.monitorJump
  split
  · exact h.setHealth _
  · exact h

theorem monitorShock (h : PlaySound s) : PlaySound (monitorShock s) := by
  unfold Machine.monitorShock
  split
  · exact h.setHealth _
  · exact h.addSkip _

theorem recoverHealth (h : PlaySound s) : PlaySound (recoverHealth s) :=
  (moves.plannerNotice false ((h.setHealth _).txRequest _)).raise _ _

theorem monitorTick (h : PlaySound s) : PlaySound (monitorTick s) := by
  unfold Machine.monitorTick
  split
  · exact h.recoverHealth
  · exact h.setHealth _

/-! ### The current stream -/

theorem seekSent (h : PlaySound s) (n : Nat) : PlaySound (seekSent n s) := by
  unfold Machine.seekSent
  dsimp only
  split
  · exact h.setStream _
  · exact h

theorem beginLanding (h : PlaySound s) (landing : Nat) : PlaySound (beginLanding landing s) := by
  unfold Machine.beginLanding
  dsimp only
  split
  · exact moves.mapTargetMislocks _ ((h.countPlanner _).setStream _)
  · exact (h.countPlanner _).setStream _

theorem setUp (h : PlaySound s) (n start target landing : Nat) (blind : Bool) : PlaySound (setUp n start target landing blind s) := by
  unfold Machine.setUp SetUpKind.report
  dsimp only
  split
  · exact (h.setAsm _).setLink _
  · exact (h.setAsm _).setLink _
  · exact (((h.setAsm _).setLink _).countPlacement _).raise _ _
  · exact (((h.setAsm _).setLink _).countPlacement _).raise _ _

theorem takeLanded (h : PlaySound s) (n landing : Nat) : PlaySound (takeLanded n landing s) := by
  unfold Machine.takeLanded land
  dsimp only
  split
  · exact moves.settle (moves.endCheck ((moves.evaluateFlow ((h.beginLanding _).setUp _ _ _ _ _)).setStream _))
  · exact h.countPlanner _

theorem breakStream (h : PlaySound s) : PlaySound (breakStream s) := addSkip (moves.settle (moves.closeStream _ h)) _

/-- BUSY refusals over the limit cut the extent at the frontier (R59). -/
theorem refuseBusy (h : PlaySound s) : PlaySound (refuseBusy s) := by
  have closed : PlaySound (Machine.closeStream .busy (Machine.countPlanner (fun c => { c with refusedBusy := bump c.refusedBusy }) s)) :=
    moves.closeStream _ (h.countPlanner _)
  unfold Machine.refuseBusy refuseFrontier
  dsimp only
  refine addSkip (moves.settle ?_) _
  split
  · split
    · exact ((closed.setFrontier _).countPlanner _).cutExtent _
    · exact closed.setFrontier _
  · exact closed

theorem refuseRange (h : PlaySound s) : PlaySound (refuseRange s) :=
  moves.settle (cutExtent (moves.closeStream _ (h.countPlanner _)) _)

theorem takeRefused (h : PlaySound s) (n reason : Nat) : PlaySound (takeRefused n reason s) := by
  unfold Machine.takeRefused
  split
  · split
    · exact h.refuseBusy
    · exact h.refuseRange
  · exact h.countPlanner _

theorem takeJump (h : PlaySound s) (n : Nat) : PlaySound (takeJump n s) := by
  unfold Machine.takeJump
  split
  · exact (h.countPlanner _).breakStream
  · exact h.countPlanner _

theorem takeDiscontinuity (h : PlaySound s) (n : Nat) : PlaySound (takeDiscontinuity n s) := by
  unfold Machine.takeDiscontinuity
  split
  · exact h.breakStream
  · exact moves.settle h

theorem takeMislock (h : PlaySound s) (n : Nat) : PlaySound (takeMislock n s) := by
  unfold Machine.takeMislock
  split
  · exact addSkip (moves.settle (moves.closeStream _ (countPlanner (moves.mapTargetMislocks _ h) _))) _
  · exact moves.settle h

theorem advanceSeekTimer (h : PlaySound s) : PlaySound (advanceSeekTimer s) := h.setStream _

theorem timeOutSeek (h : PlaySound s) : PlaySound (timeOutSeek s) :=
  addSkip (moves.settle (moves.closeStream _ (h.advanceSeekTimer.countPlanner _))) _

theorem seekTick (h : PlaySound s) : PlaySound (seekTick s) := by
  unfold Machine.seekTick
  split
  · exact h.timeOutSeek
  · split
    · exact h.advanceSeekTimer
    · exact h

/-! ### Placement -/

theorem reportPlacement (h : PlaySound s) (n : Nat) (x : IntakeEntry) (anchored : Option Int) (inSequence : Bool) :
    PlaySound (reportPlacement n x anchored inSequence s) := takeReport (moves.takePlacement _ _ _ h) _ _

theorem placeAt (h : PlaySound s) (x : IntakeEntry) (d : Int) (anchored : Option Int) (inSequence : Bool) :
    PlaySound (placeAt x d anchored inSequence s) :=
  reportPlacement (moves.takeSteps _ (mergeSteps_index _ _ _) (moves.evaluateFlow ((h.countPlacement _).setAlign _))) _ _ _ _

theorem compareOnly (h : PlaySound s) (x : IntakeEntry) : PlaySound (compareOnly x s) :=
  reportPlacement (moves.evaluateFlow ((h.countPlacement _).setAlign _)) _ _ _ _

theorem discontinuity (h : PlaySound s) : PlaySound (discontinuity s) :=
  takeDiscontinuity (moves.evaluateFlow (moves.clearPhase (h.countPlacement _))) _

theorem mislock (h : PlaySound s) : PlaySound (mislock s) := takeMislock (moves.evaluateFlow (moves.clearPhase h)) _

theorem placeAccepted (h : PlaySound s) (x : IntakeEntry) : PlaySound (placeAccepted x s) := by
  unfold Machine.placeAccepted placeInSequence
  dsimp only
  split
  · split
    · split
      · exact h.mislock
      · split
        · exact h.compareOnly _
        · exact h.placeAt _ _ _ _
    · exact h.placeAt _ _ _ _
  · split
    · exact (h.setLink _).placeAt _ _ _ _
    · exact h.discontinuity

theorem judgeEntry (h : PlaySound s) (x : IntakeEntry) : PlaySound (judgeEntry x s) := by
  have dropped : ∀ f, PlaySound (dropEntry f s) := fun f => moves.reflow (h.countPlacement _)
  unfold Machine.judgeEntry
  split
  · exact dropped _
  · split
    · exact dropped _
    · split
      · exact dropped _
      · exact h.placeAccepted _

theorem placement (h : PlaySound s) : PlaySound (placement s) := by
  unfold Machine.placement
  split
  · exact h
  · exact (h.setAsm _).judgeEntry _

/-! ### Drive Restart (R69, R98) -/

theorem ownerRestart (h : PlaySound s) (x : RestartOwner) : PlaySound (ownerRestart s x) := by
  cases x
  case assembler => exact moves.assemblerRestart h
  case planner => exact moves.settle (moves.closeStream _ h)
  case monitor => exact h.txRequest _
  case playController => exact h.playRestart

theorem ownerRestarts (order : List RestartOwner) : ∀ {s : State}, PlaySound s → PlaySound (order.foldl Machine.ownerRestart s) := by
  induction order with
  | nil => exact fun h => h
  | cons x rest ih => exact fun h => ih (h.ownerRestart x)

theorem restartDrive (h : PlaySound s) (order : List RestartOwner) : PlaySound (restartDrive order s) :=
  ownerRestarts _ ((h.mapLink _).raise _ _)

/-! ### The link -/

theorem overrun (h : PlaySound s) : PlaySound (overrun s) := ((h.countPlacement _).loseMessage _).setAssembly _

theorem truncate (h : PlaySound s) : PlaySound (truncate s) := by
  unfold Machine.truncate
  split
  · exact h.loseMessage _
  all_goals exact h

theorem lineHigh (h : PlaySound s) : PlaySound (lineHigh s) := by
  unfold Machine.lineHigh
  split
  · exact h.mapLink _
  · exact h

theorem beginMessage (h : PlaySound s) (noise : Nat) : PlaySound (beginMessage noise s) :=
  (h.lineHigh.mapLink _).truncate.setAssembly _

theorem dispatch (h : PlaySound s) (monitorFirst : Bool) (m : RxMsg) : PlaySound (dispatch monitorFirst m s) := by
  unfold Machine.dispatch dispatchJump
  split
  · exact h.takeDisc _ _ _
  · exact moves.reflow (h.setAsm _)
  · split
    · exact h.monitorJump.takeJump _
    · exact (h.takeJump _).monitorJump
  · exact h.takeLanded _ _
  · exact h.takeRefused _ _
  · exact h.setHealth _
  · exact h.takeGone _

theorem deliver (h : PlaySound s) (monitorFirst : Bool) (m : RxMsg) : PlaySound (deliver monitorFirst m s) := by
  unfold Machine.deliver
  split
  · exact h.loseMessage _
  · exact (h.countLink _).dispatch _ _

theorem receive (h : PlaySound s) (noise : Nat) (monitorFirst : Bool) (m : RxMsg) : PlaySound (receive noise monitorFirst m s) := by
  unfold Machine.receive
  split
  · exact (h.beginMessage _).deliver _ _
  · exact h

theorem receiveBlock (h : PlaySound s) (noise n bn : Nat) (tag : Tag) (v : List Sample) (e : Option (List Nat)) :
    PlaySound (receiveBlock noise n bn tag v e s) := by
  have begun := h.beginMessage noise
  unfold Machine.receiveBlock
  dsimp only
  split
  · split
    · exact begun.overrun
    · split
      · exact (begun.loseMessage _).setAssembly _
      · exact begun.deliver _ _
  · exact h

theorem transmitted (h : PlaySound s) : PlaySound (transmitted s) := by
  unfold Machine.transmitted
  dsimp only
  split
  · split
    · exact (h.mapLink _).seekSent _
    all_goals exact h.mapLink _
  all_goals exact h

theorem gapOver (h : PlaySound s) : PlaySound (gapOver s) := by
  unfold Machine.gapOver
  split
  · exact h.mapLink _
  all_goals exact h

/-! ### Characters one by one -/

theorem takeRateMark (h : PlaySound s) (span : Option Nat) : PlaySound (takeRateMark span s) := by
  have fails : PlaySound (failRate s) := (h.countLink _).raise _ _
  unfold Machine.takeRateMark
  split
  · exact fails
  · split
    · exact (h.setConsole _).countLink _
    · exact fails

theorem takeFaulted (h : PlaySound s) (x : CharFault) : PlaySound (takeFaulted x s) := by
  unfold Machine.takeFaulted
  split
  · exact h.countLink _
  all_goals exact (h.loseMessage _).setAssembly _

theorem takeHeader (h : PlaySound s) (header : Byte) (span : Option Nat) : PlaySound (takeHeader header span s) := by
  unfold Machine.takeHeader
  split
  · exact (h.setAssembly _).takeRateMark _
  · exact (h.loseMessage _).setAssembly _
  · split
    · exact h.overrun
    · exact h.setAssembly _

theorem complete (h : PlaySound s) (kind : RxKind) (bytes : List Byte) : PlaySound (complete kind bytes s) := by
  unfold Machine.complete
  dsimp only
  split
  · exact (h.setAssembly _).deliver _ _
  · exact (h.setAssembly _).loseMessage _

theorem takeHeld (h : PlaySound s) (held : List Byte) : PlaySound (takeHeld held s) := by
  unfold Machine.takeHeld
  dsimp only
  split
  · exact h.setAssembly _
  · exact h.setAssembly _
  · split
    · exact (h.loseMessage _).setAssembly _
    · split
      · exact h.setAssembly _
      · split
        · exact h.complete _ _
        · exact h.setAssembly _

theorem takeBody (h : PlaySound s) (b : Byte) : PlaySound (takeBody b s) := by
  unfold Machine.takeBody
  split
  · exact (h.loseMessage _).setAssembly _
  · exact h
  · exact h.takeHeld _

theorem assemble (h : PlaySound s) (j : Judged) (span : Option Nat) : PlaySound (assemble j span s) := by
  unfold Machine.assemble
  split
  · exact h.takeFaulted _
  · split
    · exact h.truncate.takeHeader _ _
    · exact h.takeBody _

theorem receiveChar (h : PlaySound s) (c : RxChar) : PlaySound (receiveChar c s) := by
  unfold Machine.receiveChar
  split
  · dsimp only
    split
    · exact h.lineHigh
    · exact (h.lineHigh.mapLink _).assemble _ _
  · exact h

theorem receiveChars (chars : List RxChar) : ∀ {s : State}, PlaySound s → PlaySound (receiveChars chars s) := by
  induction chars with
  | nil => exact fun h => h
  | cons c rest ih => exact fun h => ih (h.receiveChar c).takeNotices

/-! ### Senses and ticks -/

theorem sampleTray (h : PlaySound s) (level : Bool) : PlaySound (sampleTray level s) := by
  unfold Machine.sampleTray
  dsimp only
  split
  · split
    · exact ((h.setSense _).raise _ _).playTrayIn
    · exact ((h.setSense _).raise _ _).playTrayOut
  · exact h.setSense _

theorem samplePin (h : PlaySound s) (pin : SensePin) (level : Bool) : PlaySound (samplePin pin level s) := by
  unfold Machine.samplePin
  split
  · exact h.sampleTray _
  · unfold sampleShock
    dsimp only
    split
    · exact ((h.setSense _).raise _ _).monitorShock
    · exact h.setSense _

theorem sampleSupply (h : PlaySound s) (vsense : Nat) : PlaySound (sampleSupply vsense s) := by
  unfold Machine.sampleSupply
  dsimp only
  split
  · exact (h.setSupply _).playSupplyWarning.raise _ _
  · exact h.setSupply _

theorem recoverSupply (h : PlaySound s) : PlaySound (recoverSupply s) :=
  (h.setSupply _).playSupplyRecovery.raise _ _

theorem supplyTick (h : PlaySound s) : PlaySound (supplyTick s) := by
  unfold Machine.supplyTick
  split
  · exact h.recoverSupply
  · split
    · exact h.setSupply _
    · exact h

theorem blockTick (h : PlaySound s) : PlaySound (blockTick s) := h.seekTick.loadTick.monitorTick.supplyTick.clockTick

/-! ### The mailbox and the window -/

theorem busWrite (h : PlaySound s) (r : Nat) (effect : Nat → State → State)
    (he : ∀ r {u : State}, PlaySound u → PlaySound (effect r u)) : PlaySound (busWrite r effect s) := by
  unfold Machine.busWrite
  split
  · exact h
  all_goals exact he _ ((h.mapConsole fun c => c.addressed r).mapConsole _)

theorem setParam (h : PlaySound s) (id v : Nat) : PlaySound (setParam id v s) := by
  have noted : PlaySound (noteFormat id s) := by
    unfold noteFormat
    split
    · exact h.mapLink _
    · exact h
  have put : PlaySound (Machine.mapConsole (fun c => { c with params := c.params.put id v }) (noteFormat id s)) :=
    noted.mapConsole _
  unfold Machine.setParam
  split
  · exact h
  · unfold paramChanged
    split
    · exact moves.postReadiness _ put
    · exact moves.settle (moves.judgeLateness put)
    · exact moves.settle put
    · split
      · exact put
      · exact moves.retryLimitChanged put
    · exact moves.settle (moves.judgeLateness put)
    · exact put.mapLink _
    · exact put.setSense _
    · exact put.setSense _
    · exact put

theorem commandWrite (h : PlaySound s) (code : Byte) (owner : State → Answer)
    (ho : ∀ {u : State}, PlaySound u → PlaySound (owner u).2) : PlaySound (commandWrite code owner s) := by
  unfold Machine.commandWrite
  split
  · exact h.mapConsole _
  · exact ((ho (h.mapConsole _)).mapConsole _).raise _ _

/-- A tested command keeps the relation where its run does when the test grants it. -/
theorem testedAnswer (h : PlaySound s) (result : State → Result) (run : State → State)
    (hr : result s = .done → PlaySound (run s)) : PlaySound (tested result run s).2 := by
  unfold tested
  split
  · rename_i done
    exact hr done
  · exact h

theorem setResume (h : PlaySound s) (x : Resume) : PlaySound (s.setResume x) := h

theorem setAttn (h : PlaySound s) (x : Attn) : PlaySound (s.setAttn x) := h

/-- EMPTY has no suspend cause (R133). -/
theorem reset (play : s.play = Play.reset) : PlaySound s := by
  unfold PlaySound
  rw [play]
  exact State.reset_play

theorem cmdWrite (h : PlaySound s) (code : Byte) : PlaySound (cmdWrite code s) := by
  unfold Machine.cmdWrite
  split
  · exact h.commandWrite _ _ fun w => w.testedAnswer _ _ fun _ => runSelect
  · exact h.commandWrite _ _ fun w => w.testedAnswer _ _ w.runPlay
  · exact h.commandWrite _ _ fun w => w.testedAnswer _ _ w.runPause
  · exact h.commandWrite _ _ fun w => w.testedAnswer _ _ w.runContinue
  · exact h.commandWrite _ _ fun w => w.testedAnswer _ _ fun _ => runStop
  · exact h.commandWrite _ _ fun w => w.testedAnswer _ _ fun _ => w.setParam _ _
  · exact h.commandWrite _ _ fun w => w.testedAnswer _ _ fun _ => w
  · exact h.commandWrite _ _ fun w => w.testedAnswer _ _ fun _ => w
  · refine h.commandWrite _ _ fun w => w.testedAnswer _ _ fun _ => ?_
    split
    · exact w
    · exact w
  · exact h.commandWrite _ _ fun w => w.testedAnswer _ _ fun _ => w
  · exact h.commandWrite _ _ fun w => w.testedAnswer _ _ fun _ => w
  · exact h.commandWrite _ _ fun w => w.testedAnswer _ _ fun _ => w
  · exact h.commandWrite _ _ fun w => w
  · unfold softResetWrite
    split
    · exact h.mapConsole _
    · exact reset rfl
  · exact h.commandWrite _ _ fun w => w

theorem registerWrite (h : PlaySound s) (register : Nat) (v : Byte) : PlaySound (registerWrite register v s) := by
  have latched : ∀ i, PlaySound (paramWrite i v s) := by
    intro i
    unfold paramWrite
    split
    · exact h.mapConsole _
    · exact h.mapConsole _
  unfold Machine.registerWrite
  split
  iterate 5 exact h.setAttn _
  iterate 6 exact latched _
  · exact h.cmdWrite _
  · exact h

theorem writeByte (h : PlaySound s) (register : Nat) (v : Byte) : PlaySound (writeByte register v s) :=
  h.busWrite _ _ fun _ _ w => w.registerWrite _ _

theorem sendBytes (n : Nat) : ∀ {s : State}, PlaySound s → PlaySound (sendBytes n s) := by
  induction n with
  | zero => exact fun h => h
  | succ n ih => exact fun h => ih (h.mapConsole _)

/-! ### Resets -/

theorem hardReset (cause : ResetCause) (addr : Bool) (x : Stored) (s : State) : PlaySound (hardReset cause addr x s) := by
  have blocks : PlaySound (resetBlocks cause addr s) := reset rfl
  unfold Machine.hardReset judgeResume
  split
  · split
    · exact blocks.setResume _
    · exact (blocks.setResume _).raise _ _
  · exact (blocks.setResume _).raise _ _

/-! ### Every command -/

/-- A guard of a command keeps what both branches keep. -/
theorem ite {p : Prop} [Decidable p] {a b : State} (ha : PlaySound a) (hb : PlaySound b) : PlaySound (if p then a else b) := by
  split
  · exact ha
  · exact hb

/-- Every command keeps the relation. -/
theorem exec (h : PlaySound s) (c : Instr) {t : State} (e : exec c s = .next t) : PlaySound t := by
  have written : ∀ (r : Nat) (v : Byte) {u : State}, PlaySound u → PlaySound (Machine.writeByte r v u) := fun _ _ _ w => w.writeByte _ _
  unfold Machine.exec at e
  cases c <;> dsimp only at e
  case powerOnReset => cases e; exact hardReset _ _ _ _
  case systemReset => cases e; exact hardReset _ _ _ _
  case softReset => cases e; exact written _ _ h
  case blockTick => exact h.inStep blockTick e
  case recovery => exact h.inStep (fun w => .ite w.recoverHealth w) e
  case seekTimeout => exact h.inStep (fun w => .ite w.timeOutSeek w) e
  case loadTimeout => exact h.inStep (fun w => .ite timeOutLoad w) e
  case clockLoss => exact h.inStep (fun w => .ite w.loseClock w) e
  case frameDemand => exact h.inStep (fun w => w.frameDemand _ _) e
  case block => exact h.inStep (fun w => w.receiveBlock _ _ _ _ _ _) e
  case placement => exact h.inStep placement e
  case landed => exact h.inStep (fun w => w.receive _ _ _) e
  case refused => exact h.inStep (fun w => w.receive _ _ _) e
  case jump => exact h.inStep (fun w => w.receive _ _ _) e
  case settled => exact h.inStep (fun w => w.receive _ _ _) e
  case disc => exact h.inStep (fun w => w.receive _ _ _) e
  case gone => exact h.inStep (fun w => w.receive _ _ _) e
  case rateMark => exact h.inStep (fun w => .ite ((w.beginMessage _).takeRateMark _) w) e
  case lostMessage => exact h.inStep (receiveChars _) e
  case driveRestart => exact h.inStep (fun w => .ite (w.restartDrive _) w) e
  case transmitterRelease => exact h.inStep lineHigh e
  case transmissionComplete => exact h.inStep transmitted e
  case trayIn => exact h.inStep (fun w => w.sampleTray _) e
  case trayOut => exact h.inStep (fun w => w.sampleTray _) e
  case shockChange => exact h.inStep (fun w => w.samplePin .shock _) e
  case levelLatch => exact h.inStep (fun w => w.samplePin _ _) e
  case supplyWarning => exact h.inStep (fun w => w.sampleSupply _) e
  case supplyRecovery => exact h.inStep (fun w => .ite w.recoverSupply w) e
  case registerPointer => exact h.inStep (fun w => w.mapConsole _) e
  case mailboxCollision => exact h.inStep (fun w => w.busWrite _ _ fun _ _ x => x.mapConsole _) e
  case snapshotLatch => exact h.inStep (fun w => sendBytes _ (w.mapConsole _)) e
  case overrunAtHeader => exact h.inStep (fun w => .ite ((w.beginMessage _).takeHeader _ _) w) e
  case transmitterIdle => exact h.inStep gapOver e
  case lineIdle => exact h.inStep lineHigh e
  case discardingCharacter => exact h.inStep (fun w => w.receiveChar _) e
  case supplySample => exact h.inStep (fun w => w.sampleSupply _) e
  case cancellerSample => exact h.inStep (fun w => w.samplePin _ _) e
  case transactionEnd => exact h.inStep (fun w => w.mapConsole _) e
  all_goals exact h.inStep (written _ _) e

/-- A step keeps the relation, the command taken from the queue. -/
theorem step (h : PlaySound s) {t : State} (e : step s = .next t) : PlaySound t := by
  unfold Machine.step at e
  split at e
  · cases e
    exact h
  · rename_i c rest _
    exact exec (s := s.setPending rest) h c e

end PlaySound
end Sys2Proof.Machine

namespace Sys2Proof.Claims

open Sys2Proof.Machine

/-- Settles O59: the suspend-cause set is empty except in COASTING and SUSPENDED, and every command keeps that (`PlaySound.exec`). -/
theorem playKept : Obligations.PlayKept := fun _ _ sound e => PlaySound.step sound e

end Sys2Proof.Claims
end

