-- ==== Sys2Proof/Proofs/RefusedCommands.lean ====
section
/-!
SUPPORT. A command that its owner refuses is completed with the owner's result, and nothing else changes (R137, R173, R180, R181). Then the
statement about the refused commands (O45).
-/
namespace Sys2Proof.Machine

variable {s : State}

/-! ### The tests of the Play Controller's commands (R137) -/

theorem selectResult_outside (outside : paramByte s 0 < 1 ∨ 6 < paramByte s 0 ∨ 2 < paramByte s 1) :
    selectResult s = .refusedRange := by
  unfold selectResult
  rw [if_neg]
  omega

theorem playResult_discless (state : s.play.state = .empty ∨ s.play.state = .loading ∨ s.play.state = .suspended) :
    playResult s = .refusedNoDisc := by
  unfold playResult
  rcases state with state | state | state <;> rw [state]

/-- In a state that plays or could play, the supply and the place decide (R137). -/
theorem playResult_loaded (notEmpty : s.play.state ≠ .empty) (notLoading : s.play.state ≠ .loading)
    (notSuspended : s.play.state ≠ .suspended) :
    playResult s = if s.play.supplyWarned then .refusedSupply
      else if playBn s < s.play.disc.extent ∧ playFrame s < 588 then .done else .refusedRange := by
  unfold playResult
  split
  · exact absurd ‹_› notEmpty
  · exact absurd ‹_› notLoading
  · exact absurd ‹_› notSuspended
  all_goals rfl

theorem pauseResult_other (notPlaying : s.play.state ≠ .playing) (notCueing : s.play.state ≠ .cueing) :
    pauseResult s = .refusedState := by
  unfold pauseResult
  split
  · exact absurd ‹_› notPlaying
  · exact absurd ‹_› notCueing
  all_goals rfl

/-! ### Commands that are not carried out -/

/-- Writing a code that names no command comes to UNKNOWN (R181). -/
theorem cmdWrite_unknown {code : Byte} (unknown : code.toNat ∉ commandCodes) (u : State) :
    cmdWrite code u = commandWrite code answerUnknown u := by
  have other : ∀ n ∈ commandCodes, code.toNat ≠ n := fun n named same => unknown (same ▸ named)
  unfold cmdWrite
  split
  iterate 14 exact absurd ‹_› (other _ (by decide))
  rfl

end Sys2Proof.Machine

namespace Sys2Proof.Claims

open Sys2Proof.Machine

section

variable {s : State}

/-- An owner that answers a result and leaves the state it was given changes nothing beyond the mailbox and COMMAND_DONE. -/
theorem inStep_unchanged (free : MailboxFree s) (code : Byte) (owner : State → Answer)
    (names : ∀ u, cmdWrite code u = commandWrite code owner u) (r : Result)
    (answers : owner (accepted code (s.setNotices [])) = (r, accepted code (s.setNotices []))) :
    inStep (writeCommand code) s = .next (answeredState s code r s.console.response) := by
  have written : writeCommand code (s.setNotices []) = (answeredState s code r s.console.response).setNotices [] := by
    rw [writeCommand_taken code owner names (show (s.setNotices []).console.mailbox.busy = false from free.1) free.2, answers]
    unfold completeCommand answeredState raise
    rw [BitVec.ofNat_toNat, BitVec.setWidth_eq]
    rfl
  rw [inStep_quiet (by rw [written]; rfl), written]
  rfl

/-- A test that does not give DONE is the command's result (R137, R181). -/
theorem inStep_refused (free : MailboxFree s) (code : Byte) (result : State → Result) (run : State → State)
    (names : ∀ u, cmdWrite code u = commandWrite code (tested result run) u) {r : Result}
    (refuses : result (accepted code (s.setNotices [])) = r) (undone : r ≠ .done) :
    inStep (writeCommand code) s = .next (answeredState s code r s.console.response) := by
  refine inStep_unchanged free code (tested result run) names r ?_
  rw [tested_refused result run (refuses ▸ undone), refuses]

/-- A range test that fails gives REFUSED_RANGE (R18, R73, R173). -/
theorem inStep_outOfRange (free : MailboxFree s) (code : Byte) (ok : State → Bool) (run : State → State)
    (names : ∀ u, cmdWrite code u = commandWrite code (tested (rangeTest ok) run) u)
    (outside : ok (accepted code (s.setNotices [])) = false) :
    inStep (writeCommand code) s = .next (answeredState s code .refusedRange s.console.response) :=
  inStep_refused free code (rangeTest ok) run names (by unfold rangeTest; rw [outside]; rfl) nofun

end

/-- Settles O45: each refused command is one whose test, on the values the state holds, gives the result named; UNKNOWN has no owner. -/
theorem refusedCommandsChangeNothing : Obligations.RefusedCommandsChangeNothing := by
  intro s free
  refine ⟨?unknown, ?select, ?discless, ?play, ?pause, ?supply, ?unpaused, ?stop, ?setRange, ?setState, ?zero, ?get, ?resume, ?slot,
    ?repair, ?counters⟩
  case unknown => exact fun code other => inStep_unchanged free code answerUnknown (cmdWrite_unknown other) .unknown rfl
  case select =>
    exact fun outside => inStep_refused free 0x01 selectResult runSelect (fun _ => rfl)
      (selectResult_outside (s := accepted _ _) outside) nofun
  case discless =>
    exact fun state => inStep_refused free 0x02 playResult runPlay (fun _ => rfl) (playResult_discless (s := accepted _ _) state) nofun
  case play =>
    intro notEmpty notLoading notSuspended
    have test := playResult_loaded (s := accepted 0x02 (s.setNotices [])) notEmpty notLoading notSuspended
    refine ⟨fun warned => ?_, fun unwarned outside => ?_⟩
    · exact inStep_refused free 0x02 playResult runPlay (fun _ => rfl) (test.trans (if_pos warned)) nofun
    · refine inStep_refused free 0x02 playResult runPlay (fun _ => rfl) (test.trans ?_) nofun
      refine (if_neg (Bool.eq_false_iff.mp unwarned)).trans (if_neg ?_)
      show ¬ (playBn s < s.play.disc.extent ∧ playFrame s < 588)
      omega
  case pause =>
    exact fun notPlaying notCueing => inStep_refused free 0x03 pauseResult runPause (fun _ => rfl)
      (pauseResult_other (s := accepted _ _) notPlaying notCueing) nofun
  case supply => exact fun warned => inStep_refused free 0x04 continueResult runContinue (fun _ => rfl) (if_pos warned) nofun
  case unpaused =>
    exact fun unwarned other => inStep_refused free 0x04 continueResult runContinue (fun _ => rfl)
      ((if_neg (Bool.eq_false_iff.mp unwarned)).trans (if_neg other)) nofun
  case stop => exact fun empty => inStep_refused free 0x05 stopResult runStop (fun _ => rfl) (if_pos empty) nofun
  case setRange =>
    exact fun outside => inStep_refused free 0x10 _ _ (fun _ => rfl) (if_neg (Bool.eq_false_iff.mp outside)) nofun
  case setState =>
    intro inRange low high notEmpty notReady
    have idle : idleOnly (paramByte s 0) = true := by
      unfold idleOnly
      simp only [low, high, decide_true, Bool.and_true]
    exact inStep_refused free 0x10 _ _ (fun _ => rfl) ((if_pos inRange).trans (if_pos ⟨idle, notEmpty, notReady⟩)) nofun
  case zero =>
    intro zero
    refine ⟨inStep_outOfRange free 0x11 _ _ (fun _ => rfl) ?_, inStep_outOfRange free 0x20 _ _ (fun _ => rfl) ?_⟩
    · show (decide (1 ≤ paramByte s 0) && decide (paramByte s 0 ≤ 24)) = false
      rw [zero]
      rfl
    · show (decide (1 ≤ paramByte s 0) && decide (paramByte s 0 ≤ 6)) = false
      rw [zero]
      rfl
  case get =>
    intro high
    refine inStep_outOfRange free 0x11 _ _ (fun _ => rfl) ?_
    show (decide (1 ≤ paramByte s 0) && decide (paramByte s 0 ≤ 24)) = false
    rw [decide_eq_false (Nat.not_le.mpr high), Bool.and_false]
  case resume =>
    intro high
    refine ⟨inStep_outOfRange free 0x20 _ _ (fun _ => rfl) ?_, inStep_outOfRange free 0x21 _ _ (fun _ => rfl) ?_⟩
    · show (decide (1 ≤ paramByte s 0) && decide (paramByte s 0 ≤ 6)) = false
      rw [decide_eq_false (Nat.not_le.mpr high), Bool.and_false]
    · exact decide_eq_false (Nat.not_le.mpr high)
  case slot => exact fun high => inStep_outOfRange free 0x22 _ _ (fun _ => rfl) (decide_eq_false (Nat.not_le.mpr high))
  case repair => exact fun high => inStep_outOfRange free 0x23 _ _ (fun _ => rfl) (decide_eq_false (Nat.not_le.mpr high))
  case counters => exact fun short => inStep_outOfRange free 0x24 _ _ (fun _ => rfl) (decide_eq_false (Nat.not_lt.mpr short))

end Sys2Proof.Claims
end

