-- ==== Sys2Proof/Proofs/PlayRequests.lean ====
section
/-!
SUPPORT. What the Play Controller's requests leave alone (R135, R136): `PlayFrame es a t`, the requests as equations, and the notices of
readiness that follow a flush (R16).
-/
namespace Sys2Proof.Machine

/-- From a to t nothing changed beside the audio path, the link and the Resume Table, but the events listed. -/
structure PlayFrame (es : List Event) (a t : State) : Prop where
  health  : t.health = a.health
  sense   : t.sense = a.sense
  supply  : t.supply = a.supply
  console : t.console = a.console
  pending : t.pending = a.pending
  attn    : ∀ e, e ∉ es → t.attn.record e.index = a.attn.record e.index

namespace PlayFrame

variable {es : List Event} {a b s t : State}

theorem refl (es : List Event) (a : State) : PlayFrame es a a := ⟨rfl, rfl, rfl, rfl, rfl, fun _ _ => rfl⟩

theorem trans (h : PlayFrame es a b) (k : PlayFrame es b t) : PlayFrame es a t :=
  ⟨k.health.trans h.health, k.sense.trans h.sense, k.supply.trans h.supply, k.console.trans h.console, k.pending.trans h.pending,
    fun e out => (k.attn e out).trans (h.attn e out)⟩

/-- More events may be listed. -/
theorem mono {fs : List Event} (h : PlayFrame es a t) (sub : es ⊆ fs) : PlayFrame fs a t :=
  { h with attn := fun e out => h.attn e fun listed => out (sub listed) }

theorem ofChoice (h : KeepsChoice a t) : PlayFrame es a t :=
  ⟨h.health, h.sense, h.supply, h.console, h.pending, fun _ _ => by rw [h.attn]⟩

theorem ofRest (listed : .repairOverflow ∈ es) (h : KeepsRest a t) : PlayFrame es a t :=
  ⟨h.health, h.sense, h.supply, h.console, h.pending,
    fun _ out => h.attn _ fun same => out (by rw [Event.index_injective same]; exact listed)⟩

theorem setPlay (h : PlayFrame es a s) (x : Play) : PlayFrame es a (s.setPlay x) := { h with }

theorem setFeeder (h : PlayFrame es a s) (x : Feeder) : PlayFrame es a (s.setFeeder x) := { h with }

theorem setResume (h : PlayFrame es a s) (x : Resume) : PlayFrame es a (s.setResume x) := { h with }

theorem setNotices (h : PlayFrame es a s) (x : List Bool) : PlayFrame es a (s.setNotices x) := { h with }

theorem enterState (h : PlayFrame es a s) (x : PlayState) (byRestart : Bool) : PlayFrame es a (enterState x byRestart s) :=
  (h.setPlay _).trans (.ofChoice (KeepsChoice.plannerNotice byRestart _))

theorem raise (h : PlayFrame es a s) {e : Event} (listed : e ∈ es) (d : Nat) : PlayFrame es a (raise e d s) :=
  { h with attn := fun _ out =>
      (Attn.record_raise_other _ _ _ _ fun same => out (by rw [Event.index_injective same]; exact listed)).trans (h.attn _ out) }

theorem queueLoad (h : PlayFrame es a s) (p : Nat) : PlayFrame es a (queueLoad p s) := { h with }

theorem setAsm (h : PlayFrame es a s) (x : Assembler) : PlayFrame es a (s.setAsm x) := { h with }

theorem changeStore (h : PlayFrame es a s) (f : Store → Store) : PlayFrame es a (changeStore f s) := by
  obtain ⟨x, made⟩ := changeStore_notices f s
  rw [made]
  exact { h with }

/-- A flush raises no event (R14, R136). -/
theorem requestFlush (h : PlayFrame es a s) (b : Nat) : PlayFrame es a (requestFlush b s) :=
  ((((h.setNotices _).setPlay _).changeStore _).setAsm _).trans (.ofChoice (KeepsChoice.flushStore b _))

theorem takeNotices (listed : .repairOverflow ∈ es) (s : State) : PlayFrame es s (takeNotices s) :=
  .ofRest listed (KeepsRest.takeNotices s)

end PlayFrame

/-! ### The requests as equations -/

/-- What the planner's choice leaves holds as well where the feeder changes beside it. -/
theorem KeepsChoice.setFeeder {a s : State} (h : KeepsChoice a s) (x : Feeder) : KeepsChoice (a.setFeeder x) (s.setFeeder x) :=
  { h with feeder := rfl }

/-- The Resume Table after a seal (R159). -/
def sealedTable (mode : SaveMode) (cause : SealCause) (s : State) : Resume :=
  if s.feeder.block < s.play.disc.extent then
    s.resume.write s.play.disc.position ⟨true, s.play.disc.tag, s.feeder.block, s.feeder.frame, mode, cause⟩
  else s.resume

/-- A seal writes the Resume Table alone (R159). -/
theorem sealAs_eq (mode : SaveMode) (cause : SealCause) (s : State) :
    sealAs mode cause s = s.setResume (sealedTable mode cause s) := by
  unfold sealAs sealedTable
  dsimp only
  split <;> rfl

/-- A play state is entered with the planner's choice alone beside it (R134). -/
theorem enterState_keeps (x : PlayState) (byRestart : Bool) (s : State) :
    KeepsChoice (mapPlay (fun p => p.enter x) s) (enterState x byRestart s) := KeepsChoice.plannerNotice byRestart _

theorem enterState_notices (x : PlayState) (byRestart : Bool) (s : State) : (enterState x byRestart s).notices = s.notices :=
  (enterState_keeps x byRestart s).notices

theorem enterState_intake (x : PlayState) (byRestart : Bool) (s : State) :
    (enterState x byRestart s).asm.intake = s.asm.intake := (enterState_keeps x byRestart s).asm.intake

theorem enterState_counted (x : PlayState) (byRestart : Bool) (s : State) :
    (enterState x byRestart s).asm.counters = s.asm.counters := (enterState_keeps x byRestart s).asm.counters

theorem requestFlush_resume (b : Nat) (s : State) : (requestFlush b s).resume = s.resume := flushStore_resume _ b

theorem requestFlush_intake (b : Nat) (s : State) : (requestFlush b s).asm.intake = [] := flushStore_intake _ b

theorem requestFlush_counted (b : Nat) (s : State) : (requestFlush b s).asm.counters = s.asm.counters :=
  (KeepsChoice.flushStore b _).asm.counters

theorem requestFlush_ramp (b : Nat) (s : State) : rampLength (requestFlush b s) = rampLength s :=
  congrArg (fun c => c.params.rampLength) (flushStore_console _ b)

theorem enterState_ramp (x : PlayState) (byRestart : Bool) (s : State) : rampLength (enterState x byRestart s) = rampLength s :=
  congrArg (fun c => c.params.rampLength) (enterState_console s x byRestart)

section
variable (s : State)

theorem mapPlay_feeder (g : Play → Play) : (mapPlay g s).feeder = s.feeder := rfl
theorem mapPlay_store (g : Play → Play) : (mapPlay g s).store = s.store := rfl
theorem mapPlay_resume (g : Play → Play) : (mapPlay g s).resume = s.resume := rfl
theorem queueLoad_feeder (p : Nat) : (queueLoad p s).feeder = s.feeder := rfl
theorem queueLoad_store (p : Nat) : (queueLoad p s).store = s.store := rfl
theorem queueLoad_resume (p : Nat) : (queueLoad p s).resume = s.resume := rfl
theorem stopRequest_feeder : (stopRequest s).feeder = s.feeder.stop (rampLength s) := rfl
theorem stopRequest_store : (stopRequest s).store = s.store := rfl
theorem stopRequest_resume : (stopRequest s).resume = s.resume := rfl

theorem flushAtCursor_feeder : (flushAtCursor s).feeder = s.feeder.stop (rampLength s) := by
  unfold flushAtCursor
  rw [stopRequest_feeder, requestFlush_feeder, requestFlush_ramp]

theorem flushAtCursor_store : (flushAtCursor s).store = s.store.flush s.feeder.block := by
  unfold flushAtCursor
  rw [stopRequest_store, requestFlush_store]

theorem flushAtCursor_resume : (flushAtCursor s).resume = s.resume := by
  unfold flushAtCursor
  rw [stopRequest_resume, requestFlush_resume]

theorem flushAtCursor_intake : (flushAtCursor s).asm.intake = [] := by
  unfold flushAtCursor
  exact requestFlush_intake _ s

end

theorem clearDisc_resume (s : State) : (clearDisc s).resume = s.resume :=
  ((KeepsRest.moves s).clearDisc (.refl s)).resume

/-- Clearing the disc raises at most REPAIR_OVERFLOW, by the store's new extent (R49, R136). -/
theorem PlayFrame.clearDisc {es : List Event} {a s : State} (h : PlayFrame es a s) (listed : .repairOverflow ∈ es) :
    PlayFrame es a (clearDisc s) := h.trans (.ofRest listed ((KeepsRest.moves s).clearDisc (.refl s)))

/-- A cue leaves the feeder SILENT at the place it names (R116). -/
theorem Feeder.cue_place (f : Feeder) (ramp bn frame : Nat) :
    (f.cue ramp bn frame).state = .silent ∧ (f.cue ramp bn frame).block = bn ∧ (f.cue ramp bn frame).frame = frame := by
  refine ⟨?_, rfl, rfl⟩
  unfold Feeder.cue Feeder.endRun
  dsimp only
  split
  · assumption
  · rfl

/-- A stop request to a feeder that sounds begins a ramp, or ends it at once with Ramp Length 0 (R120). -/
theorem Feeder.stop_sounding {f : Feeder} (sounds : f.state = .running ∨ f.state = .starting) (ramp : Nat) :
    f.stop ramp = if ramp = 0 then f.rampedDown else { f with state := .stopping } := by
  unfold Feeder.stop
  rcases sounds with state | state <;> rw [state]

theorem Feeder.stop_starved {f : Feeder} (starved : f.state = .starved) (ramp : Nat) :
    f.stop ramp = { f with state := .silent, gain := 0 } := by
  unfold Feeder.stop
  rw [starved]

theorem Feeder.stop_stopped {f : Feeder} (stopped : f.state = .silent ∨ f.state = .stopping) (ramp : Nat) : f.stop ramp = f := by
  unfold Feeder.stop
  rcases stopped with state | state <;> rw [state]

/-- A stop request leaves the cursor, and the feeder in no state but SILENT and STOPPING (R120). -/
theorem Feeder.stop_place (f : Feeder) (ramp : Nat) :
    (f.stop ramp).block = f.block ∧ (f.stop ramp).frame = f.frame ∧
      ((f.stop ramp).state = .silent ∨ (f.stop ramp).state = .stopping) := by
  cases state : f.state
  case running | starting =>
    rw [Feeder.stop_sounding (by simp [state])]
    split
    · exact ⟨rfl, rfl, .inl rfl⟩
    · exact ⟨rfl, rfl, .inr rfl⟩
  case starved =>
    rw [Feeder.stop_starved state]
    exact ⟨rfl, rfl, .inl rfl⟩
  case silent =>
    rw [Feeder.stop_stopped (.inl state)]
    exact ⟨rfl, rfl, .inl state⟩
  case stopping =>
    rw [Feeder.stop_stopped (.inr state)]
    exact ⟨rfl, rfl, .inr state⟩

theorem Feeder.stop_unstarved (f : Feeder) (ramp : Nat) : (f.stop ramp).state ≠ .starved := by
  obtain ⟨-, -, silent | stopping⟩ := f.stop_place ramp
  · rw [silent]
    exact nofun
  · rw [stopping]
    exact nofun

/-- A start leaves the cursor, and the feeder RUNNING at full gain or STARTING (R119, R120). -/
theorem Feeder.start_place (f : Feeder) (ramp gain : Nat) :
    (f.start ramp gain).state = (if ramp = 0 then .running else .starting) ∧ (f.start ramp gain).gain = (if ramp = 0 then 128 else gain) ∧
      (f.start ramp gain).fade = none ∧ (f.start ramp gain).block = f.block ∧ (f.start ramp gain).frame = f.frame := by
  unfold Feeder.start
  split <;> exact ⟨rfl, rfl, rfl, rfl, rfl⟩

/-- A play request turns a stop ramp (R120). -/
theorem playRequest_stopping {s : State} (stopping : s.feeder.state = .stopping) :
    playRequest s = s.setFeeder (s.feeder.start (rampLength s) s.feeder.gain) := by
  unfold playRequest
  rw [stopping]
  rfl

/-- A play request starts a SILENT feeder, and the Play Block is declared (R118, R120). -/
theorem playRequest_silent {s : State} (silent : s.feeder.state = .silent) :
    playRequest s = declareEntry (s.setFeeder (s.feeder.start (rampLength s) 0)) := by
  unfold playRequest
  rw [silent]
  rfl

theorem declareEntry_frame {es : List Event} (listed : .repairOverflow ∈ es) (s : State) : PlayFrame es s (declareEntry s) :=
  .ofRest listed ((KeepsRest.moves s).declareEntry (.refl s))

/-! ### The notices of readiness after a flush (R16, R136) -/

/-- The notices that wait say that the store is not primed. -/
def Unprimed (s : State) : Prop := ∀ p ∈ s.notices, p = false

/-- A flush drops the notices that the store is primed, and hands none (R136). -/
theorem requestFlush_unprimed (b : Nat) {s : State} (deep : 0 < s.console.params.primeDepth) : Unprimed (requestFlush b s) := by
  let u := mapPlay (fun p => { p with storePrimed := false }) (s.setNotices (s.notices.filter (fun primed => !primed)))
  have handed : (requestFlush b s).notices = (changeStore (fun t => t.flush b) u).notices := (KeepsChoice.flushStore b u).notices
  have dropped : ∀ p ∈ u.notices, p = false := fun p listed => by
    have := (List.mem_filter.mp listed).2
    simpa using this
  unfold Unprimed
  rw [handed]
  unfold changeStore postReadiness
  dsimp only
  split
  · exact dropped
  · intro p listed
    rcases List.mem_append.mp listed with before | now
    · exact dropped p before
    · rw [List.mem_singleton.mp now]
      exact Store.flush_unprimed s.store b deep

/-- What the notices of a step leave where all say that the store is not primed: the two primed indications follow them, and nothing
starts (R124, R146). -/
theorem takeNotices_unprimed {s : State} (unprimed : Unprimed s) (hf : s.feeder.state ≠ .starved) :
    ∃ p q, takeNotices s = ((s.setNotices []).setFeeder { s.feeder with primed := p }).setPlay { s.play with storePrimed := q } := by
  have all : ∀ (l : List Bool) (u : State), (∀ p ∈ l, p = false) → u.feeder.state ≠ .starved →
      ∃ p q, l.foldl takeReadiness u = (u.setFeeder { u.feeder with primed := p }).setPlay { u.play with storePrimed := q } := by
    intro l
    induction l with
    | nil => exact fun u _ _ => ⟨u.feeder.primed, u.play.storePrimed, rfl⟩
    | cons p rest ih =>
      intro u low calm
      rw [List.foldl_cons, low p List.mem_cons_self, takeReadiness_unprimed calm]
      obtain ⟨p, q, taken⟩ := ih ((u.setFeeder { u.feeder with primed := false }).setPlay { u.play with storePrimed := false })
        (fun x listed => low x (List.mem_cons_of_mem _ listed)) calm
      exact ⟨p, q, taken⟩
  obtain ⟨p, q, taken⟩ := all s.notices (s.setNotices []) unprimed hf
  have one : takeHanded s = ((s.setNotices []).setFeeder { s.feeder with primed := p }).setPlay { s.play with storePrimed := q } := taken
  refine ⟨p, q, ?_⟩
  unfold takeNotices
  rw [one]
  rfl

/-- From u to t notices of readiness were taken that start nothing: the two primed indications and the unprimed mark follow them. -/
structure Told (u t : State) : Prop where
  play    : ∃ p q, t.play = { u.play with storePrimed := p, unprimed := u.play.unprimed && q }
  feeder  : ∃ p, t.feeder = { u.feeder with primed := p }
  store   : t.store = u.store
  resume  : t.resume = u.resume
  asm     : t.asm = u.asm
  planner : t.planner = u.planner
  link    : t.link = u.link
  frame   : ∀ es, PlayFrame es u t

/-- The notices of a step that ends neither STARVED nor CUEING start nothing (R124, R146). -/
theorem told_still {u : State} (hf : u.feeder.state ≠ .starved) (hp : u.play.state ≠ .cueing) (n : List Bool) :
    Told u ((takeNotices u).setNotices n) := by
  rw [takeNotices_still hf hp]
  exact ⟨⟨_, _, rfl⟩, ⟨_, rfl⟩, rfl, rfl, rfl, rfl, rfl, fun es => { PlayFrame.refl es u with }⟩

/-- Notices that the store is not primed start nothing. -/
theorem told_unprimed {u : State} (unprimed : Unprimed u) (hf : u.feeder.state ≠ .starved) (n : List Bool) :
    Told u ((takeNotices u).setNotices n) := by
  obtain ⟨p, q, taken⟩ := takeNotices_unprimed unprimed hf
  rw [taken]
  exact ⟨⟨q, true, by rw [Bool.and_true]; rfl⟩, ⟨p, rfl⟩, rfl, rfl, rfl, rfl, rfl, fun es => { PlayFrame.refl es u with }⟩

end Sys2Proof.Machine
end

