-- ==== Sys2Proof/Proofs/PlayCommands.lean ====
section
/-!
SUPPORT. A command of the Play Controller that its tests grant, from the write to CMD to COMMAND_DONE (R137 to R142, R180, R181): what
its owner does, as one entry of a play state. Then the statements about SELECT, PLAY, PAUSE, CONTINUE and STOP (O37 to O41).
-/
namespace Sys2Proof.Machine

section
variable (s : State)

/-! ### SELECT (R138) -/

/-- The Resume Table after the seal of SELECT. -/
def changedTable : Resume :=
  if s.play.state = .playing ∨ s.play.state = .paused ∨ s.play.state = .coasting then sealedTable s.play.sealMode .change s
  else s.resume

theorem changedTable_seals {s : State} (plays : s.play.state = .playing ∨ s.play.state = .paused ∨ s.play.state = .coasting) :
    changedTable s = sealedTable s.play.sealMode .change s := if_pos plays

theorem changedTable_stays {s : State} (rests : ¬ (s.play.state = .playing ∨ s.play.state = .paused ∨ s.play.state = .coasting)) :
    changedTable s = s.resume := if_neg rests

/-- The disc that was in play is sealed and cleared. -/
def discChanged : State := clearDisc (s.setResume (changedTable s))

theorem runSelect_enters : runSelect s = enterState .loading false (queueLoad (paramByte s 0)
    (mapPlay (fun p => { p with wanted := paramByte s 0, mode := selectMode (paramByte s 1), pauseOnPrime := false })
      (discChanged s))) := by
  unfold runSelect discChanged sealEntry
  dsimp only
  split
  iterate 3 rw [sealAs_eq, changedTable_seals (by simp [*])]
  all_goals
    rw [changedTable_stays (by simp [*])]
    rfl

theorem runSelect_play : (runSelect s).play =
    ({ s.play with
        wanted := paramByte s 0, mode := selectMode (paramByte s 1), disc := DiscRecord.empty, causes := Causes.none
        confirming := false, pauseOnPrime := false, unprimed := false, storePrimed := false, loadTimer := 0
        counters := { s.play.counters with load := bump s.play.counters.load } } : Play).enter .loading := by
  have cleared : (discChanged s).play = { s.play with
      disc := DiscRecord.empty, causes := Causes.none, confirming := false, pauseOnPrime := false
      unprimed := false, storePrimed := false } := clearDisc_play _
  rw [runSelect_enters, enterState_play, queueLoad_play, mapPlay_play, cleared]

theorem runSelect_feeder : (runSelect s).feeder = s.feeder.cue (rampLength s) 0 0 := by
  rw [runSelect_enters, enterState_feeder, queueLoad_feeder, mapPlay_feeder]
  exact clearDisc_feeder (s.setResume (changedTable s))

theorem runSelect_store : (runSelect s).store = ⟨0, 0, []⟩ := by
  rw [runSelect_enters, enterState_store, queueLoad_store, mapPlay_store]
  exact clearDisc_store (s.setResume (changedTable s))

theorem runSelect_resume : (runSelect s).resume = changedTable s := by
  rw [runSelect_enters, enterState_resume, queueLoad_resume, mapPlay_resume]
  exact clearDisc_resume (s.setResume (changedTable s))

/-- LOAD is requested, and the planner's choice keeps it (R109, R143). -/
theorem runSelect_carries : (runSelect s).link.Carries (.load (paramByte s 0)) := by
  rw [runSelect_enters]
  exact (enterState_keeps _ _ _).link.other _ (.inr rfl) (Link.request_carries (m := .load (paramByte s 0)) _ nofun)

theorem runSelect_frame {es : List Event} (listed : .repairOverflow ∈ es) : PlayFrame es s (runSelect s) := by
  rw [runSelect_enters]
  exact (((((PlayFrame.refl es s).setResume _).clearDisc listed).setPlay _).queueLoad _).enterState _ _

theorem selectMode_eq (n : Nat) : selectMode n = if n = 0 then .fromStart else if n = 1 then .fromResume else .loadOnly := by
  unfold selectMode
  split
  · rfl
  · rfl
  · rename_i positive above
    rw [if_neg positive, if_neg above]

/-! ### PLAY (R139) -/

/-- The place PLAY names is cued. -/
def cued : State :=
  cueAt (playBn s) (playFrame s) (mapPlay (fun p => { p with pauseOnPrime := false, unprimed := false }) s)

theorem testCueing_unprimed {s : State} (unprimed : s.play.storePrimed = false) : testCueing s = s := by
  unfold testCueing
  rw [if_neg]
  rw [unprimed]
  exact fun h => absurd h.2 nofun

theorem runPlay_enters : runPlay s = enterState (if s.play.state = .coasting then .suspended else .cueing) false
    (mapPlay (fun p => if s.play.state = .coasting then { p with returnTo := .cueing } else p) (cued s)) := by
  unfold runPlay
  dsimp only
  by_cases coasting : s.play.state = .coasting
  · rw [if_pos (decide_eq_true coasting), if_pos coasting]
    simp only [coasting, if_true]
    rfl
  · rw [if_neg (by simpa using coasting), if_neg coasting, testCueing_unprimed]
    · simp only [coasting, if_false]
      rfl
    · rw [enterState_play, cueAt_play]
      rfl

theorem runPlay_play : (runPlay s).play =
    ((if s.play.state = .coasting then
        { s.play with pauseOnPrime := false, unprimed := false, storePrimed := false, returnTo := .cueing }
      else { s.play with pauseOnPrime := false, unprimed := false, storePrimed := false } : Play)).enter
      (if s.play.state = .coasting then .suspended else .cueing) := by
  have cuedPlay : (cued s).play = { s.play with pauseOnPrime := false, unprimed := false, storePrimed := false } := cueAt_play _ _ _
  rw [runPlay_enters, enterState_play, mapPlay_play, cuedPlay]

theorem runPlay_feeder : (runPlay s).feeder = s.feeder.cue (rampLength s) (playBn s) (playFrame s) := by
  rw [runPlay_enters, enterState_feeder]
  exact cueAt_feeder _ _ _

theorem runPlay_store : (runPlay s).store = s.store.flush (playBn s) := by
  rw [runPlay_enters, enterState_store]
  exact cueAt_store _ _ _

theorem runPlay_resume : (runPlay s).resume = s.resume := by
  rw [runPlay_enters, enterState_resume]
  exact requestFlush_resume _ _

theorem runPlay_intake : (runPlay s).asm.intake = [] := by
  rw [runPlay_enters, enterState_intake]
  exact requestFlush_intake _ _

theorem runPlay_counted : (runPlay s).asm.counters = s.asm.counters := by
  rw [runPlay_enters, enterState_counted]
  exact requestFlush_counted _ _

theorem runPlay_unprimed {s : State} (deep : 0 < s.console.params.primeDepth) : Unprimed (runPlay s) := by
  unfold Unprimed
  rw [runPlay_enters, enterState_notices]
  exact requestFlush_unprimed _ deep

theorem runPlay_frame (es : List Event) : PlayFrame es s (runPlay s) := by
  rw [runPlay_enters]
  exact (((((PlayFrame.refl es _).setPlay _).setFeeder _).requestFlush _).setPlay _).enterState _ _

/-! ### PAUSE (R140) -/

/-- The seal of PAUSE, and what follows it in each state it comes from. -/
def pausing : State :=
  if s.play.state = .cueing then mapPlay (fun p => { p with unprimed := true }) (s.setResume (sealedTable .paused .none s))
  else stopRequest (s.setResume (sealedTable .paused .none s))

theorem runPause_enters : runPause s = enterState .paused false (pausing s) := by
  unfold runPause pausing
  dsimp only
  rw [sealAs_eq]
  by_cases cueing : s.play.state = .cueing
  · rw [if_pos (decide_eq_true cueing), if_pos cueing]
  · rw [if_neg (by simpa using cueing), if_neg cueing]

/-! ### CONTINUE (R141) -/

/-- CONTINUE clears the two marks. -/
def continuing : State := mapPlay (fun p => { p with unprimed := false, pauseOnPrime := false }) s

theorem runContinue_primed {s : State} (primed : s.play.storePrimed = true) :
    runContinue s = playRequest (enterState .playing false (continuing s)) := if_pos primed

theorem runContinue_unprimed {s : State} (unprimed : s.play.storePrimed = false) :
    runContinue s = enterState .cueing false (continuing s) := by
  have none : (enterState .cueing false (continuing s)).play.storePrimed = false := by
    rw [enterState_play]
    exact unprimed
  exact (if_neg (by show ¬ s.play.storePrimed = true; rw [unprimed]; exact nofun)).trans (testCueing_unprimed none)

/-! ### STOP (R142) -/

/-- The Resume Table after the seal of STOP. -/
def stoppedTable : Resume :=
  if s.play.state = .playing ∨ s.play.state = .paused ∨ s.play.state = .coasting then sealedTable .ready .stop s else s.resume

theorem stoppedTable_seals {s : State} (plays : s.play.state = .playing ∨ s.play.state = .paused ∨ s.play.state = .coasting) :
    stoppedTable s = sealedTable .ready .stop s := if_pos plays

theorem stoppedTable_stays {s : State} (rests : ¬ (s.play.state = .playing ∨ s.play.state = .paused ∨ s.play.state = .coasting)) :
    stoppedTable s = s.resume := if_neg rests

theorem runStop_sealed : runStop s =
    if s.play.disc.confirmed then
      flushAtCursor (enterState .ready false (mapPlay (fun p => { p with causes := Causes.none }) (s.setResume (stoppedTable s))))
    else enterState .empty false (mapPlay (fun p => { p with wanted := if s.play.state = .loading then 0 else s.play.wanted })
      (clearDisc (s.setResume (stoppedTable s)))) := by
  unfold runStop
  dsimp only
  split
  iterate 3
    rw [sealAs_eq, stoppedTable_seals (by simp [*])]
    rfl
  all_goals
    rw [stoppedTable_stays (by simp [*])]
    rfl

/-- STOP with a CONFIRMED disc ends in READY before it flushes. -/
def stopped : State := enterState .ready false (mapPlay (fun p => { p with causes := Causes.none }) (s.setResume (stoppedTable s)))

theorem stopped_play : (stopped s).play = ({ s.play with causes := Causes.none } : Play).enter .ready := enterState_play _ _ _

theorem stopped_feeder : (stopped s).feeder = s.feeder := enterState_feeder _ _ _

theorem stopped_store : (stopped s).store = s.store := enterState_store _ _ _

theorem stopped_resume : (stopped s).resume = stoppedTable s := enterState_resume _ _ _

theorem stopped_ramp : rampLength (stopped s) = rampLength s := enterState_ramp _ _ _

section
variable {s : State} (confirmed : s.play.disc.confirmed = true)
include confirmed

theorem runStop_confirmed : runStop s = flushAtCursor (stopped s) := (runStop_sealed s).trans (if_pos confirmed)

theorem runStop_confirmed_play : (runStop s).play =
    { ({ s.play with causes := Causes.none } : Play).enter .ready with storePrimed := false } := by
  rw [runStop_confirmed confirmed, flushAtCursor_play, stopped_play]

theorem runStop_confirmed_feeder : (runStop s).feeder = s.feeder.stop (rampLength s) := by
  rw [runStop_confirmed confirmed, flushAtCursor_feeder, stopped_feeder, stopped_ramp]

theorem runStop_confirmed_store : (runStop s).store = s.store.flush s.feeder.block := by
  rw [runStop_confirmed confirmed, flushAtCursor_store, stopped_store, stopped_feeder]

theorem runStop_confirmed_resume : (runStop s).resume = stoppedTable s := by
  rw [runStop_confirmed confirmed, flushAtCursor_resume, stopped_resume]

theorem runStop_confirmed_intake : (runStop s).asm.intake = [] := by
  rw [runStop_confirmed confirmed, flushAtCursor_intake]

theorem runStop_confirmed_frame (es : List Event) : PlayFrame es s (runStop s) := by
  rw [runStop_confirmed confirmed]
  exact (((((PlayFrame.refl es s).setResume _).setPlay _).enterState _ _).requestFlush _).setFeeder _

end

section
variable {s : State} (unconfirmed : s.play.disc.confirmed = false)
include unconfirmed

theorem runStop_unconfirmed : runStop s = enterState .empty false
    (mapPlay (fun p => { p with wanted := if s.play.state = .loading then 0 else s.play.wanted })
      (clearDisc (s.setResume (stoppedTable s)))) :=
  (runStop_sealed s).trans (if_neg (by rw [unconfirmed]; exact nofun))

theorem runStop_unconfirmed_play : (runStop s).play =
    ({ s.play with
        wanted := if s.play.state = .loading then 0 else s.play.wanted, disc := DiscRecord.empty, causes := Causes.none
        confirming := false, pauseOnPrime := false, unprimed := false, storePrimed := false } : Play).enter .empty := by
  rw [runStop_unconfirmed unconfirmed, enterState_play, mapPlay_play, clearDisc_play]
  rfl

theorem runStop_unconfirmed_feeder : (runStop s).feeder = s.feeder.cue (rampLength s) 0 0 := by
  rw [runStop_unconfirmed unconfirmed, enterState_feeder, mapPlay_feeder]
  exact clearDisc_feeder (s.setResume (stoppedTable s))

theorem runStop_unconfirmed_store : (runStop s).store = ⟨0, 0, []⟩ := by
  rw [runStop_unconfirmed unconfirmed, enterState_store, mapPlay_store]
  exact clearDisc_store (s.setResume (stoppedTable s))

theorem runStop_unconfirmed_resume : (runStop s).resume = stoppedTable s := by
  rw [runStop_unconfirmed unconfirmed, enterState_resume, mapPlay_resume]
  exact clearDisc_resume (s.setResume (stoppedTable s))

theorem runStop_unconfirmed_frame {es : List Event} (listed : .repairOverflow ∈ es) : PlayFrame es s (runStop s) := by
  rw [runStop_unconfirmed unconfirmed]
  exact ((((PlayFrame.refl es s).setResume _).clearDisc listed).setPlay _).enterState _ _

end

end

end Sys2Proof.Machine

namespace Sys2Proof.Claims

open Sys2Proof.Machine

/-! ### A command that is carried out -/

/-- The state in which its owner takes a command, the step begun. -/
def offered (code : Byte) (s : State) : State := accepted code (s.setNotices [])

/-- A command was carried out and completed (R181). -/
def carriedOut (code : Byte) (run : State → State) (s : State) : State := completeCommand code .done (run (offered code s))

section

variable {s t : State} {P : State → Prop} {c : Instr} {code : Byte} {result : State → Result} {run : State → State}

/-- A command that its tests grant is carried out and completed, and then the notices of readiness are taken (R16, R180, R181). -/
theorem completes_granted (free : MailboxFree s) (runs : exec c s = inStep (writeCommand code) s)
    (names : ∀ u, cmdWrite code u = commandWrite code (tested result run) u) (granted : result (offered code s) = .done)
    (h : P ((takeNotices (carriedOut code run s)).setNotices s.notices)) : Completes c s P := by
  refine ⟨_, runs, ?_⟩
  rw [writeCommand_taken code _ names (show (s.setNotices []).console.mailbox.busy = false from free.1) free.2]
  rw [show tested result run (accepted code (s.setNotices [])) = _ from tested_done result run granted]
  exact h

/-- What a command leaves at the Console Port and of the events, where its owner stays beside them (R181, R190). -/
theorem command_done {es : List Event} (frame : PlayFrame es (offered code s) (run (offered code s))) (fresh : .commandDone ∉ es)
    (taken : PlayFrame es (carriedOut code run s) t) :
    t.console = completed s code .done s.console.response ∧ RaisedOnce s t .commandDone code.toNat ∧
      OnlyRaised (.commandDone :: es) s t ∧ t.health = s.health ∧ t.sense = s.sense ∧ t.supply = s.supply := by
  have raised := raisedOnce_raise .commandDone code.toNat (mapMailbox (fun m => { m with result := .done, busy := false })
    (run (offered code s)))
  refine ⟨?_, ?_, fun e out => ?_, taken.health.trans frame.health, taken.sense.trans frame.sense, taken.supply.trans frame.supply⟩
  · rw [taken.console]
    show ({ (run (offered code s)).console with
      mailbox := { (run (offered code s)).console.mailbox with result := .done, busy := false } } : Console) = _
    rw [frame.console]
    rfl
  · refine ((taken.attn _ fresh).trans raised).trans ?_
    exact congrArg (fun r => oneMore r code.toNat) (frame.attn _ fresh)
  · have unlisted : e ∉ es := fun listed => out (List.mem_cons_of_mem _ listed)
    have other : e ∉ [Event.commandDone] := fun listed => out (List.mem_singleton.mp listed ▸ List.mem_cons_self)
    exact (taken.attn e unlisted).trans ((onlyRaised_raise .commandDone code.toNat _ e other).trans (frame.attn e unlisted))

/-- A granted command that hands no notice, and whose owner ends with the planner's choice: the rest is what it did before that. -/
theorem completes_choice {w : State} {es : List Event} (free : MailboxFree s) (runs : exec c s = inStep (writeCommand code) s)
    (names : ∀ u, cmdWrite code u = commandWrite code (tested result run) u) (granted : result (offered code s) = .done)
    (keeps : KeepsChoice w (run (offered code s))) (quiet : w.notices = []) (frame : PlayFrame es (offered code s) w)
    (fresh : .commandDone ∉ es)
    (h : ∀ t, t.play = w.play → t.feeder = w.feeder → t.store = w.store → t.resume = w.resume → t.asm.intake = w.asm.intake →
      t.asm.counters = w.asm.counters →
      t.console = completed s code .done s.console.response ∧ RaisedOnce s t .commandDone code.toNat ∧
        OnlyRaised (.commandDone :: es) s t ∧ t.health = s.health ∧ t.sense = s.sense ∧ t.supply = s.supply → P t) :
    Completes c s P := by
  refine completes_granted free runs names granted ?_
  have none : (carriedOut code run s).notices = [] := keeps.notices.trans quiet
  rw [takeNotices_none none]
  exact h _ keeps.play keeps.feeder keeps.store keeps.resume keeps.asm.intake keeps.asm.counters
    (command_done (frame.trans (.ofChoice keeps)) fresh ((PlayFrame.refl es _).setNotices _))

/-- A granted command whose notices of readiness start nothing. -/
theorem completes_told {es : List Event} (free : MailboxFree s) (runs : exec c s = inStep (writeCommand code) s)
    (names : ∀ u, cmdWrite code u = commandWrite code (tested result run) u) (granted : result (offered code s) = .done)
    (frame : PlayFrame es (offered code s) (run (offered code s))) (fresh : .commandDone ∉ es)
    (told : Told (carriedOut code run s) ((takeNotices (carriedOut code run s)).setNotices s.notices))
    (h : ∀ t p q r, t.play = { (run (offered code s)).play with
          storePrimed := p, unprimed := (run (offered code s)).play.unprimed && q } →
      t.feeder = { (run (offered code s)).feeder with primed := r } → t.store = (run (offered code s)).store →
      t.resume = (run (offered code s)).resume → t.asm = (run (offered code s)).asm → t.link = (run (offered code s)).link →
      t.console = completed s code .done s.console.response ∧ RaisedOnce s t .commandDone code.toNat ∧
        OnlyRaised (.commandDone :: es) s t ∧ t.health = s.health ∧ t.sense = s.sense ∧ t.supply = s.supply → P t) :
    Completes c s P := by
  refine completes_granted free runs names granted ?_
  obtain ⟨p, q, play⟩ := told.play
  obtain ⟨r, feeder⟩ := told.feeder
  exact h _ p q r play feeder told.store told.resume told.asm told.link (command_done frame fresh (told.frame es))

end

/-- Settles O39: PAUSE seals and enters PAUSED; it hands no notice, so the step is that alone. -/
theorem pauseSeals : Obligations.PauseSeals := by
  intro s free state
  have granted : pauseResult (offered 0x03 s) = .done := by
    unfold pauseResult
    rcases state with playing | cueing
    · rw [show (offered 0x03 s).play.state = .playing from playing]
    · rw [show (offered 0x03 s).play.state = .cueing from cueing]
  have keeps := enterState_keeps .paused false (pausing (offered 0x03 s))
  rw [← runPause_enters] at keeps
  have sealed : s.feeder.block < s.play.disc.extent → sealedTable .paused .none (offered 0x03 s) = s.resume.write s.play.disc.position
      ⟨true, s.play.disc.tag, s.feeder.block, s.feeder.frame, .paused, .none⟩ := fun inside => if_pos inside
  have unsealed : s.play.disc.extent ≤ s.feeder.block → sealedTable .paused .none (offered 0x03 s) = s.resume :=
    fun beyond => if_neg (Nat.not_lt.mpr beyond)
  rcases state with playing | cueing
  · have stops : pausing (offered 0x03 s) = stopRequest ((offered 0x03 s).setResume (sealedTable .paused .none (offered 0x03 s))) :=
      if_neg (by show s.play.state ≠ .cueing; rw [playing]; exact nofun)
    rw [stops] at keeps
    refine completes_choice (es := []) free rfl (fun _ => rfl) granted keeps rfl
      ((((PlayFrame.refl [] _).setResume _).setFeeder _).setPlay _) nofun fun t play feeder store resume intake counted done => ?_
    have stopped : t.feeder = s.feeder.stop s.console.params.rampLength := feeder
    refine ⟨by rw [play]; rfl, by rw [play]; rfl, fun cueing => absurd (playing.symm.trans cueing) nofun,
      fun _ sounds long => ?_, fun _ sounds short => ?_, fun _ starved => ?_, fun _ rests => ?_,
      fun inside => resume.trans (sealed inside), fun beyond => resume.trans (unsealed beyond), store, counted, intake, done⟩
    · rw [stopped, Feeder.stop_sounding sounds, if_neg long]
    · rw [stopped, Feeder.stop_sounding sounds, if_pos short]
      rfl
    · rw [stopped, Feeder.stop_starved starved]
    · rw [stopped, Feeder.stop_stopped rests]
  · have marks : pausing (offered 0x03 s) = mapPlay (fun p => { p with unprimed := true })
        ((offered 0x03 s).setResume (sealedTable .paused .none (offered 0x03 s))) := if_pos cueing
    rw [marks] at keeps
    have other : s.play.state ≠ .playing := by rw [cueing]; exact nofun
    refine completes_choice (es := []) free rfl (fun _ => rfl) granted keeps rfl
      ((((PlayFrame.refl [] _).setResume _).setPlay _).setPlay _) nofun fun t play feeder store resume intake counted done => ?_
    refine ⟨by rw [play]; rfl, by rw [play]; rfl, fun _ => ⟨?_, feeder⟩, fun playing => absurd playing other,
      fun playing => absurd playing other, fun playing => absurd playing other, fun playing => absurd playing other,
      fun inside => resume.trans (sealed inside), fun beyond => resume.trans (unsealed beyond), store, counted, intake, done⟩
    rw [play]
    show (true && !(decide (s.play.state = .paused) && decide (PlayState.paused ≠ .paused))) = true
    rw [cueing]
    rfl

/-- Settles O40: CONTINUE cues again, or asks the feeder to play, which turns its ramp or starts it. -/
theorem continuePlays : Obligations.ContinuePlays := by
  intro s free unwarned state
  have granted : continueResult (offered 0x04 s) = .done :=
    (if_neg (by show ¬ s.play.supplyWarned = true; rw [unwarned]; exact nofun)).trans (if_pos state)
  have ramp : rampLength (enterState .playing false (continuing (offered 0x04 s))) = s.console.params.rampLength := by
    unfold rampLength
    rw [enterState_console]
    rfl
  have feeder : (enterState .playing false (continuing (offered 0x04 s))).feeder = s.feeder := enterState_feeder _ _ _
  refine ⟨fun unprimed => ?cues, fun primed stopping => ?turns, fun primed silent => ?starts⟩
  case cues =>
    have keeps := enterState_keeps .cueing false (continuing (offered 0x04 s))
    rw [← runContinue_unprimed (s := offered 0x04 s) unprimed] at keeps
    refine completes_choice (es := []) free rfl (fun _ => rfl) granted keeps rfl
      (((PlayFrame.refl [] _).setPlay _).setPlay _) nofun fun t play feeder store resume _ _ done => ?_
    exact ⟨by rw [play]; rfl, by rw [play]; rfl, by rw [play]; rfl, by rw [play]; rfl, feeder, store, resume, done⟩
  case turns =>
    have keeps := (enterState_keeps .playing false (continuing (offered 0x04 s))).setFeeder
      (s.feeder.start s.console.params.rampLength s.feeder.gain)
    have turned : runContinue (offered 0x04 s) = (enterState .playing false (continuing (offered 0x04 s))).setFeeder
        (s.feeder.start s.console.params.rampLength s.feeder.gain) := by
      rw [runContinue_primed (s := offered 0x04 s) primed, playRequest_stopping (by rw [feeder]; exact stopping), ramp, feeder]
    rw [← turned] at keeps
    refine completes_choice (es := []) free rfl (fun _ => rfl) granted keeps rfl
      ((((PlayFrame.refl [] _).setPlay _).setPlay _).setFeeder _) nofun fun t play feeder store resume _ _ done => ?_
    obtain ⟨console, raised, only, -⟩ := done
    refine ⟨by rw [play]; rfl, ?_, store, resume, console, raised, only⟩
    rw [feeder]
    rfl
  case starts =>
    have started : runContinue (offered 0x04 s) = declareEntry ((enterState .playing false (continuing (offered 0x04 s))).setFeeder
        (s.feeder.start s.console.params.rampLength 0)) := by
      rw [runContinue_primed (s := offered 0x04 s) primed, playRequest_silent (by rw [feeder]; exact silent), ramp, feeder]
    have play : (runContinue (offered 0x04 s)).play = (continuing (offered 0x04 s)).play.enter .playing := by
      rw [started, declareEntry_play]
      exact enterState_play _ _ _
    have starts : (runContinue (offered 0x04 s)).feeder = s.feeder.start s.console.params.rampLength 0 := by
      rw [started]
      exact storeEvent_feeder _ _
    have resume : (runContinue (offered 0x04 s)).resume = s.resume := by
      rw [started]
      exact (storeEvent_resume _ _).trans (enterState_resume _ _ _)
    have frame : PlayFrame [.repairOverflow] (offered 0x04 s) (runContinue (offered 0x04 s)) := by
      rw [started]
      exact ((((PlayFrame.refl _ _).setPlay _).enterState _ _).setFeeder _).trans (declareEntry_frame (by decide) _)
    obtain ⟨begun, gain, fade, block, frameAt⟩ := s.feeder.start_place s.console.params.rampLength 0
    refine completes_told free rfl (fun _ => rfl) granted frame (by decide) (told_still ?_ ?_ _)
      fun t p q r play' feeder' _ resume' _ _ done => ?_
    · show (runContinue (offered 0x04 s)).feeder.state ≠ _
      rw [starts, begun]
      split <;> exact nofun
    · show (runContinue (offered 0x04 s)).play.state ≠ _
      rw [play]
      exact nofun
    · rw [play] at play'
      rw [starts] at feeder'
      refine ⟨by rw [play']; rfl, by rw [play']; rfl, by rw [play']; rfl, by rw [play']; rfl, ?_, ?_, ?_, ?_, ?_,
        resume'.trans resume, done⟩
      all_goals rw [feeder']
      · exact begun
      · exact gain
      · exact fade
      · exact block
      · exact frameAt

/-- Settles O38: PLAY cues its place, and the flush leaves the store unprimed, so that CUEING goes on. -/
theorem playCues : Obligations.PlayCues := by
  intro s free unwarned deep inside frameInside state
  have granted : playResult (offered 0x02 s) = .done := by
    refine (playResult_loaded (s := offered 0x02 s) ?_ ?_ ?_).trans
      ((if_neg (by show ¬ s.play.supplyWarned = true; rw [unwarned]; exact nofun)).trans (if_pos ⟨inside, frameInside⟩))
    all_goals
      show s.play.state ≠ _
      intro other
      rw [other] at state
      simp at state
  obtain ⟨silent, block, frameAt⟩ := s.feeder.cue_place s.console.params.rampLength (playBn s) (playFrame s)
  have feeder : (runPlay (offered 0x02 s)).feeder = s.feeder.cue s.console.params.rampLength (playBn s) (playFrame s) :=
    runPlay_feeder _
  have unprimed : Unprimed (runPlay (offered 0x02 s)) := runPlay_unprimed deep
  have calm : (runPlay (offered 0x02 s)).feeder.state ≠ .starved := by
    rw [feeder, silent]
    exact nofun
  refine completes_told free rfl (fun _ => rfl) granted (runPlay_frame _ []) nofun
    (told_unprimed (u := carriedOut 0x02 runPlay s) unprimed calm _) fun t p q r play told store resume asm _ done => ?_
  rw [runPlay_play] at play
  rw [feeder] at told
  obtain ⟨console, raised, only, health, sense, supply⟩ := done
  refine ⟨by rw [play]; rfl, fun coasting => ?_, ?_, ?_, ?_, ?_, by rw [told]; exact block, by rw [told]; exact frameAt,
    by rw [told]; exact silent, store.trans (runPlay_store _), (congrArg Assembler.intake asm).trans (runPlay_intake _),
    (congrArg Assembler.counters asm).trans (runPlay_counted _), console, raised, only, health, sense, supply,
    resume.trans (runPlay_resume _)⟩
  · rw [play, if_pos (show (offered 0x02 s).play.state = .coasting from coasting)]
    rfl
  all_goals
    rw [play]
    split <;> rfl

/-- Settles O37: SELECT seals what was in play, clears the disc and waits for the drive, the feeder SILENT. -/
theorem selectLoads : Obligations.SelectLoads := by
  intro s free positive position mode
  have granted : selectResult (offered 0x01 s) = .done := if_pos ⟨positive, position, mode⟩
  obtain ⟨silent, block, frameAt⟩ := s.feeder.cue_place s.console.params.rampLength 0 0
  have feeder : (runSelect (offered 0x01 s)).feeder = s.feeder.cue s.console.params.rampLength 0 0 := runSelect_feeder _
  have calm : (runSelect (offered 0x01 s)).feeder.state ≠ .starved := by
    rw [feeder, silent]
    exact nofun
  have waits : (runSelect (offered 0x01 s)).play.state ≠ .cueing := by
    rw [runSelect_play]
    exact nofun
  refine completes_told free rfl (fun _ => rfl) granted (runSelect_frame _ (List.mem_singleton.mpr rfl)) (by decide)
    (told_still (u := carriedOut 0x01 runSelect s) calm waits _) fun t p q r play told store resume _ link done => ?_
  rw [runSelect_play] at play
  rw [feeder] at told
  rw [runSelect_store] at store
  have sealed : t.resume = changedTable (offered 0x01 s) := resume.trans (runSelect_resume _)
  refine ⟨by rw [play]; rfl, by rw [play]; rfl, by rw [play]; exact selectMode_eq _, by rw [play]; rfl, by rw [play]; rfl,
    by rw [play]; rfl, by rw [play]; rfl, by rw [play]; rfl, by rw [play]; rfl, by rw [link]; exact runSelect_carries _,
    by rw [told]; exact block, by rw [told]; exact frameAt, by rw [told]; exact silent, congrArg Store.slots store,
    congrArg Store.playBlock store, congrArg Store.extent store, fun plays => ?_, fun paused => ?_, fun other unpaused uncoasted => ?_, done⟩
  · have seals : (offered 0x01 s).play.sealMode = .playing := by
      unfold Play.sealMode
      rcases plays with playing | coasting
      · rw [show (offered 0x01 s).play.state = .playing from playing]
      · rw [show (offered 0x01 s).play.state = .coasting from coasting]
    rw [changedTable_seals (s := offered 0x01 s) (plays.imp_right .inr), seals] at sealed
    exact sealed
  · have seals : (offered 0x01 s).play.sealMode = .paused := by
      unfold Play.sealMode
      rw [show (offered 0x01 s).play.state = .paused from paused]
    rw [changedTable_seals (s := offered 0x01 s) (.inr (.inl paused)), seals] at sealed
    exact sealed
  · rw [changedTable_stays (s := offered 0x01 s) (fun plays => plays.elim other (Or.elim · unpaused uncoasted))] at sealed
    exact sealed

/-- Settles O41: STOP ends in READY with the store flushed at the cursor, or in EMPTY with the disc cleared; the feeder is stopped. -/
theorem stopEnds : Obligations.StopEnds := by
  intro s free loaded
  have granted : stopResult (offered 0x05 s) = .done := if_neg loaded
  have sealed (plays : s.play.state = .playing ∨ s.play.state = .paused ∨ s.play.state = .coasting) :
      stoppedTable (offered 0x05 s) = sealedTable .ready .stop (offered 0x05 s) := stoppedTable_seals plays
  refine ⟨fun confirmed => ?_, fun unconfirmed => ?_⟩
  · have feeder : (runStop (offered 0x05 s)).feeder = s.feeder.stop s.console.params.rampLength := runStop_confirmed_feeder confirmed
    have calm : (runStop (offered 0x05 s)).feeder.state ≠ .starved := by
      rw [feeder]
      exact Feeder.stop_unstarved _ _
    have rests : (runStop (offered 0x05 s)).play.state ≠ .cueing := by
      rw [runStop_confirmed_play (s := offered 0x05 s) confirmed]
      exact nofun
    refine completes_told free rfl (fun _ => rfl) granted (runStop_confirmed_frame (s := offered 0x05 s) confirmed []) nofun
      (told_still (u := carriedOut 0x05 runStop s) calm rests _) fun t p q r play told store resume asm _ done => ?_
    rw [runStop_confirmed_play (s := offered 0x05 s) confirmed] at play
    rw [feeder] at told
    obtain ⟨block, frameAt, -⟩ := s.feeder.stop_place s.console.params.rampLength
    refine ⟨by rw [play]; rfl, by rw [play]; rfl, by rw [play]; rfl, store.trans (runStop_confirmed_store confirmed),
      (congrArg Assembler.intake asm).trans (runStop_confirmed_intake confirmed), by rw [told]; exact block,
      by rw [told]; exact frameAt, fun silent => ?_, fun sounds => ?_, fun plays inside => ?_, done⟩
    · rw [told, Feeder.stop_stopped (.inl silent)]
      exact silent
    · rw [told, Feeder.stop_sounding sounds]
      split <;> rfl
    · rw [resume, runStop_confirmed_resume (s := offered 0x05 s) confirmed, sealed plays]
      exact if_pos inside
  · have feeder : (runStop (offered 0x05 s)).feeder = s.feeder.cue s.console.params.rampLength 0 0 :=
      runStop_unconfirmed_feeder unconfirmed
    obtain ⟨silent, block, frameAt⟩ := s.feeder.cue_place s.console.params.rampLength 0 0
    have calm : (runStop (offered 0x05 s)).feeder.state ≠ .starved := by
      rw [feeder, silent]
      exact nofun
    have rests : (runStop (offered 0x05 s)).play.state ≠ .cueing := by
      rw [runStop_unconfirmed_play (s := offered 0x05 s) unconfirmed]
      exact nofun
    refine completes_told free rfl (fun _ => rfl) granted (runStop_unconfirmed_frame (s := offered 0x05 s) unconfirmed (List.mem_singleton.mpr rfl)) (by decide)
      (told_still (u := carriedOut 0x05 runStop s) calm rests _) fun t p q r play told store resume _ _ done => ?_
    rw [runStop_unconfirmed_play (s := offered 0x05 s) unconfirmed] at play
    rw [feeder] at told
    rw [runStop_unconfirmed_store (s := offered 0x05 s) unconfirmed] at store
    rw [runStop_unconfirmed_resume (s := offered 0x05 s) unconfirmed] at resume
    refine ⟨by rw [play]; rfl, by rw [play]; rfl, by rw [play]; rfl, by rw [told]; exact block, by rw [told]; exact frameAt,
      by rw [told]; exact silent, congrArg Store.slots store, fun loading => ?_, fun plays => resume.trans (sealed plays),
      fun other unpaused uncoasted => ?_, done⟩
    · rw [play]
      exact if_pos loading
    · rw [resume]
      exact stoppedTable_stays (s := offered 0x05 s) fun plays => plays.elim other (Or.elim · unpaused uncoasted)

end Sys2Proof.Claims
end

