-- ==== Sys2Proof/Proofs/DiscGivenUp.lean ====
section
/-!
SUPPORT. A disc that is given up, with what the step leaves (R136, R145, R151). Then the statement about the load timeout (O11).
-/
namespace Sys2Proof.Machine

theorem mapPlay_same {g : Play → Play} {s : State} (h : g s.play = s.play) : mapPlay g s = s := by
  unfold mapPlay
  rw [h]
  rfl

/-- The disc is given up, with the wanted position that is left (R145, R151). -/
def givenUp (reason : ReadyReason) (position wanted : Nat) (s : State) : State :=
  raiseReady reason position (enterState .empty false (mapPlay (fun p => { p with wanted := wanted }) (clearDisc s)))

section
variable (reason : ReadyReason) (position wanted : Nat) (s : State)

theorem endLoading_gives_up : endLoading reason s = givenUp reason s.play.wanted 0 s := rfl

theorem loseDisc_gives_up : loseDisc reason s = givenUp reason s.play.disc.position s.play.wanted s := by
  have same : mapPlay (fun p => { p with wanted := s.play.wanted }) (clearDisc s) = clearDisc s := by
    refine mapPlay_same ?_
    rw [clearDisc_play]
  unfold givenUp
  rw [same]
  rfl

theorem givenUp_play : (givenUp reason position wanted s).play =
    ({ s.play with
        wanted := wanted, disc := DiscRecord.empty, causes := Causes.none, confirming := false, pauseOnPrime := false
        unprimed := false, storePrimed := false } : Play).enter .empty := by
  unfold givenUp
  rw [raiseReady_play, enterState_play, mapPlay_play, clearDisc_play]

theorem givenUp_feeder : (givenUp reason position wanted s).feeder = s.feeder.cue (rampLength s) 0 0 := by
  have raised : ∀ u : State, (raiseReady reason position u).feeder = u.feeder := fun _ => rfl
  unfold givenUp
  rw [raised, enterState_feeder, mapPlay_feeder, clearDisc_feeder]

theorem givenUp_store : (givenUp reason position wanted s).store = ⟨0, 0, []⟩ := by
  have raised : ∀ u : State, (raiseReady reason position u).store = u.store := fun _ => rfl
  unfold givenUp
  rw [raised, enterState_store, mapPlay_store, clearDisc_store]

theorem givenUp_resume : (givenUp reason position wanted s).resume = s.resume := by
  have raised : ∀ u : State, (raiseReady reason position u).resume = u.resume := fun _ => rfl
  unfold givenUp
  rw [raised, enterState_resume, mapPlay_resume, clearDisc_resume]

/-- EMPTY and SILENT, so the notices of readiness start nothing. -/
theorem givenUp_told (n : List Bool) :
    Told (givenUp reason position wanted s) ((takeNotices (givenUp reason position wanted s)).setNotices n) := by
  refine told_still ?_ ?_ n
  · rw [givenUp_feeder, (s.feeder.cue_place _ 0 0).1]
    exact nofun
  · rw [givenUp_play]
    exact nofun

end

end Sys2Proof.Machine

namespace Sys2Proof.Claims

open Sys2Proof.Machine

/-- DISC_READY once, beside REPAIR_OVERFLOW, after operations that raise at most that (R197). -/
theorem ready_raised {reason : ReadyReason} {position : Nat} {s w t : State} (frame : PlayFrame [.repairOverflow] s w)
    (taken : PlayFrame [.repairOverflow] (raiseReady reason position w) t) :
    RaisedOnce s t .discReady (16 * reason.code + position) ∧ OnlyRaised [.discReady, .repairOverflow] s t ∧ t.health = s.health ∧
      SensesStay s t := by
  have fresh : Event.discReady ∉ [Event.repairOverflow] := by decide
  have raised := raisedOnce_raise .discReady (16 * reason.code + position) w
  have listed : [Event.repairOverflow] ⊆ [Event.discReady, .repairOverflow] := List.subset_cons_self _ _
  have whole := ((frame.mono listed).raise List.mem_cons_self (16 * reason.code + position)).trans (taken.mono listed)
  refine ⟨?_, whole.attn, whole.health, whole.sense, whole.supply, whole.console, whole.pending⟩
  refine ((taken.attn _ fresh).trans raised).trans ?_
  exact congrArg (fun r => oneMore r _) (frame.attn _ fresh)

/-- What a disc given up leaves once the notices of readiness are taken. -/
theorem givenUp_effect (reason : ReadyReason) (position wanted : Nat) (s : State) (n : List Bool) :
    let t := (takeNotices (givenUp reason position wanted s)).setNotices n
    (DiscCleared t ∧ t.play.wanted = wanted ∧ t.play.counters = s.play.counters ∧ t.resume = s.resume) ∧
      RaisedOnce s t .discReady (16 * reason.code + position) ∧ OnlyRaised [.discReady, .repairOverflow] s t ∧ t.health = s.health ∧
      SensesStay s t := by
  intro t
  have told := givenUp_told reason position wanted s n
  obtain ⟨p, q, play⟩ := told.play
  obtain ⟨r, feeder⟩ := told.feeder
  obtain ⟨silent, block, frameAt⟩ := s.feeder.cue_place (rampLength s) 0 0
  rw [givenUp_play] at play
  rw [givenUp_feeder] at feeder
  refine ⟨⟨⟨?_, ?_, ?_, ?_, ?_, ?_, ?_, congrArg Store.slots (told.store.trans (givenUp_store _ _ _ _))⟩, ?_, ?_,
    told.resume.trans (givenUp_resume _ _ _ _)⟩, ?_⟩
  iterate 4 exact (congrArg _ play).trans rfl
  · exact (congrArg Feeder.block feeder).trans block
  · exact (congrArg Feeder.frame feeder).trans frameAt
  · exact (congrArg Feeder.state feeder).trans silent
  · exact (congrArg Play.wanted play).trans rfl
  · exact (congrArg Play.counters play).trans rfl
  · exact ready_raised ((((PlayFrame.refl _ s).clearDisc (List.mem_singleton.mpr rfl)).setPlay _).enterState _ _) (told.frame _)

/-- The load timer's last tick is counted (R143, R145). -/
def loadTimedOut (s : State) : State :=
  mapPlay (fun p => { p with loadTimer := satAdd 2047 p.loadTimer 1 }) (countPlay (fun c => { c with loadTimeout := bump c.loadTimeout }) s)

/-- Settles O11: the timeout gives the load or the disc up, in EMPTY with the disc cleared. -/
theorem loadTimesOut : Obligations.LoadTimesOut := by
  intro s reached
  have due (runs : s.play.state = .loading ∨ s.play.confirming = true) : loadTimeoutDue (s.setNotices []) = true :=
    loadTimeoutDue_iff.mpr ⟨runs, reached⟩
  refine ⟨fun loading => ?_, fun away confirming => ?_⟩
  · have times : timeOutLoad (s.setNotices []) = givenUp .loadTimeout s.play.wanted 0 (loadTimedOut (s.setNotices [])) := if_pos loading
    refine ⟨_, rfl, ?_⟩
    dsimp only
    rw [if_pos (due (.inl loading)), times]
    obtain ⟨⟨cleared, wanted, counters, resume⟩, raised, only, health, senses⟩ :=
      givenUp_effect .loadTimeout s.play.wanted 0 (loadTimedOut (s.setNotices [])) s.notices
    obtain ⟨state, disc, -, -, block, frameAt, silent, slots⟩ := cleared
    exact ⟨state, wanted, disc, congrArg PlayCounters.loadTimeout counters, raised, slots, block, frameAt, silent, health, resume, only,
      senses⟩
  · have notLoading : s.play.state ≠ .loading := by
      rcases away with state | state <;> rw [state] <;> exact nofun
    have times : timeOutLoad (s.setNotices []) =
        givenUp .loadTimeout s.play.disc.position s.play.wanted (loadTimedOut (s.setNotices [])) :=
      (if_neg notLoading).trans (loseDisc_gives_up _ (loadTimedOut (s.setNotices [])))
    refine ⟨_, rfl, ?_⟩
    dsimp only
    rw [if_pos (due (.inr confirming)), times]
    obtain ⟨⟨cleared, -, counters, resume⟩, raised, only, health, senses⟩ :=
      givenUp_effect .loadTimeout s.play.disc.position s.play.wanted (loadTimedOut (s.setNotices [])) s.notices
    obtain ⟨state, disc, settled, -, block, frameAt, silent, slots⟩ := cleared
    exact ⟨state, settled, disc, congrArg PlayCounters.loadTimeout counters, raised, slots, block, frameAt, silent, health, resume, only,
      senses⟩

end Sys2Proof.Claims
end

