-- ==== Sys2Proof/Proofs/PlannerDeactivated.lean ====
section
/-!
SUPPORT. A planner that becomes inactive (R52, R65): it reads nothing, its stream is closed with CEASE, and beside that only flow requests
reach the queue.
-/
namespace Sys2Proof.Machine

/-! ### Flow requests beside the rest of the queue -/

/-- From l to x flow requests alone joined the queue. -/
structure Link.FlowAdded (l x : Link) : Prop where
  kept   : ∀ m, m.cls ≠ .flow → l.Carries m → x.Carries m
  before : ∀ m, m.cls ≠ .flow → x.Carries m → l.Carries m
  queued : ∀ m, m.cls ≠ .flow → m ∈ x.queue → m ∈ l.queue

namespace Link.FlowAdded

theorem refl (l : Link) : l.FlowAdded l := ⟨fun _ _ h => h, fun _ _ h => h, fun _ _ h => h⟩

theorem trans {a b c : Link} (h : a.FlowAdded b) (k : b.FlowAdded c) : a.FlowAdded c :=
  ⟨fun m f w => k.kept m f (h.kept m f w), fun m f w => h.before m f (k.before m f w), fun m f w => h.queued m f (k.queued m f w)⟩

theorem request (l : Link) {m : TxMsg} (flow : m.cls = .flow) :
    l.FlowAdded ({ l with queue := requestQueue m l.queue } : Link).kick := by
  have waited : ∀ x : TxMsg, x.cls ≠ .flow → x ∈ requestQueue m l.queue → x ∈ l.queue := fun x other h =>
    (Link.Aside.mem_requestQueue_cases h).resolve_left fun same => other (same ▸ flow)
  refine ⟨fun x other h => ?_, fun x other h => ?_, fun x other h => waited x other (Link.mem_kick h)⟩
  · exact Link.kick_carries (h.imp_left (mem_requestQueue (flow ▸ other)))
  · exact ((Link.kick_carries_iff _ x).mp h).imp_left (waited x other)

end Link.FlowAdded

theorem evaluateFlow_flowAdded (s : State) : s.link.FlowAdded (evaluateFlow s).link := by
  rw [evaluateFlow_link]
  split
  · exact .refl _
  · split
    · exact .request _ rfl
    · exact .request _ rfl

/-! ### An inactive planner without a stream -/

section
variable {s : State} (inactive : s.planner.active = false) (none : s.planner.stream.state = .none)
include inactive none

/-- At the end of an event such a planner does nothing, and the flow is evaluated (R41, R54, R55). -/
theorem settle_inactive : settle s = evaluateFlow s ∨ settle s = evaluateFlow (evaluateFlow s) := by
  have idle : ∀ {u : State}, u.planner = s.planner → chooseStream (preempt u) = u := by
    intro u planner
    rw [preempt_of_not fun opened => opened.1 (by rw [planner]; exact none),
      chooseStream_idle fun ready => absurd ((congrArg Planner.active planner).trans inactive) (by rw [ready.1]; exact nofun)]
  unfold settle
  dsimp only
  rw [idle rfl]
  split
  · rw [idle (evaluateFlow_keeps s).1]
    exact .inr rfl
  · exact .inl rfl

theorem settle_inactive_keeps :
    (settle s).planner = s.planner ∧ (settle s).asm.align = s.asm.align ∧ s.link.FlowAdded (settle s).link := by
  obtain ⟨planner, -, -, align⟩ := evaluateFlow_keeps s
  have first := evaluateFlow_flowAdded s
  rcases settle_inactive inactive none with once | twice
  · rw [once]
    exact ⟨planner, align, first⟩
  · obtain ⟨planner', -, -, align'⟩ := evaluateFlow_keeps (evaluateFlow s)
    rw [twice]
    exact ⟨planner'.trans planner, align'.trans align, first.trans (evaluateFlow_flowAdded _)⟩

end

/-- A close with CEASE requests nothing but CEASE (R65, R110). -/
theorem ceased_before {s : State} {m : TxMsg} (other : m.cls ≠ .cease) (h : (ceased s).link.Carries m) : s.link.Carries m := by
  refine ((Link.kick_carries_iff _ m).mp h).imp_left fun waits => ?_
  have kept := (Link.Aside.mem_requestQueue_cases (m := .cease s.planner.stream.number)
    (q := s.link.queue.filter fun m => !m.isSeekOf s.planner.stream.number) waits).resolve_left fun same => other (by rw [same]; rfl)
  exact (List.mem_filter.mp kept).1

end Sys2Proof.Machine

namespace Sys2Proof.Claims

open Sys2Proof.Machine

/-- A notice after which the planner may not read makes it inactive, and requests no LOAD (R52, R65). -/
theorem plannerNotice_deactivates {s : State} (no : plannerMayRead s = false) :
    Deactivated s (plannerNotice false s) ∧ ∀ p, (plannerNotice false s).link.Carries (.load p) → s.link.Carries (.load p) := by
  have told : plannerNotice false s = settle (closeStream (.deactivation false) (s.setPlanner { s.planner with active := false })) := by
    unfold plannerNotice
    rw [no]
    rfl
  rw [told]
  by_cases idle : s.planner.stream.state = .none
  · rw [closeStream_none (s := s.setPlanner { s.planner with active := false }) idle]
    obtain ⟨planner, -, added⟩ := settle_inactive_keeps (s := s.setPlanner { s.planner with active := false }) rfl idle
    refine ⟨⟨congrArg Planner.active planner, (congrArg (fun p => p.stream.state) planner).trans idle, fun opened => absurd idle opened⟩,
      fun p carried => added.before _ nofun carried⟩
  · rw [closeStream_ceasing (s := s.setPlanner { s.planner with active := false }) idle rfl]
    have closed := settle_inactive_keeps (s := ceased (s.setPlanner { s.planner with active := false })) rfl rfl
    obtain ⟨planner, align, added⟩ := closed
    refine ⟨⟨congrArg Planner.active planner, congrArg (fun p => p.stream.state) planner, fun _ => ⟨congrArg Align.phase align, ?_, ?_⟩⟩, ?_⟩
    · exact added.kept _ nofun (ceased_carries _)
    · exact fun b waits => ceased_withdraws (s.setPlanner { s.planner with active := false }) b (added.queued _ nofun waits)
    · exact fun p carried => ceased_before (s := s.setPlanner { s.planner with active := false }) nofun (added.before _ nofun carried)

end Sys2Proof.Claims
end

