-- ==== Sys2Proof/Proofs/DiscTakenAway.lean ====
section
/-!
SUPPORT. The drive takes the disc away in play (R153). Then the statement about GONE (O20).
-/
namespace Sys2Proof.Machine

section
variable (s : State)

/-- The disc is UNCONFIRMED, and DRIVE is among the causes (R153). -/
def Play.driven (p : Play) : Play := { p.unconfirm with causes := { p.causes with drive := true } }

/-- The entry is sealed, and the return-to state kept (R153). -/
def drivenFrom (back : ReturnTo) : State :=
  mapPlay (fun p => { p.driven with returnTo := back }) (s.setResume (sealedTable s.play.sealMode .drive s))

theorem Play.enter_load (p : Play) (x : PlayState) : (p.enter x).counters.load = p.counters.load := by
  unfold Play.enter
  dsimp only
  split <;> rfl

theorem Play.enter_coast (p : Play) (x : PlayState) : (p.enter x).counters.coast = p.counters.coast := by
  unfold Play.enter
  dsimp only
  split <;> rfl

/-- The disc is UNCONFIRMED, so the planner may not read (R52). -/
theorem plannerMayRead_unconfirmed {s : State} (unconfirmed : s.play.disc.confirmed = false) : plannerMayRead s = false := by
  unfold plannerMayRead
  rw [unconfirmed, Bool.and_false, Bool.false_and]

end

section
variable {s : State}

theorem driveAway_cueing (cueing : s.play.state = .cueing) :
    driveAway false false s = enterState .suspended false (stopRequest (drivenFrom s .cueing)) := by
  unfold driveAway sealEntry
  dsimp only
  rw [cueing, sealAs_eq]
  rfl

theorem driveAway_paused (paused : s.play.state = .paused) :
    driveAway false false s = enterState .suspended false (stopRequest (drivenFrom s .paused)) := by
  unfold driveAway sealEntry
  dsimp only
  rw [paused, sealAs_eq]
  rfl

theorem driveAway_playing (playing : s.play.state = .playing) :
    driveAway false false s = coastOrSuspend false (drivenFrom s .playing) := by
  unfold driveAway sealEntry
  dsimp only
  rw [playing, sealAs_eq]
  rfl

theorem driveAway_away (away : s.play.state = .coasting ∨ s.play.state = .suspended) :
    driveAway false false s = plannerNotice false (mapPlay Play.driven s) := by
  unfold driveAway
  dsimp only
  rcases away with state | state <;> rw [state] <;> rfl

theorem coastOrSuspend_starved (starved : s.feeder.state = .starved) :
    coastOrSuspend false s = enterState .suspended false s := if_pos starved

theorem coastOrSuspend_coasts (sounds : s.feeder.state ≠ .starved) :
    coastOrSuspend false s = countPlay (fun c => { c with coast := bump c.coast }) (enterState .coasting false s) := if_neg sounds

end

/-! ### The Play Controller takes a GONE (R145, R151, R153) -/

section
variable {s : State} {p : Nat}

theorem takeGone_loading (loading : s.play.state = .loading) (wanted : p = s.play.wanted) :
    takeGone p s = givenUp .noDisc s.play.wanted 0 s := by
  unfold takeGone
  rw [loading]
  dsimp only
  rw [if_pos wanted, endLoading_gives_up]

/-- The disc is awaited by no command but by its answer, or it is READY (R145, R151). -/
theorem takeGone_lost (awaited : s.play.state = .ready ∨
      (s.play.confirming = true ∧ s.play.state ≠ .empty ∧ s.play.state ≠ .loading)) (record : p = s.play.disc.position) :
    takeGone p s = givenUp .noDisc s.play.disc.position s.play.wanted s := by
  rw [← loseDisc_gives_up]
  rcases awaited with ready | ⟨confirming, notEmpty, notLoading⟩
  · unfold takeGone
    rw [ready]
    exact if_pos record
  · unfold takeGone
    split
    · exact absurd ‹_› notEmpty
    · exact absurd ‹_› notLoading
    · exact if_pos record
    all_goals rw [if_neg (not_not.mpr record), if_pos confirming]

theorem takeGone_drivesAway (inPlay : s.play.state ≠ .empty ∧ s.play.state ≠ .loading ∧ s.play.state ≠ .ready)
    (settled : s.play.confirming = false) (record : p = s.play.disc.position) : takeGone p s = driveAway false false s := by
  obtain ⟨notEmpty, notLoading, notReady⟩ := inPlay
  unfold takeGone
  split
  · exact absurd ‹_› notEmpty
  · exact absurd ‹_› notLoading
  · exact absurd ‹_› notReady
  all_goals rw [if_neg (not_not.mpr record), if_neg (by rw [settled]; exact nofun)]

theorem takeGone_stray (other : (s.play.state = .loading ∧ p ≠ s.play.wanted) ∨
    (s.play.state ≠ .empty ∧ s.play.state ≠ .loading ∧ p ≠ s.play.disc.position)) : takeGone p s = strayAnswer s := by
  unfold takeGone
  rcases other with ⟨loading, unwanted⟩ | ⟨notEmpty, notLoading, elsewhere⟩
  · rw [loading]
    exact if_neg unwanted
  · split
    · exact absurd ‹_› notEmpty
    · exact absurd ‹_› notLoading
    · exact if_neg elsewhere
    all_goals exact if_pos elsewhere

theorem takeGone_unsolicited (empty : s.play.state = .empty) : takeGone p s = unsolicited s := by
  unfold takeGone
  rw [empty]

end

end Sys2Proof.Machine

namespace Sys2Proof.Claims

open Sys2Proof.Machine

section
variable {noise : Nat} {n : BitVec 4} {position : Byte} {s : State} {P : State → Prop}

/-- A GONE of a position 1 to 6 is taken by the Play Controller (R104, R106). -/
theorem completes_gone (ready : LinkReady s) (low : 1 ≤ position.toNat) (high : position.toNat ≤ 6)
    (h : ∀ l, s.link.Received l → P ((takeNotices (takeGone position.toNat (taking s l))).setNotices s.notices)) :
    Completes (.gone noise n position) s P := by
  refine completes_message ready (noise := noise) (monitorFirst := false) (m := .gone n.toNat position.toNat) rfl ?_ h
  show (decide (position.toNat < 1) || decide (6 < position.toNat)) = false
  rw [decide_eq_false (Nat.not_lt.mpr low), decide_eq_false (Nat.not_lt.mpr high)]
  rfl

/-- An answer that is counted only (R145). -/
theorem completes_goneCounted (ready : LinkReady s) (low : 1 ≤ position.toNat) (high : position.toNat ≤ 6)
    {f : PlayCounters → PlayCounters} (counts : ∀ l, takeGone position.toNat (taking s l) = countPlay f (taking s l)) :
    Completes (.gone noise n position) s (fun t => AnswerCounted s t (f s.play.counters)) := by
  refine completes_gone ready low high fun l _ => ?_
  rw [counts, takeNotices_none rfl]
  exact ⟨rfl, rfl, rfl, rfl, rfl, rfl, rfl, rfl, rfl, rfl, rfl, rfl⟩

/-- A GONE that takes the disc away in play: whatever the Play Controller, the feeder and the Resume Table come to, the planner's
notice stops the reading (R52, R153). -/
theorem completes_away (ready : LinkReady s) (low : 1 ≤ position.toNat) (high : position.toNat ≤ 6)
    {x : Play} {y : Feeder} {r : Resume} {f : PlayCounters → PlayCounters}
    (takes : ∀ l, takeGone position.toNat (taking s l) =
      countPlay f (plannerNotice false ((((taking s l).setResume r).setPlay x).setFeeder y)))
    (unconfirmed : x.disc.confirmed = false) :
    Completes (.gone noise n position) s (fun t =>
      t.play = { x with counters := f x.counters } ∧ t.feeder = y ∧ t.resume = r ∧
      (∀ p, t.link.Carries (.load p) → s.link.Carries (.load p)) ∧ Deactivated s t ∧ t.store = s.store ∧ t.attn = s.attn ∧
      t.health = s.health ∧ SensesStay s t) := by
  refine completes_gone ready low high fun l received => ?_
  rw [takes]
  have keeps := KeepsChoice.plannerNotice false ((((taking s l).setResume r).setPlay x).setFeeder y)
  obtain ⟨deactivated, loads⟩ :=
    plannerNotice_deactivates (plannerMayRead_unconfirmed (s := (((taking s l).setResume r).setPlay x).setFeeder y) unconfirmed)
  generalize plannerNotice false ((((taking s l).setResume r).setPlay x).setFeeder y) = u at keeps deactivated loads
  rw [takeNotices_none (s := countPlay f u) keeps.notices]
  exact ⟨congrArg (fun p : Play => { p with counters := f p.counters }) keeps.play, keeps.feeder, keeps.resume,
    fun p carried => (received.carries _).mp (loads p carried), deactivated, keeps.store, keeps.attn, keeps.health,
    keeps.sense, keeps.supply, keeps.console, keeps.pending⟩

end

/-- Settles O20: the disc is given up where its answer is awaited or it is READY; in play the cause DRIVE is added and the reading stops. -/
theorem goneEndsLoad : Obligations.GoneEndsLoad := by
  intro noise n position s ready low high
  refine ⟨?loading, ?lost, fun settled record => ⟨?playing, ?held, ?away⟩, ?stray, ?unsolicited⟩
  case loading =>
    intro loading wanted
    refine completes_gone ready low high fun l _ => ?_
    have takes : takeGone position.toNat (taking s l) = givenUp .noDisc s.play.wanted 0 (taking s l) :=
      takeGone_loading (s := taking s l) loading wanted
    rw [takes]
    obtain ⟨⟨cleared, left, -, resume⟩, raised, only, health, senses⟩ := givenUp_effect .noDisc s.play.wanted 0 (taking s l) s.notices
    exact ⟨cleared, left, raised, only, health, resume, senses⟩
  case lost =>
    intro awaited record
    refine completes_gone ready low high fun l _ => ?_
    have takes : takeGone position.toNat (taking s l) = givenUp .noDisc s.play.disc.position s.play.wanted (taking s l) :=
      takeGone_lost (s := taking s l) awaited record
    rw [takes]
    obtain ⟨⟨cleared, -, -, resume⟩, raised, only, health, senses⟩ :=
      givenUp_effect .noDisc s.play.disc.position s.play.wanted (taking s l) s.notices
    rw [record]
    exact ⟨cleared, raised, only, health, resume, senses⟩
  case playing =>
    intro playing
    have inPlay : s.play.state ≠ .empty ∧ s.play.state ≠ .loading ∧ s.play.state ≠ .ready := by
      rw [playing]
      exact ⟨nofun, nofun, nofun⟩
    have seals : s.play.sealMode = .playing := by
      unfold Play.sealMode
      rw [playing]
    have takes (l : Link) : takeGone position.toNat (taking s l) = coastOrSuspend false (drivenFrom (taking s l) .playing) :=
      (takeGone_drivesAway (s := taking s l) inPlay settled record).trans (driveAway_playing (s := taking s l) playing)
    have sealed {t : State} (resume : t.resume = sealedTable s.play.sealMode .drive s) : Sealed s t .playing .drive := by
      rw [seals] at resume
      exact resume
    by_cases starved : s.feeder.state = .starved
    · obtain ⟨t, runs, play, feeder, resume, loads, deactivated, store, attn, health, senses⟩ :=
        completes_away (noise := noise) (n := n) (f := id) (x := ({ s.play.driven with returnTo := .playing } : Play).enter .suspended)
          (y := s.feeder) (r := sealedTable s.play.sealMode .drive s) ready low high
          (fun l => (takes l).trans (coastOrSuspend_starved (s := drivenFrom (taking s l) .playing) starved)) rfl
      refine ⟨t, runs, ?_, ?_, by rw [play]; rfl, by rw [play]; rfl, by rw [play]; rfl, by rw [play]; exact settled, sealed resume,
        ⟨by rw [play]; exact Play.enter_load _ _, loads⟩, deactivated, feeder, store, attn, health, senses⟩
      · rw [play, if_pos starved]
        rfl
      · rw [play, if_pos starved]
        exact Play.enter_coast _ _
    · obtain ⟨t, runs, play, feeder, resume, loads, deactivated, store, attn, health, senses⟩ :=
        completes_away (noise := noise) (n := n) (f := fun c => { c with coast := bump c.coast })
          (x := ({ s.play.driven with returnTo := .playing } : Play).enter .coasting)
          (y := s.feeder) (r := sealedTable s.play.sealMode .drive s) ready low high
          (fun l => (takes l).trans (coastOrSuspend_coasts (s := drivenFrom (taking s l) .playing) starved)) rfl
      refine ⟨t, runs, ?_, ?_, by rw [play]; rfl, by rw [play]; rfl, by rw [play]; rfl, by rw [play]; exact settled, sealed resume,
        ⟨by rw [play]; exact Play.enter_load _ _, loads⟩, deactivated, feeder, store, attn, health, senses⟩
      · rw [play, if_neg starved]
        rfl
      · rw [play, if_neg starved]
        exact congrArg bump (Play.enter_coast _ _)
  case held =>
    intro back from_
    have inPlay : s.play.state ≠ .empty ∧ s.play.state ≠ .loading ∧ s.play.state ≠ .ready := by
      rcases from_ with ⟨state, -⟩ | ⟨state, -⟩ <;> rw [state] <;> exact ⟨nofun, nofun, nofun⟩
    have seals : s.play.sealMode = if back = .paused then .paused else .ready := by
      unfold Play.sealMode
      rcases from_ with ⟨state, rfl⟩ | ⟨state, rfl⟩ <;> rw [state] <;> rfl
    have takes (l : Link) : takeGone position.toNat (taking s l) =
        enterState .suspended false (stopRequest (drivenFrom (taking s l) back)) := by
      refine (takeGone_drivesAway (s := taking s l) inPlay settled record).trans ?_
      rcases from_ with ⟨state, rfl⟩ | ⟨state, rfl⟩
      · exact driveAway_cueing (s := taking s l) state
      · exact driveAway_paused (s := taking s l) state
    obtain ⟨t, runs, play, feeder, resume, loads, deactivated, store, attn, health, senses⟩ :=
      completes_away (noise := noise) (n := n) (f := id) (x := ({ s.play.driven with returnTo := back } : Play).enter .suspended)
        (y := s.feeder.stop s.console.params.rampLength) (r := sealedTable s.play.sealMode .drive s) ready low high takes rfl
    rw [seals] at resume
    exact ⟨t, runs, by rw [play]; rfl, by rw [play]; rfl, by rw [play]; rfl, by rw [play]; rfl, by rw [play]; exact settled, resume,
      ⟨by rw [play]; exact Play.enter_load _ _, loads⟩, deactivated, feeder, store, attn, health, senses⟩
  case away =>
    intro away
    have inPlay : s.play.state ≠ .empty ∧ s.play.state ≠ .loading ∧ s.play.state ≠ .ready := by
      rcases away with state | state <;> rw [state] <;> exact ⟨nofun, nofun, nofun⟩
    obtain ⟨t, runs, play, feeder, resume, loads, deactivated, rest⟩ :=
      completes_away (noise := noise) (n := n) (f := id) (x := s.play.driven) (y := s.feeder) (r := s.resume) ready low high
        (fun l => (takeGone_drivesAway (s := taking s l) inPlay settled record).trans (driveAway_away (s := taking s l) away)) rfl
    exact ⟨t, runs, ⟨by rw [play]; rfl, loads⟩, deactivated, play, resume, feeder, rest⟩
  case stray =>
    exact fun other => completes_goneCounted ready low high fun l => takeGone_stray (s := taking s l) other
  case unsolicited =>
    exact fun empty => completes_goneCounted ready low high fun l => takeGone_unsolicited (s := taking s l) empty

end Sys2Proof.Claims
end

