-- ==== Sys2Proof/Proofs/LoadPlanFollowed.lean ====
section
/-!
SUPPORT. A DISC that confirms a load (R144): the extent, the entry of another disc, the plan, and the state it leads to.
-/
namespace Sys2Proof.Machine

/-! ### The entry of another disc (R144, R159) -/

/-- The entry of a position that was made not valid (R171). -/
theorem Resume.entry_invalidated (r : Resume) (p : Nat) : (r.write p ResumeEntry.invalid).entry p = ResumeEntry.invalid := by
  unfold Resume.entry Resume.write
  split
  · exact Vector.getElem_set_self _
  · rfl

/-- The Resume Table once the entry of another disc is forgotten (R144). -/
def forgottenTable (tag : Tag) (position : Nat) (r : Resume) : Resume :=
  if (r.entry position).valid = true ∧ (r.entry position).tag ≠ tag then r.write position ResumeEntry.invalid else r

theorem forgetOther_eq (tag : Tag) (position : Nat) (s : State) :
    forgetOther tag position s = s.setResume (forgottenTable tag position s.resume) := by
  unfold forgetOther forgottenTable
  dsimp only
  split <;> rfl

/-- The entry that is left is not of another disc. -/
theorem forgottenTable_entry (tag : Tag) (position : Nat) (r : Resume) :
    (forgottenTable tag position r).entry position =
      if (r.entry position).valid = true ∧ (r.entry position).tag ≠ tag then ResumeEntry.invalid else r.entry position := by
  unfold forgottenTable
  split
  · exact Resume.entry_invalidated r position
  · rfl

/-! ### The plan (R144) -/

theorem loadPlan_resumes {backoff : Nat} {e : ResumeEntry} {tag : Tag} {extent : Nat}
    (fits : e.valid = true ∧ e.tag = tag ∧ e.bn - backoff < extent) :
    loadPlan .fromResume backoff e tag extent =
      ⟨e.bn - backoff, if 0 < backoff then 0 else e.frame, .cueing, decide (e.mode = .paused), .loaded⟩ := if_pos fits

theorem loadPlan_misses {backoff : Nat} {e : ResumeEntry} {tag : Tag} {extent : Nat}
    (misses : ¬ (e.valid = true ∧ e.tag = tag ∧ e.bn - backoff < extent)) :
    loadPlan .fromResume backoff e tag extent = ⟨0, 0, .ready, false, .resumeMiss⟩ := if_neg misses

/-- A supply warning makes the CUEING of a plan a SUSPENDED (R144). -/
def LoadPlan.suspends (plan : LoadPlan) (warned : Bool) : Bool := decide (plan.state = .cueing) && warned

theorem mapPlay_notices (g : Play → Play) (s : State) : (mapPlay g s).notices = s.notices := rfl

/-- The place a plan names is cued. -/
def planCued (plan : LoadPlan) (s : State) : State :=
  mapPlay (fun p => { p with pauseOnPrime := p.pauseOnPrime || plan.pause }) (cueAt plan.bn plan.frame s)

section
variable (plan : LoadPlan) (s : State)

theorem planCued_play : (planCued plan s).play =
    { s.play with pauseOnPrime := s.play.pauseOnPrime || plan.pause, storePrimed := false } := by
  unfold planCued
  rw [mapPlay_play, cueAt_play]

theorem followPlan_enters : followPlan plan s =
    enterState (if plan.suspends s.play.supplyWarned then .suspended else plan.state) false
      (mapPlay
        (fun p => if plan.suspends s.play.supplyWarned then { p with causes := ⟨false, true, false⟩, returnTo := .cueing } else p)
        (planCued plan s)) := by
  have warned : (planCued plan s).play.supplyWarned = s.play.supplyWarned := by rw [planCued_play]
  unfold followPlan LoadPlan.suspends
  show (if plan.state = .cueing ∧ (planCued plan s).play.supplyWarned = true then _ else _) = _
  rw [warned]
  by_cases suspends : plan.state = .cueing ∧ s.play.supplyWarned = true
  · have both : (decide (plan.state = .cueing) && s.play.supplyWarned) = true := by simpa using suspends
    rw [if_pos suspends, both]
    rfl
  · have none : (decide (plan.state = .cueing) && s.play.supplyWarned) = false := by simpa using suspends
    rw [if_neg suspends, none, testCueing_unprimed]
    · rfl
    · rw [enterState_play, mapPlay_play, cueAt_play]
      rfl

theorem followPlan_play : (followPlan plan s).play =
    ((if plan.suspends s.play.supplyWarned then
        { s.play with
          pauseOnPrime := s.play.pauseOnPrime || plan.pause, storePrimed := false, causes := ⟨false, true, false⟩, returnTo := .cueing }
      else { s.play with pauseOnPrime := s.play.pauseOnPrime || plan.pause, storePrimed := false } : Play)).enter
      (if plan.suspends s.play.supplyWarned then .suspended else plan.state) := by
  rw [followPlan_enters, enterState_play, mapPlay_play, planCued_play]

theorem followPlan_feeder : (followPlan plan s).feeder = s.feeder.cue (rampLength s) plan.bn plan.frame := by
  rw [followPlan_enters, enterState_feeder, mapPlay_feeder]
  exact cueAt_feeder s plan.bn plan.frame

theorem followPlan_store : (followPlan plan s).store = s.store.flush plan.bn := by
  rw [followPlan_enters, enterState_store, mapPlay_store]
  exact cueAt_store s plan.bn plan.frame

theorem followPlan_resume : (followPlan plan s).resume = s.resume := by
  rw [followPlan_enters, enterState_resume, mapPlay_resume]
  exact requestFlush_resume plan.bn (cueFeeder plan.bn plan.frame s)

theorem followPlan_unprimed {s : State} (deep : 0 < s.console.params.primeDepth) : Unprimed (followPlan plan s) := by
  unfold Unprimed
  rw [followPlan_enters, enterState_notices, mapPlay_notices, planCued, mapPlay_notices, cueAt]
  exact requestFlush_unprimed plan.bn (s := cueFeeder plan.bn plan.frame s) deep

theorem PlayFrame.followPlan {es : List Event} {a s : State} (h : PlayFrame es a s) : PlayFrame es a (followPlan plan s) := by
  rw [followPlan_enters]
  exact ((((h.setFeeder _).requestFlush _).setPlay _).setPlay _).enterState _ _

end

/-! ### The confirmed load (R144) -/

theorem changeExtent_rest (extent : Nat) (s : State) : KeepsRest s (changeExtent extent s) :=
  (KeepsRest.moves s).changeExtent extent (.refl s)

section
variable (tag : Tag) (extent position : Nat) (s : State)

/-- The disc is recorded, its extent handed on, and the entry of another disc forgotten, before the plan is followed. -/
def loadConfirmed : State :=
  (changeExtent extent (countPlay (fun c => { c with confirmation := bump c.confirmation })
    (mapPlay (fun p => { p with disc := ⟨position, tag, extent, true⟩ }) s))).setResume (forgottenTable tag position s.resume)

theorem loadConfirmed_play : (loadConfirmed tag extent position s).play =
    { s.play with
      disc := ⟨position, tag, extent, true⟩
      counters := { s.play.counters with confirmation := bump s.play.counters.confirmation } } := changeExtent_play _ _

theorem loadConfirmed_feeder : (loadConfirmed tag extent position s).feeder = s.feeder := changeExtent_feeder _ _

theorem loadConfirmed_console : (loadConfirmed tag extent position s).console = s.console := changeExtent_console _ _

theorem loadConfirmed_extent : (loadConfirmed tag extent position s).store.extent = extent := changeExtent_extent _ _

theorem loadConfirmed_resume : (loadConfirmed tag extent position s).resume = forgottenTable tag position s.resume := rfl

theorem loadConfirmed_frame {es : List Event} (listed : .repairOverflow ∈ es) : PlayFrame es s (loadConfirmed tag extent position s) :=
  ((((PlayFrame.refl es s).setPlay _).setPlay _).trans (.ofRest listed (changeExtent_rest _ _))).setResume _

/-- The plan of the load that is confirmed. -/
def confirmedPlan : LoadPlan :=
  loadPlan s.play.mode s.console.params.resumeBackoff ((forgottenTable tag position s.resume).entry position) tag extent

theorem confirmLoad_follows : confirmLoad tag extent position s =
    raiseReady (confirmedPlan tag extent position s).reason position
      (followPlan (confirmedPlan tag extent position s) (loadConfirmed tag extent position s)) := by
  have resume : (changeExtent extent (countPlay (fun c => { c with confirmation := bump c.confirmation })
      (mapPlay (fun p => { p with disc := ⟨position, tag, extent, true⟩ }) s))).resume = s.resume := (changeExtent_rest _ _).resume
  have forgets : forgetOther tag position (changeExtent extent (countPlay (fun c => { c with confirmation := bump c.confirmation })
      (mapPlay (fun p => { p with disc := ⟨position, tag, extent, true⟩ }) s))) = loadConfirmed tag extent position s := by
    rw [forgetOther_eq, resume]
    rfl
  unfold confirmLoad confirmedPlan
  dsimp only
  rw [forgets, loadConfirmed_play, loadConfirmed_console, loadConfirmed_resume]

end

end Sys2Proof.Machine
end

