-- ==== Sys2Proof/Proofs/LoadConfirmed.lean ====
section
/-!
SUPPORT. What a confirmed load leaves once the notices of readiness are taken, and what the drive's DISC of another tag leaves in play
(R144, R151).
-/
namespace Sys2Proof.Machine

theorem Play.enter_confirmation (p : Play) (x : PlayState) : (p.enter x).counters.confirmation = p.counters.confirmation := by
  unfold Play.enter
  dsimp only
  split <;> rfl

/-! ### A DISC of another tag (R151) -/

section
variable (tag : Tag) (extent position : Nat) (s : State)

/-- The old entry is forgotten, the new disc recorded, and the feeder and the store are put at its start. -/
def discReplaced : State :=
  requestFlush 0 (changeExtent extent (cueFeeder 0 0 (mapPlay
    (fun p => { p with
      confirming := false, causes := Causes.none, pauseOnPrime := false, unprimed := false, disc := ⟨position, tag, extent, true⟩ })
    (invalidate s.play.disc.position s))))

/-- The disc that replaced the old one is READY, and its event is not raised yet. -/
def discReplacedReady : State := enterState .ready false (discReplaced tag extent position s)

theorem newDisc_enters : newDisc tag extent position s =
    countPlay (fun c => { c with newDisc := bump c.newDisc })
      (raiseReady .newDisc position (discReplacedReady tag extent position s)) := rfl

theorem discReplacedReady_play : (discReplacedReady tag extent position s).play =
    ({ s.play with
        confirming := false, causes := Causes.none, pauseOnPrime := false, unprimed := false, disc := ⟨position, tag, extent, true⟩
        storePrimed := false } : Play).enter .ready := by
  unfold discReplacedReady discReplaced
  rw [enterState_play, requestFlush_play, changeExtent_play]
  rfl

theorem discReplacedReady_feeder : (discReplacedReady tag extent position s).feeder = s.feeder.cue (rampLength s) 0 0 := by
  unfold discReplacedReady discReplaced
  rw [enterState_feeder, requestFlush_feeder, changeExtent_feeder]
  rfl

theorem discReplacedReady_store : (discReplacedReady tag extent position s).store = ⟨0, extent, []⟩ := by
  unfold discReplacedReady discReplaced
  rw [enterState_store, requestFlush_store]
  unfold Store.flush
  rw [changeExtent_extent]

theorem discReplacedReady_resume :
    (discReplacedReady tag extent position s).resume = s.resume.write s.play.disc.position ResumeEntry.invalid := by
  unfold discReplacedReady discReplaced
  rw [enterState_resume, requestFlush_resume, (changeExtent_rest extent _).resume]
  rfl

theorem discReplacedReady_frame {es : List Event} (listed : .repairOverflow ∈ es) :
    PlayFrame es s (discReplacedReady tag extent position s) :=
  ((((((PlayFrame.refl es s).setResume _).setPlay _).setFeeder _).trans (.ofRest listed (changeExtent_rest _ _))).requestFlush _).enterState
    _ _

end

end Sys2Proof.Machine

namespace Sys2Proof.Claims

open Sys2Proof.Machine

/-- From s to t a load was confirmed, and its plan followed (R144). -/
structure Confirmed (plan : LoadPlan) (tag : Tag) (extent position : Nat) (s t : State) : Prop where
  state     : t.play.state = if plan.suspends s.play.supplyWarned then .suspended else plan.state
  suspended : plan.suspends s.play.supplyWarned = true → t.play.causes = ⟨false, true, false⟩ ∧ t.play.returnTo = .cueing
  pause     : t.play.pauseOnPrime = (s.play.pauseOnPrime || plan.pause)
  disc      : t.play.disc = ⟨position, tag, extent, true⟩
  block     : t.feeder.block = plan.bn
  frame     : t.feeder.frame = plan.frame
  silent    : t.feeder.state = .silent
  slots     : t.store.slots = []
  playBlock : t.store.playBlock = plan.bn
  extent    : t.store.extent = extent
  counted   : t.play.counters.confirmation = bump s.play.counters.confirmation
  resume    : t.resume = forgottenTable tag position s.resume
  raised    : RaisedOnce s t .discReady (16 * plan.reason.code + position)
  only      : OnlyRaised [.discReady, .repairOverflow] s t
  health    : t.health = s.health
  senses    : SensesStay s t

/-- The flush leaves the store unprimed, so the notices of readiness leave the state the plan leads to (R136, R146). -/
theorem confirmLoad_confirms {tag : Tag} {extent position : Nat} {s : State} (deep : 0 < s.console.params.primeDepth) (n : List Bool) :
    Confirmed (confirmedPlan tag extent position s) tag extent position s
      ((takeNotices (confirmLoad tag extent position s)).setNotices n) := by
  rw [confirmLoad_follows]
  generalize confirmedPlan tag extent position s = plan
  have play := followPlan_play plan (loadConfirmed tag extent position s)
  have feeder : (followPlan plan (loadConfirmed tag extent position s)).feeder = s.feeder.cue (rampLength s) plan.bn plan.frame := by
    rw [followPlan_feeder, loadConfirmed_feeder]
    unfold rampLength
    rw [loadConfirmed_console]
  have store : (followPlan plan (loadConfirmed tag extent position s)).store = ⟨plan.bn, extent, []⟩ := by
    rw [followPlan_store]
    unfold Store.flush
    rw [loadConfirmed_extent]
  have resume : (followPlan plan (loadConfirmed tag extent position s)).resume = forgottenTable tag position s.resume :=
    (followPlan_resume _ _).trans (loadConfirmed_resume tag extent position s)
  have unprimed : Unprimed (followPlan plan (loadConfirmed tag extent position s)) :=
    followPlan_unprimed plan (by rw [loadConfirmed_console]; exact deep)
  have frame : PlayFrame [.repairOverflow] s (followPlan plan (loadConfirmed tag extent position s)) :=
    (loadConfirmed_frame tag extent position s (List.mem_singleton.mpr rfl)).followPlan plan
  rw [loadConfirmed_play] at play
  generalize followPlan plan (loadConfirmed tag extent position s) = u at *
  obtain ⟨silent, block, frameAt⟩ := s.feeder.cue_place (rampLength s) plan.bn plan.frame
  have told := told_unprimed (u := raiseReady plan.reason position u) unprimed (by
    show u.feeder.state ≠ _
    rw [feeder, silent]
    exact nofun) n
  obtain ⟨p, q, play'⟩ := told.play
  obtain ⟨r, feeder'⟩ := told.feeder
  have toldStore : ((takeNotices (raiseReady plan.reason position u)).setNotices n).store = ⟨plan.bn, extent, []⟩ :=
    told.store.trans store
  obtain ⟨raised, only, health, senses⟩ := ready_raised frame (told.frame _)
  rw [raiseReady_play, play] at play'
  have sameFeeder : (raiseReady plan.reason position u).feeder = s.feeder.cue (rampLength s) plan.bn plan.frame := feeder
  rw [sameFeeder] at feeder'
  generalize (takeNotices (raiseReady plan.reason position u)).setNotices n = t at *
  refine ⟨by rw [play']; rfl, fun suspends => ?_, ?_, ?_, by rw [feeder']; exact block, by rw [feeder']; exact frameAt,
    by rw [feeder']; exact silent, by rw [toldStore], by rw [toldStore], by rw [toldStore], ?_, told.resume.trans resume, raised, only,
    health, senses⟩
  · rw [play', if_pos suspends]
    exact ⟨rfl, rfl⟩
  · rw [play']
    split <;> rfl
  · rw [play']
    split <;> rfl
  · rw [play']
    refine (Play.enter_confirmation _ _).trans ?_
    split <;> rfl

end Sys2Proof.Claims
end

