-- ==== Sys2Proof/Proofs/ReturnToPlay.lean ====
section
/-!
SUPPORT. The return to play (R147): what it leaves of the disc and the cursor, and the state it leads to, the notices of readiness taken.
-/
namespace Sys2Proof.Machine

/-! ### What a return leaves as it was -/

/-- The disc, the causes and the cursor, which a return leaves. -/
def State.standing (s : State) : (DiscRecord × Bool × Causes × Nat) × Nat × Nat :=
  ((s.play.disc, s.play.confirming, s.play.causes, s.play.counters.sameDisc), s.feeder.block, s.feeder.frame)

theorem standing_congr {s t : State} (play : (t.play.disc, t.play.confirming, t.play.causes, t.play.counters.sameDisc) =
    (s.play.disc, s.play.confirming, s.play.causes, s.play.counters.sameDisc)) (block : t.feeder.block = s.feeder.block)
    (frame : t.feeder.frame = s.feeder.frame) : t.standing = s.standing := Prod.ext play (Prod.ext block frame)

theorem Play.enter_sameDisc (p : Play) (x : PlayState) : (p.enter x).counters.sameDisc = p.counters.sameDisc := by
  unfold Play.enter
  dsimp only
  split <;> rfl

section
variable (s : State)

theorem enterState_standing (x : PlayState) (b : Bool) : (enterState x b s).standing = s.standing := by
  refine standing_congr ?_ (by rw [enterState_feeder]) (by rw [enterState_feeder])
  rw [enterState_play, Play.enter_sameDisc]
  rfl

theorem stopRequest_standing : (stopRequest s).standing = s.standing := by
  obtain ⟨block, frame, -⟩ := s.feeder.stop_place (rampLength s)
  exact standing_congr rfl block frame

theorem startFeeder_standing (gain : Nat) : (s.setFeeder (s.feeder.start (rampLength s) gain)).standing = s.standing := by
  obtain ⟨-, -, -, block, frame⟩ := s.feeder.start_place (rampLength s) gain
  exact standing_congr rfl block frame

theorem declareEntry_standing : (declareEntry s).standing = s.standing := by
  have feeder : (declareEntry s).feeder = s.feeder := storeEvent_feeder _ _
  exact standing_congr (by rw [declareEntry_play]) (by rw [feeder]) (by rw [feeder])

theorem playRequest_standing : (playRequest s).standing = s.standing := by
  have started : (declareEntry (s.setFeeder (s.feeder.start (rampLength s) 0))).standing = s.standing :=
    (declareEntry_standing _).trans (startFeeder_standing s 0)
  unfold playRequest
  split
  · exact started
  · exact startFeeder_standing s _
  · split
    · exact started
    · rfl
  · rfl
  · rfl

theorem leaveCueing_standing : (leaveCueing s).standing = s.standing := by
  unfold leaveCueing
  split
  · exact enterState_standing (mapPlay _ s) _ _
  · exact (playRequest_standing _).trans (enterState_standing s _ _)

theorem testCueing_standing : (testCueing s).standing = s.standing := by
  unfold testCueing
  split
  · exact leaveCueing_standing s
  · rfl

theorem returnToPlay_standing : (returnToPlay s).standing = s.standing := by
  have cued : (testCueing (stopRequest (enterState .cueing false s))).standing = s.standing :=
    (testCueing_standing _).trans ((stopRequest_standing _).trans (enterState_standing s _ _))
  unfold returnToPlay
  split
  · split
    · exact (playRequest_standing _).trans (enterState_standing (countPlay _ s) _ _)
    · split
      · exact (playRequest_standing _).trans (enterState_standing s _ _)
      · exact cued
  · exact (stopRequest_standing _).trans (enterState_standing s _ _)
  · exact cued

theorem takeReadiness_standing (p : Bool) : (takeReadiness s p).standing = s.standing := by
  have primed : (feederPrimed p s).standing = s.standing := by
    unfold feederPrimed
    dsimp only
    split
    · exact (declareEntry_standing _).trans (startFeeder_standing (mapFeeder _ s) 0)
    · rfl
  refine Eq.trans ?_ primed
  unfold takeReadiness playPrimed
  dsimp only
  split
  · exact leaveCueing_standing (mapPlay _ _)
  · rfl

end

theorem takeAll_standing (notices : List Bool) : ∀ s : State, (notices.foldl takeReadiness s).standing = s.standing := by
  induction notices with
  | nil => exact fun _ => rfl
  | cons p rest ih => exact fun s => (ih _).trans (takeReadiness_standing s p)

theorem takeNotices_standing (s : State) : (takeNotices s).standing = s.standing :=
  (takeAll_standing _ _).trans (takeAll_standing _ _)

/-! ### Where a return leads (R147) -/

/-- Where no notice was handed, none is taken. -/
theorem told_quiet {u : State} (quiet : u.notices = []) (n : List Bool) : Told u ((takeNotices u).setNotices n) := by
  rw [takeNotices_none quiet]
  exact ⟨⟨u.play.storePrimed, true, by rw [Bool.and_true]; rfl⟩, ⟨u.feeder.primed, rfl⟩, rfl, rfl, rfl, rfl, rfl,
    fun es => { PlayFrame.refl es u with }⟩

section
variable {s : State}

theorem playRequest_sounding (sounds : s.feeder.state = .running ∨ s.feeder.state = .starting) : playRequest s = s := by
  unfold playRequest
  rcases sounds with state | state <;> rw [state]

/-- A play request of PLAYING starts the feeder or does nothing; no notice that follows starts anything. -/
theorem playRequest_told (quiet : s.notices = []) (playing : s.play.state = .playing) (n : List Bool) :
    Told (playRequest s) ((takeNotices (playRequest s)).setNotices n) := by
  have started (gain : Nat) : (s.feeder.start (rampLength s) gain).state ≠ .starved := by
    rw [(s.feeder.start_place (rampLength s) gain).1]
    split <;> exact nofun
  have calm : (playRequest s).play.state ≠ .cueing := by
    rw [playRequest_play, playing]
    exact nofun
  have declared : (declareEntry (s.setFeeder (s.feeder.start (rampLength s) 0))).feeder.state ≠ .starved := by
    rw [show (declareEntry (s.setFeeder (s.feeder.start (rampLength s) 0))).feeder = _ from storeEvent_feeder _ _]
    exact started 0
  cases state : s.feeder.state with
  | silent => exact told_still (by rw [playRequest_silent state]; exact declared) calm n
  | stopping => exact told_still (by rw [playRequest_stopping state]; exact started _) calm n
  | starved =>
    by_cases leaves : mayLeaveStarved s = true
    · have starts : playRequest s = declareEntry (s.setFeeder (s.feeder.start (rampLength s) 0)) := by
        unfold playRequest
        rw [state]
        exact if_pos leaves
      exact told_still (by rw [starts]; exact declared) calm n
    · have stays : playRequest s = s := by
        unfold playRequest
        rw [state]
        exact if_neg leaves
      rw [stays]
      exact told_quiet quiet n
  | starting =>
    rw [playRequest_sounding (.inr state)]
    exact told_quiet quiet n
  | running =>
    rw [playRequest_sounding (.inl state)]
    exact told_quiet quiet n

/-- A seamless return is counted (R147, R160). -/
def returnCounted (s : State) : State := countPlay (fun c => { c with seamlessReturn := bump c.seamlessReturn }) s

theorem returnToPlay_seamless (back : s.play.returnTo = .playing) (coasting : s.play.state = .coasting) :
    returnToPlay s = playRequest (enterState .playing false (returnCounted s)) := by
  unfold returnToPlay
  rw [back]
  exact if_pos coasting

theorem returnToPlay_primed (back : s.play.returnTo = .playing) (held : s.play.state ≠ .coasting) (primed : s.play.storePrimed = true) :
    returnToPlay s = playRequest (enterState .playing false s) := by
  unfold returnToPlay
  rw [back]
  dsimp only
  rw [if_neg held, if_pos primed]

theorem returnToPlay_paused (back : s.play.returnTo = .paused) : returnToPlay s = stopRequest (enterState .paused false s) := by
  unfold returnToPlay
  rw [back]

theorem recued_play : (stopRequest (enterState .cueing false s)).play = s.play.enter .cueing := enterState_play _ _ _

/-- Without a primed store the part cues again (R146, R147). -/
theorem returnToPlay_unprimed (back : (s.play.returnTo = .playing ∧ s.play.state ≠ .coasting) ∨ s.play.returnTo = .cueing)
    (unprimed : s.play.storePrimed = false) : returnToPlay s = stopRequest (enterState .cueing false s) := by
  have none : (stopRequest (enterState .cueing false s)).play.storePrimed = false := by
    rw [recued_play]
    exact unprimed
  rw [← testCueing_unprimed none]
  unfold returnToPlay
  rcases back with ⟨playing, held⟩ | cueing
  · rw [playing]
    dsimp only
    rw [if_neg held, if_neg (by rw [unprimed]; exact nofun)]
  · rw [cueing]

theorem returnToPlay_cued (back : s.play.returnTo = .cueing) (primed : s.play.storePrimed = true) :
    returnToPlay s = leaveCueing (stopRequest (enterState .cueing false s)) := by
  unfold returnToPlay
  rw [back]
  refine if_pos ⟨?_, ?_⟩
  · rw [recued_play]
    rfl
  · rw [recued_play]
    exact primed

theorem leaveCueing_pauses (pause : s.play.pauseOnPrime = true) :
    leaveCueing s = enterState .paused false (mapPlay (fun p => { p with pauseOnPrime := false }) s) := if_pos pause

theorem leaveCueing_plays (plays : s.play.pauseOnPrime = false) : leaveCueing s = playRequest (enterState .playing false s) :=
  if_neg (by rw [plays]; exact nofun)

end

end Sys2Proof.Machine

namespace Sys2Proof.Claims

open Sys2Proof.Machine

section
variable {s : State} (quiet : s.notices = []) (n : List Bool)
include quiet

theorem returnToPlay_goesOn (back : s.play.returnTo = .playing) (coasting : s.play.state = .coasting) :
    let t := (takeNotices (returnToPlay s)).setNotices n
    t.play.state = .playing ∧ t.play.counters.seamlessReturn = bump s.play.counters.seamlessReturn ∧
      (s.feeder.state = .running ∨ s.feeder.state = .starting → t.feeder = s.feeder ∧ t.store = s.store) := by
  dsimp only
  rw [returnToPlay_seamless back coasting]
  have play := enterState_play (returnCounted s) .playing false
  have none := (enterState_notices .playing false (returnCounted s)).trans quiet
  have feeder : (enterState .playing false (returnCounted s)).feeder = s.feeder := enterState_feeder _ _ _
  have store : (enterState .playing false (returnCounted s)).store = s.store := enterState_store _ _ _
  generalize enterState .playing false (returnCounted s) = u at *
  obtain ⟨p, q, told⟩ := (playRequest_told none (by rw [play]; rfl) n).play
  rw [playRequest_play, play] at told
  refine ⟨by rw [told]; rfl, by rw [told]; rfl, fun sounds => ?_⟩
  rw [playRequest_sounding (by rw [feeder]; exact sounds), takeNotices_none none]
  exact ⟨feeder, store⟩

theorem returnToPlay_plays (back : s.play.returnTo = .playing) (held : s.play.state ≠ .coasting) (primed : s.play.storePrimed = true) :
    let t := (takeNotices (returnToPlay s)).setNotices n
    t.play.state = .playing ∧
      (s.feeder.state = .silent → t.feeder.state = if s.console.params.rampLength = 0 then .running else .starting) := by
  dsimp only
  rw [returnToPlay_primed back held primed]
  have play := enterState_play s .playing false
  have told := playRequest_told ((enterState_notices .playing false s).trans quiet) (by rw [play]; rfl) n
  obtain ⟨p, q, play'⟩ := told.play
  obtain ⟨r, feeder⟩ := told.feeder
  rw [playRequest_play, play] at play'
  refine ⟨by rw [play']; rfl, fun silent => ?_⟩
  have started : (playRequest (enterState .playing false s)).feeder = s.feeder.start s.console.params.rampLength 0 := by
    rw [playRequest_silent (by rw [enterState_feeder]; exact silent)]
    refine (storeEvent_feeder _ _).trans ?_
    rw [enterState_ramp, enterState_feeder]
    rfl
  rw [feeder, started]
  exact (s.feeder.start_place _ 0).1

theorem returnToPlay_ends (back : s.play.returnTo = .cueing) (primed : s.play.storePrimed = true) :
    let t := (takeNotices (returnToPlay s)).setNotices n
    t.play.state = (if s.play.pauseOnPrime then .paused else .playing) ∧ t.play.pauseOnPrime = false := by
  dsimp only
  rw [returnToPlay_cued back primed]
  have play : (stopRequest (enterState .cueing false s)).play = s.play.enter .cueing := recued_play
  have none : (stopRequest (enterState .cueing false s)).notices = [] := (enterState_notices .cueing false s).trans quiet
  generalize stopRequest (enterState .cueing false s) = u at *
  cases pause : s.play.pauseOnPrime with
  | true =>
    have paused := enterState_play (mapPlay (fun p => { p with pauseOnPrime := false }) u) .paused false
    have still : (enterState .paused false (mapPlay (fun p => { p with pauseOnPrime := false }) u)).notices = [] :=
      (enterState_notices _ _ _).trans none
    rw [leaveCueing_pauses (by rw [play]; exact pause), takeNotices_none still]
    exact ⟨(congrArg Play.state paused).trans rfl, (congrArg Play.pauseOnPrime paused).trans rfl⟩
  | false =>
    have unpaused : u.play.pauseOnPrime = false := by
      rw [play]
      exact pause
    have plays := enterState_play u .playing false
    rw [leaveCueing_plays unpaused]
    obtain ⟨p, q, told⟩ := (playRequest_told ((enterState_notices .playing false u).trans none) (by rw [plays]; rfl) n).play
    rw [playRequest_play, plays] at told
    exact ⟨by rw [told]; rfl, by rw [told]; exact unpaused⟩

/-- A play state entered with a stop request hands no notice (R120, R147). -/
theorem stops_quiet (x : PlayState) :
    let t := (takeNotices (stopRequest (enterState x false s))).setNotices n
    t.play.state = x ∧ t.feeder = s.feeder.stop s.console.params.rampLength ∧ t.store = s.store := by
  have none : (stopRequest (enterState x false s)).notices = [] := (enterState_notices x false s).trans quiet
  have feeder : (stopRequest (enterState x false s)).feeder = s.feeder.stop (rampLength s) := by
    rw [stopRequest_feeder, enterState_feeder, enterState_ramp]
  dsimp only
  rw [takeNotices_none none]
  exact ⟨(congrArg Play.state (enterState_play s x false)).trans rfl, feeder, enterState_store s x false⟩

/-- The return of R147, of a state in which no notice of readiness waits. -/
theorem returnToPlay_returns : Returns s ((takeNotices (returnToPlay s)).setNotices n) := by
  refine ⟨?active, returnToPlay_goesOn quiet n, returnToPlay_plays quiet n, fun back held unprimed => ?unprimed, fun back => ?paused,
    fun back unprimed => ?cueing, returnToPlay_ends quiet n⟩
  case active =>
    have asked : Holds ⟨False, False, False, False, False⟩ s := ⟨False.elim, False.elim, False.elim, False.elim, False.elim⟩
    have returned : Holds ⟨False, False, True, False, False⟩ (returnToPlay s) := asked.returnToPlay (a := False)
    exact (returned.takeNotices.setNotices n).active trivial
  case unprimed =>
    rw [returnToPlay_unprimed (.inl ⟨back, held⟩) unprimed]
    exact stops_quiet quiet n .cueing
  case paused =>
    rw [returnToPlay_paused back]
    exact stops_quiet quiet n .paused
  case cueing =>
    rw [returnToPlay_unprimed (.inr back) unprimed]
    exact stops_quiet quiet n .cueing

end

end Sys2Proof.Claims
end

