-- ==== Sys2Proof/Proofs/DiscConfirms.lean ====
section
/-!
SUPPORT. The Play Controller takes a DISC (R144, R145, R151). Then the statement about DISC (O19).
-/
namespace Sys2Proof.Machine

section
variable {s : State} {tag : Tag} {extent p : Nat}

theorem takeDisc_confirms (loading : s.play.state = .loading) (wanted : p = s.play.wanted) :
    takeDisc tag extent p s = confirmLoad tag extent p s := by
  unfold takeDisc
  rw [loading]
  exact if_pos wanted

/-- A DISC that is matched in play (R151). -/
theorem takeDisc_matched (away : s.play.state = .coasting ∨ s.play.state = .suspended) (record : p = s.play.disc.position)
    (awaited : s.play.confirming = true ∨ (s.play.causes.drive = true ∧ s.play.causes.tray = false)) :
    takeDisc tag extent p s = if tag = s.play.disc.tag then sameDisc s else newDisc tag extent p s := by
  have matches_ : matchesReturn p s.play = true := by
    unfold matchesReturn
    rw [decide_eq_true record]
    simpa using awaited
  unfold takeDisc
  rcases away with state | state
  · rw [state]
    exact if_pos matches_
  · rw [state]
    exact if_pos matches_

theorem takeDisc_stray (other : (s.play.state = .loading ∧ p ≠ s.play.wanted) ∨
    ((s.play.state = .coasting ∨ s.play.state = .suspended) ∧ s.play.confirming = true ∧ p ≠ s.play.disc.position)) :
    takeDisc tag extent p s = strayAnswer s := by
  unfold takeDisc
  rcases other with ⟨loading, unwanted⟩ | ⟨away, confirming, elsewhere⟩
  · rw [loading]
    exact if_neg unwanted
  · have unmatched : ¬ matchesReturn p s.play = true := by simp [matchesReturn, elsewhere]
    rcases away with state | state
    all_goals
      rw [state]
      exact (if_neg unmatched).trans (if_pos ⟨confirming, elsewhere⟩)

theorem takeDisc_unsolicited (unawaited : s.play.state = .empty ∨ s.play.state = .ready ∨ s.play.state = .cueing ∨
    s.play.state = .playing ∨ s.play.state = .paused ∨ ((s.play.state = .coasting ∨ s.play.state = .suspended) ∧
      s.play.confirming = false ∧ (p ≠ s.play.disc.position ∨ s.play.causes.drive = false ∨ s.play.causes.tray = true))) :
    takeDisc tag extent p s = unsolicited s := by
  unfold takeDisc
  rcases unawaited with state | state | state | state | state | ⟨away, settled, unmatched⟩
  iterate 5 rw [state]
  have unmatched : ¬ matchesReturn p s.play = true := by
    unfold matchesReturn
    rw [settled]
    rcases unmatched with elsewhere | undriven | out
    · simp [elsewhere]
    · simp [undriven]
    · simp [out]
  have silent : ¬ (s.play.confirming = true ∧ p ≠ s.play.disc.position) := by
    rw [settled]
    exact fun both => absurd both.1 nofun
  rcases away with state | state
  all_goals
    rw [state]
    exact (if_neg unmatched).trans (if_neg silent)

/-- The disc came back: it is CONFIRMED again, and SUPPLY alone can be left in the set (R151). -/
def discReturned (s : State) : State :=
  countPlay (fun c => { c with sameDisc := bump c.sameDisc })
    (raiseReady .returned s.play.disc.position
      (mapPlay (fun p => { p with
        confirming := false, causes := ⟨false, p.causes.supply, false⟩, disc := { p.disc with confirmed := true } }) s))

theorem sameDisc_returns (supplied : s.play.causes.supply = false) : sameDisc s = returnToPlay (discReturned s) := by
  refine if_pos ?_
  show (!false && !s.play.causes.supply && !false) = true
  rw [supplied]
  rfl

theorem sameDisc_waits (warned : s.play.causes.supply = true) : sameDisc s = plannerNotice false (discReturned s) := by
  refine if_neg ?_
  show ¬ (!false && !s.play.causes.supply && !false) = true
  rw [warned]
  exact nofun

end

end Sys2Proof.Machine

namespace Sys2Proof.Claims

open Sys2Proof.Machine

section
variable {noise : Nat} {n : BitVec 4} {tag : Tag} {extent : BitVec 24} {position : Byte} {s : State} {P : State → Prop}

/-- A DISC within the bounds of its fields is taken by the Play Controller (R104, R106). -/
theorem completes_disc (ready : LinkReady s) (some : 1 ≤ extent.toNat) (whole : extent.toNat ≤ 450000) (low : 1 ≤ position.toNat)
    (high : position.toNat ≤ 6)
    (h : ∀ l, P ((takeNotices (takeDisc tag extent.toNat position.toNat (taking s l))).setNotices s.notices)) :
    Completes (.disc noise n tag extent position) s P := by
  refine completes_message ready (noise := noise) (monitorFirst := false) (m := .disc n.toNat tag extent.toNat position.toNat) rfl ?_
    fun l _ => h l
  show (decide (extent.toNat = 0) || decide (450000 < extent.toNat) || decide (position.toNat < 1) || decide (6 < position.toNat)) = false
  rw [decide_eq_false (Nat.ne_of_gt some), decide_eq_false (Nat.not_lt.mpr whole), decide_eq_false (Nat.not_lt.mpr low),
    decide_eq_false (Nat.not_lt.mpr high)]
  rfl

end

/-- The entry of another disc is forgotten, and no other (R144). -/
theorem otherForgotten {s t : State} {tag : Tag} {position : Nat} (resume : t.resume = forgottenTable tag position s.resume) :
    OtherForgotten s t tag position := by
  refine ⟨fun valid other => resume.trans (if_pos ⟨valid, other⟩), fun same => resume.trans (if_neg fun both => ?_)⟩
  rcases same with invalid | tagged
  · exact absurd (invalid.symm.trans both.1) nofun
  · exact both.2 tagged

/-- A matched DISC of the same tag, the notices of readiness taken (R147, R151). -/
theorem sameDisc_effect {s : State} (quiet : s.notices = []) (notices : List Bool) :
    let t := (takeNotices (sameDisc s)).setNotices notices
    t.play.disc = { s.play.disc with confirmed := true } ∧ t.play.confirming = false ∧
      t.play.causes = ⟨false, s.play.causes.supply, false⟩ ∧ t.play.counters.sameDisc = bump s.play.counters.sameDisc ∧
      (s.play.causes.supply = false → Returns s t) ∧
      (s.play.causes.supply = true → t.play.state = s.play.state ∧ t.feeder = s.feeder ∧ t.store = s.store) ∧
      t.feeder.block = s.feeder.block ∧ t.feeder.frame = s.feeder.frame ∧ t.resume = s.resume ∧
      RaisedOnce s t .discReady (96 + s.play.disc.position) ∧ OnlyRaised [.discReady, .repairOverflow] s t ∧
      t.health = s.health ∧ SensesStay s t := by
  intro t
  have M := KeepsRest.moves (discReturned s)
  have came : (sameDisc s).standing = (discReturned s).standing ∧ KeepsRest (discReturned s) (sameDisc s) := by
    cases supply : s.play.causes.supply with
    | false =>
      rw [sameDisc_returns supply]
      exact ⟨returnToPlay_standing _, M.returnToPlay (.refl _)⟩
    | true =>
      rw [sameDisc_waits supply]
      have keeps := KeepsChoice.plannerNotice false (discReturned s)
      refine ⟨standing_congr (by rw [keeps.play]) (by rw [keeps.feeder]) (by rw [keeps.feeder]), M.plannerNotice _ (.refl _)⟩
  have standing : t.standing = (discReturned s).standing := (takeNotices_standing (sameDisc s)).trans came.1
  have rest : KeepsRest (discReturned s) t := came.2.trans { KeepsRest.takeNotices (sameDisc s) with }
  obtain ⟨raised, only, health, senses⟩ := ready_raised (reason := .returned) (position := s.play.disc.position) (t := t)
    ((PlayFrame.refl _ s).setPlay _) { PlayFrame.ofRest (List.mem_singleton.mpr rfl) rest with }
  simp only [State.standing, Prod.mk.injEq] at standing
  obtain ⟨⟨disc, confirming, causes, counted⟩, block, frame⟩ := standing
  refine ⟨disc, confirming, causes, counted, fun supply => ?_, fun supply => ?_, block, frame, rest.resume, raised, only, health,
    senses⟩
  · have returns := returnToPlay_returns (s := discReturned s) quiet notices
    rw [← sameDisc_returns supply] at returns
    exact returns
  · have keeps := KeepsChoice.plannerNotice false (discReturned s)
    have waits : t = (plannerNotice false (discReturned s)).setNotices notices := by
      show (takeNotices (sameDisc s)).setNotices notices = _
      rw [sameDisc_waits supply, takeNotices_none (keeps.notices.trans quiet)]
    rw [waits]
    exact ⟨(congrArg Play.state keeps.play).trans rfl, keeps.feeder, keeps.store⟩

/-- A matched DISC of another tag, the notices of readiness taken (R151). -/
theorem newDisc_effect (tag : Tag) (extent position : Nat) (s : State) (notices : List Bool) :
    let t := (takeNotices (newDisc tag extent position s)).setNotices notices
    t.play.state = .ready ∧ t.play.disc = ⟨position, tag, extent, true⟩ ∧ t.play.confirming = false ∧
      t.play.causes = ⟨false, false, false⟩ ∧ t.play.pauseOnPrime = false ∧ t.feeder.block = 0 ∧ t.feeder.frame = 0 ∧
      t.feeder.state = .silent ∧ t.store.slots = [] ∧ t.store.playBlock = 0 ∧ t.store.extent = extent ∧
      t.play.counters.newDisc = bump s.play.counters.newDisc ∧
      t.resume = s.resume.write s.play.disc.position ResumeEntry.invalid ∧ RaisedOnce s t .discReady (112 + position) ∧
      OnlyRaised [.discReady, .repairOverflow] s t ∧ t.health = s.health ∧ SensesStay s t := by
  intro t
  have play := discReplacedReady_play tag extent position s
  have feeder := discReplacedReady_feeder tag extent position s
  have store := discReplacedReady_store tag extent position s
  have resume := discReplacedReady_resume tag extent position s
  have frame := discReplacedReady_frame tag extent position s (List.mem_singleton.mpr (Eq.refl Event.repairOverflow))
  have enters := newDisc_enters tag extent position s
  generalize discReplacedReady tag extent position s = u at play feeder store resume frame enters
  obtain ⟨silent, block, frameAt⟩ := s.feeder.cue_place (rampLength s) 0 0
  have told : Told (newDisc tag extent position s) t := by
    refine told_still ?_ ?_ notices
    · rw [enters]
      show u.feeder.state ≠ _
      rw [feeder, silent]
      exact nofun
    · rw [enters]
      show u.play.state ≠ _
      rw [play]
      exact nofun
  rw [enters] at told
  obtain ⟨p, q, toldPlay⟩ := told.play
  obtain ⟨r, toldFeeder⟩ := told.feeder
  rw [countPlay_play, raiseReady_play, play] at toldPlay
  have cued : t.feeder = { s.feeder.cue (rampLength s) 0 0 with primed := r } := by
    rw [← feeder]
    exact toldFeeder
  have emptied : t.store = ⟨0, extent, []⟩ := told.store.trans store
  obtain ⟨raised, only, health, senses⟩ := ready_raised frame (t := t) { told.frame [.repairOverflow] with }
  exact ⟨by rw [toldPlay]; rfl, by rw [toldPlay]; rfl, by rw [toldPlay]; rfl, by rw [toldPlay]; rfl, by rw [toldPlay]; rfl,
    by rw [cued]; exact block, by rw [cued]; exact frameAt, by rw [cued]; exact silent, by rw [emptied], by rw [emptied],
    by rw [emptied], by rw [toldPlay]; rfl, told.resume.trans resume, raised, only, health, senses⟩

/-- A load that only loads, and one that misses its entry, leave the disc READY at its start (R144). -/
theorem Confirmed.readied {reason : ReadyReason} {tag : Tag} {extent position : Nat} {s t : State}
    (confirmed : Confirmed ⟨0, 0, .ready, false, reason⟩ tag extent position s t) :
    t.play.state = .ready ∧ t.play.disc = ⟨position, tag, extent, true⟩ ∧
      t.feeder.block = 0 ∧ t.feeder.frame = 0 ∧ t.feeder.state = .silent ∧
      t.store.slots = [] ∧ t.store.playBlock = 0 ∧ t.store.extent = extent ∧
      t.play.counters.confirmation = bump s.play.counters.confirmation ∧ OtherForgotten s t tag position ∧
      RaisedOnce s t .discReady (16 * reason.code + position) ∧ OnlyRaised [.discReady, .repairOverflow] s t ∧
      t.health = s.health ∧ SensesStay s t :=
  ⟨confirmed.state, confirmed.disc, confirmed.block, confirmed.frame, confirmed.silent, confirmed.slots, confirmed.playBlock,
    confirmed.extent, confirmed.counted, otherForgotten confirmed.resume, confirmed.raised, confirmed.only, confirmed.health,
    confirmed.senses⟩

/-- Settles O19: a load follows its plan (`Confirmed`); in play the disc that came back returns, and another replaces the old one. -/
theorem discConfirmsLoad : Obligations.DiscConfirmsLoad := by
  intro noise n tag extent position s ready some whole low high
  have counts {f : PlayCounters → PlayCounters}
      (takes : ∀ l, takeDisc tag extent.toNat position.toNat (taking s l) = countPlay f (taking s l)) :
      Completes (.disc noise n tag extent position) s (fun t => AnswerCounted s t (f s.play.counters)) := by
    refine completes_disc ready some whole low high fun l => ?_
    rw [takes, takeNotices_none rfl]
    exact ⟨rfl, rfl, rfl, rfl, rfl, rfl, rfl, rfl, rfl, rfl, rfl, rfl⟩
  refine ⟨fun loading wanted deep => ?loads, fun away record awaited => ⟨fun same => ?same, fun other => ?other⟩, fun stray => ?stray,
    fun unawaited => ?unsolicited⟩
  case loads =>
    have follows {P : State → Prop} {plan : LoadPlan}
        (plans : loadPlan s.play.mode s.console.params.resumeBackoff ((forgottenTable tag position.toNat s.resume).entry position.toNat) tag
          extent.toNat = plan)
        (h : ∀ t, Confirmed plan tag extent.toNat position.toNat s t → P t) : Completes (.disc noise n tag extent position) s P := by
      refine completes_disc ready some whole low high fun l => ?_
      rw [takeDisc_confirms (s := taking s l) loading wanted]
      have confirmed := confirmLoad_confirms (tag := tag) (extent := extent.toNat) (position := position.toNat) (s := taking s l) deep
        s.notices
      rw [show confirmedPlan tag extent.toNat position.toNat (taking s l) = plan from plans] at confirmed
      exact h _ { confirmed with }
    refine ⟨fun mode => ?only, fun mode => ?start, fun e mode entry => ⟨fun valid tagged below => ?resumes, fun misses => ?misses⟩⟩
    case only => exact follows (plan := ⟨0, 0, .ready, false, .loaded⟩) (by rw [mode]; rfl) fun _ confirmed => confirmed.readied
    case start =>
      refine follows (plan := ⟨0, 0, .cueing, false, .loaded⟩) (by rw [mode]; rfl) fun t confirmed => ?_
      exact ⟨confirmed.state, confirmed.suspended, confirmed.disc, confirmed.block, confirmed.frame, confirmed.silent, confirmed.slots,
        confirmed.playBlock, confirmed.extent, confirmed.counted, otherForgotten confirmed.resume, confirmed.raised, confirmed.only,
        confirmed.health, confirmed.senses⟩
    case resumes =>
      subst entry
      have own : ¬ ((s.resume.entry position.toNat).valid = true ∧ (s.resume.entry position.toNat).tag ≠ tag) :=
        fun both => both.2 tagged
      have plans := loadPlan_resumes ⟨valid, tagged, below⟩
      refine follows (Eq.trans (by rw [mode, forgottenTable_entry, if_neg own]) plans) fun t confirmed => ?_
      refine ⟨confirmed.state, confirmed.suspended, fun unpaused => ?_, confirmed.disc, confirmed.block, confirmed.frame,
        confirmed.silent, confirmed.slots, confirmed.playBlock, confirmed.extent, confirmed.counted,
        confirmed.resume.trans (if_neg own), confirmed.raised, confirmed.only, confirmed.health, confirmed.senses⟩
      rw [confirmed.pause, unpaused]
      rfl
    case misses =>
      subst entry
      refine follows (plan := ⟨0, 0, .ready, false, .resumeMiss⟩) ?_ fun _ confirmed => confirmed.readied
      rw [mode]
      refine loadPlan_misses fun fits => ?_
      obtain ⟨valid, tagged, below⟩ := fits
      rw [forgottenTable_entry] at valid tagged below
      split at valid
      case isTrue => exact absurd valid nofun
      case isFalse own =>
        rw [if_neg own] at tagged below
        rcases misses with invalid | other | past
        · exact absurd (invalid.symm.trans valid) nofun
        · exact other tagged
        · exact absurd below (Nat.not_lt.mpr past)
  case same =>
    refine completes_disc ready some whole low high fun l => ?_
    rw [takeDisc_matched (s := taking s l) away record awaited, if_pos (show tag = (taking s l).play.disc.tag from same)]
    have effect := sameDisc_effect (s := taking s l) rfl s.notices
    rw [show (taking s l).play.disc.position = position.toNat from record.symm] at effect
    exact effect
  case other =>
    refine completes_disc ready some whole low high fun l => ?_
    rw [takeDisc_matched (s := taking s l) away record awaited, if_neg (show ¬ tag = (taking s l).play.disc.tag from other)]
    have effect := newDisc_effect tag extent.toNat position.toNat (taking s l) s.notices
    rw [show (taking s l).play.disc.position = position.toNat from record.symm] at effect
    exact effect
  case stray => exact counts fun l => takeDisc_stray (s := taking s l) stray
  case unsolicited => exact counts fun l => takeDisc_unsolicited (s := taking s l) unawaited

end Sys2Proof.Claims
end
